-- ==== Sys2Proof/Word.lean ====
section
/-! DEFINITION. The word type of the part, 64 bits (R67), and the maps that hold state by number. -/

namespace Sys2Proof

/-- A 64-bit register value (R67). -/
abbrev Word := BitVec 64

/-- A map from numbers to values, as a list of pairs. -/
abbrev TMap (α : Type) := List (Nat × α)

/-- The value a map holds for a key, if it lists one. -/
def TMap.find {α : Type} : TMap α → Nat → Option α
  | [], _ => none
  | (k, v) :: t, i => if k = i then some v else TMap.find t i

/-- The map with one key set. -/
def TMap.set {α : Type} : TMap α → Nat → α → TMap α
  | [], i, v => [(i, v)]
  | (k, u) :: t, i, v =>
    if k = i then (i, v) :: t
    else if i < k then (i, v) :: (k, u) :: t
    else (k, u) :: TMap.set t i v

end Sys2Proof
end

