-- ==== Sys2Proof/Config.lean ====
section
/-! DEFINITION. What the part fixes (R1, R28, R32, R45) and the free values: results the spec leaves open, which no
definition below determines. -/

namespace Sys2Proof.Config

/-- Cores of the device (R1, R22). -/
def cores : Nat := 160
/-- Clusters of the device (R1, R22). -/
def clusters : Nat := 20
/-- Hart slots of a core (R22). -/
def slots : Nat := 8
/-- Cycles of a frame (R2). -/
def frame : Nat := 4096
/-- Bytes of a register's slice in each lane, vlmaxb (R203). -/
def vlmaxb : Nat := 192
/-- Bytes of one vector register over 64 lanes: the linear store gives each register this much room. -/
def vregBytes : Nat := 12288
/-- Vector queue entries of a hart (R32). -/
def qdvec : Nat := 32
/-- Matrix queue entries of a hart (R32). -/
def qdmat : Nat := 16
/-- Copy queue entries of a hart (R32). -/
def qdcpy : Nat := 64
/-- Tokens of a token FIFO (R32). -/
def qdtok : Nat := 8
/-- Instructions of a convoy (R32). -/
def qdcon : Nat := 4
/-- Main memory, bytes (R23). -/
def hbmBytes : Nat := 0xC000000000
/-- First physical address of the host window (R157). -/
def hostWindow : Nat := 0x8000000000000
/-- First physical address past the host window (R157). -/
def physTop : Nat := 0x10000000000000
/-- Physical addresses are 52 bits (R157); device-virtual ones 57 (R28). -/
def vaBits : Nat := 57
/-- Bytes of the activation buffer (R28). -/
def abBytes : Nat := 0x80000
/-- Bytes of the weights buffer (R28). -/
def wbBytes : Nat := 0x100000
/-- Bytes of one lane's private store (R28). -/
def lpBytes : Nat := 0x800
/-- Units of a Square (R313). -/
def squareUnits : Nat := 192
/-- Bytes of a Square unit (R313). -/
def unitBytes : Nat := 16384
/-- Entries of a cluster's recall queue (R321). -/
def recallQueue : Nat := 16
/-- Request slots of a core's stream engine, those a hart may hold, and those kept for class G (R25, R161). -/
def requestSlots : Nat := 1024
def hartSlots : Nat := 512
def slotsForG : Nat := 256
/-- Bytes of the opaque area, frmopq (R74). -/
def frmopq : Nat := 16384

/-- Capacity per frame of resource k, by instance (R45); energy's is eceil. -/
def capacity : Nat → Nat
  | 0 => 4096 | 1 => 32768 | 2 => 4096 | 3 => 4085 | 4 => 65536 | 5 => 4096 | 6 => 4096 | _ => 13072
/-- The G limit of resource k (R45). -/
def limitG : Nat → Nat
  | 0 => 3686 | 1 => 29491 | 2 => 3686 | 3 => 3676 | 4 => 58982 | 5 => 3686 | 6 => 3686 | _ => 11764
/-- The G+N limit of resource k (R45). -/
def limitGN : Nat → Nat
  | 0 => 3840 | 1 => 30720 | 2 => 3840 | 3 => 3829 | 4 => 61440 | 5 => 3840 | 6 => 3840 | _ => 12255

/-- Free value (log 9): which copy of a 2 MiB or 1 GiB page entry an access translates through, where the copies
differ (R157), by the counter of free values, the time, the core and the address. Nothing constrains it. -/
opaque pteCopy : Nat → Nat → Nat → Nat → Nat

/-- Free value (log 10): whether a later vstxu element's byte is kept where two elements write it (R279). -/
opaque scatterKeepsLater : Nat → Bool

/-- Free value (log 11): whether a trapped vstxu performs an element past its fault, by the counter and the element (R281). -/
opaque scatterPastFault : Nat → Nat → Bool

/-- Free value (log 75): the IDE stream, of 8, that carries the transfers of a function (R365). -/
opaque ideOf : Nat → Nat

/-- Free value (log 94): the temperature of a die that the management controller reads, by the counter of free values and the die
(R370). -/
opaque temperature : Nat → Nat → BitVec 64

/-- Free value (log 94): the power of the rails that the management controller reads, by the counter of free values (R370). -/
opaque railPower : Nat → BitVec 64

end Sys2Proof.Config
end

