-- ==== Sys2Proof/Syntax.lean ====
section
/-! DEFINITION. The instructions: one constructor for every row of spec/opcode_table.json. The first 254 are hart
instructions (R57), the next 19 logit instructions (R346), the last 76 the table's events, which no word encodes;
an event's arguments name what it acts on. -/

namespace Sys2Proof

/-- Operands of a two-source vector cell of majors 0x15 and 0x16 (R219): `k` = 1 is the scalar form (fn + 32), `m` the mask bit, `c` the convoy hint, `x` the width code. -/
structure VBin where
  d : BitVec 5
  a : BitVec 5
  b : BitVec 5
  k : BitVec 1
  m : BitVec 1
  c : BitVec 1
  x : BitVec 2
  deriving DecidableEq, Repr, Inhabited

/-- Operands of a one-source vector cell (R219). -/
structure VUn where
  d : BitVec 5
  a : BitVec 5
  m : BitVec 1
  c : BitVec 1
  x : BitVec 2
  deriving DecidableEq, Repr, Inhabited

/-- Operands of a conversion (R223): `sw` source width code, `rnd` rounding code, `x` destination width code. -/
structure VCvt where
  d : BitVec 5
  a : BitVec 5
  sw : BitVec 2
  rnd : BitVec 3
  m : BitVec 1
  c : BitVec 1
  x : BitVec 2
  deriving DecidableEq, Repr, Inhabited

/-- Operands of a two-source vector cell with no scalar form (R219). -/
structure VTri where
  d : BitVec 5
  a : BitVec 5
  b : BitVec 5
  m : BitVec 1
  c : BitVec 1
  x : BitVec 2
  deriving DecidableEq, Repr, Inhabited

/-- Operands of an atomic (R77, R78): `w` width, `ord` ordering, `sc` scope, `sp` space. -/
structure Atom where
  d : BitVec 5
  a : BitVec 5
  b : BitVec 5
  w : BitVec 1
  ord : BitVec 2
  sc : BitVec 3
  sp : BitVec 1
  deriving DecidableEq, Repr, Inhabited

/-- Operands of `cp.go` (R187): `w` the waiting form, spaces, shape register, completion, ordering flag. -/
structure Copy where
  w : BitVec 1
  d : BitVec 5
  a : BitVec 5
  b : BitVec 5
  ssp : BitVec 2
  dsp : BitVec 2
  ck : BitVec 2
  comp : BitVec 2
  fl : BitVec 3
  deriving DecidableEq, Repr, Inhabited

/-- Operands of `cp.xpd` (R188): `ty` the value width code. -/
structure Xpd where
  w : BitVec 1
  d : BitVec 5
  a : BitVec 5
  b : BitVec 5
  ssp : BitVec 2
  dsp : BitVec 2
  ty : BitVec 2
  comp : BitVec 2
  deriving DecidableEq, Repr, Inhabited

/-- How a host reads (R179, R357, R360): `n` bytes, by way of 0 the function's context, 1 its mailbox page, 2 CXL.mem. -/
structure ReadForm where
  n : BitVec 4
  via : BitVec 2
  deriving DecidableEq, Repr, Inhabited

/-- A TDI that leaves RUN (R365), and whether for CONFIG_UNLOCKED instead of ERROR. -/
structure TdiLeave where
  fn : BitVec 5
  unlocked : BitVec 1
  deriving DecidableEq, Repr, Inhabited

/-- The instructions and events of the part (spec/opcode_table.json). -/
inductive Instr where
  -- Scalar integer (majors 0x01 to 0x03, 0x08; R89 to R92)
  | add (d a b : BitVec 5)
  | sub (d a b : BitVec 5)
  | and (d a b : BitVec 5)
  | or (d a b : BitVec 5)
  | xor (d a b : BitVec 5)
  | sll (d a b : BitVec 5)
  | srl (d a b : BitVec 5)
  | sra (d a b : BitVec 5)
  | mul (d a b : BitVec 5)
  | mulh (d a b : BitVec 5)
  | mulhu (d a b : BitVec 5)
  | div (d a b : BitVec 5)
  | divu (d a b : BitVec 5)
  | rem (d a b : BitVec 5)
  | remu (d a b : BitVec 5)
  | slt (d a b : BitVec 5)
  | sltu (d a b : BitVec 5)
  | seq (d a b : BitVec 5)
  | sne (d a b : BitVec 5)
  | min (d a b : BitVec 5)
  | max (d a b : BitVec 5)
  | minu (d a b : BitVec 5)
  | maxu (d a b : BitVec 5)
  | slli (d a : BitVec 5) (sh : BitVec 6)
  | srli (d a : BitVec 5) (sh : BitVec 6)
  | srai (d a : BitVec 5) (sh : BitVec 6)
  | andi (d a : BitVec 5) (imm : BitVec 11)
  | ori (d a : BitVec 5) (imm : BitVec 11)
  | xori (d a : BitVec 5) (imm : BitVec 11)
  | slti (d a : BitVec 5) (imm : BitVec 11)
  | sltiu (d a : BitVec 5) (imm : BitVec 11)
  | addi (d a : BitVec 5) (imm : BitVec 16)
  | lui (d : BitVec 5) (imm : BitVec 21)
  | aupc (d : BitVec 5) (imm : BitVec 21)
  -- Scalar floating point (major 0x04; R93 to R95)
  | fadd (d a b : BitVec 5) (t : BitVec 2) (rm : BitVec 3)
  | fsub (d a b : BitVec 5) (t : BitVec 2) (rm : BitVec 3)
  | fmul (d a b : BitVec 5) (t : BitVec 2) (rm : BitVec 3)
  | fma (d a b : BitVec 5) (t : BitVec 2) (rm : BitVec 3)
  | fmin (d a b : BitVec 5) (t : BitVec 2)
  | fmax (d a b : BitVec 5) (t : BitVec 2)
  | feq (d a b : BitVec 5) (t : BitVec 2)
  | flt (d a b : BitVec 5) (t : BitVec 2)
  | fle (d a b : BitVec 5) (t : BitVec 2)
  | fcvtFpFp (d a : BitVec 5) (t : BitVec 2) (rm : BitVec 3)
  | fcvtToI64 (d a : BitVec 5) (t : BitVec 2) (rm : BitVec 3)
  | fcvtToN64 (d a : BitVec 5) (t : BitVec 2) (rm : BitVec 3)
  | fcvtFromI64 (d a : BitVec 5) (t : BitVec 2) (rm : BitVec 3)
  | fcvtFromN64 (d a : BitVec 5) (t : BitVec 2) (rm : BitVec 3)
  -- Loads and stores (majors 0x05, 0x06; R96)
  | ld (d a : BitVec 5) (off : BitVec 8) (ordsc : BitVec 4) (sp : BitVec 1) (ty : BitVec 3)
  | st (v a : BitVec 5) (off : BitVec 8) (ordsc : BitVec 4) (sp : BitVec 1) (ty : BitVec 3)
  -- Branches and jumps (majors 0x07, 0x08; R100, R101)
  | beq (a b : BitVec 5) (off : BitVec 13)
  | bne (a b : BitVec 5) (off : BitVec 13)
  | blt (a b : BitVec 5) (off : BitVec 13)
  | bge (a b : BitVec 5) (off : BitVec 13)
  | bltu (a b : BitVec 5) (off : BitVec 13)
  | bgeu (a b : BitVec 5) (off : BitVec 13)
  | j (imm : BitVec 21)
  | call (imm : BitVec 21)
  | jr (a : BitVec 5)
  | callr (a : BitVec 5)
  -- Atomics (major 0x09; R102)
  | aadd (o : Atom)
  | aswap (o : Atom)
  | aand (o : Atom)
  | aor (o : Atom)
  | aminI (o : Atom)
  | amaxI (o : Atom)
  | aminN (o : Atom)
  | amaxN (o : Atom)
  | acas (o : Atom)
  -- Fences, tokens, waits (major 0x0A; R106 to R111)
  | fenceSv (sc : BitVec 3)
  | fenceVs (sc : BitVec 3)
  | fenceVv (sc : BitVec 3)
  | fenceAll (sc : BitVec 3)
  | fenceBinsRel (sc : BitVec 3)
  | tkpush (id : BitVec 5)
  | tkpop (id : BitVec 5)
  | wtime (d a : BitVec 5)
  -- System (major 0x0B; R84)
  | mfs (d : BitVec 5) (n : BitVec 12)
  | mts (a : BitVec 5) (n : BitVec 12)
  | glaunch (d a : BitVec 5)
  | gbar (g : BitVec 2)
  | hsusp (a : BitVec 5)
  | hsave (b a : BitVec 5)
  | hload (b a : BitVec 5)
  | tret
  | hend
  -- The prefix word (major 0x10; R85)
  | pfx (mask copy : BitVec 5) (pop push hint : BitVec 4)
  -- Stream setup (major 0x11; R148)
  | qld (q : BitVec 4) (a : BitVec 5) (sp : BitVec 1) (imm : BitVec 6)
  | qbase (q : BitVec 4) (a : BitVec 5)
  | qstride (q : BitVec 4) (a : BitVec 5)
  | qbound (q : BitVec 4) (a : BitVec 5)
  | qcur (q : BitVec 4) (a : BitVec 5)
  | qcfg (q : BitVec 4) (a : BitVec 5)
  | qget (d : BitVec 5) (q : BitVec 4) (sel : BitVec 6)
  | qrel (q : BitVec 4)
  | qprobe (d a : BitVec 5)
  -- Stream barrier, watch, watermark (major 0x12; R151)
  | sbar (qs : BitVec 1) (sc : BitVec 3) (qmask : BitVec 16)
  | qwatch (a b : BitVec 5) (q : BitVec 4)
  | qunwatch (q : BitVec 4)
  | qwait (a d : BitVec 5) (q : BitVec 4)
  | wmpub (a b : BitVec 5) (sc : BitVec 3)
  -- Vector configuration (major 0x14; R213)
  | vsetl (d a : BitVec 5) (c : BitVec 1)
  | vsettype (d : BitVec 5) (cls : BitVec 4) (sew lmode : BitVec 2) (c : BitVec 1)
  -- Vector integer (major 0x15; R252 to R255)
  | vadd (o : VBin)
  | vsub (o : VBin)
  | vmul (o : VBin)
  | vmulhI (o : VBin)
  | vmulhN (o : VBin)
  | vdivI (o : VBin)
  | vdivN (o : VBin)
  | vremI (o : VBin)
  | vremN (o : VBin)
  | vminI (o : VBin)
  | vmaxI (o : VBin)
  | vminN (o : VBin)
  | vmaxN (o : VBin)
  | vand (o : VBin)
  | vor (o : VBin)
  | vxor (o : VBin)
  | vsll (o : VBin)
  | vsrl (o : VBin)
  | vsra (o : VBin)
  | vaddSatI (o : VBin)
  | vaddSatN (o : VBin)
  | vsubSatI (o : VBin)
  | vsubSatN (o : VBin)
  | vmacc (o : VBin)
  | vmeq (o : VBin)
  | vmne (o : VBin)
  | vmltI (o : VBin)
  | vmleI (o : VBin)
  | vmltN (o : VBin)
  | vmleN (o : VBin)
  | vmov (o : VUn)
  | vbcast (o : VUn)
  | vid (d : BitVec 5) (m c : BitVec 1) (x : BitVec 2)
  -- Vector floating point (major 0x16; R256)
  | vaddFp (o : VBin)
  | vsubFp (o : VBin)
  | vmulFp (o : VBin)
  | vdivFp (o : VBin)
  | vfma (o : VBin)
  | vfms (o : VBin)
  | vfnma (o : VBin)
  | vsqrt (o : VUn)
  | vminFp (o : VBin)
  | vmaxFp (o : VBin)
  | vabs (o : VUn)
  | vneg (o : VUn)
  | vmfeq (o : VBin)
  | vmfne (o : VBin)
  | vmflt (o : VBin)
  | vmfle (o : VBin)
  -- Conversions and mixed width (major 0x17; R258 to R262)
  | vcvtFpToIeee (o : VCvt)
  | vcvtFpToBf16 (o : VCvt)
  | vcvtFpToE4m3 (o : VCvt)
  | vcvtFpToE5m2 (o : VCvt)
  | vcvtFpToI (o : VCvt)
  | vcvtFpToN (o : VCvt)
  | vcvtIToIeee (o : VCvt)
  | vcvtIToBf16 (o : VCvt)
  | vcvtIToE4m3 (o : VCvt)
  | vcvtIToE5m2 (o : VCvt)
  | vcvtNToIeee (o : VCvt)
  | vcvtNToBf16 (o : VCvt)
  | vcvtNToE4m3 (o : VCvt)
  | vcvtNToE5m2 (o : VCvt)
  | vcvtIntToI (o : VCvt)
  | vcvtIntToN (o : VCvt)
  | vwmulI (o : VTri)
  | vwmulN (o : VTri)
  | vwmaccI (o : VTri)
  | vwmaccN (o : VTri)
  | vwmulFp (o : VTri)
  | vwmaccFp (o : VTri)
  | vdot4I8 (d a b : BitVec 5) (m c : BitVec 1)
  | vdot4N8 (d a b : BitVec 5) (m c : BitVec 1)
  | vsmul (o : VTri)
  | vsmacc (o : VTri)
  -- Reductions and scans (major 0x18; R263, R264)
  | vredsum (o : VTri)
  | vredosum (o : VTri)
  | vredmax (o : VTri)
  | vredmin (o : VTri)
  | vredmaxN (o : VTri)
  | vredminN (o : VTri)
  | vredand (o : VTri)
  | vredor (o : VTri)
  | vredxor (o : VTri)
  | vscan (o : VUn)
  | vscano (o : VUn)
  | vscanmax (o : VUn)
  | vscanmin (o : VUn)
  | vscanmaxN (o : VUn)
  | vscanminN (o : VUn)
  -- Permutations (major 0x19; R265 to R268)
  | vrgath (o : VTri)
  | vslideup (o : VTri)
  | vslidedn (o : VTri)
  | vslide1up (o : VTri)
  | vslide1dn (o : VTri)
  | vcomp (o : VUn)
  | vexpand (o : VUn)
  | vmvS (d a : BitVec 5) (c : BitVec 1) (x : BitVec 2)
  | vmvV (d a : BitVec 5) (c : BitVec 1) (x : BitVec 2)
  | vmvX (d a b : BitVec 5) (c : BitVec 1) (x : BitVec 2)
  -- Masks, conflicts, runs (major 0x1A; R269 to R275)
  | vmand (d a b : BitVec 5) (c : BitVec 1)
  | vmor (d a b : BitVec 5) (c : BitVec 1)
  | vmxor (d a b : BitVec 5) (c : BitVec 1)
  | vmandn (d a b : BitVec 5) (c : BitVec 1)
  | vmnot (d a : BitVec 5) (c : BitVec 1)
  | vpop (d a : BitVec 5) (m c : BitVec 1)
  | vfirst (d a : BitVec 5) (m c : BitVec 1)
  | vmsbf (d a : BitVec 5) (m c : BitVec 1)
  | vmsif (d a : BitVec 5) (m c : BitVec 1)
  | vmsof (d a : BitVec 5) (m c : BitVec 1)
  | vconf (o : VUn)
  | vconfm (o : VTri)
  | vpart (d a : BitVec 5) (m c : BitVec 1)
  | vrun (d a : BitVec 5) (m c : BitVec 1)
  | vmset (d : BitVec 5) (c : BitVec 1)
  | vmclr (d : BitVec 5) (c : BitVec 1)
  -- Vector memory (major 0x1B; R276)
  | vld (d : BitVec 5) (q : BitVec 4) (m c : BitVec 1)
  | vldff (d : BitVec 5) (q : BitVec 4) (m c : BitVec 1)
  | vst (v : BitVec 5) (q : BitVec 4) (m c : BitVec 1)
  | vldx (d a : BitVec 5) (q : BitVec 4) (m c : BitVec 1)
  | vstx (v a : BitVec 5) (q : BitVec 4) (m c : BitVec 1)
  | vstxu (v a : BitVec 5) (q : BitVec 4) (m c : BitVec 1)
  | vsadd (v a : BitVec 5) (q : BitVec 4) (m c : BitVec 1)
  | vwait (d : BitVec 5) (q : BitVec 4) (c : BitVec 1)
  | vcbld (q : BitVec 4) (c : BitVec 1)
  -- Matrix (majors 0x20 to 0x22; R294 to R306)
  | mmr (d a : BitVec 5) (fmt : BitVec 3) (i r : BitVec 1) (t : BitVec 2)
  | mms (d a : BitVec 5) (fmt : BitVec 3) (i r : BitVec 1) (t : BitVec 2)
  | mmqSq (d a b : BitVec 5) (fmt : BitVec 3) (i r : BitVec 1) (t : BitVec 2)
  | mmqAb (d a b : BitVec 5) (fmt : BitVec 3) (i r : BitVec 1) (t : BitVec 2)
  | mmsp (d a b : BitVec 5) (fmt : BitVec 3) (i r : BitVec 1) (t : BitVec 2)
  | mldWb (a : BitVec 5) (fmt : BitVec 3) (r : BitVec 1) (t : BitVec 2)
  | mldSq (a : BitVec 5) (fmt : BitVec 3) (r : BitVec 1) (t : BitVec 2)
  | mldsWb (a : BitVec 5) (r : BitVec 1) (t : BitVec 2)
  | mldsSq (a : BitVec 5) (r : BitVec 1) (t : BitVec 2)
  | mclr (d b : BitVec 5) (i r : BitVec 1)
  | mrd (d a : BitVec 5) (i r : BitVec 1)
  | mmov (d a b : BitVec 5) (i r : BitVec 1)
  -- Copy (majors 0x24, 0x25; R187)
  | cpGo (o : Copy)
  | cpXpd (o : Xpd)
  | cpShape (ck : BitVec 2) (a b : BitVec 5)
  | cpCnt (d : BitVec 5)
  -- Bays (major 0x26; R318)
  | bayTakeFix (d a : BitVec 5) (w : BitVec 1)
  | bayTakeNeg (d a b : BitVec 5) (w : BitVec 1)
  | bayGive (a : BitVec 5)
  | bayRetFin
  | bayRetSum
  | bayRetRef
  -- Sampler requests (major 0x27; R336)
  | smpReq (d a : BitVec 5) (w : BitVec 1) (fl : BitVec 3)
  | smpTld (d a b : BitVec 5) (w : BitVec 1)
  | smpTst (d a b : BitVec 5) (w : BitVec 1)
  | smpPld (d a b : BitVec 5) (w : BitVec 1)
  -- Logit instructions, in the sampler's own map (R344 to R347)
  | ladd (d : BitVec 4) (p : BitVec 2) (a b : BitVec 4)
  | lsub (d : BitVec 4) (p : BitVec 2) (a b : BitVec 4)
  | lmul (d : BitVec 4) (p : BitVec 2) (a b : BitVec 4)
  | lfma (d : BitVec 4) (p : BitVec 2) (a b : BitVec 4)
  | lmin (d : BitVec 4) (p : BitVec 2) (a b : BitVec 4)
  | lmax (d : BitVec 4) (p : BitVec 2) (a b : BitVec 4)
  | lmov (d : BitVec 4) (p : BitVec 2) (a : BitVec 4)
  | lneg (d : BitVec 4) (p : BitVec 2) (a : BitVec 4)
  | lconst (d : BitVec 4) (p : BitVec 2) (imm : BitVec 16)
  | lconstl (d : BitVec 4) (p : BitVec 2) (imm : BitVec 16)
  | lcnt (d : BitVec 4) (p : BitVec 2)
  | lbias (d : BitVec 4) (p : BitVec 2) (a : BitVec 4)
  | lcmplt (p : BitVec 2) (a b : BitVec 4)
  | lcmpeq (p : BitVec 2) (a b : BitVec 4)
  | lmask (p : BitVec 2)
  | lret (p : BitVec 2) (a : BitVec 4)
  | lcnti (d : BitVec 4) (p : BitVec 2) (a : BitVec 4)
  | lbiasi (d : BitVec 4) (p : BitVec 2) (a : BitVec 4)
  | lcmple (p : BitVec 2) (a b : BitVec 4)
  -- Events: rows of the table with no encoding
  | xinvPageCore (va : BitVec 64) (ctx : BitVec 5)
  | xinvContextCore (ctx : BitVec 5)
  | xinvPageAll (va : BitVec 64) (ctx : BitVec 5)
  | xinvContextAll (ctx : BitVec 5)
  | rsvcfgWrite (v : BitVec 64)
  | rsvbudWrite (k : BitVec 3) (v : BitVec 64)
  | trapRingRegWrite (k : BitVec 2) (v : BitVec 64)
  | fflagsWrite (v : BitVec 64)
  | frameBoundary
  | energyCeilingReached
  | deadlineReached (hid : BitVec 11) (src : BitVec 3)
  | memLatencyMiss (hid : BitVec 11)
  | tokenDeadlock (hid : BitVec 11)
  | waitedAdmission (hid : BitVec 11)
  | admissionWaitTimeout (hid : BitVec 11)
  | vectorStart (hid : BitVec 11)
  | matrixStart (hid : BitVec 11)
  | instructionRetire (hid : BitVec 11) (eng : BitVec 3)
  | copyChunk (hid : BitVec 11)
  | copyComplete (hid : BitVec 11)
  | lookaheadTranslate (hid : BitVec 11) (q : BitVec 4)
  | watchReread (hid : BitVec 11)
  | qwaitWake (hid : BitVec 11)
  | vwaitReread (hid : BitVec 11)
  | vwaitTimeout (hid : BitVec 11)
  | wtimeWake (hid : BitVec 11)
  | startWatermarkPoll (gang : BitVec 16)
  | gbarDepart (gang : BitVec 16) (g : BitVec 2) (unit : BitVec 8)
  | suspensionComplete (hid : BitVec 11)
  | hartEnd (hid : BitVec 11)
  | gangComplete (gang : BitVec 16)
  | updateApply
  | bayGrant (cl : BitVec 5) (h : BitVec 8)
  | recallDelivery (cl : BitVec 5) (h : BitVec 8)
  | surrenderUnitOverrun (hid : BitVec 11)
  | surrenderTimeOverrun (hid : BitVec 11)
  | samplerStart (cl : BitVec 5) (seq : BitVec 64)
  | samplerWmReread (cl : BitVec 5) (seq : BitVec 64)
  | samplerStrip (cl : BitVec 5) (seq : BitVec 64)
  | samplerCycleOverrun (cl : BitVec 5) (seq : BitVec 64)
  | samplerDraw (cl : BitVec 5) (seq : BitVec 64)
  | tableLoadPerform (cl : BitVec 5) (seq : BitVec 64)
  | tableStorePerform (cl : BitVec 5) (seq : BitVec 64)
  | programLoadPerform (cl : BitVec 5) (seq : BitVec 64)
  | hostWrite (fn : BitVec 5) (addr : BitVec 64) (n : BitVec 4) (data : BitVec 64)
  | hostRead (fn : BitVec 5) (addr : BitVec 64) (n : ReadForm)
  | hostAtomicop (fn : BitVec 5) (op : BitVec 2) (w : BitVec 1) (addr x y : BitVec 64)
  | hostCas16 (fn : BitVec 5) (addr : BitVec 64)
  | cxlMemWrite (pa : BitVec 52) (n : BitVec 4) (data : BitVec 64)
  | bar2Access (fn : BitVec 5) (wr : BitVec 1) (off : BitVec 40) (n : BitVec 4) (data : BitVec 64)
  | mailboxWrite (fn : BitVec 5) (off : BitVec 12) (v : BitVec 64)
  | cqtailDoorbell (fn : BitVec 5) (v : BitVec 64)
  | launch (fn : BitVec 5)
  | openConnection (fn : BitVec 5)
  | closeConnection (fn : BitVec 5)
  | readErrorRecord (fn : BitVec 5)
  | unknownCommand (fn : BitVec 5)
  | ringTransfer (fn : BitVec 5) (conn : BitVec 8) (rx : BitVec 1) (n : BitVec 4) (data : BitVec 64)
  | functionLevelReset (fn : BitVec 5)
  | tdiRun (fn : BitVec 5)
  | tdiLeaveRun (fn : TdiLeave)
  | spdmKeyExchange (st : BitVec 3)
  | spdmSessionExpiry (st : BitVec 3)
  | correctableError (loc : BitVec 3)
  | uncorrectableError (loc : BitVec 3) (unit hid : BitVec 16) (fn : BitVec 5) (pa dva : BitVec 64)
  | reset
  | thermalHold (die : BitVec 5)
  | thermalRelease (die : BitVec 5)
  | thermalStop
  | eceilLower (v : BitVec 32)
  | pldmMonitorRead
  | pageMigrate (src dst : BitVec 36) (pte : BitVec 52)
  | wordNotAnInstruction (w : BitVec 32)
  | fetchFault (cause : BitVec 8)
  | tdiLock (fn : BitVec 5)
  | cxlCacheHostAtomic (op : BitVec 2) (w : BitVec 1) (pa : BitVec 52) (x y : BitVec 64)
  deriving DecidableEq, Repr, Inhabited

end Sys2Proof
end

