-- ==== Sys2Proof/Machine/State.lean ====
section
/-! DEFINITION. The state of the part as plain data: hart slots (R67), cores and clusters (R25), the device, memory,
and the machine right after reset (R367). Inner records carry the values launch or reset gives them (R75, R367). -/

namespace Sys2Proof.Machine

/-- Why a step stops. -/
inductive Fault where
  /-- Raised by step while the part is stopped above 115 °C (R370) and no reset comes next: no step is possible. Safe. -/
  | thermalStop
  deriving DecidableEq, Repr

/-- Why the model gives no meaning. -/
inductive Refusal where
  /-- Raised by exec for an instruction the model does not have yet, by its mnemonic. Safe. -/
  | notModelled (mnemonic : String)
  deriving DecidableEq, Repr

/-- A byte memory in canonical form: addresses rising, no listed byte zero; an unlisted byte reads 0. -/
abbrev Mem := List Host.Cell

/-- What a hart slot holds (R117, R125, R127, R137). -/
inductive Run where
  | free | reserved | watermark | running | suspending | suspended | loaded | ended
  deriving DecidableEq, Repr, Inhabited

/-- The four issuing engines (R26). -/
inductive Eng where
  | s | v | m | c
  deriving DecidableEq, Repr, Inhabited

/-- A submission of asynchronous work as its instruction states it (R51): a copy, a sparse expand, a bay, sampler work. -/
inductive Submit where
  | cp (o : Copy)
  | xpd (o : Xpd)
  | take (neg : Bool) (d a b : BitVec 5)
  /-- The op of R337, its operands, and the flags of smp.req. -/
  | smp (op : Nat) (d a b : BitVec 5) (fl : BitVec 3)
  /-- A gang launch, which has no `.w` form (R115). -/
  | launch (d a : BitVec 5)
  deriving DecidableEq, Repr, Inhabited

/-- What a hart waits for between dispatches (R33, R37, R52, R111, R120, R123, R154, R288). -/
inductive Wait where
  /-- A token to pop from FIFO id. -/
  | pop (id : Nat)
  /-- A free slot in FIFO id. -/
  | push (id : Nat)
  /-- n tokens to pop from FIFO id, the prefix's pop and the instruction's own. -/
  | pops (id n : Nat)
  /-- n free slots in FIFO id, for the prefix's push and the instruction's own. -/
  | pushes (id n : Nat)
  /-- A free entry in an engine's queue. -/
  | room (e : Eng)
  /-- Room for one more pending change of stream register q (R150). -/
  | changes (q : BitVec 4)
  /-- Scalar registers that engine instructions have yet to write. -/
  | reg (rs : List (BitVec 5))
  /-- The vector and matrix instructions that a move of fflags waits for. -/
  | flags
  /-- Earlier engine instructions to retire: those of the vector unit, and when `all` those of every engine and sampler. -/
  | drain (all : Bool)
  /-- The application of the scatter-add updates the hart has sent. -/
  | bins
  /-- Admission of a .w form. -/
  | admission (x : Submit)
  /-- time to reach the target of a wtime, which then writes register d. -/
  | wtime (target : Word) (d : BitVec 5)
  /-- The barrier of scope g. -/
  | gbar (g : BitVec 2)
  /-- The watch value of stream q to reach the target of a qwait, which then writes register d. -/
  | qwait (q : BitVec 4) (target : Word) (d : BitVec 5)
  /-- The flags of a vwait in the vector queue. -/
  | vwait
  /-- The watch of a stream to pass an element of the vector instruction at the head of its queue. -/
  | watch
  /-- The target of hsusp to be suspended. -/
  | hsusp (hid : Nat)
  /-- The end of the hart's work after hend. -/
  | hend
  /-- The stream S accesses dispatched before (R152, R155). -/
  | publish
  /-- The hart's queued memory accesses (R323). -/
  | accesses
  /-- The engine instructions that a surrender routine dispatched (R327). -/
  | routine
  /-- The requests translated through what an mts xinv of this value drops (R159). -/
  | xinv (v : Word)
  /-- The grant of a pending bay that an access names (R314). -/
  | bay (cl h : Nat)
  /-- The accesses in stream S, each of which can still trap (R99). -/
  | settled
  /-- The DMA of the hart's function, a TDI that must run first (R365). -/
  | port
  deriving DecidableEq, Repr, Inhabited

/-- A wait and the time it began. -/
structure Waiting where
  kind : Wait
  since : Word
  /-- The request block, or program header, that a waiting smp.req.w or smp.pld.w read at its dispatch (R339, R341). -/
  raw : Option Nat := none
  deriving DecidableEq, Repr, Inhabited

/-- pfxsave (R73). -/
structure PfxSave where
  pend : Bool := false
  popd : Bool := false
  word : BitVec 32 := 0
  deriving DecidableEq, Repr, Inhabited

/-- A stream register (R140 to R142): descriptor, cursor, loaded bit and watch. -/
structure Stream where
  base : Word := 0
  stride : Word := 0
  bound : Word := 0
  cfg : BitVec 32 := 0
  cursor : Word := 0
  loaded : Bool := false
  armed : Bool := false
  waddr : Word := 0
  woff : Word := 0
  deriving DecidableEq, Repr, Inhabited

/-- A copy shape register (R189). -/
structure Shape where
  count0 : BitVec 32 := 0
  count1 : BitVec 16 := 0
  count2 : BitVec 16 := 0
  s1 : Word := 0
  s2 : Word := 0
  d1 : Word := 0
  deriving DecidableEq, Repr, Inhabited

/-- An entry of an engine queue (R32, R132), with what the instruction captured at dispatch (R71, R191, R249). -/
structure Entry where
  pc : Word := 0
  word : BitVec 32 := 0
  instr : Instr
  pfx : Option (BitVec 32) := none
  op1 : Word := 0
  op2 : Word := 0
  /-- The accumulator row that a scalar register names for a matrix instruction (R294). -/
  op3 : Word := 0
  deadline : Word := 0
  started : Bool := false
  voided : Bool := false
  done : Bool := false
  late : Bool := false
  seq : Nat := 0
  /-- Bytes a copy has written, the next row of an mmq, one more than the time a vwait started, or 1 once a load in
  progress has loaded an element. -/
  prog : Nat := 0
  frm : BitVec 2 := 0
  rkey : Word := 0
  rstrm : Word := 0
  rctr : Word := 0
  shape : Shape := {}
  str : Stream := {}
  /-- Multicast destinations that have failed, with the cause and address of the lowest (R199). -/
  mcf : BitVec 5 := 0
  mcc : BitVec 8 := 0
  mca : Word := 0
  /-- Units of copy work, and of HBM work, accepted and not yet performed (R54, R196). Of a vwait that goes on, one more than the
  flag it stopped at (R282). -/
  left : Nat := 0
  leftH : Nat := 0
  /-- Dispatched by a surrender routine (R328). -/
  surr : Bool := false
  /-- What a performed instruction still does when it retires: flags, a scalar result, a stream's new cursor. -/
  fl : BitVec 5 := 0
  res : Option (BitVec 5 × Word) := none
  newCur : Option (BitVec 4 × Word) := none
  /-- The cycle from which it may be tried again, or once it is done may retire (R43). -/
  tried : Nat := 0
  /-- Flags a vwait has found met. -/
  met : List Nat := []
  /-- Dispatched while surrender units were counted (R326). -/
  span : Bool := false
  /-- The bitmap a sparse expand has read (R200, R201). -/
  bitmap : Nat := 0
  /-- The stream S accesses before this order come before a vector memory instruction (R107, R152). -/
  after : Nat := 0
  /-- The 256-byte blocks it has been charged for, and the element groups its watch has let pass (R161, R181). -/
  blk : List Nat := []
  passed : List (Nat × Nat) := []
  /-- A copy with a side in the host window carries no deadline (R192). -/
  host : Bool := false
  /-- What a row-wise instruction that stopped in a later row keeps (R248, R272): the partial value of a reduction or a
  count, or the place its sweep began. -/
  acc : Option Word := none
  deriving DecidableEq, Repr, Inhabited

/-- A trap record: bytes 0 to 63 of the frame header (R128, R130). -/
structure Record where
  cause : BitVec 8 := 0
  engine : BitVec 8 := 0
  ocause : BitVec 8 := 0
  flags : BitVec 8 := 0
  ipc : Word := 0
  word : BitVec 32 := 0
  hid : BitVec 16 := 0
  gang : BitVec 16 := 0
  rpc : Word := 0
  addr : Word := 0
  estart : BitVec 32 := 0
  rowstart : BitVec 32 := 0
  pfx : Word := 0
  time : Word := 0
  deriving DecidableEq, Repr, Inhabited

/-- What a surrender routine banked at entry (R87, R324), and the class it issues at. -/
structure Surr where
  pc : Word
  bank : Vector Word 8
  pfx : PfxSave
  cls : BitVec 2
  resv : BitVec 8
  /-- Vector entries set aside because one of them waits for a watch or for flags, and where their head stood. -/
  vq : List Entry := []
  estart : BitVec 32 := 0
  rowstart : BitVec 3 := 0
  /-- The stream registers as the entries set aside find them, and what the routine has changed of them since (R150). -/
  q : Vector Stream 16 := Vector.replicate 16 {}
  chg : List Entry := []
  deriving DecidableEq, Repr, Inhabited

/-- The vector unit's state of a hart (R203, R204, R208, R285). Register i's element e of width w lies at byte
12288 * i + e * w / 8 of `regs`; the layout by lanes of R208 is a rearrangement of these bytes. -/
structure VecState where
  vl : Nat := 0
  ill : Bool := false
  lmode : BitVec 2 := 0
  cls : BitVec 4 := 0
  sew : BitVec 2 := 0
  estart : BitVec 32 := 0
  rowstart : BitVec 3 := 0
  vgrant : Nat := 0
  strap : Bool := false
  vsplit : Word := 0
  trim : Bool := false
  trimCause : BitVec 8 := 0
  trimElem : BitVec 32 := 0
  vwtmo : BitVec 32 := 4096
  /-- Members of the convoy in progress, and whether one of them accesses memory (R217, R218). -/
  convoy : Nat := 0
  convoyMem : Bool := false
  /-- The row and element at which the run at hand ends, before its sweep does (R248); none between steps. -/
  ends : Option (Nat × Nat) := none
  regs : Mem := []
  /-- Lane-private store: byte o of logical lane L at 2048 * L + o (R28). -/
  lp : Mem := []
  deriving DecidableEq, Repr, Inhabited

/-- mshape (R293). -/
structure MShape where
  kcnt : BitVec 10 := 0
  asc : Bool := false
  afmt : Bool := false
  deriving DecidableEq, Repr, Inhabited

/-- What a hart holds of its core's lanes and matrix engine (R38, R41, R116): groups of lanes, halves and rows, from
the acceptance of its launch or load; `on` from the frame boundary that grants them. `lanes` is the launch block's. -/
structure Plan where
  lanes : Nat := 0
  groups : BitVec 8 := 0
  halves : BitVec 2 := 0
  rowBase : Nat := 0
  rows : Nat := 0
  on : Bool := false
  deriving DecidableEq, Repr, Inhabited

/-- The bay registers of a hart (R317). -/
structure BayRegs where
  bayh : BitVec 8 := 0
  ucnt : Nat := 0
  lb : BitVec 4 := 0
  rqcls : BitVec 2 := 0
  aleft : BitVec 2 := 0
  rqrsv : BitVec 8 := 0
  handle : BitVec 8 := 0
  isOpen : Bool := false
  /-- Surrender units are being counted (R326). -/
  counting : Bool := false
  rcend : Word := 0
  lostHandle : BitVec 8 := 0
  lost : Bool := false
  deriving DecidableEq, Repr, Inhabited

/-- The sampler registers of a hart (R335). -/
structure SmpRegs where
  cnt : Word := 0
  stOp : BitVec 4 := 0
  stCause : BitVec 8 := 0
  addr : Word := 0
  deriving DecidableEq, Repr, Inhabited

/-- What a sequencer instruction that waits in stream S does there (R99, R109, R152, R155). -/
inductive SKind where
  | load (ty : BitVec 3) (d : BitVec 5)
  | store
  /-- An atomic, its value to compare in `cmp`. -/
  | atomic (op : BitVec 4) (d : BitVec 5)
  | publish
  /-- A tkpush's own deposit. -/
  | token (id : Nat)
  deriving DecidableEq, Repr, Inhabited

/-- What a stream S access goes back to if it traps after all: the scalar registers, the flags and the prefix it was dispatched
with, the tokens taken by then, by FIFO, and the last deadline of the hart's copies (R99, R127). -/
structure Back where
  regs : Vector Word 32
  fflags : BitVec 5
  pfx : Option (BitVec 32)
  pops : Vector Nat 13 := Vector.replicate 13 0
  dl : Word := 0
  deriving DecidableEq, Repr, Inhabited

/-- A sequencer instruction dispatched and waiting in stream S: its access, which its checks have let pass at dispatch, with its
operands, the touch it makes of a page, its prefix's push, its place in the hart's order, and the order below which vector
memory comes first (R152). -/
structure SAcc where
  kind : SKind
  sq : Bool := false
  size : Nat := 8
  touch : Nat := 2
  /-- The address as the instruction gave it, the value it stores or combines, and the one it compares with. -/
  addr : Word := 0
  val : Word := 0
  cmp : Word := 0
  push : Nat := 0
  seq : Nat := 0
  hold : Nat := 0
  pc : Word := 0
  word : BitVec 32 := 0
  /-- Dispatched by a surrender routine (R327). -/
  surr : Bool := false
  /-- What the hart goes back to if it traps; none for a token (log 26). -/
  back : Option Back := none
  deriving DecidableEq, Repr, Inhabited

/-- One hart slot and the hart in it (R67, R72, R75). -/
structure Hart where
  run : Run := .free
  sup : Bool := false
  pc : Word := 0
  regs : Vector Word 32 := Vector.replicate 32 0
  surr : Option Surr := none
  stklo : Word := 0
  stkhi : Word := 0
  /-- Deposited and reserved tokens of FIFO 1 to 12 (R35); index 0 is unused. -/
  tok : Vector Nat 13 := Vector.replicate 13 0
  tokres : Vector Nat 13 := Vector.replicate 13 0
  /-- Tokens taken of each FIFO so far: the model's own. -/
  pops : Vector Nat 13 := Vector.replicate 13 0
  fflags : BitVec 5 := 0
  frm : BitVec 2 := 0
  rkey : Word := 0
  rstrm : Word := 0
  rctr : Word := 0
  pfxsave : PfxSave := {}
  /-- The prefix that waits for the next word, and whether its pop was taken (R60, R61). -/
  pfx : Option (BitVec 32 × Bool) := none
  /-- The prefix that waits came out of pfxsave; the pc that pfxsave belongs to (R61, R86). -/
  pfxOld : Bool := false
  pfxPc : Word := 0
  wait : Option Waiting := none
  /-- When the hart's next instruction was last found to wait (R33, R120). -/
  tested : Word := 0
  /-- Consecutive ready cycles without being chosen, the soon hint, and the throttle of R48 with its cycle count. -/
  age : Nat := 0
  soon : Bool := false
  throttle : Bool := false
  throttleCnt : Nat := 0
  gang : BitVec 16 := 0
  ghart : Nat := 0
  gsize : Nat := 0
  fn : BitVec 5 := 0
  resv : BitVec 8 := 0
  rsvsel : BitVec 8 := 0
  lfunc : BitVec 5 := 0
  plan : Plan := {}
  q : Vector Stream 16 := Vector.replicate 16 {}
  c : Vector Shape 4 := Vector.replicate 4 {}
  cpcnt : Word := 0
  cpmcs : BitVec 5 := 0
  vec : VecState := {}
  mshape : MShape := {}
  vq : List Entry := []
  mq : List Entry := []
  cq : List Entry := []
  /-- The next number of the hart's order, the number below which stream S waits for vector memory, and those below
  which vector memory, all of it or through one stream, waits for stream S (R107, R152). -/
  seq : Nat := 0
  holdS : Nat := 0
  holdV : Nat := 0
  qHold : Vector Nat 16 := Vector.replicate 16 0
  /-- The sequencer instructions that wait in stream S, oldest first. -/
  ss : List SAcc := []
  /-- The last deadline of each source: copies, bays, sampler work (R55). -/
  srcDl : Vector Word 3 := Vector.replicate 3 0
  bay : BayRegs := {}
  smp : SmpRegs := {}
  /-- A scatter-add update of this hart was lost, with its address (R186). -/
  lostUpd : Option Word := none
  /-- The record of the trap or pre-emption that suspended the hart, and whether it is to be posted (R127, R135). -/
  hdr : Record := {}
  post : Bool := false
  /-- Pre-emption waits for the bay.ret of a surrender routine (R134, R325). -/
  preempt : Bool := false
  deriving DecidableEq, Repr, Inhabited

/-- The tag of a tile (R293). -/
structure Tag where
  fmt : BitVec 3 := 0
  sp : Bool := false
  deriving DecidableEq, Repr, Inhabited

/-- A translation that a core's lookahead keeps (R160): context, the first address of its page, and the leaf entry's
address and value when it was read. -/
structure Tlb where
  ctx : Nat
  page : Nat
  at_ : Nat
  pte : Nat
  /-- The hart and the stream register it was looked up for. -/
  hid : Nat
  q : BitVec 4
  deriving DecidableEq, Repr, Inhabited

/-- One core (R25, R38, R41, R119, R159, R229, R293, R333). -/
structure Core where
  lpart : Word := 0
  mpart : Word := 0
  ab : Mem := []
  wb : Mem := []
  /-- Accumulator store: byte o of row r at 1024 * r + o. -/
  acc : Mem := []
  /-- Tile t's byte o at 65536 * t + o. -/
  tiles : Mem := []
  tags : Vector Tag 4 := Vector.replicate 4 {}
  cb : Mem := []
  tqbase : Word := 0
  tqlen : BitVec 4 := 4
  tqhead : Word := 0
  tqtail : Word := 0
  /-- Trap and notice records not yet written, oldest first (R128). -/
  pend : List Record := []
  /-- Lanes, halves and rows that a saved hart holds until the next frame boundary (R136). -/
  freeing : List Plan := []
  trKill : Bool := false
  trSlot : BitVec 3 := 0
  stkpool : Word := 0
  stkmax : Word := 0x100000
  ptsel : BitVec 5 := 0
  ptroot : Vector Word 17 := Vector.replicate 17 0
  smpBase : BitVec 10 := 0
  smpCnt : BitVec 11 := 1024
  /-- The slot last chosen (R120). -/
  last : Nat := 7
  /-- When the lanes of each slot (0 to 7), the matrix engine (8) and the copy engine (9) have done, at their peak rates, the
  work they have begun, and when each port has moved, at its width, the bytes it was given (R28, R43): 10 and 11 the
  reads and writes of device-virtual memory, then those of ab, wb, as and the Square. The model's own. -/
  busy : Vector Nat 20 := Vector.replicate 20 0
  /-- The translation cache, latest first (R160), the slot each of the three engines, and stream S (3), served last (R42), and the one of the four that was
  at the core's ports last (R31). -/
  tlb : List Tlb := []
  served : Vector Nat 4 := Vector.replicate 4 0
  lastEng : Nat := 2
  deriving DecidableEq, Repr, Inhabited

/-- State of a bay table entry (R315). -/
inductive BayState where
  | free | pending | held
  deriving DecidableEq, Repr, Inhabited

/-- A bay table entry (R315). -/
structure Bay where
  st : BayState := .free
  neg : Bool := false
  units : Nat := 0
  gang : BitVec 16 := 0
  holder : Nat := 0
  /-- The class of the holder's reservation is that of `resv` (R321); `fn` its function. -/
  resv : BitVec 8 := 0
  fn : BitVec 5 := 0
  grant : Word := 0
  entry : Word := 0
  lb : Nat := 0
  allow : Nat := 0
  lastGang : BitVec 16 := 0
  deadline : Word := 0
  late : Bool := false
  /-- Order of acceptance, units present, and a give that came before the grant (R321, R323). -/
  order : Nat := 0
  got : Nat := 0
  giveAtGrant : Bool := false
  deriving DecidableEq, Repr, Inhabited

/-- A recall-queue entry (R321, R322, R324). -/
structure Recall where
  victim : Nat := 0
  forBay : Nat := 0
  holder : Nat := 0
  rqrsv : BitVec 8 := 0
  rqcls : BitVec 2 := 0
  posted : Word := 0
  bound : Word := 0
  aleft : BitVec 2 := 0
  notBefore : Word := 0
  isOpen : Bool := false
  deriving DecidableEq, Repr, Inhabited

/-- A sampler request block (R338). -/
structure ReqBlock where
  slot : BitVec 16 := 0
  mode : BitVec 8 := 0
  lfmt : BitVec 8 := 0
  v : BitVec 32 := 0
  logits : Word := 0
  c : BitVec 32 := 0
  maxcyc : BitVec 32 := 0
  seed : Word := 0
  step : Word := 0
  wm : Word := 0
  res : Word := 0
  wmoff : Word := 0
  deriving DecidableEq, Repr, Inhabited

/-- A piece of sampler work, accepted and not complete (R338 to R343). `op` is that of R337. -/
structure Work where
  seq : Nat := 0
  hid : Nat := 0
  core : Nat := 0
  gang : BitVec 16 := 0
  ghart : Nat := 0
  fn : BitVec 5 := 0
  resv : BitVec 8 := 0
  op : Nat := 0
  slot : Nat := 0
  addr : Word := 0
  n : Nat := 0
  blk : ReqBlock := {}
  deadline : Word := 0
  late : Bool := false
  w : Nat := 0
  started : Bool := false
  begin : Word := 0
  words : List (BitVec 32) := []
  /-- The program bound, its version, and whether a user hart or a surrender routine submitted the work. -/
  prog : Nat := 0
  ver : Nat := 0
  user : Bool := true
  surr : Bool := false
  tried : Nat := 0
  strip : Nat := 0
  m : BitVec 32 := 0xFF800000
  s : BitVec 32 := 0
  key : BitVec 32 := 0xFF800000
  tok : Option Nat := none
  y : BitVec 32 := 0
  nf : Bool := false
  /-- The hints of the prefix it was submitted under (R64). -/
  hint : BitVec 4 := 0
  /-- Cycles waited on the watermark so far, and since when the present wait runs (R343). -/
  waited : Nat := 0
  waitFrom : Option Word := none
  deriving DecidableEq, Repr, Inhabited

/-- A loaded logit program and the function that placed it (R334, R364). -/
structure Prog where
  words : List (BitVec 32) := []
  fn : BitVec 5 := 0
  /-- The work that placed it. -/
  ver : Nat := 0
  deriving DecidableEq, Repr, Inhabited

/-- A lane of the sampler (R345): l0 to l15, cf, the token, and how the lane stands. -/
structure Lane where
  l : Vector (BitVec 32) 16 := Vector.replicate 16 0
  cf : Bool := false
  tok : Nat := 0
  live : Bool := false
  out : BitVec 32 := 0xFF800000
  deriving DecidableEq, Repr, Inhabited

/-- One cluster: Square, bay arbiter and sampler (R313 to R315, R332 to R345). -/
structure Clus where
  bays : TMap Bay := []
  last : Nat := 0
  order : Nat := 0
  /-- Byte o of bay h at 2^24 * h + o: its Square address (R29). -/
  square : Mem := []
  recalls : List Recall := []
  /-- Table store: byte o of slot s at 512 * s + o (R332). -/
  table : Mem := []
  slotFn : TMap (BitVec 5) := []
  progs : TMap Prog := []
  works : List Work := []
  seq : Nat := 0
  lanes : Vector Lane 128 := Vector.replicate 128 {}
  /-- The slot whose tables the lanes read, and the status the strip has met (0 none). -/
  lslot : Nat := 0
  lstat : BitVec 8 := 0
  deriving DecidableEq, Repr, Inhabited

/-- A reservation (R44, R45, R49, R50). -/
structure Rsv where
  on : Bool := false
  cls : BitVec 2 := 0
  bud : Vector (BitVec 32) 8 := Vector.replicate 8 0
  rej : Bool := false
  brk : Bool := false
  /-- Accepted changes that take effect at the next frame boundary. -/
  newCls : Option (BitVec 2) := none
  newBud : Vector (Option (BitVec 32)) 8 := Vector.replicate 8 none
  deriving DecidableEq, Repr, Inhabited

/-- A member hart of a gang, wherever its hart now is (R124). -/
structure Member where
  core : Nat := 0
  ended : Bool := false
  /-- Arrived bits for core, clus and gang, and the generations arrived at. -/
  arrived : BitVec 3 := 0
  gens : Vector (BitVec 16) 3 := Vector.replicate 3 0
  /-- What happened to the hart while its frame alone held it, for its next load: sampler work that completed, the
  last fault of such work, the last bay force-released, and an update lost. -/
  away : Word := 0
  awaySt : Option (BitVec 4 × BitVec 8 × Word) := none
  awayLost : Option (BitVec 8) := none
  awayUpd : Option Word := none
  deriving DecidableEq, Repr, Inhabited

/-- A gang from acceptance to completion (R113 to R118, R124). -/
structure Gang where
  block : Word := 0
  fn : BitVec 5 := 0
  /-- The context in which the block's address is translated (R113, R361). -/
  ctx : Nat := 0
  core : Nat := 0
  src : Nat := 0
  resv : BitVec 8 := 0
  entry : Word := 0
  args : Word := 0
  stack : Nat := 0
  lanes : Nat := 0
  wm : Word := 0
  wmv : Word := 0
  deadline : Word := 0
  late : Bool := false
  placed : Bool := false
  waiting : Bool := false
  nend : Nat := 0
  nkill : Nat := 0
  members : List Member := []
  /-- Generation counts, by 4096 * scope + unit. -/
  gens : TMap (BitVec 16) := []
  deriving DecidableEq, Repr, Inhabited

/-- A scatter-add update sent and not applied (R182, R183). -/
structure Update where
  hid : Nat
  gang : BitVec 16
  pa : Nat
  dva : Word
  fp : Bool
  size : Nat
  val : Nat
  deriving DecidableEq, Repr, Inhabited

/-- State of a TDI (R365). -/
inductive Tdi where
  | unlocked | locked | running | error
  deriving DecidableEq, Repr, Inhabited

/-- A byte-stream connection (R362): port, peer, and the headers of its rings. -/
structure Conn where
  port : Nat := 0
  peer : Word := 0
  tx : Word := 0
  rx : Word := 0
  deriving DecidableEq, Repr, Inhabited

/-- A function's mailbox, rings and security state (R358 to R366). -/
structure Fn where
  ready : Bool := true
  badImage : Bool := false
  inReset : Bool := false
  tdiErr : Bool := false
  cqbase : Word := 0
  cqlen : BitVec 4 := 0
  cqtail : Word := 0
  cqhead : Word := 0
  erhead : Word := 0
  ertail : Word := 0
  errs : TMap (Vector Word 4) := []
  conns : TMap Conn := []
  /-- A connection was closed by a bad tail: the next Open record receives 0x12 (R363). -/
  closed : Bool := false
  /-- Its mailbox was reset, and the service cores have not set `ready` again (R364, R367). -/
  waking : Bool := false
  tdi : Option Tdi := none
  deriving DecidableEq, Repr, Inhabited

/-- How a host request completed (R358, R364). -/
inductive HostStatus where
  | success | completerAbort | unsupportedRequest
  deriving DecidableEq, Repr, Inhabited

/-- A completion returned over the port. -/
structure HostDone where
  fn : BitVec 5
  status : HostStatus
  data : Word
  deriving DecidableEq, Repr, Inhabited

/-- The configuration image (R367). -/
structure Image where
  /-- Its signature is good. -/
  valid : Bool := true
  eceil : Nat := 13072
  mask : BitVec 8 := 1
  entry : Word := 0x10000
  vfs : Nat := 16
  /-- Base and count of the smpwin of each core; one that is not listed has the default image's. -/
  smpWin : TMap (Nat × Nat) := []
  deriving DecidableEq, Repr, Inhabited

/-- The smpwin an image gives a core (R333, R367). -/
def Image.win (img : Image) (k : Nat) : Nat × Nat := (img.smpWin.find k).getD (128 * (k % 8), 128)
/-- The image's signature is good and each item lies in its range; any other is malformed (R333, R367). -/
def Image.ok (img : Image) : Bool :=
  img.valid && decide (1000 ≤ img.eceil) && decide (img.eceil ≤ 13072) && decide (img.vfs ≤ 16) &&
    img.entry.toNat % 4 == 0 && decide (img.entry.toNat < 2 ^ 57) &&
    img.smpWin.all (fun w => decide (w.2.1 < 1024) && decide (w.2.2 ≤ 1024))

/-- An uncorrectable soft error in data: where (0 core SRAM, 1 Square, 2 sampler, 3 HBM), the core or cluster, and the
address of its block (R366). -/
structure Latent where
  loc : Nat
  unit : Nat
  addr : Nat
  deriving DecidableEq, Repr, Inhabited

/-- What a management controller reads through PLDM (R370): the temperature of each die, the power of the rails and the energy charge
of the last frame, in µJ. -/
structure Pldm where
  temps : Vector Word 17
  power : Word
  energy : Nat
  deriving DecidableEq, Repr, Inhabited

/-- Device-wide state (R44 to R50, R116, R118, R358 to R370). -/
structure Dev where
  rsv : TMap Rsv := []
  /-- Units used this frame, by 2048 * reservation + 256 * resource + instance; energy in 1/1024 µJ. -/
  used : TMap Nat := []
  /-- The usable energy of a reservation in this frame, in µJ (R45). -/
  share : TMap Nat := []
  eceil : Nat := 13072
  eceilReq : Option Nat := none
  eceilRefused : Bool := false
  /-- Energy of this frame and of the last, in 1/1024 µJ; the hold of R48. -/
  energy : Nat := 0
  energyLast : Nat := 0
  hold : Bool := false
  /-- Frame boundaries performed. -/
  frames : Nat := 0
  gangs : TMap Gang := []
  nextGang : BitVec 16 := 1
  updates : List Update := []
  use : TMap Nat := []
  fns : TMap Fn := []
  ide : Vector Bool 8 := Vector.replicate 8 false
  done : List HostDone := []
  /-- Records of supervisor traps handed to the service cores (R129). -/
  svc : List Record := []
  /-- Errors corrected and counted (R366). -/
  corrected : Nat := 0
  /-- The dies whose clock is held (R370): bits 0 to 3 the compute dies, 4 the I/O die, 5 to 16 the base dies (log 53). -/
  held : BitVec 32 := 0
  stopped : Bool := false
  /-- What the management controller last read (R370). -/
  pldm : Option Pldm := none
  /-- An uncorrectable error that stands in data and has been met by no request (R366). -/
  latent : Option Latent := none
  deriving DecidableEq, Repr, Inhabited

/-- The machine. `cur` is the hart that acts, `turn` the core whose turn is next, `agenda` the outside events that
come before the next dispatch, `fresh` the counter of free values, `ir` the word that step has fetched: the model's
own (log 1). -/
structure State where
  time : Word := 0
  cur : Nat := 0
  ir : BitVec 32 := 0
  turn : Nat := 0
  agenda : List Instr := []
  fresh : Nat := 0
  img : Image := {}
  harts : TMap Hart := []
  cores : TMap Core := []
  clus : TMap Clus := []
  mem : Mem := []
  dev : Dev := {}
  deriving DecidableEq, Repr, Inhabited

/-- The hart slot `hid` right after reset under an image (R68, R367): a running supervisor where the image's slot mask
has the slot, else free. -/
def Hart.boot (img : Image) (hid : Nat) : Hart :=
  if img.ok && img.mask.getLsbD (hid % 8) then
    { run := .running, sup := true, pc := img.entry, rstrm := BitVec.ofNat 64 hid }
  else {}

/-- The core `k` right after reset (R333, R367). -/
def Core.boot (img : Image) (k : Nat) : Core :=
  { smpBase := BitVec.ofNat 10 (img.win k).1, smpCnt := BitVec.ofNat 11 (img.win k).2 }

/-- The function `f` right after reset (R360, R367). -/
def Fn.boot (img : Image) (f : Nat) : Fn :=
  { ready := img.ok && decide (f ≤ img.vfs), badImage := !img.ok && decide (f = 0) }

/-- The machine right after reset under an image, with the memory it finds (R367). -/
def State.boot (img : Image) (mem : Mem) : State :=
  { img := img, mem := mem, dev := { eceil := img.eceil } }

/-- The machine right after reset: the default image (R367), memory with nothing listed. -/
def State.reset : State := State.boot {} []

end Sys2Proof.Machine
end

