-- ==== Sys2Proof/Machine/Ops.lean ====
section
/-! DEFINITION. The named operations every meaning is made of: byte memory, the accessors of State, budgets and energy
(R45 to R48), translation (R157 to R159), the Square and the release of bays (R314 to R328), the trap ring (R128),
taking a trap and returning from one (R127, R138), tokens and prefixes (R35, R60), and the frame of a sequencer
instruction. -/

namespace Sys2Proof.Machine

/-! ### Byte memory -/

/-- The byte at an address; an unlisted byte reads 0 (log 2). -/
def Mem.byte : Mem → Nat → BitVec 8
  | [], _ => 0
  | (k, v) :: t, a => if k = a then v else Mem.byte t a

/-- A memory with one non-zero byte put in its place. -/
def Mem.put : Mem → Nat → BitVec 8 → Mem
  | [], a, v => [(a, v)]
  | (k, u) :: t, a, v =>
    if k = a then (a, v) :: t
    else if a < k then (a, v) :: (k, u) :: t
    else (k, u) :: Mem.put t a v

/-- A memory with one byte written: a zero byte is unlisted. -/
def Mem.set (m : Mem) (a : Nat) (v : BitVec 8) : Mem :=
  if v = 0 then m.filter (fun c => c.1 != a) else m.put a v

/-- n bytes from address a, little-endian (R6, R21). -/
def Mem.read (m : Mem) (a : Nat) : Nat → Nat
  | 0 => 0
  | n + 1 => (m.byte a).toNat + 256 * Mem.read m (a + 1) n

/-- n bytes written at address a, little-endian (R6, R21). -/
def Mem.write (m : Mem) (a : Nat) : Nat → Nat → Mem
  | 0, _ => m
  | n + 1, v => Mem.write (m.set a (BitVec.ofNat 8 v)) (a + 1) n (v / 256)

/-- n bytes from address a as a memory of their own, from 0. -/
def Mem.slice (m : Mem) (a n : Nat) : Mem :=
  (m.filter (fun c => decide (a ≤ c.1) && decide (c.1 < a + n))).map (fun c => (c.1 - a, c.2))
/-- The first n bytes of another memory put at address a. -/
def Mem.blit (m : Mem) (a n : Nat) (img : Mem) : Mem :=
  m.filter (fun c => decide (c.1 < a)) ++ (img.filter (fun c => decide (c.1 < n))).map (fun c => (c.1 + a, c.2)) ++
    m.filter (fun c => decide (a + n ≤ c.1))
/-- A memory made of fields: offset, bytes and value, in any order. -/
def Mem.ofFields (l : List (Nat × Nat × Nat)) : Mem := l.foldl (fun m f => m.write f.1 f.2.1 f.2.2) []
/-- A memory with every byte of [lo, hi) zero. -/
def Mem.clear (m : Mem) (lo hi : Nat) : Mem := m.filter (fun c => decide (c.1 < lo) || decide (hi ≤ c.1))

/-- Addresses rise from above `lo`, and no listed byte is zero. -/
def Mem.wfFrom : Option Nat → Mem → Bool
  | _, [] => true
  | lo, (k, v) :: t => (match lo with | none => true | some l => decide (l < k)) && v != 0 && Mem.wfFrom (some k) t

/-- The canonical form: addresses strictly rising, no zero byte listed. -/
def Mem.wf (m : Mem) : Bool := Mem.wfFrom none m

/-! ### Bits -/

/-- Bits lo + len - 1 down to lo of a number. -/
def bits (x lo len : Nat) : Nat := x / 2 ^ lo % 2 ^ len

/-- Bit i of a number. -/
def bit (x i : Nat) : Bool := x / 2 ^ i % 2 == 1

/-- 1 or 0. -/
def b2n (b : Bool) : Nat := if b then 1 else 0

/-- n bits read as two's complement. -/
def signed (n x : Nat) : Int := if x % 2 ^ n < 2 ^ (n - 1) then (x % 2 ^ n : Nat) else ((x % 2 ^ n : Nat) : Int) - 2 ^ n

/-- An integer modulo 2^n. -/
def wrap (n : Nat) (x : Int) : Nat := (x % (2 ^ n : Nat)).toNat

/-- Ceiling division. -/
def cdiv (a b : Nat) : Nat := (a + b - 1) / b

/-- How many of the low n bits are set. -/
def popcount (x : Nat) : Nat → Nat
  | 0 => 0
  | n + 1 => x / 2 ^ n % 2 + popcount x n

/-! ### Accessors -/

/-- The hart slot `hid`: core * 8 + slot (R74). -/
def State.hartAt (s : State) (hid : Nat) : Hart := (s.harts.find hid).getD (Hart.boot s.img hid)
/-- The state with the hart slot `hid` replaced. -/
def State.setHartAt (s : State) (hid : Nat) (h : Hart) : State := { s with harts := s.harts.set hid h }
/-- The hart that acts. -/
def State.hart (s : State) : Hart := s.hartAt s.cur
/-- The state with the acting hart replaced. -/
def State.setHart (s : State) (h : Hart) : State := s.setHartAt s.cur h
/-- The core `k`. -/
def State.coreAt (s : State) (k : Nat) : Core := (s.cores.find k).getD (Core.boot s.img k)
/-- The state with the core `k` replaced. -/
def State.setCoreAt (s : State) (k : Nat) (c : Core) : State := { s with cores := s.cores.set k c }
/-- The core of the acting hart (R22). -/
def State.coreNo (s : State) : Nat := s.cur / 8
/-- The core of the acting hart. -/
def State.core (s : State) : Core := s.coreAt s.coreNo
/-- The state with the acting hart's core replaced. -/
def State.setCore (s : State) (c : Core) : State := s.setCoreAt s.coreNo c
/-- The cluster of the acting hart (R22). -/
def State.clusNo (s : State) : Nat := s.cur / 64
/-- The cluster `k`. -/
def State.clusAt (s : State) (k : Nat) : Clus := (s.clus.find k).getD {}
/-- The state with the cluster `k` replaced. -/
def State.setClusAt (s : State) (k : Nat) (c : Clus) : State := { s with clus := s.clus.set k c }
/-- The function `f`. -/
def State.fnAt (s : State) (f : Nat) : Fn := (s.dev.fns.find f).getD (Fn.boot s.img f)
/-- The state with the function `f` replaced. -/
def State.setFnAt (s : State) (f : Nat) (x : Fn) : State := { s with dev := { s.dev with fns := s.dev.fns.set f x } }
/-- The reservation `r`; 0 always exists as class B (R44). -/
def State.rsvAt (s : State) (r : Nat) : Rsv := (s.dev.rsv.find r).getD { on := decide (r = 0) }
/-- The state with the reservation `r` replaced. -/
def State.setRsvAt (s : State) (r : Nat) (x : Rsv) : State := { s with dev := { s.dev with rsv := s.dev.rsv.set r x } }
/-- The gang with number `g`. -/
def State.gangAt (s : State) (g : Nat) : Option Gang := s.dev.gangs.find g
/-- The state with gang `g` replaced. -/
def State.setGangAt (s : State) (g : Nat) (x : Gang) : State :=
  { s with dev := { s.dev with gangs := s.dev.gangs.set g x } }
/-- A member of a gang changed. -/
def State.setMember (s : State) (g i : Nat) (f : Member → Member) : State :=
  match s.gangAt g with
  | none => s
  | some x => s.setGangAt g { x with members := x.members.modify i f }
/-- time as a number. -/
def State.now (s : State) : Nat := s.time.toNat
/-- The first frame boundary after t (R54). -/
def nextFrame (t : Nat) : Nat := (t / 4096 + 1) * 4096

/-- A scalar register: s0 reads 0 (R67). -/
def Hart.reg (h : Hart) (r : BitVec 5) : Word := if r = 0 then 0 else h.regs[r.toNat]
/-- A scalar register written: writes to s0 are discarded (R67). -/
def Hart.setReg (h : Hart) (r : BitVec 5) (v : Word) : Hart :=
  if r = 0 then h else { h with regs := h.regs.set r.toNat v }
/-- A scalar register of the acting hart. -/
def State.reg (s : State) (r : BitVec 5) : Word := s.hart.reg r
/-- A scalar register of the acting hart written. -/
def State.setReg (s : State) (r : BitVec 5) (v : Word) : State := s.setHart (s.hart.setReg r v)

/-- Bits 63:57 and 1:0 of a pc are zero (R67). -/
def pcMask : Word := 0x01FFFFFFFFFFFFFC
/-- The entry that hasn't retired counts as an engine instruction, unless it is a status move or a stream change that
keeps its place in the queue (R110, R150). -/
def Entry.isMove (e : Entry) : Bool :=
  match e.instr with
  | .mfs .. | .mts .. | .qld .. | .qbase .. | .qstride .. | .qbound .. | .qcur .. | .qcfg .. | .qget .. | .qrel ..
  | .qwatch .. | .qunwatch .. => true
  | _ => false
/-- A vector instruction that keeps progress beside estart and rowstart, which a suspension ends (R134, R284). -/
def Entry.isVec (e : Entry) : Bool :=
  match e.instr with
  | .vwait .. | .vldff .. => true
  | _ => false
/-- Vector entries that a surrender routine has set aside. -/
def Hart.banked (h : Hart) : List Entry := match h.surr with | some x => x.vq | none => []
/-- Queue entries that take room (R32). -/
def realEntries (l : List Entry) : Nat := (l.filter (fun e => !e.isMove)).length
/-- Pending changes of a queue. -/
def moveEntries (l : List Entry) : Nat := (l.filter (fun e => e.isMove)).length

/-! ### Contexts -/

/-- For whom an access is made: core, cluster, function (context), privilege and gang (R159, R314, R359). -/
structure Who where
  core : Nat
  clus : Nat
  fn : Nat
  user : Bool
  gang : BitVec 16
  deriving DecidableEq, Repr

/-- The accesses of the hart `hid`. -/
def State.whoOf (s : State) (hid : Nat) : Who :=
  let h := s.hartAt hid
  { core := hid / 8, clus := hid / 64, fn := if h.sup then 0 else h.fn.toNat, user := !h.sup, gang := h.gang }
/-- The accesses of the acting hart. -/
def State.who (s : State) : Who := s.whoOf s.cur
/-- The number under which what a hart of a gang holds is kept while only a frame holds the hart. -/
def awayNo (g : BitVec 16) (i : Nat) : Nat := 4096 + 2048 * g.toNat + i
/-- The index in its gang of such a hart. -/
def awayIdx (n : Nat) : Nat := (n - 4096) % 2048
/-- The reservation a hart belongs to: 0 for a supervisor (R44). -/
def Hart.ownResv (h : Hart) : Nat := if h.sup then 0 else h.resv.toNat
/-- The reservation an engine entry's work is charged to: the requester's where a surrender routine dispatched it (R44). -/
def Hart.entryResv (h : Hart) (en : Entry) : Nat :=
  match h.surr with
  | some x => if en.surr then x.resv.toNat else h.ownResv
  | none => h.ownResv
/-- The reservation a hart's work is charged to: the requester's in a surrender routine, 0 for a supervisor (R44). -/
def Hart.workResv (h : Hart) : Nat :=
  match h.surr with
  | some x => x.resv.toNat
  | none => h.ownResv
/-- The class a hart issues at, before its issue budget is asked (R120): a routine's requester's class. -/
def State.workCls (s : State) (h : Hart) : BitVec 2 :=
  match h.surr with
  | some x => x.cls
  | none => if h.sup then 0 else (s.rsvAt h.resv.toNat).cls

/-! ### Budgets and energy (R45 to R48) -/

/-- Where the count of a reservation's use of a resource at an instance is kept. -/
def useKey (r res inst : Nat) : Nat := 2048 * r + 256 * res + inst
/-- The instance of resource res for a hart's core: per cluster for 4 and 6, the device for 7 (R45). -/
def instOf (core res : Nat) : Nat := if res = 4 ∨ res = 6 then core / 8 else if res = 7 then 0 else core
/-- Units of a resource used in this frame. -/
def State.usedOf (s : State) (r res inst : Nat) : Nat := (s.dev.used.find (useKey r res inst)).getD 0
/-- Something of a core that does `per` units of work in a cycle, at place i of `busy`, takes on n units, which hold it for as
long as that rate needs (R43; log 16). -/
def State.busyFor (s : State) (core : Nat) (i : Fin 20) (per n : Nat) : State :=
  let c := s.coreAt core
  s.setCoreAt core { c with busy := c.busy.set i (max (per * s.now) c.busy[i] + n) }
/-- It is still at work that it took on before. -/
def State.busyAt (s : State) (core : Nat) (i : Fin 20) (per : Nat) : Bool := decide (per * (s.now + 1) ≤ (s.coreAt core).busy[i])
/-- The cycle in which that work is through: this one, or the one at whose end the place has done what it was given (R43). -/
def State.throughAt (s : State) (core : Nat) (i : Fin 20) (per : Nat) : Nat :=
  max s.now (((s.coreAt core).busy[i] + per - 1) / per - 1)
/-- A core's engine behind a resource, which works off one unit of the resource per cycle (R43): a row, or 256 bytes. -/
def peakOf (res : Nat) : Option (Fin 20) := match res with | 2 => some 8 | 5 => some 9 | _ => none
/-- An engine takes on n units of work (R43). -/
def State.occupy (s : State) (res core n : Nat) : State :=
  match peakOf res with | none => s | some i => s.busyFor core i 1 n
/-- An engine is still at work it took on before (R43). -/
def State.atWork (s : State) (res core : Nat) : Bool := match peakOf res with | none => false | some i => s.busyAt core i 1
/-- The place in `busy` of the lanes granted to a hart, which do one element group of the hart per cycle (R43). -/
def lanesAt (hid : Nat) : Fin 20 := ⟨hid % 8, by omega⟩
/-- A charge of units, energy in 1/1024 µJ; it holds the engine that did the work. -/
def State.charge (s : State) (r res inst n : Nat) : State :=
  if n = 0 then s
  else { s with dev := { s.dev with used := s.dev.used.set (useKey r res inst) (s.usedOf r res inst + n) } }.occupy res inst n
/-- An energy charge, to the reservation and the device (R47). -/
def State.chargeEnergy (s : State) (r n : Nat) : State :=
  let t := s.charge r 7 0 n
  { t with dev := { t.dev with energy := t.dev.energy + n } }
/-- A reservation's full budget: for energy the total of its shares (R45). -/
def State.budget (s : State) (r res : Nat) : Nat :=
  if res = 7 then (s.dev.share.find r).getD ((s.rsvAt r).bud[7]).toNat
  else ((s.rsvAt r).bud.toList.getD res 0).toNat
/-- What remains of a budget in this frame; of energy in whole µJ, rounded down: the spec gives charges in 1/1024 µJ and
the budget in µJ, and no rounding (DESIGN CHOICE, log 60). -/
def State.remaining (s : State) (r res inst : Nat) : Nat :=
  if res = 7 then (1024 * s.budget r 7 - s.usedOf r 7 0) / 1024 else s.budget r res - s.usedOf r res inst
/-- Engine work of a hart that needs resources is held: of class G or N it finds a budget exhausted, of class N or B the
energy ceiling is reached (R46, R48). A surrender routine's work is never held (R324); a copy to or from the host
window counts as class B (R192). -/
def State.held (s : State) (h : Hart) (core : Nat) (surr host : Bool) (needs : List Nat) : Bool :=
  let c := if host then 0 else (s.rsvAt h.ownResv).cls
  !surr && ((c != 2 && s.dev.hold) ||
    (c != 0 && (7 :: needs).any (fun res => s.remaining h.ownResv res (instOf core res) == 0)))

/-! ### Stops of an instruction -/

/-- A trap: its cause and the faulting address, 0 if none (R126, R130). -/
structure Trap where
  cause : BitVec 8
  addr : Word := 0
  deriving DecidableEq, Repr

/-- Why an instruction does not go on: it traps, or it waits. -/
inductive Stop where
  | trap (t : Trap)
  | wait (w : Wait)
  deriving DecidableEq, Repr

/-- A trap of a cause at an address. -/
def trapAt {α : Type} (cause : BitVec 8) (a : Nat) : Except Stop α := .error (.trap ⟨cause, BitVec.ofNat 64 a⟩)

/-! ### Translation (R157, R158) -/

/-- What an access does. -/
inductive Acc where
  | read | write | exec | rmw
  deriving DecidableEq, Repr

/-- The HBM stack of a physical address: blocks of 4 KiB rotate over the 12 stacks (R23). -/
def stackOf (pa : Nat) : Nat := pa / 4096 % 12
/-- A physical address of HBM. -/
def inHbm (pa : Nat) : Bool := decide (pa < Config.hbmBytes)
/-- A physical address of the host window. -/
def inHost (pa : Nat) : Bool := decide (Config.hostWindow ≤ pa) && decide (pa < Config.physTop)

/-- Physical base in bits 51:16 of an entry. -/
def pteBase (p : Nat) : Nat := bits p 16 36 * 65536
/-- Log2 of the page size of a leaf: 16, 21 or 30. -/
def pteShift (p : Nat) : Nat := match bits p 7 2 with | 0 => 16 | 1 => 21 | _ => 30

/-- A malformed entry at a level (R158); size 3 counts as malformed at every level (log 12). -/
def pteBad (p lvl : Nat) : Bool :=
  let leaf := bits p 1 2 == 1
  bits p 52 4 != 0 || bits p 11 5 != 0 || decide (2 ≤ bits p 1 2) ||
  (leaf && decide (2 ≤ lvl)) || (bits p 1 2 == 0 && lvl == 0) ||
  (leaf && lvl == 1 && bits p 7 2 != 2) || (leaf && lvl == 0 && decide (2 ≤ bits p 7 2)) ||
  (leaf && pteBase p % 2 ^ pteShift p != 0) ||
  (bits p 1 2 == 0 && !inHbm (pteBase p)) ||
  (leaf && !(inHbm (pteBase p) || inHost (pteBase p))) ||
  (leaf && bit p 4 && !bit p 3)

/-- The table index of an address at a level (R157, R158). -/
def vaIndex (a lvl : Nat) : Nat := if lvl = 3 then bits a 55 2 else bits a (16 + 13 * lvl) 13

/-- The walk from a table page down to a leaf: the leaf's address and value, or the cause it meets. -/
def walk (m : Mem) (t a : Nat) : Nat → Except (BitVec 8) (Nat × Nat)
  | 0 =>
    let at_ := t + 8 * vaIndex a 0
    let p := m.read at_ 8
    if !bit p 0 then .error 0x11
    else if pteBad p 0 then .error 0x18
    else .ok (at_, p)
  | l + 1 =>
    let at_ := t + 8 * vaIndex a (l + 1)
    let p := m.read at_ 8
    if !bit p 0 then .error 0x11
    else if pteBad p (l + 1) then .error 0x18
    else if bits p 1 2 = 0 then walk m (pteBase p) a l
    else .ok (at_, p)

/-- The addresses of the entries that a walk reads. -/
def walkAt (m : Mem) (t a : Nat) : Nat → List Nat
  | 0 => [t + 8 * vaIndex a 0]
  | l + 1 =>
    let at_ := t + 8 * vaIndex a (l + 1)
    let p := m.read at_ 8
    at_ :: (if bit p 0 && !pteBad p (l + 1) && bits p 1 2 == 0 then walkAt m (pteBase p) a l else [])

/-- The copies of a leaf's entry: 32 level-0 entries for 2 MiB, 2 level-1 entries for 1 GiB (R157). -/
def pteCopies (p : Nat) : Nat := match bits p 7 2 with | 0 => 1 | 1 => 32 | _ => 2

/-- The copy an access translates through: its own entry, or where the copies differ a free choice (log 9), from which, where
that copy names a table, the walk goes on (R157); fuel bounds the levels. -/
def pickCopy (m : Mem) (free a : Nat) : Nat → Nat × Nat → Except (BitVec 8) (Nat × Nat)
  | 0, leaf => .ok leaf
  | k + 1, leaf =>
    let n := pteCopies leaf.2
    let base := leaf.1 - leaf.1 % (8 * n)
    if (List.range n).all (fun i => m.read (base + 8 * i) 8 == leaf.2) then .ok leaf
    else
      let at_ := base + 8 * (free % n)
      let p := m.read at_ 8
      if !bit p 0 then .error 0x11
      else if pteBad p (if n = 2 then 1 else 0) then .error 0x18
      else if bits p 1 2 = 1 then .ok (at_, p)
      else match walk m (pteBase p) a 0 with
        | .error c => .error c
        | .ok x => pickCopy m free a k x

/-- Whether a leaf allows an access (R158). -/
def pteAllows (p : Nat) (user : Bool) : Acc → Bool
  | .read => bit p 3 && (!user || bit p 6)
  | .write => bit p 4 && (!user || bit p 6)
  | .exec => bit p 5 && (!user || bit p 6)
  | .rmw => bit p 3 && bit p 4 && (!user || bit p 6)

/-- Whether an access sets the dirty bit. -/
def Acc.dirties : Acc → Bool
  | .read | .exec => false
  | .write | .rmw => true

/-- An uncorrectable soft error stands in n bytes of HBM (R366). -/
def State.rotten (s : State) (pa n : Nat) : Bool :=
  match s.dev.latent with
  | none => false
  | some x => x.loc == 3 && decide (pa ≤ x.addr) && decide (x.addr < pa + n)
/-- The leaf of an address in the context of `who` as the tables stand, by the core's root (R158, R159); an entry that holds a
soft error fails the request with cause 0x52 (R366). -/
def State.walkOf (s : State) (who : Who) (a : Nat) : Except (BitVec 8) (Nat × Nat) :=
  let root := ((s.coreAt who.core).ptroot.toList.getD who.fn 0).toNat
  if !bit root 0 then .error 0x11
  else if s.dev.latent.isSome && (walkAt s.mem (pteBase root) a 3).any (fun x => s.rotten x 8) then .error 0x52
  else match walk s.mem (pteBase root) a 3 with
    | .error c => .error c
    | .ok leaf => pickCopy s.mem (Config.pteCopy s.fresh s.now who.core a) a 2 leaf

/-- A kept translation covers an address of a context, and an access through it would set no bit of an entry that has
changed since it was read (R158, R160). -/
def Tlb.serves (e : Tlb) (m : Mem) (ctx a : Nat) : Bool :=
  e.ctx == ctx && decide (e.page ≤ a) && decide (a < e.page + 2 ^ pteShift e.pte) &&
    ((bit e.pte 9 && (bit e.pte 10 || !bit e.pte 4)) || m.read e.at_ 8 == e.pte)

/-- The leaf an access translates through: one the core keeps, else that of a walk (R158, R160). -/
def State.leafOf (s : State) (who : Who) (a : Nat) : Except (BitVec 8) (Nat × Nat) :=
  match (s.coreAt who.core).tlb.find? (fun e => e.serves s.mem who.fn a) with
  | some e => .ok (e.at_, e.pte)
  | none => s.walkOf who a

/-- Translations of a context dropped from a core: all of them, or those that cover an address (R159). -/
def Core.dropTlb (c : Core) (ctx : Nat) (va : Option Nat) : Core :=
  { c with tlb := c.tlb.filter (fun e => !(e.ctx == ctx &&
      (match va with | some a => decide (e.page ≤ a) && decide (a < e.page + 2 ^ pteShift e.pte) | none => true))) }

/-- The physical address a leaf gives. -/
def leafPa (p a : Nat) : Nat := pteBase p + a % 2 ^ pteShift p

/-- A touch of an HBM page: 1 through a unit stream, 3 through an indexed one, 2 otherwise (R166). -/
def State.touch (s : State) (pa kind : Nat) : State :=
  if kind = 0 || !inHbm pa then s
  else
    let k := pa / 65536
    { s with dev := { s.dev with use := s.dev.use.set k (max ((s.dev.use.find k).getD 0) kind) } }

/-- Xlate with its accessed and dirty bits, for a 57-bit address, an access and a kind of touch (R158, R166). -/
def State.xlate (s : State) (who : Who) (a : Nat) (acc : Acc) (kind : Nat) : Except (BitVec 8) (State × Nat) :=
  match s.leafOf who a with
  | .error c => .error c
  | .ok (at_, p) =>
    if !pteAllows p who.user acc then .error 0x12
    else
      let p1 := p ||| 0x200 ||| (if acc.dirties then 0x400 else 0)
      let s1 := if p1 = p then s else { s with mem := s.mem.write at_ 8 p1 }
      let pa := leafPa p a
      .ok (s1.touch pa kind, pa)

/-- The clock of a die runs (R370): 0 to 3 are the compute dies, 4 the I/O die, 5 and above the base dies of the stacks (log 53). -/
def State.dieRuns (s : State) (die : Nat) : Bool := !bit s.dev.held.toNat die
/-- The I/O die, with the service cores and the port to the host (R24). -/
def ioDie : Nat := 4
/-- The base die of a stack, with its applier (R23). -/
def baseDie (stack : Nat) : Nat := 5 + stack

/-- A function is a TDI that is not running: its BAR0 and its DMA are shut, and it takes no submissions (R365). -/
def State.tdiShut (s : State) (f : Nat) : Bool := match (s.fnAt f).tdi with | none => false | some t => t != .running
/-- The way of a function to the host window is shut: its TDI does not run, or the clock of the I/O die is held (R365, R370). -/
def State.hostShut (s : State) (f : Nat) : Bool := s.tdiShut f || !s.dieRuns ioDie
/-- A device-virtual address checked and translated: cause 0x14, 0x11, 0x18 or 0x12 with the address (R97). One in the host
window waits while the DMA of its function is shut (R365; log 29). -/
def State.dv (s : State) (who : Who) (a : Nat) (acc : Acc) (kind : Nat) : Except Stop (State × Nat) :=
  if 2 ^ 57 ≤ a then trapAt 0x14 a
  else match s.xlate who a acc kind with
    | .error c => trapAt c a
    | .ok r => if inHost r.2 && s.hostShut who.fn then .error (.wait .port) else .ok r

/-! ### The Square and its bays (R314 to R316, R321, R327) -/

/-- The bay table entry of a handle. -/
def Clus.bay (c : Clus) (h : Nat) : Bay := (c.bays.find h).getD {}
/-- The cluster with a bay table entry replaced. -/
def Clus.setBay (c : Clus) (h : Nat) (b : Bay) : Clus := { c with bays := c.bays.set h b }

/-- Units neither held nor promised to pending bays, sqfree (R317). -/
def Clus.free (c : Clus) : Nat :=
  Config.squareUnits - (c.bays.foldl (fun n kb =>
    n + (match kb.2.st with | .free => 0 | .held => kb.2.units | .pending => kb.2.got)) 0)

/-- The bay an agent of a gang reaches by a handle: its size in bytes, a wait, or a cause (R314). A supervisor hart is of
no gang and reaches none, not one that it has taken itself, of which the spec says nothing (DESIGN CHOICE, log 77). -/
def State.reach (s : State) (who : Who) (cl h : Nat) : Except Stop Nat :=
  let b := (s.clusAt cl).bay h
  match b.st with
  | .held => if b.gang = who.gang && who.gang != 0 then .ok (b.units * Config.unitBytes) else trapAt 0x40 0
  | .pending => if b.gang = who.gang && who.gang != 0 then .error (.wait (.bay cl h)) else trapAt 0x40 0
  | .free => if h != 0 && b.lastGang = who.gang && who.gang != 0 then trapAt 0x43 0 else trapAt 0x40 0

/-- A Square address checked for n bytes: cause 0x14 above bit 31, the bay's cause, 0x17 past its size (R97, R303). -/
def State.sq (s : State) (who : Who) (a n : Nat) : Except Stop Nat :=
  if 2 ^ 32 ≤ a then trapAt 0x14 a
  else match s.reach who who.clus (a / 2 ^ 24) with
    | .error (.trap t) => trapAt t.cause a
    | .error w => .error w
    | .ok size => if a % 2 ^ 24 + n ≤ size then .ok a else trapAt 0x17 a

/-- Free units given to pending bays that lack some, in order of acceptance (R321). -/
def Clus.give (c : Clus) (n : Nat) : Clus :=
  let lacking := (c.bays.filter (fun kb => kb.2.st == .pending && decide (kb.2.got < kb.2.units)))
  let order := lacking.foldr (fun kb acc =>
    (acc.filter (fun x => decide (x.2.order < kb.2.order))) ++ kb :: acc.filter (fun x => decide (kb.2.order ≤ x.2.order))) []
  (order.foldl (fun cn kb =>
    let take := min cn.2 (kb.2.units - kb.2.got)
    (cn.1.setBay kb.1 { kb.2 with got := kb.2.got + take }, cn.2 - take)) (c, n)).1

/-- A recall over: rcend reads 0, and so does every field of rcinfo, of which the spec says so of `open` alone (R317; DESIGN
CHOICE, log 88). -/
def BayRegs.ended (b : BayRegs) : BayRegs :=
  { b with isOpen := false, counting := false, rcend := 0, ucnt := 0, lb := 0, rqcls := 0, aleft := 0, rqrsv := 0, handle := 0 }

/-- A bay released at one cycle: its bytes are dropped, its recall ends, and its units go to the bay it was recalled
for, up to what that bay lacks, or else to pending bays in order of acceptance (R316, R321, R323). Where the bay it was
recalled for is granted already, they too go to pending bays before they are free (DESIGN CHOICE, log 78). -/
def State.releaseBay (s : State) (cl h : Nat) : State :=
  let c := s.clusAt cl
  let b := c.bay h
  -- a pending bay has only the units that came to it
  let n := match b.st with | .pending => b.got | _ => b.units
  let rec? := c.recalls.find? (fun r => r.victim == h)
  let c1 : Clus := { c with
    bays := c.bays.filter (fun kb => kb.1 != h)
    square := c.square.clear (h * 2 ^ 24) ((h + 1) * 2 ^ 24)
    recalls := c.recalls.filter (fun r => r.victim != h) }
  let c2 : Clus := match rec? with
    | some r =>
      let w : Bay := c1.bay r.forBay
      if w.st == .pending then c1.setBay r.forBay { w with got := min w.units (w.got + n) } else c1.give n
    | none => c1.give n
  let s1 := s.setClusAt cl (c2.setBay h { st := .free, lastGang := b.gang })
  let hd := s1.hartAt b.holder
  if hd.bay.isOpen && hd.bay.handle.toNat == h && decide (b.holder / 64 = cl) then
    -- in a routine the count runs on to its bay.ret (R326)
    s1.setHartAt b.holder { hd with bay := if hd.surr.isSome then { hd.bay with isOpen := false, rcend := 0 } else hd.bay.ended }
  else s1

/-- A forced release: the bay goes at once, and baylost of its holder says so (R328). -/
def State.forceRelease (s : State) (cl h : Nat) : State :=
  let b := (s.clusAt cl).bay h
  let s1 := s.releaseBay cl h
  if 4096 ≤ b.holder then
    s1.setMember b.gang.toNat (awayIdx b.holder) (fun m => { m with awayLost := some (BitVec.ofNat 8 h) })
  else
    let hd := s1.hartAt b.holder
    s1.setHartAt b.holder { hd with bay := { hd.bay with lost := true, lostHandle := BitVec.ofNat 8 h } }

/-! ### The trap ring (R128) -/

/-- A record's 64 bytes as one little-endian number (R130). -/
def Record.image (r : Record) : Nat :=
  0x00090001 + r.cause.toNat * 2 ^ 32 + r.engine.toNat * 2 ^ 40 + r.ocause.toNat * 2 ^ 48 + r.flags.toNat * 2 ^ 56
  + r.ipc.toNat * 2 ^ 64 + r.word.toNat * 2 ^ 128 + r.hid.toNat * 2 ^ 160 + r.gang.toNat * 2 ^ 176
  + r.rpc.toNat * 2 ^ 192 + r.addr.toNat * 2 ^ 256 + r.estart.toNat * 2 ^ 320 + r.rowstart.toNat * 2 ^ 352
  + r.pfx.toNat * 2 ^ 384 + r.time.toNat * 2 ^ 448

/-- The supervisor's accesses at a core, which write the trap ring. -/
def supWho (core : Nat) : Who := { core := core, clus := core / 8, fn := 0, user := false, gang := 0 }

/-- An error record in a function's ring of 256; the oldest is overwritten when it is full (R366). -/
def State.errorRecord (s : State) (f : Nat) (loc unit hid : Nat) (pa dva : Word) : State :=
  let x := s.fnAt f
  let w0 := BitVec.ofNat 64 (0x52 + loc * 2 ^ 8 + unit * 2 ^ 16 + hid * 2 ^ 32)
  s.setFnAt f { x with errs := x.errs.set (x.ertail.toNat % 256) #v[w0, pa, s.time, dva], ertail := x.ertail + 1 }

/-- A soft error that stood in data has been met by a request of function f at address dva: its record goes to that function,
with a device-virtual address where the data lies in HBM, and 0 else (R366). -/
def State.errorMet (s : State) (f hid : Nat) (dva : Word) : State :=
  match s.dev.latent with
  | none => s
  | some x => { s with dev := { s.dev with latent := none } }.errorRecord f x.loc x.unit hid (BitVec.ofNat 64 x.addr)
      (if x.loc = 3 then dva else 0)

/-- The first pending record of a core written to its ring with the new tail behind it, if the ring has room and both
stores can be performed (R128). A soft error met in a page table fails the request and is gone (R366). -/
def State.ringOne (s : State) (k : Nat) : Option State :=
  let c := s.coreAt k
  match c.pend with
  | [] => none
  | r :: rest =>
    let n := 2 ^ c.tqlen.toNat
    if c.tqbase = 0 || (c.tqtail - c.tqhead).toNat == n then none
    else
      let a := c.tqbase.toNat + 64 * (c.tqtail.toNat % n)
      let b := c.tqbase.toNat + 64 * n
      let failed (e : Stop) : Option State :=
        match e with | .trap t => if t.cause = 0x52 then some (s.errorMet 0 0xFFFF t.addr) else none | .wait _ => none
      match s.dv (supWho k) a .write 2 with
      | .error e => failed e
      | .ok (s1, pa) =>
        match s1.dv (supWho k) b .write 2 with
        | .error e => failed e
        | .ok (s2, pb) =>
          let m := (s2.mem.write pa 64 r.image).write pb 8 (c.tqtail + 1).toNat
          some ({ s2 with mem := m }.setCoreAt k { c with tqtail := c.tqtail + 1, pend := rest })

/-- Pending records written in order, as many as can be; fuel bounds their number. -/
def State.ringAll (s : State) (k : Nat) : Nat → State
  | 0 => s
  | n + 1 => match s.ringOne k with | some t => t.ringAll k n | none => s

/-- The pending records of a core tried again (R128). -/
def State.ringRetry (s : State) (k : Nat) : State := s.ringAll k ((s.coreAt k).pend.length + b2n s.dev.latent.isSome)

/-- A record posted at a core: written at once, or where records are pending already, put behind them. -/
def State.postRecord (s : State) (k : Nat) (r : Record) : State :=
  let c := s.coreAt k
  let s1 := s.setCoreAt k { c with pend := c.pend ++ [r] }
  if c.pend.isEmpty then s1.ringRetry k else s1

/-! ### Tokens and prefixes (R35, R36, R60 to R62) -/

/-- Fields of a prefix word (R18, R85). -/
def pfxMask (w : BitVec 32) : Nat := bits w.toNat 21 5
def pfxCopy (w : BitVec 32) : Nat := bits w.toNat 16 5
def pfxPop (w : BitVec 32) : Nat := bits w.toNat 12 4
def pfxPush (w : BitVec 32) : Nat := bits w.toNat 8 4
def pfxHint (w : BitVec 32) : Nat := bits w.toNat 0 4

/-- Producer of a token FIFO (R17). -/
def tokProducer (id : Nat) : Eng :=
  if id ≤ 3 then .s else if id ≤ 6 then .v else if id ≤ 9 then .m else .c
/-- Consumer of a token FIFO (R17). -/
def tokConsumer : Nat → Eng
  | 1 | 8 | 11 => .v
  | 2 | 5 | 12 => .m
  | 3 | 6 | 9 => .c
  | _ => .s

/-- Prefix fields that break R62 or the engine rule of R35 before an instruction of an engine. -/
def pfxMisuse (w : BitVec 32) (e : Eng) (maskable vecResult : Bool) : Bool :=
  (pfxMask w != 0 && !maskable) || (pfxCopy w != 0 && !vecResult) ||
  (pfxPop w != 0 && tokConsumer (pfxPop w) != e) || (pfxPush w != 0 && tokProducer (pfxPush w) != e)

/-- Deposited tokens of a FIFO. -/
def Hart.tokens (h : Hart) (id : Nat) : Nat := h.tok.toList.getD id 0
/-- Reserved pushes of a FIFO. -/
def Hart.reserved (h : Hart) (id : Nat) : Nat := h.tokres.toList.getD id 0
/-- A token taken. -/
def Hart.takeTok (h : Hart) (id : Nat) : Hart :=
  { h with tok := h.tok.setIfInBounds id (h.tokens id - 1), pops := h.pops.setIfInBounds id (h.pops.toList.getD id 0 + 1) }
/-- A push reserved. -/
def Hart.reserveTok (h : Hart) (id : Nat) : Hart := { h with tokres := h.tokres.setIfInBounds id (h.reserved id + 1) }
/-- A reserved push given up. -/
def Hart.unreserveTok (h : Hart) (id : Nat) : Hart := { h with tokres := h.tokres.setIfInBounds id (h.reserved id - 1) }
/-- A reserved push that may be none given up. -/
def Hart.unreserve (h : Hart) (push : Nat) : Hart := if push = 0 then h else h.unreserveTok push
/-- A reserved push deposited. -/
def Hart.depositTok (h : Hart) (id : Nat) : Hart :=
  { h.unreserveTok id with tok := h.tok.setIfInBounds id (h.tokens id + 1) }
/-- The deposit of a push that may be none. -/
def Hart.deposit (h : Hart) (push : Nat) : Hart := if push = 0 then h else h.depositTok push
/-- An access in stream S that can still trap: any but a token (R99). -/
def SAcc.risky (x : SAcc) : Bool := x.back.isSome
/-- Tokens of a FIFO taken behind an access that can still trap: they come back if it does, and keep their slots till then
(R99; log 26). -/
def Hart.heldToks (h : Hart) (id : Nat) : Nat :=
  match h.ss.findSome? (fun x => x.back) with
  | none => 0
  | some b => h.pops.toList.getD id 0 - b.pops.toList.getD id 0
/-- Slots of a FIFO that are taken: by deposited and reserved tokens (R35), and by those that may come back. -/
def Hart.slotsTaken (h : Hart) (id : Nat) : Nat := h.tokens id + h.reserved id + h.heldToks id
/-- A FIFO with no free slot: 8 are taken (R35). -/
def Hart.fullTok (h : Hart) (id : Nat) : Bool := decide (Config.qdtok ≤ h.slotsTaken id)

/-- What an instruction waits for whose pushes do not all find a slot: the first FIFO that lacks them (R33, R35). -/
def Hart.pushWait (h : Hart) (l : List Nat) : Wait :=
  match l.find? (fun id => decide (Config.qdtok < h.slotsTaken id + l.count id)) with
  | some id => if l.count id = 1 then .push id else .pushes id (l.count id)
  | none => .push 0

/-- The pop of a prefix that is still to be taken. -/
def popOf : Option (BitVec 32 × Bool) → Nat
  | some (w, false) => pfxPop w
  | _ => 0
/-- The push of a prefix. -/
def pushOf : Option (BitVec 32 × Bool) → Nat
  | some (w, _) => pfxPush w
  | none => 0

/-! ### Taking a trap and returning from one (R127, R138) -/

/-- pfxsave as its 64 bits (R73). -/
def PfxSave.toWord (p : PfxSave) : Word :=
  BitVec.ofNat 64 (p.word.toNat + 2 ^ 62 * b2n p.popd + 2 ^ 63 * b2n p.pend)

/-- What a trap or a pre-emption finds of a prefix pair: a live prefix becomes the saved one, and pfxsave belongs to the
hart's pc from then on, whatever is written into it (R61, R86). -/
def Hart.savePfx (h : Hart) : Hart :=
  match h.pfx with
  | some (w, popd) => { h with pfx := none, pfxOld := false, pfxPc := h.pc, pfxsave := { pend := true, popd := popd, word := w } }
  | none => { h with pfxPc := h.pc, pfxsave := { h.pfxsave with pend := false, popd := false } }

/-- A wait that a dispatched instruction stays parked on (R111, R123, R154). -/
def Wait.parks : Wait → Bool
  | .wtime .. | .qwait .. | .gbar .. => true
  | _ => false
/-- A hart taken off its wait: the push that a parked instruction had reserved is released (R86). -/
def Hart.unpark (h : Hart) : Hart :=
  match h.wait with
  | none => h
  | some w => { (if w.kind.parks then h.unreserve (pushOf h.pfx) else h) with wait := none }

/-- Where a trap arose: engine number of R130, pc and word of the instruction, the element and row it stopped at, and
whether it is imprecise. -/
structure TrapSite where
  engine : BitVec 8 := 0
  ipc : Word := 0
  word : BitVec 32 := 0
  estart : BitVec 32 := 0
  rowstart : BitVec 32 := 0
  imprecise : Bool := false
  deriving DecidableEq, Repr

/-- The pushes an entry has reserved: its prefix's and its completion's (R35, R187). -/
def Entry.pushes (en : Entry) : List Nat :=
  (match en.pfx with | some w => if pfxPush w = 0 then [] else [pfxPush w] | none => []) ++
  (match en.instr with
    | .cpGo o => if o.comp = 0 then [] else [9 + o.comp.toNat]
    | .cpXpd o => if o.comp = 0 then [] else [9 + o.comp.toNat]
    | _ => [])
/-- Entries discarded: the pushes they reserved are released. -/
def Hart.discard (h : Hart) (l : List Entry) : Hart :=
  l.foldl (fun x en => en.pushes.foldl (fun y id => y.unreserveTok id) x) h

/-- An access waits in stream S that can still trap (R99). -/
def Hart.unsettled (h : Hart) : Bool := h.ss.any SAcc.risky
/-- An entry of a queue was dispatched behind an access that can still trap: it does not begin, so that the trap finds nothing
done that is not undone (R99; log 26). -/
def Hart.behind (h : Hart) (en : Entry) : Bool :=
  match h.ss.find? SAcc.risky with
  | some x => decide (x.seq < en.seq)
  | none => false
/-- The head of a queue is such an entry. -/
def Hart.headBehind (h : Hart) (l : List Entry) : Bool := match l with | en :: _ => h.behind en | [] => false
/-- An access in stream S given up: the pushes it reserved are released. -/
def Hart.dropS (h : Hart) (x : SAcc) : Hart :=
  let h1 := h.unreserve x.push
  match x.kind with | .token id => h1.unreserveTok id | _ => h1
/-- The shape registers as they were before the cp.shape instructions of a list, each of which keeps what it replaced (R190). -/
def Hart.unshape (h : Hart) (l : List Entry) : Hart :=
  l.foldr (fun en x => match en.instr with | .cpShape ck _ _ => { x with c := x.c.set ck.toNat en.shape } | _ => x) h
/-- The hart as it was before its first access in stream S that can still trap: that one and all behind it count as not
dispatched, the engine instructions among them, which have not begun (R99, R127; log 26). -/
def Hart.rollBack (h : Hart) : Hart :=
  match h.ss.dropWhile (fun x => !x.risky) with
  | [] => h
  | x :: t =>
    match x.back with
    | none => h
    | some b =>
      let after (e : Entry) : Bool := decide (x.seq < e.seq)
      let h1 := (x :: t).foldl Hart.dropS ((h.discard ((h.vq ++ h.mq ++ h.cq).filter after)).unshape (h.cq.filter after))
      { h1 with
        ss := h.ss.takeWhile (fun x => !x.risky), regs := b.regs, fflags := b.fflags, pc := x.pc
        vq := h.vq.filter (fun e => !after e), mq := h.mq.filter (fun e => !after e), cq := h.cq.filter (fun e => !after e)
        tok := Vector.ofFn (fun i => h1.tok[i] + (h.pops[i] - b.pops[i])), pops := b.pops, srcDl := h.srcDl.set 0 b.dl
        pfx := b.pfx.map (fun w => (w, true)), pfxOld := false, wait := none }

/-- A stream register with its watch disarmed: its watch address and offset read 0 (DESIGN CHOICE, log 62). -/
def Stream.disarm (x : Stream) : Stream := { x with armed := false, waddr := 0, woff := 0 }
/-- The stream registers after a pending change (R148, R153). -/
def Entry.changeStream (en : Entry) (v : Vector Stream 16) : Vector Stream 16 :=
  match en.instr with
  | .qld q .. => v.set q.toNat en.str
  | .qbase q _ => v.set q.toNat { v[q.toNat].disarm with base := en.op1, cursor := 0, loaded := true }
  | .qstride q _ => v.set q.toNat { v[q.toNat] with stride := en.op1, loaded := true }
  | .qbound q _ => v.set q.toNat { v[q.toNat] with bound := en.op1, loaded := true }
  | .qcur q _ => v.set q.toNat (if en.op2 = 1 then { v[q.toNat] with cursor := v[q.toNat].cursor + en.op1 }
      else { v[q.toNat] with cursor := en.op1, loaded := true })
  | .qcfg q _ => v.set q.toNat { v[q.toNat] with cfg := BitVec.ofNat 32 en.op1.toNat, loaded := true }
  | .qrel q => v.set q.toNat {}
  | .qwatch _ _ q => v.set q.toNat { v[q.toNat] with armed := true, waddr := en.op1, woff := en.op2 }
  | .qunwatch q => v.set q.toNat v[q.toNat].disarm
  | _ => v

/-- The stream register that an instruction changes (R150). -/
def changeOf : Instr → Option (BitVec 4)
  | .qld q .. | .qbase q _ | .qstride q _ | .qbound q _ | .qcur q _ | .qcfg q _ | .qrel q | .qwatch _ _ q | .qunwatch q => some q
  | _ => none
/-- A later change of the same stream writes all that this one writes. -/
def Entry.covers (new old : Entry) : Bool :=
  changeOf old.instr == changeOf new.instr && match new.instr, old.instr with
    | .qld .., _ | .qrel _, _ => true
    | .qbase .., .qbase .. | .qbase .., .qcur .. | .qbase .., .qwatch .. | .qbase .., .qunwatch _ => true
    | .qstride .., .qstride .. | .qbound .., .qbound .. | .qcfg .., .qcfg .. => true
    | .qcur .., .qcur .. => new.op2 != 1
    | .qwatch .., .qwatch .. | .qwatch .., .qunwatch _ | .qunwatch _, .qwatch .. | .qunwatch _, .qunwatch _ => true
    | _, _ => false
/-- The advance of a cursor by an instruction of a surrender routine, as a change that stands behind the entries set aside:
a `qcur` with op2 = 1 adds (R143, R150). -/
def Entry.advance (q : BitVec 4) (n : Word) (seq : Nat) : Entry := { instr := .qcur q 0, op1 := n, op2 := 1, seq := seq }
/-- What a routine has changed of the streams, with one more change; two advances of a cursor in a row are one. -/
def addChange (l : List Entry) (e : Entry) : List Entry :=
  match l.reverse with
  | y :: t =>
    if e.op2 = 1 && y.op2 = 1 && y.word = 0 && e.word = 0 && changeOf y.instr == changeOf e.instr then t.reverse ++ [{ y with op1 := y.op1 + e.op1 }]
    else l.filter (fun x => !e.covers x) ++ [e]
  | [] => [e]

/-- The stream registers and the vector queue once a surrender routine is over: the entries it set aside find the
streams as they stood, and the routine's changes, and the advances that its own instructions made, stand behind them
(R143, R150; log 32). -/
def Hart.backStreams (h : Hart) (x : Surr) : Vector Stream 16 × List Entry :=
  if x.vq.isEmpty then (h.q, []) else (x.q, x.vq ++ x.chg.map (fun e => { e with surr := false }))

/-- A surrender routine ended by a trap or an overrun: the bank goes back, its instructions that stand in queues or wait in
stream S are dropped, and the recalled bay is force-released (R328). -/
def State.endRoutine (s : State) (hid : Nat) : State :=
  let h := s.hartAt hid
  match h.surr with
  | none => s
  | some x =>
    let regs := (List.range 8).foldl (fun r i => r.setIfInBounds (24 + i) (x.bank.toList.getD i 0)) h.regs
    let own (l : List Entry) : List Entry := l.filter (fun e => e.surr)
    let rest (l : List Entry) : List Entry := l.filter (fun e => !e.surr)
    let keep := match h.vq with | e :: _ => !e.surr | [] => false
    let back := h.backStreams x
    let vec := { h.vec with
      estart := if keep then h.vec.estart else x.estart
      rowstart := if keep then h.vec.rowstart else x.rowstart }
    let h1 := { (h.ss.filter (fun x => x.surr)).foldl Hart.dropS (h.discard (own h.vq ++ own h.mq ++ own h.cq)) with
      ss := h.ss.filter (fun x => !x.surr), surr := none, pc := x.pc, regs := regs, pfx := none, pfxOld := false, pfxPc := x.pc, pfxsave := x.pfx, vec := vec
      q := back.1, vq := rest h.vq ++ back.2, mq := rest h.mq, cq := rest h.cq }
    let s1 := s.setHartAt hid h1
    if h.bay.isOpen then s1.forceRelease (hid / 64) h.bay.handle.toNat
    else s1.setHartAt hid { h1 with bay := h1.bay.ended }

/-- A hart stops dispatch to be suspended: its prefix is saved, the header of its frame written, and its recalled bay, if a
recall is open outside a routine, force-released (R127, R130, R328). `post` says that a record is to be posted. What a
surrender routine ends for is recorded as R328 says of its own instructions, also where an instruction dispatched before it
traps, of which the spec says nothing (DESIGN CHOICE, log 89). -/
def State.beginSuspend (s : State) (hid : Nat) (t : Trap) (site : TrapSite) (post : Bool) : State :=
  let s0 := s.setHartAt hid (s.hartAt hid).unpark
  let h0 := s0.hartAt hid
  let inRoutine := h0.surr.isSome
  let s1 := if inRoutine then s0.endRoutine hid
    else if h0.bay.isOpen then s0.forceRelease (hid / 64) h0.bay.handle.toNat else s0
  let h1 := s1.hartAt hid
  let h := if inRoutine then h1 else h1.savePfx
  let flags := b2n site.imprecise + 2 * b2n inRoutine + 4 * b2n h.pfxsave.pend
  s1.setHartAt hid { h with
    run := .suspending, wait := none, post := post, preempt := false,
    hdr := {
      cause := if inRoutine then (if t.cause = 0x42 then 0x42 else 0x41) else t.cause
      engine := if inRoutine then 5 else site.engine
      ocause := if inRoutine && t.cause != 0x42 then t.cause else 0
      flags := BitVec.ofNat 8 flags
      ipc := site.ipc, word := site.word
      hid := BitVec.ofNat 16 hid, gang := h.gang
      rpc := h.pc, addr := t.addr
      estart := site.estart, rowstart := site.rowstart
      pfx := h.pfxsave.toWord, time := s.time } }

/-- Taking a trap: the hart is suspended and its record posted (R127 to R129). -/
def State.takeTrap (s : State) (hid : Nat) (t : Trap) (site : TrapSite) : State :=
  (if t.cause = 0x52 then s.errorMet (s.whoOf hid).fn hid t.addr else s).beginSuspend hid t site true

/-- The suspension completes: accepted work that has not completed is voided, and the record goes to the core's trap
ring, or for a supervisor to the service cores (R127 to R129). -/
def State.endSuspend (s : State) (hid : Nat) : State :=
  let h := s.hartAt hid
  -- the flags that a vwait has found met stay so where its own fault stops it (R282, R288)
  let own (e : Entry) : Bool := bit h.hdr.flags.toNat 0 && h.hdr.engine == 2 && e.started && e.pc == h.hdr.ipc
  let void (c : Entry → Bool) (e : Entry) : Entry :=
    let e1 := if e.isVec then { e with prog := 0, met := if own e && (match e.instr with | .vwait .. => true | _ => false) then e.met else [] } else e
    if !e.isMove && !e.done && c e then { e1 with voided := true } else e1
  let h1 := { h with
    run := .suspended, post := false, vq := h.vq.map (void (fun _ => false)), mq := h.mq.map (void (fun e => e.started))
    cq := h.cq.map (void (fun e => e.deadline != 0)) }
  let s1 := s.setHartAt hid h1
  if !h.post then s1
  else if h.sup then { s1 with dev := { s1.dev with svc := s1.dev.svc ++ [h.hdr] } }
  else s1.postRecord (hid / 8) h.hdr

/-- Returning a suspended or loaded hart to its resume pc: the saved prefix is applied if that is the pc it was saved at
(R61, R86, R138). -/
def Hart.resume (h : Hart) : Hart :=
  { h with
    run := .running, wait := none, age := 0, pc := h.hdr.rpc
    pfx := if h.pfxsave.pend && h.hdr.rpc == h.pfxPc then some (h.pfxsave.word, h.pfxsave.popd) else none
    pfxOld := true
    pfxsave := { h.pfxsave with pend := false, popd := false } }

/-- The engine number a precise trap of a word is recorded with: that of the word's unit (R57, R130; log 6). -/
def unitOf (w : BitVec 32) : BitVec 8 :=
  match bits w.toNat 26 6 with
  | 0x11 | 0x12 => 1 | 0x24 | 0x25 => 4 | 0x26 => 5 | 0x27 => 6 | _ => 0

/-- A precise trap of the acting hart's instruction: pc, word and prefix are those before it. -/
def State.trapSeq (s : State) (t : Trap) : State :=
  s.takeTrap s.cur t { engine := unitOf s.ir, ipc := s.hart.pc, word := s.ir }

/-! ### Waiting, retiring, and the frames of sequencer instructions -/

/-- A wait at which the instruction has not been dispatched (R33): the hart is chosen again once it is over. -/
def Wait.holds : Wait → Bool
  | .admission _ | .wtime .. | .gbar _ | .qwait .. | .hend => false
  | _ => true

/-- A prefix goes with its successor: where that cannot be dispatched, neither is, and the hart stands at the prefix
word again (R122). One out of pfxsave belongs to the successor's pc and stays (R61). -/
def Hart.rewind (h : Hart) : Hart :=
  if h.pfx.isSome && !h.pfxOld then
    { h with pfx := none, pc := (h.pc - 4) &&& pcMask
             bay := if h.bay.counting then { h.bay with ucnt := h.bay.ucnt - 1 } else h.bay }
  else h

/-- The acting hart waits: nothing has changed, and the wait began now unless the same wait goes on (R33, R37). -/
def State.waitFor (s : State) (w : Wait) : State :=
  let h := if w.holds then s.hart.rewind else s.hart
  let now : Waiting := match h.wait with | some x => if x.kind = w then x else ⟨w, s.time, none⟩ | none => ⟨w, s.time, none⟩
  s.setHart { h with wait := some now, tested := s.time }

/-- A surrender unit counted while a recall's count runs (R326). -/
def Hart.count (h : Hart) (n : Nat) : Hart :=
  if h.bay.counting then { h with bay := { h.bay with ucnt := h.bay.ucnt + n } } else h

/-- A sequencer instruction retires to a new pc: its prefix and its wait are over, and it counts one surrender unit. -/
def Hart.retireTo (h : Hart) (pc : Word) : Hart := { h.count 1 with pc := pc, pfx := none, wait := none }
/-- To the next word. -/
def Hart.advance (h : Hart) : Hart := h.retireTo ((h.pc + 4) &&& pcMask)

/-- What becomes of a sequencer instruction once its body has run: it retires, parks on a wait, or stands in a queue. -/
inductive After where
  | retire
  | park (w : Wait)
  | queue
  deriving DecidableEq, Repr

/-- The acting hart with the pop of its prefix taken (R35): from here on the prefix counts as dispatched (R86). -/
def State.afterPop (s : State) : State :=
  let h := s.hart
  match h.pfx with
  | none => s
  | some _ => s.setHart { (if popOf h.pfx = 0 then h else h.takeTok (popOf h.pfx)) with pfx := h.pfx.map (fun p => (p.1, true)) }

/-- The frame of a prefixable sequencer instruction (R35, R85, R86, R88). `early` is a cause of 0x02 or 0x05, `late`
one of 0x06 or 0x15. The body runs after the prefix's pop is taken and its push reserved; the push is deposited when it
retires. A trap of the body leaves all as before it, but for the pop, which stays taken (R86). A body that parks
has been dispatched: the hart stays on its wait with the pop taken and the push reserved. One that queues leaves its
push to the queue's entry. -/
def State.frame (s : State) (early late : Option (BitVec 8)) (body : State → Except Stop (State × After)) : State :=
  let h := s.hart
  match early with
  | some c => s.trapSeq ⟨c, 0⟩
  | none =>
  if (match h.pfx with | some (w, _) => pfxMisuse w .s false false | none => false) then s.trapSeq ⟨0x03, 0⟩
  else match late with
  | some c => s.trapSeq ⟨c, 0⟩
  | none =>
  let pop := popOf h.pfx
  let push := pushOf h.pfx
  if pop != 0 && h.tokens pop == 0 then s.waitFor (.pop pop)
  else if push != 0 && h.fullTok push then s.waitFor (.push push)
  else
    let s1 := s.afterPop
    let s2 := if push = 0 then s1 else s1.setHart (s1.hart.reserveTok push)
    match body s2 with
    | .error (.trap t) => s1.trapSeq t
    | .error (.wait w) => s.waitFor w
    | .ok (s3, .park w) => s3.setHart { s3.hart with wait := some { kind := w, since := s.time } }
    | .ok (s3, .queue) => s3.setHart s3.hart.advance
    | .ok (s3, .retire) => s3.setHart (s3.hart.deposit push).advance

/-- The frame of a sequencer instruction that doesn't park. -/
def State.sequencer (s : State) (early late : Option (BitVec 8)) (body : State → Except Stop State) : State :=
  s.frame early late (fun t => match body t with | .error e => .error e | .ok t1 => .ok (t1, .retire))

/-- A sequencer instruction that only computes: it neither traps nor waits beyond its prefix. -/
def State.simple (s : State) (f : State → State) : State := s.sequencer none none (fun t => .ok (f t))

/-- How a submission is answered: accepted with its word, or refused with a reason, which a `.w` form may wait out. -/
inductive Adm where
  | accepted (s : State) (word : Word)
  | refused (reason : Nat) (waits : Bool)

/-- A refused accept word (R51). -/
def refuse (reason : Nat) : Word := BitVec.ofNat 64 reason

/-- The acting hart past an instruction of an engine: it counts a surrender unit if the engine is the sequencer. -/
def Hart.past (h : Hart) (e : Eng) : Hart := if e = .s then h.advance else { h with pc := (h.pc + 4) &&& pcMask, pfx := none, wait := none }

/-- Slots reserved in FIFOs one after another; none where one is full. -/
def Hart.reserveAll (h : Hart) : List Nat → Option Hart
  | [] => some h
  | id :: t => if h.fullTok id then none else (h.reserveTok id).reserveAll t

/-- The frame of an instruction that submits work and writes an accept word to d (R35, R51, R52). `pushes` are the
pushes it reserves, the prefix's first. The pop is taken only where the work is accepted. A sequencer instruction's
prefix push is deposited when its accept word is written; `refused` is what a refusal does beside that. A form that waits for
admission stops the hart's dispatch: R34, R52 and R339 scoreboard its register only, but its resume pc is its own (R52; DESIGN
CHOICE, log 92). -/
def State.submission (s : State) (e : Eng) (x : Submit) (w : Bool) (d : BitVec 5) (own : List Nat)
    (ask : State → Except Stop Adm) (refused : State → State) : State :=
  let h := s.hart
  if (match h.pfx with | some (w, _) => pfxMisuse w e false false | none => false) then s.trapSeq ⟨0x03, 0⟩
  else
  let pop := popOf h.pfx
  let push := pushOf h.pfx
  let pushes := (if push = 0 then [] else [push]) ++ own
  if pop != 0 && h.tokens pop == 0 then s.waitFor (.pop pop)
  else match h.reserveAll pushes with
  | none => s.waitFor (h.pushWait pushes)
  | some _ =>
    match ask s with
    | .error (.trap t) => s.trapSeq t
    | .error (.wait w) => s.waitFor w
    | .ok (.refused r waits) =>
      let since := match h.wait with | some y => if y.kind = .admission x then y.since else s.time | none => s.time
      let long := decide (4096 ≤ (s.time - since).toNat)
      if w && waits && !long then s.waitFor (.admission x)
      else
        let s1 := refused (s.setReg d (refuse (if w && waits then 8 else r)))
        s1.setHart (s1.hart.past e)
    | .ok (.accepted s1 word) =>
      let s2 := s1.setReg d word
      let h2 := if pop = 0 then s2.hart else s2.hart.takeTok pop
      let h3 := (h2.reserveAll pushes).getD h2
      let h4 := if e = .s then h3.deposit push else h3
      s2.setHart (h4.past e)

/-- A non-prefixable sequencer instruction (R62): cause 0x03 after a prefix. The body gives the whole next state. -/
def State.bare (s : State) (early late : Option (BitVec 8)) (body : State → Except Stop State) : State :=
  match early with
  | some c => s.trapSeq ⟨c, 0⟩
  | none =>
  if s.hart.pfx.isSome then s.trapSeq ⟨0x03, 0⟩
  else match late with
  | some c => s.trapSeq ⟨c, 0⟩
  | none =>
  match body s with
  | .error (.trap t) => s.trapSeq t
  | .error (.wait w) => s.waitFor w
  | .ok s1 => s1

/-! ### Accept words and admission (R51 to R54) -/

/-- An accept word: 2^63 and the deadline, all ones for class B work (R51). -/
def acceptWord (cls : BitVec 2) (d : Nat) : Word := if cls = 0 then BitVec.allOnes 64 else BitVec.ofNat 64 (2 ^ 63 + d)
/-- A function that takes no submissions: in reset, or a TDI that is not running (R53, R364, R365). -/
def State.fnClosed (s : State) (f : Nat) : Bool := (s.fnAt f).inReset || s.tdiShut f

/-- The common reasons 0x09, 0x04, 0x03 and 0x01, in that order (R46, R53); 0 when there is none. -/
def State.commonReason (s : State) (fn r : Nat) (needs : List Nat) : Nat :=
  let x := s.rsvAt r
  if s.fnClosed fn then 9
  else if !x.on then 4
  else if x.brk then 3
  else if x.cls != 0 && (7 :: needs).any (fun res => (x.bud.toList.getD res 0).toNat == 0) then 1
  else 0

/-- The pacing of R54: t cycle of acceptance, wq = W + Q, remaining r, full budget b, latency l. -/
def pace (t wq r b l : Nat) : Nat :=
  if wq ≤ r then nextFrame t + l
  else if b = 0 then t + 2 ^ 32
  else nextFrame t + 4096 * cdiv (wq - r) b + l

/-- A deadline more than 256 frames away (R54). -/
def tooFar (t d : Nat) : Bool := decide (256 * 4096 < d - t)

/-- Whether work of w units alone, with a full budget at the next boundary, could never be admitted (R52). -/
def hopelessPace (t w b l : Nat) : Bool := tooFar (nextFrame t) (pace (nextFrame t) w b b l)

end Sys2Proof.Machine
end

