-- ==== Sys2Proof/Machine/Flags.lean ====
section
/-! DEFINITION. Numbers and flags: the floating-point formats (R224, R225), rounding into them (R230 to R233), exact
arithmetic on their values, comparisons, conversions (R95, R235 to R238), Philox (R234), and the sampler's correctly
rounded exp2 and log2 (R350). Every operation answers a pattern and the flags it raises. -/

namespace Sys2Proof.Machine

/-- The flags of R73: nv, dz, of, uf, nx from bit 4 down. -/
abbrev Flags := BitVec 5
def NV : Flags := 16
def DZ : Flags := 8
def OFNX : Flags := 5
def UFNX : Flags := 3
def NX : Flags := 1

/-- A floating-point format (R224): width, exponent bits, fraction bits, bias, and whether it has infinities. -/
structure Fmt where
  w : Nat
  eb : Nat
  f : Nat
  bias : Nat
  inf : Bool
  deriving DecidableEq, Repr

def f64 : Fmt := ⟨64, 11, 52, 1023, true⟩
def f32 : Fmt := ⟨32, 8, 23, 127, true⟩
def f16 : Fmt := ⟨16, 5, 10, 15, true⟩
def bf16 : Fmt := ⟨16, 8, 7, 127, true⟩
def e4m3 : Fmt := ⟨8, 4, 3, 7, false⟩
def e5m2 : Fmt := ⟨8, 5, 2, 15, true⟩

/-- The exponent of the smallest normal value (R224). -/
def Fmt.emin (k : Fmt) : Int := 1 - (k.bias : Int)
/-- The canonical NaN (R224). -/
def Fmt.nan (k : Fmt) : Nat := if k.inf then (2 ^ k.eb - 1) * 2 ^ k.f + 2 ^ (k.f - 1) else 2 ^ (k.w - 1) - 1
/-- The largest finite pattern (R224). -/
def Fmt.maxPat (k : Fmt) : Nat := if k.inf then (2 ^ k.eb - 1) * 2 ^ k.f - 1 else 2 ^ (k.w - 1) - 2
/-- A pattern with a sign. -/
def Fmt.withSign (k : Fmt) (neg : Bool) (p : Nat) : Nat := p + b2n neg * 2 ^ (k.w - 1)
/-- An infinity of a sign. -/
def Fmt.infPat (k : Fmt) (neg : Bool) : Nat := k.withSign neg ((2 ^ k.eb - 1) * 2 ^ k.f)

/-- A value: a NaN, signalling or not; an infinity; or (-1)^neg * m * 2^e. -/
inductive Num where
  | nan (signalling : Bool)
  | inf (neg : Bool)
  | fin (neg : Bool) (m : Nat) (e : Int)
  deriving DecidableEq, Repr

/-- The value of a pattern (R225). -/
def Fmt.num (k : Fmt) (x : Nat) : Num :=
  let neg := bit x (k.w - 1)
  let ex := bits x k.f k.eb
  let fr := bits x 0 k.f
  if ex = 0 then .fin neg fr (k.emin - k.f)
  else if ex < 2 ^ k.eb - 1 then .fin neg (2 ^ k.f + fr) ((ex : Int) - k.bias - k.f)
  else if !k.inf then
    if fr = 2 ^ k.f - 1 then .nan false else .fin neg (2 ^ k.f + fr) ((ex : Int) - k.bias - k.f)
  else if fr = 0 then .inf neg
  else .nan (decide (fr < 2 ^ (k.f - 1)))

/-- The rounding modes of frm and of rounding fields (R73, R80, R223). -/
inductive Rnd where
  | rne | rtz | rdn | rup
  deriving DecidableEq, Repr

/-- The mode of frm (R73). -/
def frmMode (m : BitVec 2) : Rnd := match m.toNat with | 0 => .rne | 1 => .rtz | 2 => .rdn | _ => .rup
/-- The mode a rounding code selects, 0 taking frm (R80, R223). -/
def rmMode (rm : Nat) (frm : BitVec 2) : Rnd :=
  match rm with | 1 => .rne | 2 => .rtz | 3 => .rdn | 4 => .rup | _ => frmMode frm

/-- Whether a magnitude t with remainder r of 2^sh, and more below it when sticky, rounds away from zero. -/
def roundsUp (mode : Rnd) (neg : Bool) (t r sh : Nat) (sticky : Bool) : Bool :=
  let half := 2 ^ sh / 2
  match mode with
  | .rne => sh != 0 && (decide (half < r) || (r == half && (sticky || t % 2 == 1)))
  | .rtz => false
  | .rdn => neg && (r != 0 || sticky)
  | .rup => !neg && (r != 0 || sticky)

/-- The whole part, remainder and shift of m * 2^e in units of 2^q. -/
def inUnits (m : Nat) (e q : Int) : Nat × Nat × Nat :=
  if q ≤ e then (m * 2 ^ (e - q).toNat, 0, 0)
  else let sh := (q - e).toNat; (m / 2 ^ sh, m % 2 ^ sh, sh)

/-- A finite non-zero magnitude m * 2^e, with more below it when sticky, rounded into a format (R230, R231). -/
def Fmt.roundMag (k : Fmt) (mode : Rnd) (neg : Bool) (m : Nat) (e : Int) (sticky : Bool) : Nat × Flags :=
  let ex : Int := (Nat.log2 m : Int) + e
  let q := (if ex < k.emin then k.emin else ex) - k.f
  let (t, r, sh) := inUnits m e q
  let up := roundsUp mode neg t r sh sticky
  let inexact := r != 0 || sticky
  let pat := (q - (k.emin - k.f)).toNat * 2 ^ k.f + t + b2n up
  if k.maxPat < pat then
    let toInf := k.inf && (match mode with | .rne => true | .rtz => false | .rdn => neg | .rup => !neg)
    (if toInf then k.infPat neg else k.withSign neg k.maxPat, OFNX)
  else
    -- tiny after rounding: rounded with an unbounded exponent range it stays below 2^emin
    let (t1, r1, sh1) := inUnits m e (ex - k.f)
    let tiny := decide (ex < k.emin) &&
      !(ex == k.emin - 1 && decide (2 ^ (k.f + 1) ≤ t1 + b2n (roundsUp mode neg t1 r1 sh1 sticky)))
    (k.withSign neg pat, if !inexact then 0 else if tiny then UFNX else NX)

/-- RoundTo of an exact value (R230, R231). A zero keeps its sign. -/
def Fmt.round (k : Fmt) (mode : Rnd) : Num → Nat × Flags
  | .nan _ => (k.nan, 0)
  | .inf neg => if k.inf then (k.infPat neg, 0) else (k.nan, NV)
  | .fin neg m e => if m = 0 then (k.withSign neg 0, 0) else k.roundMag mode neg m e false

/-- Stochastic rounding of an exact value with a 24-bit random value u (R232). -/
def Fmt.roundSr (k : Fmt) (u : Nat) : Num → Nat × Flags
  | .fin neg m e =>
    if m = 0 then (k.withSign neg 0, 0)
    else
      let ex : Int := (Nat.log2 m : Int) + e
      let q := (if ex < k.emin then k.emin else ex) - k.f
      let (t, r, sh) := inUnits m e q
      let up := decide (2 ^ (sh + 24) ≤ r * 2 ^ 24 + u * 2 ^ sh) && r != 0
      let pat := (q - (k.emin - k.f)).toNat * 2 ^ k.f + t + b2n up
      if k.maxPat < pat then (if k.inf then k.infPat neg else k.withSign neg k.maxPat, OFNX)
      else (k.withSign neg pat, if r = 0 then 0 else if ex < k.emin then UFNX else NX)
  | x => k.round .rne x

/-! ### Exact arithmetic -/

/-- A signalling NaN. -/
def Num.snan : Num → Bool | .nan b => b | _ => false
/-- A NaN. -/
def Num.isNan : Num → Bool | .nan _ => true | _ => false
/-- The sign inverted. -/
def Num.neg : Num → Num
  | .nan b => .nan b
  | .inf n => .inf !n
  | .fin n m e => .fin (!n) m e

/-- m * 2^e with a sign as an integer multiple of 2^q, for q ≤ e. -/
def scaled (neg : Bool) (m : Nat) (e q : Int) : Int :=
  let x : Int := ((m * 2 ^ (e - q).toNat : Nat) : Int)
  if neg then -x else x

/-- An exact sum; an exact zero from opposite signs takes the sign of R93. The Bool says invalid (infinities of both
signs). -/
def addNum (mode : Rnd) : Num → Num → Num × Bool
  | .nan _, _ => (.nan false, false)
  | _, .nan _ => (.nan false, false)
  | .inf a, .inf b => if a = b then (.inf a, false) else (.nan false, true)
  | .inf a, .fin .. => (.inf a, false)
  | .fin .., .inf b => (.inf b, false)
  | .fin a m e, .fin b n f =>
    let q := if e ≤ f then e else f
    let x := scaled a m e q + scaled b n f q
    if x = 0 then (.fin (if a = b then a else mode == .rdn) 0 q, false)
    else (.fin (decide (x < 0)) x.natAbs q, false)

/-- An exact product. The Bool says invalid (0 times an infinity). -/
def mulNum : Num → Num → Num × Bool
  | .nan _, _ => (.nan false, false)
  | _, .nan _ => (.nan false, false)
  | .inf a, .inf b => (.inf (a != b), false)
  | .inf a, .fin b n _ => if n = 0 then (.nan false, true) else (.inf (a != b), false)
  | .fin a m _, .inf b => if m = 0 then (.nan false, true) else (.inf (a != b), false)
  | .fin a m e, .fin b n f => (.fin (a != b) (m * n) (e + f), false)

/-- The flag of an invalid operation. -/
def nvIf (b : Bool) : Flags := if b then NV else 0

/-- a + b rounded (R93, R94, R256). -/
def Fmt.add (k : Fmt) (mode : Rnd) (a b : Nat) : Nat × Flags :=
  let x := k.num a; let y := k.num b
  let (v, inv) := addNum mode x y
  let (r, fl) := k.round mode v
  (r, fl ||| nvIf (x.snan || y.snan || inv))
/-- a - b rounded. -/
def Fmt.sub (k : Fmt) (mode : Rnd) (a b : Nat) : Nat × Flags :=
  let x := k.num a; let y := k.num b
  let (v, inv) := addNum mode x y.neg
  let (r, fl) := k.round mode v
  (r, fl ||| nvIf (x.snan || y.snan || inv))
/-- The product of two values rounded. -/
def Fmt.mulV (k : Fmt) (mode : Rnd) (x y : Num) : Nat × Flags :=
  let (v, inv) := mulNum x y
  let (r, fl) := k.round mode v
  (r, fl ||| nvIf (x.snan || y.snan || inv))
/-- a * b rounded. -/
def Fmt.mul (k : Fmt) (mode : Rnd) (a b : Nat) : Nat × Flags := k.mulV mode (k.num a) (k.num b)
/-- x * y + d of values, rounded once; 0 * inf is invalid even when d is a quiet NaN (R93). -/
def Fmt.fmaV (k : Fmt) (mode : Rnd) (x y d : Num) : Nat × Flags :=
  let (p, inv1) := mulNum x y
  let (v, inv2) := addNum mode p d
  let (r, fl) := k.round mode v
  (r, fl ||| nvIf (x.snan || y.snan || d.snan || inv1 || inv2))
/-- a * b + d. -/
def Fmt.fma (k : Fmt) (mode : Rnd) (a b d : Nat) : Nat × Flags := k.fmaV mode (k.num a) (k.num b) (k.num d)

/-- a / b rounded; a finite non-zero a by zero is an exact infinity with DZ (R257). -/
def Fmt.div (k : Fmt) (mode : Rnd) (a b : Nat) : Nat × Flags :=
  let x := k.num a; let y := k.num b
  let sn := nvIf (x.snan || y.snan)
  match x, y with
  | .nan _, _ => (k.nan, sn)
  | _, .nan _ => (k.nan, sn)
  | .inf _, .inf _ => (k.nan, NV)
  | .inf p, .fin q .. => k.round mode (.inf (p != q))
  | .fin p .., .inf q => (k.withSign (p != q) 0, 0)
  | .fin p m e, .fin q n f =>
    if n = 0 then
      if m = 0 then (k.nan, NV)
      else let (r, fl) := k.round mode (.inf (p != q)); (r, fl ||| DZ)
    else if m = 0 then (k.withSign (p != q) 0, 0)
    else
      let g := Nat.log2 n + k.f + 4
      let m1 := m * 2 ^ g
      k.roundMag mode (p != q) (m1 / n) (e - f - g) (m1 % n != 0)

/-- One Newton step down to the integer square root. -/
def isqrtGo (n : Nat) : Nat → Nat → Nat
  | 0, x => x
  | k + 1, x => let y := (x + n / x) / 2; if y < x then isqrtGo n k y else x
/-- The integer square root. -/
def isqrt (n : Nat) : Nat := if n = 0 then 0 else isqrtGo n 600 (2 ^ (Nat.log2 n / 2 + 1))

/-- The square root of a value, rounded (R257). -/
def Fmt.sqrt (k : Fmt) (mode : Rnd) (a : Nat) : Nat × Flags :=
  match k.num a with
  | .nan s => (k.nan, nvIf s)
  | .inf neg => if neg then (k.nan, NV) else k.round mode (.inf false)
  | .fin neg m e =>
    if m = 0 then (k.withSign neg 0, 0)
    else if neg then (k.nan, NV)
    else
      let g := 2 * (k.f + 4) + (if e % 2 = 0 then 0 else 1)
      let m1 := m * 2 ^ g
      let r := isqrt m1
      k.roundMag mode false r ((e - g) / 2) (r * r != m1)

/-- Order of two values that are no NaN: -0 and +0 equal. -/
def cmpNum : Num → Num → Ordering
  | .inf a, .inf b => if a = b then .eq else if a then .lt else .gt
  | .inf a, _ => if a then .lt else .gt
  | _, .inf b => if b then .gt else .lt
  | .fin a m e, .fin b n f =>
    let q := if e ≤ f then e else f
    let x := scaled a m e q; let y := scaled b n f q
    if x < y then .lt else if x = y then .eq else .gt
  | _, _ => .eq

/-- Whether a pattern's sign bit is set. -/
def Fmt.sign (k : Fmt) (a : Nat) : Bool := bit a (k.w - 1)

/-- minimumNumber, or maximumNumber when `max`: -0 below +0, a quiet NaN ignored, a signalling one ignored with NV (R94). -/
def Fmt.minMax (k : Fmt) (max : Bool) (a b : Nat) : Nat × Flags :=
  let x := k.num a; let y := k.num b
  let fl := nvIf (x.snan || y.snan)
  if x.isNan && y.isNan then (k.nan, fl)
  else if x.isNan then (b, fl)
  else if y.isNan then (a, fl)
  else
    let less := match cmpNum x y with | .lt => true | .gt => false | .eq => k.sign a
    (if less != max then a else b, fl)

/-- The comparisons: equal, less, less or equal; with the flags of R94 and R257. -/
def Fmt.eq (k : Fmt) (a b : Nat) : Bool × Flags :=
  let x := k.num a; let y := k.num b
  (!x.isNan && !y.isNan && cmpNum x y == .eq, nvIf (x.snan || y.snan))
def Fmt.lt (k : Fmt) (a b : Nat) : Bool × Flags :=
  let x := k.num a; let y := k.num b
  (!x.isNan && !y.isNan && cmpNum x y == .lt, nvIf (x.isNan || y.isNan))
def Fmt.le (k : Fmt) (a b : Nat) : Bool × Flags :=
  let x := k.num a; let y := k.num b
  (!x.isNan && !y.isNan && cmpNum x y != .gt, nvIf (x.isNan || y.isNan))

/-! ### Conversions -/

/-- FP to FP under a mode (R95, R235). -/
def Fmt.toFmt (src dst : Fmt) (mode : Rnd) (a : Nat) : Nat × Flags :=
  let x := src.num a
  let (r, fl) := dst.round mode x
  (r, fl ||| nvIf x.snan)
/-- FP to FP by stochastic rounding. -/
def Fmt.toFmtSr (src dst : Fmt) (u : Nat) (a : Nat) : Nat × Flags :=
  let x := src.num a
  let (r, fl) := dst.roundSr u x
  (r, fl ||| nvIf x.snan)

/-- FP to an n-bit integer, signed or not: rounded, then saturated with NV out of range (R95, R236). -/
def Fmt.toInt (src : Fmt) (mode : Rnd) (isSigned : Bool) (n : Nat) (a : Nat) : Nat × Flags :=
  let lo : Int := if isSigned then -(2 ^ (n - 1)) else 0
  let hi : Int := if isSigned then 2 ^ (n - 1) - 1 else 2 ^ n - 1
  match src.num a with
  | .nan _ => (wrap n hi, NV)
  | .inf neg => (wrap n (if neg then lo else hi), NV)
  | .fin neg m e =>
    let (t, r, sh) := inUnits m e 0
    let t1 : Int := ((t + b2n (roundsUp mode neg t r sh false) : Nat) : Int)
    let v := if neg then -t1 else t1
    if v < lo then (wrap n lo, NV)
    else if hi < v then (wrap n hi, NV)
    else (wrap n v, if r != 0 then NX else 0)

/-- An integer as a value. -/
def intNum (x : Int) : Num := .fin (decide (x < 0)) x.natAbs 0

/-! ### Philox (R233, R234) -/

/-- The low and high 32 bits of a product. -/
def mulLo (a b : Nat) : Nat := a * b % 2 ^ 32
def mulHi (a b : Nat) : Nat := a * b / 2 ^ 32
/-- One round of Philox-4x32 after another. -/
def philoxGo : Nat → Nat → Nat → Nat × Nat × Nat × Nat → Nat × Nat × Nat × Nat
  | 0, _, _, x => x
  | n + 1, k0, k1, (x0, x1, x2, x3) =>
    philoxGo n ((k0 + 0x9E3779B9) % 2 ^ 32) ((k1 + 0xBB67AE85) % 2 ^ 32)
      ((mulHi 0xCD9E8D57 x2 ^^^ x1) ^^^ k0, mulLo 0xCD9E8D57 x2,
       (mulHi 0xD2511F53 x0 ^^^ x3) ^^^ k1, mulLo 0xD2511F53 x0)
/-- Word j of Philox(key, ctr). -/
def philox (key ctr j : Nat) : Nat :=
  let (a, b, c, d) := philoxGo 10 (bits key 0 32) (bits key 32 32)
    (bits ctr 0 32, bits ctr 32 32, bits ctr 64 32, bits ctr 96 32)
  match j with | 0 => a | 1 => b | 2 => c | _ => d

/-- The random value of element e of row r of a stochastically rounding instruction (R233). -/
def srDraw (rkey rstrm k0 : Word) (r e : Nat) : Nat :=
  let j := r * 2 ^ 20 + e
  philox rkey.toNat (rstrm.toNat * 2 ^ 64 + (k0.toNat + j / 4) % 2 ^ 64) (j % 4) / 2 ^ 8

/-! ### exp2 and log2, correctly rounded into FP32 (R350) -/

/-- Binary digits of log2 of x / 2^p in [1, 2), most significant first, n of them: each squaring doubles the log. -/
def log2Digits (p : Nat) : Nat → Nat → Nat → Nat
  | 0, _, acc => acc
  | n + 1, x, acc =>
    let y := x * x / 2 ^ p
    if 2 ^ (p + 1) ≤ y then log2Digits p n (y / 2) (2 * acc + 1) else log2Digits p n y (2 * acc)

/-- log2 of m * 2^e rounded into FP32: exact for a power of two, else from 160 digits and a sticky bit. -/
def log2F32 (m : Nat) (e : Int) : Nat :=
  let l := Nat.log2 m
  let ip : Int := (l : Int) + e
  if 2 ^ l = m then (f32.round .rne (intNum ip)).1
  else
    let fr := log2Digits 400 160 (m * 2 ^ (400 - l)) 0
    let v : Int := ip * 2 ^ 160 + fr
    if 0 ≤ v then (f32.roundMag .rne false v.toNat (-160) true).1
    else (f32.roundMag .rne true (v.natAbs - 1) (-160) true).1

/-- The product of the roots 2^(2^-i) over the set binary digits of a fraction of n digits, to 400 bits. -/
def exp2Digits : Nat → Nat → Nat → Nat → Nat
  | 0, _, _, acc => acc
  | n + 1, fr, root, acc =>
    let r := isqrt (root * 2 ^ 400)
    exp2Digits n fr r (if bit fr n then acc * r / 2 ^ 400 else acc)

/-- exp2 of an FP32 pattern, rounded into FP32; exp2 of -inf is +0. -/
def exp2F32 (y : Nat) : Nat :=
  match f32.num y with
  | .nan _ => f32.nan
  | .inf neg => if neg then 0 else f32.infPat false
  | .fin neg m e =>
    if m = 0 then 0x3F800000
    else
      let v := if neg then -(m : Int) else (m : Int)
      if 0 ≤ e then
        let n := v * 2 ^ e.toNat
        if n < -200 then 0 else if 200 < n then f32.infPat false else (f32.round .rne (.fin false 1 n)).1
      else
        let d := (-e).toNat
        let ip := v.fdiv (2 ^ d : Nat)
        let fr := (v.fmod (2 ^ d : Nat)).toNat
        if ip < -200 then 0 else if 200 < ip then f32.infPat false
        else if fr = 0 then (f32.round .rne (.fin false 1 ip)).1
        else (f32.roundMag .rne false (exp2Digits d fr (2 * 2 ^ 400) (2 ^ 400)) (ip - 400) true).1

end Sys2Proof.Machine
end

