-- ==== Sys2Proof/Machine/Operands.lean ====
section
/-! DEFINITION. The operand forms: immediates and sizes (R78), scopes, the status-register table (R70), local spaces
(R28, R29), the elements, masks and groups of vector operands (R208 to R212, R239), and the element addresses of
streams with their checks (R143 to R146, R153, R280). -/

namespace Sys2Proof.Machine

/-! ### Scalar operands -/

/-- An immediate sign-extended to 64 bits (R21). -/
def sext {n : Nat} (x : BitVec n) : Word := x.signExtend 64
/-- Access size of a load or store type code, 1 to 8 bytes (R78). -/
def tySize (ty : BitVec 3) : Nat := 2 ^ (ty.toNat % 4)
/-- What a load writes of an n-byte value: sign-extended for codes 4 to 7 (R96). -/
def loadExt (ty : BitVec 3) (x : Nat) : Word :=
  if 4 ≤ ty.toNat then BitVec.ofInt 64 (signed (8 * tySize ty) x) else BitVec.ofNat 64 x
/-- The scope of an ordsc field: 0 hart to 4 sys (R78). -/
def ordscScope (o : BitVec 4) : Nat := if o.toNat = 0 then 0 else if o.toNat ≤ 5 then o.toNat - 1 else o.toNat - 6
/-- The address of a scalar access: S[a] + off8 * size (R78, R96). -/
def scalarAddr (base : Word) (off : BitVec 8) (size : Nat) : Word := base + sext off * BitVec.ofNat 64 size

/-! ### Status registers (R70) -/

/-- Access of a status register: read-only, read-write, or supervisor-only with either. -/
inductive StatusAccess where
  | ro | rw | suRo | suRw
  deriving DecidableEq, Repr

/-- Numbers of read-only status registers. -/
def roStatus : List Nat :=
  [0x000, 0x002, 0x003, 0x004, 0x100, 0x101, 0x200, 0x201, 0x202, 0x205, 0x206, 0x207, 0x209, 0x20A, 0x301, 0x302,
   0x381, 0x400, 0x401, 0x402, 0x404, 0x405, 0x481, 0x482, 0x483, 0x500, 0x510, 0x511, 0x512, 0x513, 0x514, 0x515,
   0x516, 0x517, 0x518, 0x800, 0x801, 0x802, 0x803, 0x804, 0x805, 0x806, 0x807, 0x808, 0x80A, 0x80B, 0x810, 0x811,
   0x812, 0x813, 0x814]
/-- Numbers of read-write status registers, baylost with its W1C field among them. -/
def rwStatus : List Nat :=
  [0x010, 0x011, 0x012, 0x013, 0x014, 0x203, 0x204, 0x208, 0x20B, 0x300, 0x380, 0x403, 0x480]
/-- Numbers of supervisor-only read-only status registers. -/
def suRoStatus : List Nat := [0x700, 0x701, 0x713]
/-- Numbers of supervisor-only read-write status registers. -/
def suRwStatus : List Nat :=
  [0x020, 0x501, 0x502, 0x508, 0x509, 0x50A, 0x50B, 0x50C, 0x50D, 0x50E, 0x50F, 0x710, 0x711, 0x712, 0x714, 0x715,
   0x716, 0x720, 0x721, 0x722, 0x730, 0x731]

/-- The access of a status register; none for a number no table lists (R70). -/
def statusAccess (n : Nat) : Option StatusAccess :=
  if roStatus.contains n then some .ro
  else if rwStatus.contains n then some .rw
  else if suRoStatus.contains n then some .suRo
  else if suRwStatus.contains n then some .suRw
  else none

/-- The checks of R70 that come before the prefix's: cause 0x02 or 0x05. -/
def statusEarly (sup : Bool) (n : Nat) : Option (BitVec 8) :=
  match statusAccess n with
  | none => some 0x02
  | some .suRo | some .suRw => if sup then none else some 0x05
  | _ => none
/-- The check of R70 that comes after the prefix's: an mts to a read-only register, cause 0x06. -/
def statusLate (n : Nat) : Option (BitVec 8) :=
  match statusAccess n with
  | some .ro | some .suRo => some 0x06
  | _ => none
/-- The engine in whose order a status register is read and written (R110, R156). -/
def statusEng (n : Nat) : Eng :=
  if 0x100 ≤ n && n ≤ 0x2FF then .v else if 0x300 ≤ n && n ≤ 0x37F then .m else if 0x380 ≤ n && n ≤ 0x3FF then .c else .s

/-! ### Vector types (R203 to R208) -/

/-- Bits of a width code. -/
def codeBits (c : Nat) : Nat := 8 * 2 ^ c
/-- Supported pairs of class and width (R205). -/
def typeOk (cls : Nat) (sew : Nat) : Bool :=
  match cls with
  | 0 | 1 => true
  | 2 => decide (1 ≤ sew)
  | 3 => sew == 1
  | 4 | 5 => sew == 0
  | _ => false
/-- sew in bits. -/
def VecState.n (v : VecState) : Nat := codeBits v.sew.toNat
/-- rc (R203). -/
def VecState.rc (v : VecState) : Nat := 2 ^ v.lmode.toNat
/-- A row and element come before another pair in the order of a sweep (R20). -/
def sweepsBefore (a b : Nat × Nat) : Bool := decide (a.1 < b.1) || (a.1 == b.1 && decide (a.2 < b.2))
/-- VLMAX at a grant and width (R207). -/
def vlmaxOf (vgrant n : Nat) : Nat := vgrant * Config.vlmaxb * 8 / n
/-- VLMAX in force (R207). -/
def VecState.vlmax (v : VecState) : Nat := vlmaxOf v.vgrant v.n
/-- The format of a class and width (R205). -/
def fmtOf (cls n : Nat) : Fmt :=
  match cls with
  | 3 => bf16
  | 4 => e4m3
  | 5 => e5m2
  | _ => if n = 64 then f64 else if n = 32 then f32 else f16
/-- The format vtype names. -/
def VecState.fmt (v : VecState) : Fmt := fmtOf v.cls.toNat v.n
/-- An FP class (R222). -/
def VecState.isFp (v : VecState) : Bool := decide (2 ≤ v.cls.toNat) && decide (v.cls.toNat ≤ 5)
/-- Elements of an element group at a width (R209, R241). -/
def VecState.groupOf (v : VecState) (n : Nat) : Nat := v.vgrant * (64 / n)

/-- Element index e of register r at width w, as a pattern (R208). -/
def VecState.elem (v : VecState) (r w e : Nat) : Nat := v.regs.read (Config.vregBytes * r + e * (w / 8)) (w / 8)
/-- The registers with an element written. -/
def VecState.setElem (v : VecState) (r w e x : Nat) : VecState :=
  { v with regs := v.regs.write (Config.vregBytes * r + e * (w / 8)) (w / 8) x }

/-- The byte of a register's linear store, and the bit in it, that hold the mask bit of an element (R211). -/
def VecState.maskPos (v : VecState) (row e : Nat) : Nat × Nat :=
  let epl := 64 / v.n
  let vg := max v.vgrant 1
  let lane := (e / epl) % vg
  let k := (e / (epl * vg)) * epl + e % epl
  let p := 192 * row + k
  ((p / 8 / 8 * vg + lane) * 8 + p / 8 % 8, p % 8)
/-- The mask bit of an element in register r (R211). -/
def VecState.maskBit (v : VecState) (r row e : Nat) : Bool :=
  let (b, i) := v.maskPos row e
  bit (v.regs.byte (Config.vregBytes * r + b)).toNat i
/-- The registers with a mask bit written. -/
def VecState.setMaskBit (v : VecState) (r row e : Nat) (x : Bool) : VecState :=
  let (b, i) := v.maskPos row e
  let a := Config.vregBytes * r + b
  let old := (v.regs.byte a).toNat
  let new := if bit old i == x then old else if x then old + 2 ^ i else old - 2 ^ i
  { v with regs := v.regs.set a (BitVec.ofNat 8 new) }

/-- The register and index that hold element e of row `row` of an operand vN at width w (R212, R239). -/
def VecState.place (v : VecState) (r w row e : Nat) : Nat × Nat :=
  let f := w / v.n
  if f ≤ 1 then (r + row, e)
  else
    let vw := vlmaxOf v.vgrant w
    (r + f * row + e / vw, e % vw)
/-- Element e of row `row` of an operand at width w. -/
def VecState.opElem (v : VecState) (r w row e : Nat) : Nat :=
  let (x, i) := v.place r w row e
  v.elem x w i
/-- The registers with element e of row `row` of an operand at width w written. -/
def VecState.setOpElem (v : VecState) (r w row e x : Nat) : VecState :=
  let (y, i) := v.place r w row e
  v.setElem y w i x
/-- The number of registers of an operand's group at width w (R212, R239). -/
def VecState.groupRegs (v : VecState) (w : Nat) : Nat := (if v.n < w then w / v.n else 1) * v.rc
/-- A misaligned register group, or one that passes v31 (R212, R239). -/
def VecState.misaligned (v : VecState) (r w : Nat) : Bool :=
  r % v.groupRegs w != 0 || decide (32 < r + v.groupRegs w)

/-! ### Local spaces (R28, R29) -/

/-- The spaces of a stream's cfg and their use (R141). -/
inductive Space where
  | dv | ab | wb | as | sq | lp
  deriving DecidableEq, Repr

/-- Space of a code in cfg (R141). -/
def spaceOf (c : Nat) : Space :=
  match c with | 0 => .dv | 1 => .ab | 2 => .wb | 3 => .as | 4 => .sq | _ => .lp

/-- Where an access goes once it is checked: a space, and the physical address, buffer offset, Square address or lane
byte in it. -/
structure Place where
  sp : Space
  cl : Nat
  core : Nat
  hid : Nat
  at_ : Nat
  deriving DecidableEq, Repr

/-- A port of a core: where `busy` counts its reads, those of its writes one further, and the bytes it moves in a cycle; lp is
reached by each lane for itself (R28). -/
def portOf : Space → Option (Fin 19 × Nat)
  | .dv => some (10, 256) | .ab => some (12, 512) | .wb => some (14, 1024) | .as => some (16, 512) | .sq => some (18, 512) | .lp => none
/-- The place in `busy` of a port in one direction. -/
def portAt (i : Fin 19) (write : Bool) : Fin 20 := if write then i.succ else i.castSucc
/-- A core's port moves n bytes, which take it as long as its width needs (R43; log 16). -/
def State.usePort (s : State) (core : Nat) (sp : Space) (write : Bool) (n : Nat) : State :=
  match portOf sp with
  | none => s
  | some (i, w) => if n = 0 then s else s.busyFor core (portAt i write) w n
/-- A port of a core is still moving, in a direction, what it was given before (R43). -/
def State.portBusy (s : State) (core : Nat) (sp : Space) (write : Bool) : Bool :=
  match portOf sp with
  | none => false
  | some (i, w) => s.busyAt core (portAt i write) w

/-- The cycle in which what a port of a core was given to move is through. -/
def State.portThrough (s : State) (core : Nat) (sp : Space) (write : Bool) : Nat :=
  match portOf sp with
  | none => s.now
  | some (i, w) => s.throughAt core (portAt i write) w

/-- n bytes at a place. -/
def State.getAt (s : State) (p : Place) (n : Nat) : Nat :=
  match p.sp with
  | .dv => s.mem.read p.at_ n
  | .ab => (s.coreAt p.core).ab.read p.at_ n
  | .wb => (s.coreAt p.core).wb.read p.at_ n
  | .as => (s.coreAt p.core).acc.read p.at_ n
  | .sq => (s.clusAt p.cl).square.read p.at_ n
  | .lp => (s.hartAt p.hid).vec.lp.read p.at_ n
/-- n bytes written at a place. -/
def State.putAt (s : State) (p : Place) (n x : Nat) : State :=
  match p.sp with
  | .dv => { s with mem := s.mem.write p.at_ n x }
  | .ab => let c := s.coreAt p.core; s.setCoreAt p.core { c with ab := c.ab.write p.at_ n x }
  | .wb => let c := s.coreAt p.core; s.setCoreAt p.core { c with wb := c.wb.write p.at_ n x }
  | .as => let c := s.coreAt p.core; s.setCoreAt p.core { c with acc := c.acc.write p.at_ n x }
  | .sq => let c := s.clusAt p.cl; s.setClusAt p.cl { c with square := c.square.write p.at_ n x }
  | .lp => let h := s.hartAt p.hid; s.setHartAt p.hid { h with vec := { h.vec with lp := h.vec.lp.write p.at_ n x } }

/-- The SRAM offset that an error record gives of a byte of a core's storage (R366; the places are the model's, log 61). -/
def abSram (a : Nat) : Nat := a
def wbSram (a : Nat) : Nat := 0x80000 + a
def accSram (a : Nat) : Nat := 0x180000 + a
def tileSram (a : Nat) : Nat := 0x200000 + a
def vregSram (slot a : Nat) : Nat := 0x1000000 * (1 + slot) + a
def lpSram (slot a : Nat) : Nat := 0x1000000 * (9 + slot) + a

/-- An uncorrectable soft error stands in n bytes (R366): `loc` is that of an error record, `unit` the core or cluster. -/
def State.spoiled (s : State) (loc unit a n : Nat) : Bool :=
  match s.dev.latent with
  | none => false
  | some x => x.loc == loc && (loc == 3 || x.unit == unit) && decide (a ≤ x.addr) && decide (x.addr < a + n)
/-- An uncorrectable soft error stands in n bytes at a place. -/
def State.spoiledAt (s : State) (p : Place) (n : Nat) : Bool :=
  match p.sp with
  | .dv => s.spoiled 3 0 p.at_ n
  | .ab => s.spoiled 0 p.core (abSram p.at_) n
  | .wb => s.spoiled 0 p.core (wbSram p.at_) n
  | .as => s.spoiled 0 p.core (accSram p.at_) n
  | .sq => s.spoiled 1 p.cl p.at_ n
  | .lp => s.spoiled 0 p.core (lpSram (p.hid % 8) p.at_) n

/-! ### Streams (R140 to R146) -/

/-- A cfg word with a reserved value or bit, or bay-relative outside sq (R141). -/
def cfgBad (c : BitVec 32) : Bool :=
  let x := c.toNat
  bits x 16 16 != 0 || bits x 10 2 != 0 || bits x 6 2 != 0 || bits x 3 1 != 0 || decide (6 ≤ bits x 0 3) ||
  (bits x 4 2 == 3 && bits x 0 3 != 4)
/-- Fields of a stream's cfg (R141). -/
def Stream.space (q : Stream) : Space := spaceOf (bits q.cfg.toNat 0 3)
def Stream.mode (q : Stream) : Nat := bits q.cfg.toNat 4 2
def Stream.width (q : Stream) : Nat := codeBits (bits q.cfg.toNat 8 2)
def Stream.sz (q : Stream) : Nat := q.width / 8

/-- G of R145: the slots a row takes in each lane. -/
def lpRow (vgrant w vl : Nat) : Nat :=
  let epl := 64 / w
  cdiv vl (epl * max vgrant 1) * epl
/-- The slot of element e of row `row` in its lane, and the lane (R145). -/
def lpSlot (vgrant w vl c row e : Nat) : Nat × Nat :=
  let epl := 64 / w
  let vg := max vgrant 1
  (c + row * lpRow vgrant w vl + (e / (epl * vg)) * epl + e % epl, (e / epl) % vg)

/-- The advance of a cursor (R143, R145). -/
def Stream.advance (q : Stream) (v : VecState) (rc vl : Nat) : Stream :=
  let n := if q.space = .lp then rc * lpRow v.vgrant q.width vl else rc * vl
  { q with cursor := q.cursor + BitVec.ofNat 64 n }

/-- A signed 64-bit register. -/
def Word.int (x : Word) : Int := x.toInt

/-- The offset of position p, or of index idx in indexed mode (R144). -/
def Stream.off (q : Stream) (p : Nat) (idx : Int) : Int :=
  match q.mode with
  | 0 | 3 => (p * q.sz : Nat)
  | 1 => (p : Int) * q.stride.toInt
  | _ => idx * (if q.stride = 0 then (q.sz : Int) else q.stride.toInt)

/-- A position, or an index, that the bound excludes (R146). -/
def Stream.past (q : Stream) (p : Nat) (idx : Int) : Bool :=
  q.bound != 0 &&
    (if q.mode = 2 then decide (idx < 0) || decide ((q.bound.toNat : Int) ≤ idx) else decide (q.bound.toNat ≤ p))

/-- An element's access once checked: the state with accessed and dirty bits set, its place and its address. -/
structure ElemOk where
  s : State
  place : Place
  addr : Nat

/-- A trap of an element at its address. -/
def elemTrap {α : Type} (cause : BitVec 8) (a : Nat) : Except Stop α := trapAt cause a

/-- The address of an element as R144 computes it, which a record holds (R280). -/
def State.elemAddr (s : State) (hid : Nat) (q : Stream) (p : Nat) (idx : Int) : Nat :=
  match q.space with
  | .sq =>
    let hd := bits q.base.toNat 24 8
    let o : Int := (bits q.base.toNat 0 24 : Nat) + q.off p idx
    let size := match s.reach (s.whoOf hid) (hid / 64) hd with | .ok n => n | .error _ => 0
    hd * 2 ^ 24 + wrap 24 (if q.mode = 3 && size != 0 then o % (size : Int) else o)
  | _ => wrap 64 ((q.base.toNat : Int) + q.off p idx)

/-- A read that meets an uncorrectable soft error (rank 8, R280). -/
def readOk (r : ElemOk) (acc : Acc) (sz : Nat) : Except Stop ElemOk :=
  if (acc == .read || acc == .rmw) && r.s.spoiledAt r.place sz then elemTrap 0x52 r.addr else .ok r

/-- The bound check (rank 5) before a continuation of later ranks (R280). -/
def boundThen {α : Type} (q : Stream) (p : Nat) (idx : Int) (a : Nat) (k : Except Stop α) : Except Stop α :=
  if q.past p idx then elemTrap 0x13 a else k

/-- The checks of one element access, in the order of R280, for a hart; `p` is the position or lane slot, `lane` the
element's lane, `acc` the access, `kind` the touch (R166). -/
def State.elemCheck (s : State) (hid : Nat) (q : Stream) (p lane : Nat) (idx : Int) (acc : Acc) (kind : Nat) :
    Except Stop ElemOk :=
  let who := s.whoOf hid
  let h := s.hartAt hid
  let core := hid / 8
  let sz := q.sz
  let off := q.off p idx
  let local_ (sp : Space) (size : Nat) (base : Nat) (ok : Bool) : Except Stop ElemOk :=
    let a := (q.base.toNat : Int) + off
    let a64 := wrap 64 a
    if a % (sz : Int) ≠ 0 then elemTrap 0x10 a64
    else boundThen q p idx a64 <|
      if !ok || decide (a < 0) || decide ((size : Int) < a + sz) then elemTrap 0x17 a64
      else readOk ⟨s, ⟨sp, who.clus, core, hid, base + a.toNat⟩, a64⟩ acc sz
  match q.space with
  | .dv =>
    let a := wrap 64 ((q.base.toNat : Int) + off)
    if a % sz ≠ 0 then elemTrap 0x10 a
    else if 2 ^ 57 ≤ a then elemTrap 0x14 a
    else match s.leafOf who a with
      | .error c => elemTrap c a
      | .ok (_, pte) =>
        if !pteAllows pte who.user acc then elemTrap 0x12 a
        else boundThen q p idx a <|
          match s.dv who a acc kind with
          | .error e => .error e
          | .ok (s1, pa) => readOk ⟨s1, ⟨.dv, who.clus, core, hid, pa⟩, a⟩ acc sz
  | .ab => local_ .ab Config.abBytes 0 true
  | .wb => local_ .wb Config.wbBytes 0 (acc == .read)
  | .as => local_ .as (1024 * h.plan.rows) (1024 * h.plan.rowBase) true
  | .lp => local_ .lp Config.lpBytes (2048 * lane) true
  | .sq =>
    let hd := bits q.base.toNat 24 8
    let o : Int := (bits q.base.toNat 0 24 : Nat) + off
    let size := match s.reach who who.clus hd with | .ok n => n | .error _ => 0
    let o1 : Int := if q.mode = 3 && size != 0 then o % (size : Int) else o
    let a := hd * 2 ^ 24 + wrap 24 o1
    if o1 % (sz : Int) ≠ 0 then elemTrap 0x10 a
    else if 2 ^ 32 ≤ q.base.toNat then elemTrap 0x14 a
    else boundThen q p idx a <|
      match s.reach who who.clus hd with
      | .error (.trap t) => elemTrap t.cause a
      | .error w => .error w
      | .ok n =>
        if decide (o1 < 0) || decide ((n : Int) < o1 + sz) then elemTrap 0x17 a
        else readOk ⟨s, ⟨.sq, who.clus, core, hid, a⟩, a⟩ acc sz

/-- The touch that a prefix hint makes of a page: nt as a unit stream, keep as an indexed one, both together and neither
as normal (R64, R166). -/
def hintTouch (hint : Nat) : Nat :=
  let nt := bit hint 0; let keep := bit hint 1
  if nt && !keep then 1 else if keep && !nt then 3 else 2
/-- The touch a stream makes of a page: unit use-once, indexed retained, else normal; a prefix hint nt or keep counts
as unit or indexed, both together as neither (R64, R166). -/
def Stream.touchKind (q : Stream) (hint : Nat) : Nat :=
  let nt := bit hint 0; let keep := bit hint 1
  if nt && !keep then 1 else if keep && !nt then 3
  else match q.mode with | 0 => 1 | 2 => 3 | _ => 2

end Sys2Proof.Machine
end

