-- ==== Sys2Proof/Machine/Engine.lean ====
section
/-! DEFINITION. The engine queues (R32 to R36): how an engine instruction is dispatched into its hart's queue, what it
must wait for at the queue's head (R34, R46, R138), and how it retires (R35, R71, R212). -/

namespace Sys2Proof.Machine

/-- A hart's queue for an engine (R32). -/
def Hart.queue (h : Hart) : Eng → List Entry
  | .v => h.vq | .m => h.mq | .c => h.cq | .s => []
/-- The hart with a queue replaced. -/
def Hart.setQueue (h : Hart) (e : Eng) (l : List Entry) : Hart :=
  match e with | .v => { h with vq := l } | .m => { h with mq := l } | .c => { h with cq := l } | .s => h
/-- The depth of a queue (R32). -/
def queueDepth : Eng → Nat
  | .v => Config.qdvec | .m => Config.qdmat | .c => Config.qdcpy | .s => 0
/-- Every entry a hart holds of an engine's queue, those that a surrender routine has set aside first. -/
def Hart.allQueue (h : Hart) (e : Eng) : List Entry := (if e = .v then h.banked else []) ++ h.queue e
/-- The hints of the prefix that an entry was dispatched under (R64). -/
def Entry.hint (en : Entry) : Nat := match en.pfx with | some w => pfxHint w | none => 0
/-- Room for one more instruction in a queue (R32, R33). -/
def Hart.hasRoom (h : Hart) (e : Eng) : Bool := decide (realEntries (h.allQueue e) < queueDepth e)
/-- Pending changes of a stream register. -/
def Hart.changes (h : Hart) (q : BitVec 4) : Nat := ((h.allQueue .v).filter (fun e => changeOf e.instr == some q)).length
/-- Room for one more move behind a queue: four pending changes of each stream register (R150), and four status moves
and qgets of a queue (DESIGN CHOICE, log 13). -/
def Hart.moveWait (h : Hart) (e : Eng) (i : Instr) : Option Wait :=
  match changeOf i with
  | some q => if h.changes q < 4 then none else some (.changes q)
  | none => if moveEntries ((h.queue e).filter (fun x => (changeOf x.instr).isNone)) < 4 then none else some (.room e)

/-- The harts of a core in slot order. -/
def coreHarts (k : Nat) : List Nat := (List.range 8).map (fun i => 8 * k + i)
/-- Another hart of the core runs: what an engine does for a hart then comes piece by piece, between which it may serve the
other and the hart can be pre-empted (R42, R134, R309). -/
def State.shared (s : State) (hid : Nat) : Bool :=
  (coreHarts (hid / 8)).any (fun x => x != hid && (s.hartAt x).run == .running)

/-- A vector instruction that writes memory. -/
def vecStores : Instr → Bool
  | .vst .. | .vstx .. | .vstxu .. | .vsadd .. => true
  | _ => false
/-- The stream a vector memory instruction names. -/
def streamOf : Instr → Option (BitVec 4)
  | .vld _ q _ _ | .vldff _ q _ _ | .vst _ q _ _ | .vldx _ _ q _ _ | .vstx _ _ q _ _ | .vstxu _ _ q _ _
  | .vsadd _ _ q _ _ | .vwait _ q _ | .vcbld q _ => some q
  | _ => none

/-- What dispatch captures for an instruction of the acting hart (R71, R132, R249). -/
def State.mkEntry (s : State) (i : Instr) (op1 op2 : Word) : Entry :=
  let h := s.hart
  { pc := h.pc, word := s.ir, instr := i, pfx := h.pfx.map (fun p => p.1), op1 := op1, op2 := op2, seq := h.seq
    frm := h.frm, rkey := h.rkey, rstrm := h.rstrm, rctr := h.rctr, surr := h.surr.isSome, span := h.bay.counting
    after := match streamOf i with | some q => max h.holdV h.qHold[q.toNat] | none => 0 }

/-- The acting hart after its instruction is dispatched into a queue: the prefix's pop is taken, its push reserved,
the pc moves on (R33, R35). -/
def Hart.dispatched (h : Hart) (e : Eng) (en : Entry) : Hart :=
  let h1 := if popOf h.pfx = 0 then h else h.takeTok (popOf h.pfx)
  let h2 := if pushOf h.pfx = 0 then h1 else h1.reserveTok (pushOf h.pfx)
  let h3 := h2.setQueue e (h2.queue e ++ [en])
  { h3 with pc := (h.pc + 4) &&& pcMask, pfx := none, wait := none, seq := h.seq + 1 }

/-- Dispatch of an engine instruction that writes no accept word: prefix checks, token and queue waits, then what the
instruction checks at dispatch, then the queue (R33, R35, R62). One that fails such a check is not dispatched, and its prefix's
pop is not taken (R35, R86, R196). -/
def State.engineIssue (s : State) (e : Eng) (maskable vecResult : Bool) (mk : State → Except Stop (State × Entry)) : State :=
  let h := s.hart
  if (match h.pfx with | some (w, _) => pfxMisuse w e maskable vecResult | none => false) then s.trapSeq ⟨0x03, 0⟩
  else if popOf h.pfx != 0 && h.tokens (popOf h.pfx) == 0 then s.waitFor (.pop (popOf h.pfx))
  else if pushOf h.pfx != 0 && h.fullTok (pushOf h.pfx) then s.waitFor (.push (pushOf h.pfx))
  else if !h.hasRoom e then s.waitFor (.room e)
  else match mk s with
    | .error (.trap t) => s.trapSeq t
    | .error (.wait w) => s.waitFor w
    | .ok (t, en) => t.setHart (t.hart.dispatched e en)

/-- An entry of a queue replaced at its head. -/
def Hart.setHead (h : Hart) (e : Eng) (en : Entry) : Hart :=
  match h.queue e with
  | [] => h
  | _ :: t => h.setQueue e (en :: t)

/-- A cursor moved by an entry dispatched before a surrender routine holds for the entries that the routine set aside too
(R143, R150). -/
def Hart.setCursor (h : Hart) (en : Entry) (q : BitVec 4) (v : Word) : Hart :=
  let move (l : Vector Stream 16) : Vector Stream 16 := l.set q.toNat { l[q.toNat] with cursor := v }
  { h with
    q := move h.q
    surr := h.surr.map (fun x =>
      if en.surr then { x with chg := addChange x.chg (.advance q (v - h.q[q.toNat].cursor) en.seq) }
      else { x with q := move x.q }) }
/-- A scalar register written by an instruction dispatched earlier: the accesses in stream S go back to a hart that holds it
(R99), and where the instruction came before a surrender routine, so does its bank (R324). -/
def Hart.setLate (h : Hart) (surr : Bool) (r : BitVec 5) (v : Word) : Hart :=
  let put (l : Vector Word 32) : Vector Word 32 := if r = 0 then l else l.set r.toNat v
  { h.setReg r v with
    ss := h.ss.map (fun x => { x with back := x.back.map (fun b => { b with regs := put b.regs }) })
    surr := if surr || r.toNat < 24 then h.surr
      else h.surr.map (fun x => { x with bank := x.bank.setIfInBounds (r.toNat - 24) v }) }
/-- Flags ORed in by an instruction dispatched earlier. -/
def Hart.orFlags (h : Hart) (fl : BitVec 5) : Hart :=
  { h with
    fflags := h.fflags ||| fl
    ss := h.ss.map (fun x => { x with back := x.back.map (fun b => { b with fflags := b.fflags ||| fl }) }) }

/-- An entry is done and what it did is through, so that it can retire (R35, R43). -/
def Entry.over (en : Entry) (now : Nat) : Bool := en.done && decide (en.tried ≤ now)
/-- The head of a queue retires: its flags, scalar result and cursor take effect, its token is deposited (R35, R71,
R143, R249). A vector instruction clears estart and rowstart (R212). -/
def Hart.retireHead (h : Hart) (e : Eng) : Hart :=
  match h.queue e with
  | [] => h
  | en :: t =>
    let h1 := h.setQueue e t
    let h2 := h1.orFlags en.fl
    let h3 := match en.res with | some (r, v) => h2.setLate en.surr r v | none => h2
    let h4 := match en.newCur with
      | some (q, v) => h3.setCursor en q v
      | none => h3
    let h5 := if e = .v && !en.isMove then { h4 with vec := { h4.vec with estart := 0, rowstart := 0 } } else h4
    match en.pfx with
    | some w => if pfxPush w = 0 then h5 else h5.depositTok (pfxPush w)
    | none => h5

/-- An instruction of an engine traps: the entry is marked started and the hart suspended, with the element and row it
stopped at in force (R127, R164). -/
def State.engineTrap (s : State) (hid : Nat) (e : Eng) (t : Trap) (row el : Nat) : State :=
  let h := s.hartAt hid
  match h.queue e with
  | [] => s
  | en :: _ =>
    let h1 := h.setHead e { en with started := true }
    let h2 := if e = .v then
        { h1 with vec := { h1.vec with estart := BitVec.ofNat 32 el, rowstart := BitVec.ofNat 3 row } } else h1
    (s.setHartAt hid h2).takeTrap hid t
      { engine := (match e with | .s => 0 | .v => 2 | .m => 3 | .c => 4), ipc := en.pc, word := en.word
        estart := BitVec.ofNat 32 (if e = .v then el else 0), rowstart := BitVec.ofNat 32 (if e = .v then row else 0)
        imprecise := true }

/-! ### Scalar registers of queued instructions (R34) -/

/-- The scalar register an engine instruction, or a pending status move, writes. -/
def scalarDest : Instr → Option (BitVec 5)
  | .mfs d _ | .qget d _ _ | .vsetl d _ _ | .vsettype d _ _ _ _
  | .vpop d _ _ _ | .vfirst d _ _ _ | .vrun d _ _ _ | .vmvS d _ _ _ | .vmvX d _ _ _ _ | .vwait d _ _ | .cpCnt d => some d
  | .vredsum o | .vredosum o | .vredmax o | .vredmin o | .vredmaxN o | .vredminN o | .vredand o | .vredor o
  | .vredxor o => some o.d
  | _ => none

/-- The scalar register that a stream S access writes. -/
def SAcc.dest (x : SAcc) : Option (BitVec 5) :=
  match x.kind with | .load _ d | .atomic _ d => some d | _ => none

/-- The scalar registers that instructions dispatched by the hart have yet to write (R34, R99, R152). -/
def Hart.pendingRegs (h : Hart) : List (BitVec 5) :=
  (h.banked ++ h.vq ++ h.mq ++ h.cq).filterMap (fun en => scalarDest en.instr) ++ h.ss.filterMap SAcc.dest

/-! ### The scoreboard of v registers between the vector and matrix queues (R34) -/

/-- mshape.asc as a matrix instruction finds it: with the mts of mshape queued before it (R110, R298). -/
def Hart.ascFor (h : Hart) (seq : Nat) : Bool :=
  h.mq.foldl (fun x e => match e.instr with
    | .mts _ n => if n = 0x300 && decide (e.seq < seq) then bit e.op1.toNat 6 else x
    | _ => x) h.mshape.asc
/-- The registers that n packed elements of width w fill from register r on, the one behind v31 being v0 (R302). -/
def packedRegs (vgrant r w n : Nat) : List Nat :=
  let vw := max (vlmaxOf vgrant w) 1
  (List.range ((n + vw - 1) / vw)).map (fun i => (r + i) % 32)
/-- The v registers a matrix instruction reads, v1 for its scales among them; the packed rows and indexes of mmsp run on
into as many registers as they fill (R298, R302). -/
def matReads (h : Hart) (rc : Nat) (en : Entry) : List Nat :=
  let scale := if h.ascFor en.seq then [1] else []
  match en.instr with
  | .mmr _ a _ _ _ _ => a.toNat :: scale
  | .mms _ a _ _ _ _ => (List.range rc).map (fun i => a.toNat + i) ++ scale
  | .mmsp _ a b fmt _ _ _ =>
    packedRegs h.vec.vgrant a.toNat (if fmt.toNat ≤ 2 then 16 else 8) h.vec.vl ++ packedRegs h.vec.vgrant b.toNat 16 h.vec.vl ++ scale
  | _ => []
/-- A matrix instruction that uses v registers, and vl and rc with them (R298). -/
def usesV : Instr → Bool
  | .mmr .. | .mms .. | .mmsp .. | .mrd .. => true
  | _ => false
/-- The v registers a matrix read-out writes, the prefix's copy group among them. -/
def matWrites (rc : Nat) (en : Entry) : List Nat :=
  match en.instr with
  | .mrd _ a _ _ =>
    (List.range rc).map (fun i => a.toNat + i) ++
      (match en.pfx with
        | some w => if pfxCopy w = 0 then [] else (List.range rc).map (fun i => pfxCopy w + i)
        | none => [])
  | _ => []

end Sys2Proof.Machine
end

