-- ==== Sys2Proof/Machine/Scalar.lean ====
section
/-! DEFINITION. Scalar integer and floating-point instructions, loads, stores, branches, jumps, atomics, fences,
tokens and wtime: majors 0x01 to 0x0A (R89 to R112). -/

namespace Sys2Proof.Machine

/-- What every meaning below answers: a next state. -/
abbrev Out := Host.Outcome State Fault Refusal

/-- An instruction that only writes a scalar register. -/
def State.alu (s : State) (d : BitVec 5) (v : Word) : State := s.simple (fun t => t.setReg d v)
/-- 1 or 0 in a register. -/
def boolWord (b : Bool) : Word := if b then 1 else 0

/-! ### Integer arithmetic (R89 to R92) -/

/-- The signed quotient and remainder of R91. -/
def divWord (x y : Word) : Word :=
  if y = 0 then BitVec.allOnes 64 else BitVec.ofInt 64 (x.toInt.tdiv y.toInt)
def remWord (x y : Word) : Word := if y = 0 then x else BitVec.ofInt 64 (x.toInt.tmod y.toInt)
/-- The unsigned quotient and remainder of R91. -/
def divuWord (x y : Word) : Word := if y = 0 then BitVec.allOnes 64 else BitVec.ofNat 64 (x.toNat / y.toNat)
def remuWord (x y : Word) : Word := if y = 0 then x else BitVec.ofNat 64 (x.toNat % y.toNat)

/-- `add` (R89). -/
def execAdd (d a b : BitVec 5) (s : State) : Out :=
  let x := s.reg a; let y := s.reg b
  .next (s.alu d (x + y))

/-- `sub` (R89). -/
def execSub (d a b : BitVec 5) (s : State) : Out :=
  let x := s.reg a; let y := s.reg b
  .next (s.alu d (x - y))

/-- `and` (R89). -/
def execAnd (d a b : BitVec 5) (s : State) : Out :=
  let x := s.reg a; let y := s.reg b
  .next (s.alu d (x &&& y))

/-- `or` (R89). -/
def execOr (d a b : BitVec 5) (s : State) : Out :=
  let x := s.reg a; let y := s.reg b
  .next (s.alu d (x ||| y))

/-- `xor` (R89). -/
def execXor (d a b : BitVec 5) (s : State) : Out :=
  let x := s.reg a; let y := s.reg b
  .next (s.alu d (x ^^^ y))

/-- `sll` (R89). -/
def execSll (d a b : BitVec 5) (s : State) : Out :=
  let x := s.reg a; let y := s.reg b
  .next (s.alu d (x <<< (y.toNat % 64)))

/-- `srl` (R89). -/
def execSrl (d a b : BitVec 5) (s : State) : Out :=
  let x := s.reg a; let y := s.reg b
  .next (s.alu d (x >>> (y.toNat % 64)))

/-- `sra` (R89). -/
def execSra (d a b : BitVec 5) (s : State) : Out :=
  let x := s.reg a; let y := s.reg b
  .next (s.alu d (x.sshiftRight (y.toNat % 64)))

/-- `mul` (R89). -/
def execMul (d a b : BitVec 5) (s : State) : Out :=
  let x := s.reg a; let y := s.reg b
  .next (s.alu d (x * y))

/-- `mulh` (R89). -/
def execMulh (d a b : BitVec 5) (s : State) : Out :=
  let x := s.reg a; let y := s.reg b
  .next (s.alu d (BitVec.ofInt 64 ((x.toInt * y.toInt).fdiv (2 ^ 64))))

/-- `mulhu` (R89). -/
def execMulhu (d a b : BitVec 5) (s : State) : Out :=
  let x := s.reg a; let y := s.reg b
  .next (s.alu d (BitVec.ofNat 64 (x.toNat * y.toNat / 2 ^ 64)))

/-- `div` (R89, R91). -/
def execDiv (d a b : BitVec 5) (s : State) : Out :=
  let x := s.reg a; let y := s.reg b
  .next (s.alu d (divWord x y))

/-- `rem` (R89, R91). -/
def execRem (d a b : BitVec 5) (s : State) : Out :=
  let x := s.reg a; let y := s.reg b
  .next (s.alu d (remWord x y))

/-- `divu` (R89, R91). -/
def execDivu (d a b : BitVec 5) (s : State) : Out :=
  let x := s.reg a; let y := s.reg b
  .next (s.alu d (divuWord x y))

/-- `remu` (R89, R91). -/
def execRemu (d a b : BitVec 5) (s : State) : Out :=
  let x := s.reg a; let y := s.reg b
  .next (s.alu d (remuWord x y))

/-- `slt` (R89). -/
def execSlt (d a b : BitVec 5) (s : State) : Out :=
  let x := s.reg a; let y := s.reg b
  .next (s.alu d (boolWord (x.slt y)))

/-- `sltu` (R89). -/
def execSltu (d a b : BitVec 5) (s : State) : Out :=
  let x := s.reg a; let y := s.reg b
  .next (s.alu d (boolWord (x.ult y)))

/-- `seq` (R89). -/
def execSeq (d a b : BitVec 5) (s : State) : Out :=
  let x := s.reg a; let y := s.reg b
  .next (s.alu d (boolWord (x == y)))

/-- `sne` (R89). -/
def execSne (d a b : BitVec 5) (s : State) : Out :=
  let x := s.reg a; let y := s.reg b
  .next (s.alu d (boolWord (x != y)))

/-- `min` (R89). -/
def execMin (d a b : BitVec 5) (s : State) : Out :=
  let x := s.reg a; let y := s.reg b
  .next (s.alu d (if y.slt x then y else x))

/-- `max` (R89). -/
def execMax (d a b : BitVec 5) (s : State) : Out :=
  let x := s.reg a; let y := s.reg b
  .next (s.alu d (if x.slt y then y else x))

/-- `minu` (R89). -/
def execMinu (d a b : BitVec 5) (s : State) : Out :=
  let x := s.reg a; let y := s.reg b
  .next (s.alu d (if y.ult x then y else x))

/-- `maxu` (R89). -/
def execMaxu (d a b : BitVec 5) (s : State) : Out :=
  let x := s.reg a; let y := s.reg b
  .next (s.alu d (if x.ult y then y else x))

/-- `slli` (R90). -/
def execSlli (d a : BitVec 5) (sh : BitVec 6) (s : State) : Out :=
  let x := s.reg a
  .next (s.alu d (x <<< sh.toNat))

/-- `srli` (R90). -/
def execSrli (d a : BitVec 5) (sh : BitVec 6) (s : State) : Out :=
  let x := s.reg a
  .next (s.alu d (x >>> sh.toNat))

/-- `srai` (R90). -/
def execSrai (d a : BitVec 5) (sh : BitVec 6) (s : State) : Out :=
  let x := s.reg a
  .next (s.alu d (x.sshiftRight sh.toNat))

/-- `andi` (R90). -/
def execAndi (d a : BitVec 5) (imm : BitVec 11) (s : State) : Out :=
  let x := s.reg a
  .next (s.alu d (x &&& sext imm))

/-- `ori` (R90). -/
def execOri (d a : BitVec 5) (imm : BitVec 11) (s : State) : Out :=
  let x := s.reg a
  .next (s.alu d (x ||| sext imm))

/-- `xori` (R90). -/
def execXori (d a : BitVec 5) (imm : BitVec 11) (s : State) : Out :=
  let x := s.reg a
  .next (s.alu d (x ^^^ sext imm))

/-- `slti` (R90). -/
def execSlti (d a : BitVec 5) (imm : BitVec 11) (s : State) : Out :=
  let x := s.reg a
  .next (s.alu d (boolWord (x.slt (sext imm))))

/-- `sltiu` (R90). -/
def execSltiu (d a : BitVec 5) (imm : BitVec 11) (s : State) : Out :=
  let x := s.reg a
  .next (s.alu d (boolWord (x.ult (sext imm))))

/-- `addi` (R90). -/
def execAddi (d a : BitVec 5) (imm : BitVec 16) (s : State) : Out :=
  let x := s.reg a
  .next (s.alu d (x + sext imm))

/-- `lui` (R92). -/
def execLui (d : BitVec 5) (imm : BitVec 21) (s : State) : Out := .next (s.alu d (sext imm * 65536))

/-- `aupc` (R81, R92). -/
def execAupc (d : BitVec 5) (imm : BitVec 21) (s : State) : Out := .next (s.alu d (s.hart.pc + sext imm * 65536))

/-! ### Floating point (R93 to R95) -/

/-- A scalar FP instruction: its result and its flags, ORed into fflags when it retires. -/
def State.fpu (s : State) (d : BitVec 5) (r : Nat × Flags) : State :=
  s.simple (fun t =>
    let u := t.setReg d (BitVec.ofNat 64 r.1)
    u.setHart { u.hart with fflags := u.hart.fflags ||| r.2 })
/-- The format of a scalar type code (R80). -/
def scalarFmt (t : BitVec 2) : Fmt := if t = 1 then f64 else f32
/-- The other format: the source of an FP to FP conversion (R80). -/
def scalarSrc (t : BitVec 2) : Fmt := if t = 1 then f32 else f64
/-- A scalar operand's pattern in a format: an f32 operand is bits 31:0 (R67). -/
def State.fpReg (s : State) (k : Fmt) (r : BitVec 5) : Nat := (s.reg r).toNat % 2 ^ k.w
/-- The rounding mode of a scalar FP instruction (R93). -/
def State.fpMode (s : State) (rm : BitVec 3) : Rnd := rmMode rm.toNat s.hart.frm

/-- `fadd` (R94). -/
def execFadd (d a b : BitVec 5) (t : BitVec 2) (rm : BitVec 3) (s : State) : Out :=
  let k := scalarFmt t
  .next (s.fpu d (k.add (s.fpMode rm) (s.fpReg k a) (s.fpReg k b)))

/-- `fsub` (R94). -/
def execFsub (d a b : BitVec 5) (t : BitVec 2) (rm : BitVec 3) (s : State) : Out :=
  let k := scalarFmt t
  .next (s.fpu d (k.sub (s.fpMode rm) (s.fpReg k a) (s.fpReg k b)))

/-- `fmul` (R94). -/
def execFmul (d a b : BitVec 5) (t : BitVec 2) (rm : BitVec 3) (s : State) : Out :=
  let k := scalarFmt t
  .next (s.fpu d (k.mul (s.fpMode rm) (s.fpReg k a) (s.fpReg k b)))

/-- `fma` (R94): the addend is the old destination. -/
def execFma (d a b : BitVec 5) (t : BitVec 2) (rm : BitVec 3) (s : State) : Out :=
  let k := scalarFmt t
  .next (s.fpu d (k.fma (s.fpMode rm) (s.fpReg k a) (s.fpReg k b) (s.fpReg k d)))

/-- `fmin` (R94). -/
def execFmin (d a b : BitVec 5) (t : BitVec 2) (s : State) : Out :=
  let k := scalarFmt t
  .next (s.fpu d (k.minMax false (s.fpReg k a) (s.fpReg k b)))

/-- `fmax` (R94). -/
def execFmax (d a b : BitVec 5) (t : BitVec 2) (s : State) : Out :=
  let k := scalarFmt t
  .next (s.fpu d (k.minMax true (s.fpReg k a) (s.fpReg k b)))

/-- `feq` (R94). -/
def execFeq (d a b : BitVec 5) (t : BitVec 2) (s : State) : Out :=
  let k := scalarFmt t
  let r := k.eq (s.fpReg k a) (s.fpReg k b)
  .next (s.fpu d (b2n r.1, r.2))

/-- `flt` (R94). -/
def execFlt (d a b : BitVec 5) (t : BitVec 2) (s : State) : Out :=
  let k := scalarFmt t
  let r := k.lt (s.fpReg k a) (s.fpReg k b)
  .next (s.fpu d (b2n r.1, r.2))

/-- `fle` (R94). -/
def execFle (d a b : BitVec 5) (t : BitVec 2) (s : State) : Out :=
  let k := scalarFmt t
  let r := k.le (s.fpReg k a) (s.fpReg k b)
  .next (s.fpu d (b2n r.1, r.2))

/-- `fcvtFpFp` (R95). -/
def execFcvtFpFp (d a : BitVec 5) (t : BitVec 2) (rm : BitVec 3) (s : State) : Out :=
  let k := scalarSrc t
  .next (s.fpu d (k.toFmt (scalarFmt t) (s.fpMode rm) (s.fpReg k a)))

/-- `fcvtToI64` (R95). -/
def execFcvtToI64 (d a : BitVec 5) (t : BitVec 2) (rm : BitVec 3) (s : State) : Out :=
  let k := scalarFmt t
  .next (s.fpu d (k.toInt (s.fpMode rm) true 64 (s.fpReg k a)))

/-- `fcvtToN64` (R95). -/
def execFcvtToN64 (d a : BitVec 5) (t : BitVec 2) (rm : BitVec 3) (s : State) : Out :=
  let k := scalarFmt t
  .next (s.fpu d (k.toInt (s.fpMode rm) false 64 (s.fpReg k a)))

/-- `fcvtFromI64` (R95). -/
def execFcvtFromI64 (d a : BitVec 5) (t : BitVec 2) (rm : BitVec 3) (s : State) : Out :=
  .next (s.fpu d ((scalarFmt t).round (s.fpMode rm) (intNum (s.reg a).toInt)))

/-- `fcvtFromN64` (R95). -/
def execFcvtFromN64 (d a : BitVec 5) (t : BitVec 2) (rm : BitVec 3) (s : State) : Out :=
  .next (s.fpu d ((scalarFmt t).round (s.fpMode rm) (intNum ((s.reg a).toNat : Int))))

/-! ### Loads and stores (R96 to R99) -/

/-- The touch a scalar access makes of a page: normal, or as its prefix hint says (R64, R166). -/
def Hart.scalarTouch (h : Hart) : Nat :=
  match h.pfx with
  | none => 2
  | some (w, _) => hintTouch (pfxHint w)

/-- A vector instruction that accesses memory (R107). -/
def vecMemory : Instr → Bool
  | .vld .. | .vldff .. | .vst .. | .vldx .. | .vstx .. | .vstxu .. | .vsadd .. | .vcbld .. => true
  | _ => false
/-- The hart has a vector memory access that isn't performed. What a surrender routine has set aside runs again after its
bay.ret, and is not waited for within it (DEDUCED, log 69). -/
def Hart.vecMemPending (h : Hart) : Bool := h.vq.any (fun e => vecMemory e.instr && !e.done)
/-- A vector memory access before an order is still to be performed; what a surrender routine has set aside comes after the
routine's own accesses (log 69). -/
def Hart.vecBefore (h : Hart) (surr : Bool) (n : Nat) : Bool :=
  ((if surr then [] else h.banked) ++ h.vq).any (fun e => vecMemory e.instr && !e.done && decide (e.seq < n))
/-- A stream S access waits for vector memory that an sbar naming stream S ordered before it (R152). -/
def Hart.heldS (h : Hart) : Bool := h.vecBefore h.surr.isSome h.holdS
/-- A status move or a change of a stream, which are sequencer instructions, dispatched before an order is still to take effect
in the order of its engine (R26, R109, R110). -/
def Hart.movesBefore (h : Hart) (n : Nat) : Bool := (h.vq ++ h.mq ++ h.cq).any (fun e => e.isMove && decide (e.seq < n))

/-- The energy of the block of HBM, or of the KiB of the Square, that a scalar access reaches, charged to a reservation (R47).
It draws on no budget of blocks, which R161, R196 and R310 have other accesses charge (DESIGN CHOICE, log 64). -/
def State.scalarEnergy (s : State) (r : Nat) (p : Place) : State :=
  match p.sp with
  | .dv => if inHbm p.at_ then s.chargeEnergy r 2 else s
  | .sq => s.chargeEnergy r 1
  | _ => s
/-- A scalar access of n bytes charged: its energy, and its bytes at the port it shares with the engines of its core (R31, R47). -/
def State.scalarCost (s : State) (r : Nat) (p : Place) (n : Nat) (write : Bool) : State :=
  (s.scalarEnergy r p).usePort p.core p.sp write n

/-- The checks of a scalar access of a hart in the order of R97, and the place it goes to; an uncorrectable soft error in the
bytes it reads comes last. It waits while the DMA it would be is shut (R365; log 29). -/
def State.scalarLook (s : State) (hid touch : Nat) (sp : BitVec 1) (addr : Word) (size : Nat) (acc : Acc) :
    Except Stop (State × Place) :=
  let a := addr.toNat
  let who := s.whoOf hid
  let through (t : State) (p : Place) : Except Stop (State × Place) :=
    if acc != .write && t.spoiledAt p size then trapAt 0x52 a else .ok (t, p)
  if a % size ≠ 0 then trapAt 0x10 a
  else if sp = 0 then
    match s.dv who a acc touch with
    | .error e => .error e
    | .ok (s1, pa) => through s1 ⟨.dv, who.clus, who.core, hid, pa⟩
  else
    match s.sq who a size with
    | .error e => .error e
    | .ok at_ => through s ⟨.sq, who.clus, who.core, hid, at_⟩

/-- A scalar access of the acting hart checked, and charged for what it reaches. -/
def State.scalarCheck (s : State) (sp : BitVec 1) (addr : Word) (size : Nat) (acc : Acc) : Except Stop (State × Place) :=
  match s.scalarLook s.cur s.hart.scalarTouch sp addr size acc with
  | .error e => .error e
  | .ok (t, p) => .ok (t.scalarCost s.hart.workResv p size (acc != .read), p)

/-- The port that a scalar access to a space needs is at work (R31). -/
def State.scalarBusy (s : State) (hid : Nat) (sp : BitVec 1) (acc : Acc) : Bool :=
  s.portBusy (hid / 8) (if sp = 0 then .dv else .sq) (acc != .read)
/-- What a stream S access waits for at dispatch: those that wait in stream S already, the vector memory that an sbar puts
before it, and its port (R31, R99, R152, R155). -/
def State.scalarGate (s : State) (sp : BitVec 1) (acc : Acc) : Option Wait :=
  if !s.hart.ss.isEmpty then some .publish
  else if s.hart.heldS then some (.drain false)
  else if s.scalarBusy s.cur sp acc then some .port
  else none
/-- A stream S access as dispatch finds it: it waits, or it is checked. -/
def State.scalarPlace (s : State) (sp : BitVec 1) (addr : Word) (size : Nat) (acc : Acc) : Except Stop (State × Place) :=
  match s.scalarGate sp acc with
  | some w => .error (.wait w)
  | none => s.scalarCheck sp addr size acc

/-- How many accesses wait in stream S at most (DESIGN CHOICE, log 26). -/
def sDepth : Nat := 3
/-- The acting hart with one more access in stream S. -/
def Hart.queueS (h : Hart) (x : SAcc) : Hart := { h with ss := h.ss ++ [x], seq := h.seq + 1 }
/-- What an access dispatched now goes back to if it traps (R99). -/
def Hart.toBack (h : Hart) : Back := ⟨h.regs, h.fflags, h.pfx.map (fun x => x.1), h.pops, h.srcDl[0]⟩

/-- A request slot of the core is free for the hart (R25, R161). -/
def State.slotFree (s : State) (hid : Nat) : Bool :=
  let h := s.hartAt hid
  let taken := (coreHarts (hid / 8)).foldl (fun n x => n + (s.hartAt x).ss.length) 0
  decide (h.ss.length < Config.hartSlots) &&
    decide (taken < Config.requestSlots - (if (s.rsvAt h.workResv).cls = 2 then 0 else Config.slotsForG))

/-- A scalar access that waits in stream S (R99, R152, R155), or for the grant of a pending bay (R314): checked, it is
dispatched, and dispatch goes on. Where a check fails, so that the trap finds every earlier access performed (R99), or where
`sDepth` wait already, or no request slot is free, dispatch waits instead. An acas is checked as one that writes, and sets the
dirty bit only if it does (R102). -/
def State.defer (s : State) (w : Wait) (kind : SKind) (sp : BitVec 1) (addr : Word) (size : Nat) (acc : Acc)
    (val cmp : Word) : Except Stop (State × After) :=
  let h := s.hart
  let look (x : Acc) : Except Stop State :=
    match s.scalarLook s.cur h.scalarTouch sp addr size x with
    | .error (.wait (.bay cl b)) =>
      if addr.toNat % 2 ^ 24 + size ≤ ((s.clusAt cl).bay b).units * Config.unitBytes then .ok s else .error (.wait w)
    | .error _ => .error (.wait w)
    | .ok r => .ok r.1
  match look acc with
  | .error e => .error e
  | .ok u =>
    let t := match kind, look .read with | .atomic 8 _, .ok r => r | _, _ => u
    if sDepth ≤ h.ss.length || !s.slotFree s.cur then .error (.wait w)
    else .ok (t.setHart (t.hart.queueS
      { kind := kind, sq := sp = 1, size := size, touch := h.scalarTouch, addr := addr, val := val, cmp := cmp
        push := pushOf h.pfx, seq := h.seq, hold := h.holdS, pc := h.pc, word := s.ir, surr := h.surr.isSome
        back := some h.toBack }), .queue)

/-- Scope sys on a Square access (R78, R98). -/
def badScope (sp : BitVec 1) (scope : Nat) : Option (BitVec 8) := if sp = 1 && scope == 4 then some 0x15 else none

/-- `ld` (R96). -/
def execLd (d a : BitVec 5) (off : BitVec 8) (ordsc : BitVec 4) (sp : BitVec 1) (ty : BitVec 3) (s : State) : Out :=
  let size := tySize ty
  .next (s.frame none (badScope sp (ordscScope ordsc)) (fun t =>
    match t.scalarPlace sp (scalarAddr (t.reg a) off size) size .read with
    | .error (.wait w) => t.defer w (.load ty d) sp (scalarAddr (t.reg a) off size) size .read 0 0
    | .error e => .error e
    | .ok (t1, p) => .ok (t1.setReg d (loadExt ty (t1.getAt p size)), .retire)))

/-- `st` (R96). -/
def execSt (v a : BitVec 5) (off : BitVec 8) (ordsc : BitVec 4) (sp : BitVec 1) (ty : BitVec 3) (s : State) : Out :=
  let size := tySize ty
  .next (s.frame none (badScope sp (ordscScope ordsc)) (fun t =>
    match t.scalarPlace sp (scalarAddr (t.reg a) off size) size .write with
    | .error (.wait w) => t.defer w .store sp (scalarAddr (t.reg a) off size) size .write (t.reg v) 0
    | .error e => .error e
    | .ok (t1, p) => .ok (t1.putAt p size (t1.reg v).toNat, .retire)))

/-! ### Branches and jumps (R100, R101) -/

/-- A branch: to the target when taken, else to the next word (R100). A target at or past 2^57, or below 0, wraps, as bits
63:57 of a pc are zero (R67; DEDUCED, log 80). -/
def State.branch (s : State) (taken : Bool) (off : BitVec 13) : State :=
  s.bare none none (fun t =>
    .ok (t.setHart (if taken then t.hart.retireTo ((t.hart.pc + 4 * sext off) &&& pcMask) else t.hart.advance)))

/-- `beq` (R100). -/
def execBeq (a b : BitVec 5) (off : BitVec 13) (s : State) : Out :=
  let x := s.reg a; let y := s.reg b
  .next (s.branch (x == y) off)

/-- `bne` (R100). -/
def execBne (a b : BitVec 5) (off : BitVec 13) (s : State) : Out :=
  let x := s.reg a; let y := s.reg b
  .next (s.branch (x != y) off)

/-- `blt` (R100). -/
def execBlt (a b : BitVec 5) (off : BitVec 13) (s : State) : Out :=
  let x := s.reg a; let y := s.reg b
  .next (s.branch (x.slt y) off)

/-- `bge` (R100). -/
def execBge (a b : BitVec 5) (off : BitVec 13) (s : State) : Out :=
  let x := s.reg a; let y := s.reg b
  .next (s.branch (!x.slt y) off)

/-- `bltu` (R100). -/
def execBltu (a b : BitVec 5) (off : BitVec 13) (s : State) : Out :=
  let x := s.reg a; let y := s.reg b
  .next (s.branch (x.ult y) off)

/-- `bgeu` (R100). -/
def execBgeu (a b : BitVec 5) (off : BitVec 13) (s : State) : Out :=
  let x := s.reg a; let y := s.reg b
  .next (s.branch (!x.ult y) off)

/-- The address of a relative jump (R81); it wraps as a branch's does (log 80). -/
def State.jumpTarget (s : State) (imm : BitVec 21) : Word := (s.hart.pc + 4 * sext imm) &&& pcMask
/-- The link a call writes (R81). -/
def State.link (s : State) : Word := (s.hart.pc + 4) &&& pcMask

/-- `j` (R81, R101). -/
def execJ (imm : BitVec 21) (s : State) : Out :=
  .next (s.bare none none (fun t => .ok (t.setHart (t.hart.retireTo (t.jumpTarget imm)))))

/-- `call` (R81, R101). -/
def execCall (imm : BitVec 21) (s : State) : Out :=
  .next (s.bare none none (fun t => .ok (t.setHart ((t.hart.setReg 1 t.link).retireTo (t.jumpTarget imm)))))

/-- A register target checked: causes 0x04 and 0x14 with the target (R81, R101); of a target that breaks both, 0x04, since
the spec gives the two no order (DESIGN CHOICE, log 65). -/
def checkTarget (x : Word) : Except Stop Word :=
  if x.toNat % 4 ≠ 0 then trapAt 0x04 x.toNat
  else if 2 ^ 57 ≤ x.toNat then trapAt 0x14 x.toNat
  else .ok x

/-- `jr` (R81, R101). -/
def execJr (a : BitVec 5) (s : State) : Out :=
  .next (s.bare none none (fun t =>
    match checkTarget (t.reg a) with
    | .error e => .error e
    | .ok x => .ok (t.setHart (t.hart.retireTo x))))

/-- `callr` (R81, R101): the target is read before s1 is written. -/
def execCallr (a : BitVec 5) (s : State) : Out :=
  .next (s.bare none none (fun t =>
    match checkTarget (t.reg a) with
    | .error e => .error e
    | .ok x => .ok (t.setHart ((t.hart.setReg 1 t.link).retireTo x))))

/-! ### Atomics (R102 to R105) -/

/-- The new value of an atomic of n bytes by its op, none where acas finds another value than `cmp` (R102). -/
def atomNew (op : BitVec 4) (n old b cmp : Nat) : Option Nat :=
  match op.toNat with
  | 0 => some ((old + b) % 2 ^ (8 * n))
  | 1 => some b
  | 2 => some (old &&& b)
  | 3 => some (old ||| b)
  | 4 => some (if signed (8 * n) b < signed (8 * n) old then b else old)
  | 5 => some (if signed (8 * n) old < signed (8 * n) b then b else old)
  | 6 => some (min old b)
  | 7 => some (max old b)
  | _ => if old = cmp then some b else none
/-- The old value as an atomic returns it: zero-extended by ops 6 and 7, else sign-extended (R103). -/
def atomOld (op : BitVec 4) (n x : Nat) : Word :=
  if op = 6 ∨ op = 7 then BitVec.ofNat 64 x else BitVec.ofInt 64 (signed (8 * n) x)

/-- An atomic (R102 to R105). One that writes nothing is a read alone. -/
def State.atomic (s : State) (o : Atom) (op : BitVec 4) : State :=
  let size := 4 + 4 * o.w.toNat
  s.frame none (badScope o.sp o.sc.toNat) (fun t =>
    let addr := t.reg o.a
    let low (x : Word) : Nat := x.toNat % 2 ^ (8 * size)
    match t.scalarPlace o.sp addr size .rmw with
    | .error (.wait w) => t.defer w (.atomic op o.d) o.sp addr size .rmw (t.reg o.b) (t.reg o.d)
    | .error e => .error e
    | .ok (t1, p) =>
      let old := t1.getAt p size
      match atomNew op size old (low (t1.reg o.b)) (low (t.reg o.d)) with
      | some x => .ok ((t1.putAt p size x).setReg o.d (atomOld op size old), .retire)
      | none =>
        match t.scalarPlace o.sp addr size .read with
        | .error e => .error e
        | .ok (t2, p2) => .ok (t2.setReg o.d (atomOld op size (t2.getAt p2 size)), .retire))

/-- `aadd` (R102, R103). -/
def execAadd (o : Atom) (s : State) : Out := .next (s.atomic o 0)

/-- `aswap` (R102, R103). -/
def execAswap (o : Atom) (s : State) : Out := .next (s.atomic o 1)

/-- `aand` (R102, R103). -/
def execAand (o : Atom) (s : State) : Out := .next (s.atomic o 2)

/-- `aor` (R102, R103). -/
def execAor (o : Atom) (s : State) : Out := .next (s.atomic o 3)

/-- `aminI` (R102, R103). -/
def execAminI (o : Atom) (s : State) : Out := .next (s.atomic o 4)

/-- `amaxI` (R102, R103). -/
def execAmaxI (o : Atom) (s : State) : Out := .next (s.atomic o 5)

/-- `aminN` (R102, R103). -/
def execAminN (o : Atom) (s : State) : Out := .next (s.atomic o 6)

/-- `amaxN` (R102, R103). -/
def execAmaxN (o : Atom) (s : State) : Out := .next (s.atomic o 7)

/-- `acas` (R102, R103). -/
def execAcas (o : Atom) (s : State) : Out := .next (s.atomic o 8)

/-! ### Stream S (R98, R99, R152, R155) -/

/-- What an access in stream S does to its page when it is checked. -/
def SKind.acc : SKind → Acc
  | .load .. => .read
  | .store => .write
  | _ => .rmw
/-- An access that finds the value `old` writes: an acas only where it finds what it compares with (R102). -/
def SAcc.writes (x : SAcc) (old : Nat) : Bool :=
  match x.kind with
  | .load .. => false
  | .atomic op _ => (atomNew op x.size old (x.val.toNat % 2 ^ (8 * x.size)) (x.cmp.toNat % 2 ^ (8 * x.size))).isSome
  | _ => true
/-- A wmpub may be performed: every instruction of the hart's queues before it is over, but for what a surrender routine has
set aside (R155; log 69). -/
def Hart.pubReady (h : Hart) (x : SAcc) : Bool :=
  !(h.vq ++ h.mq ++ h.cq).any (fun e => !e.isMove && decide (e.seq < x.seq))
/-- A request waits, or may come to wait, for the word at address a to reach what its last strip needs (R343). -/
def State.waitsOn (s : State) (w : Work) (a : Word) : Bool :=
  w.op == 0 && w.blk.wm != 0 && w.blk.wm == a &&
    (match s.dv { core := w.core, clus := w.core / 8, fn := w.fn.toNat, user := w.user, gang := w.gang } a.toNat .read 0 with
     | .ok (_, pa) => decide (signed 64 (s.mem.read pa 8) < signed 64 (wrap 64 ((w.blk.v.toNat : Int) + w.blk.wmoff.toInt)))
     | .error _ => false)
/-- The hart's sampler work that a wmpub of the word at address a waits for (R155): all of it but a request that waits for
that very word, and the work of the hart behind it, which cannot be over before the word is published (log 14). -/
def State.pubHeld (s : State) (hid : Nat) (a : Word) : Bool :=
  s.clus.any (fun kc => !((kc.2.works.filter (fun w => w.hid == hid)).takeWhile (fun w => !s.waitsOn w a)).isEmpty)
/-- An access in stream S can be performed. -/
def State.sReady (s : State) (hid : Nat) (x : SAcc) : Bool :=
  let h := s.hartAt hid
  !h.vecBefore x.surr x.hold &&
  (match x.kind with
   | .publish => h.pubReady x && !s.pubHeld hid x.addr
   | .token _ => !h.movesBefore x.seq
   | _ => true) &&
  (match x.kind with
   | .token _ => true
   | k => !s.scalarBusy hid (if x.sq then 1 else 0) k.acc && match s.scalarLook hid x.touch (if x.sq then 1 else 0) x.addr x.size k.acc with | .error (.wait _) => false | _ => true)
/-- The access in stream S that comes next: the first, but that a token which still waits for earlier instructions lets
accesses behind it pass (R109). -/
def State.sHead (s : State) (hid : Nat) : Option SAcc :=
  (s.hartAt hid).ss.find? (fun x => s.sReady hid x || (match x.kind with | .token _ => false | _ => true))

/-- What an access that has waited does once it is let through to place p: its register, or its bytes. -/
def State.sAct (s : State) (hid : Nat) (x : SAcc) (p : Place) : State :=
  let put (t : State) (d : BitVec 5) (v : Word) : State := t.setHartAt hid ((t.hartAt hid).setLate x.surr d v)
  match x.kind with
  | .load ty d => put s d (loadExt ty (s.getAt p x.size))
  | .store => s.putAt p x.size x.val.toNat
  | .atomic op d =>
    let low (v : Word) : Nat := v.toNat % 2 ^ (8 * x.size)
    let old := s.getAt p x.size
    put (match atomNew op x.size old (low x.val) (low x.cmp) with | some v => s.putAt p x.size v | none => s) d (atomOld op x.size old)
  | .publish => s.putAt p 8 (max (s.getAt p 8) x.val.toNat)
  | .token id => s.setHartAt hid ((s.hartAt hid).depositTok id)

/-- The next access in stream S performed, if it can be: checked anew, for its page, its bay or a soft error may have met it
while it waited (R97, R159, R314), it is charged, its effect and its prefix's push follow, and it leaves stream S. One that
traps now traps the hart at its own pc, as if nothing behind it had been dispatched (R99, R127; log 26); that of a hart which
is being suspended waits. -/
def State.sPerform (s : State) (hid : Nat) : State :=
  let h := s.hartAt hid
  match s.sHead hid with
  | none => s
  | some x =>
    if !s.sReady hid x || (h.run != .running && h.run != .suspending) then s
    else
      let took (t : State) : State := t.setHartAt hid { (t.hartAt hid) with ss := (t.hartAt hid).ss.erase x }
      let done (t : State) : State := t.setHartAt hid ((t.hartAt hid).deposit x.push)
      let look (acc : Acc) : Except Stop (State × Place) := s.scalarLook hid x.touch (if x.sq then 1 else 0) x.addr x.size acc
      match x.kind with
      | .token _ => done ((took s).sAct hid x ⟨.dv, 0, 0, hid, 0⟩)
      | k => match look k.acc with
        | .error (.wait _) => s
        | .error (.trap t) =>
          if h.run != .running then s
          else (s.setHartAt hid h.unpark.rollBack).takeTrap hid t { engine := unitOf x.word, ipc := x.pc, word := x.word }
        | .ok (t, p) =>
          let old := t.getAt p x.size
          -- the page of an acas that writes nothing is not dirty (R102)
          let u := if k.acc == .rmw && !x.writes old then (match look .read with | .ok v => v.1 | .error _ => t) else t
          done ((took (u.scalarCost (if x.surr then h.workResv else h.ownResv) p x.size (k.acc != .read))).sAct hid x p)

/-! ### Fences, tokens, wtime (R106 to R111) -/

/-- The hart has sampler work accepted and not over (R107, R355). -/
def State.samplerBusy (s : State) (hid : Nat) : Bool :=
  s.clus.any (fun kc => kc.2.works.any (fun w => w.hid == hid))
/-- The hart has an engine instruction, or an access in stream S, that isn't over, beside what a surrender routine has set
aside (log 69). -/
def Hart.queuesBusy (h : Hart) : Bool :=
  decide (0 < realEntries h.vq + realEntries h.mq + realEntries h.cq) || !h.ss.isEmpty
/-- The hart has an engine instruction, an access in stream S or sampler work that isn't over. -/
def State.engineBusy (s : State) (hid : Nat) : Bool := (s.hartAt hid).queuesBusy || s.samplerBusy hid

/-- `fenceSv` (R106, R107): it does not stop dispatch; the vector memory instructions after it wait at the head of their
queue for what waits in stream S. -/
def execFenceSv (_sc : BitVec 3) (s : State) : Out :=
  .next (s.simple (fun t => if t.hart.ss.isEmpty then t else t.setHart { t.hart with holdV := t.hart.seq }))

/-- `fenceVs` (R106, R107). -/
def execFenceVs (_sc : BitVec 3) (s : State) : Out :=
  .next (s.sequencer none none (fun t => if t.hart.vecMemPending then .error (.wait (.drain false)) else .ok t))

/-- `fenceVv` (R106, R107): vector accesses are performed in queue order, so nothing waits. -/
def execFenceVv (_sc : BitVec 3) (s : State) : Out := .next (s.simple id)

/-- `fenceAll` (R106, R107). -/
def execFenceAll (_sc : BitVec 3) (s : State) : Out :=
  .next (s.sequencer none none (fun t => if t.engineBusy t.cur then .error (.wait (.drain true)) else .ok t))

/-- Something of an instruction that may report a lost update, which it does once; the record of that error is written
already (R186, R366), so an error that stands elsewhere is left alone. -/
def State.lostTold (s : State) (f : State → State) : State :=
  if s.hart.lostUpd.isNone then f s
  else
    let t := f { s with dev := { s.dev with latent := none } }
    let t1 := if t.hart.run == .suspending && (t.hart.hdr.cause = 0x52 || t.hart.hdr.ocause = 0x52) then
      t.setHart { t.hart with lostUpd := none } else t
    { t1 with dev := { t1.dev with latent := s.dev.latent } }

/-- `fenceBinsRel` (R108, R186): the sending of the hart's updates and then their application; a lost one is reported. -/
def execFenceBinsRel (_sc : BitVec 3) (s : State) : Out :=
  .next (s.lostTold (fun r => r.sequencer none none (fun t =>
    if t.hart.vq.any (fun e => match e.instr with | .vsadd .. => !e.done | _ => false)
      || t.dev.updates.any (fun u => u.hid == t.cur) then .error (.wait .bins)
    else match t.hart.lostUpd with
      | some a => trapAt 0x52 a.toNat
      | none => .ok t)))

/-- `tkpush` (R109): its slot is reserved at dispatch, and its token deposited at once, or behind the accesses that wait in
stream S and the moves that wait in the engines' queues. A prefix that pushes into the same FIFO needs a slot of its own. -/
def execTkpush (id : BitVec 5) (s : State) : Out :=
  let n := id.toNat
  .next (s.frame (if tokProducer n != .s then some 0x03 else none) none (fun t =>
    let h := t.hart
    if h.fullTok n then .error (.wait (if pushOf h.pfx = n then .pushes n 2 else .push n))
    else if h.ss.isEmpty && !h.movesBefore h.seq then .ok (t.setHart ((h.reserveTok n).depositTok n), .retire)
    else if sDepth ≤ h.ss.length then .error (.wait .publish)
    else .ok (t.setHart ((h.reserveTok n).queueS
      { kind := .token n, push := pushOf h.pfx, seq := h.seq, pc := h.pc, word := s.ir, surr := h.surr.isSome }), .queue)))

/-- `tkpop` (R109): a prefix that pops the same FIFO takes a token of its own. -/
def execTkpop (id : BitVec 5) (s : State) : Out :=
  let n := id.toNat
  .next (s.sequencer (if tokConsumer n != .s then some 0x03 else none) none (fun t =>
    if t.hart.tokens n = 0 then .error (.wait (if popOf s.hart.pfx = n then .pops n 2 else .pop n))
    else .ok (t.setHart (t.hart.takeTok n))))

/-- `wtime` (R111). -/
def execWtime (d a : BitVec 5) (s : State) : Out :=
  .next (s.frame none none (fun t =>
    if t.hart.surr.isSome then trapAt 0x44 0
    else if t.reg a ≤ t.time then .ok (t.setReg d t.time, .retire)
    else .ok (t, .park (.wtime (t.reg a) d))))

end Sys2Proof.Machine
end

