-- ==== Sys2Proof/Machine/Status.lean ====
section
/-! DEFINITION. Status registers and their moves (R49, R50, R70 to R74, R110, R119, R132, R156, R159, R203, R285, R293,
R317, R333, R335, R368), and the streams' setup, barrier, watch and watermark (majors 0x11 and 0x12; R147 to R155). -/

namespace Sys2Proof.Machine

/-! ### Reservations (R49, R50) -/

/-- A reservation's class as rsvcfg reads it back: the one written last, in effect or pending; the spec says only that
pend marks a change not in effect yet (DESIGN CHOICE, log 66). -/
def Rsv.clsW (x : Rsv) : BitVec 2 := x.newCls.getD x.cls
/-- A budget as rsvbud0 to rsvbud7 read it back, likewise (DESIGN CHOICE, log 66). -/
def Rsv.budW (x : Rsv) (i : Nat) : Nat := ((x.newBud.toList.getD i none).getD (x.bud.toList.getD i 0)).toNat
/-- A change is written and not in effect. -/
def Rsv.pend (x : Rsv) : Bool := x.newCls.isSome || x.newBud.toList.any (fun b => b.isSome)
/-- rsvcfg (R49). -/
def Rsv.cfgWord (x : Rsv) : Word :=
  BitVec.ofNat 64 (b2n x.rej * 2 ^ 31 + b2n x.pend * 2 ^ 30 + b2n x.brk * 2 ^ 29 + b2n x.on * 2 ^ 28 + x.clsW.toNat)

/-- The G limit and the G+N limit of a resource (R45). -/
def State.limits (s : State) (i : Nat) : Nat × Nat :=
  if i = 7 then (s.dev.eceil * 9 / 10, s.dev.eceil * 15 / 16) else (Config.limitG i, Config.limitGN i)
/-- The sums of G budgets and of G and N budgets of a resource, changes counted, with `x` in place of reservation r. -/
def State.sums (s : State) (r : Nat) (x : Rsv) (i : Nat) : Nat × Nat :=
  let l := (r, x) :: s.dev.rsv.filter (fun p => p.1 != r)
  l.foldl (fun acc p =>
    let c := p.2.clsW; let b := p.2.budW i
    (acc.1 + (if c = 2 then b else 0), acc.2 + (if c = 0 then 0 else b))) (0, 0)
/-- Admission of a reservation as changed (R50). -/
def State.admits (s : State) (r : Nat) (x : Rsv) : Bool :=
  (List.range 8).all (fun i =>
    let t := s.sums r x i; let m := s.limits i
    decide (t.1 ≤ m.1) && decide (t.2 ≤ m.2))

/-- A write to rsvcfg by the acting hart, through its rsvsel (R49, R50). -/
def State.rsvcfgWrite (s : State) (v : Word) : State :=
  let r := s.hart.rsvsel.toNat
  let x := s.rsvAt r
  let c := BitVec.ofNat 2 v.toNat
  let y := { x with newCls := some c, rej := false, brk := false }
  if r = 0 || c = 3 || !s.admits r y then s.setRsvAt r { x with rej := true } else s.setRsvAt r y

/-- A write to the budget of resource i by the acting hart (R49, R50). -/
def State.rsvbudWrite (s : State) (i : Nat) (v : Word) : State :=
  let r := s.hart.rsvsel.toNat
  let x := s.rsvAt r
  let y := { x with newBud := x.newBud.setIfInBounds i (some (BitVec.ofNat 32 v.toNat)), rej := false }
  if r = 0 || !(x.on || x.newCls.isSome) || !s.admits r y then s.setRsvAt r { x with rej := true } else s.setRsvAt r y

/-! ### Reading and writing -/

/-- The tiles a hart may name (R41, R293): half A m0 and m1, half B m2 and m3; once the grant is in force. -/
def Plan.tiles (p : Plan) : Nat := if p.on then (if bit p.halves.toNat 0 then 3 else 0) + (if bit p.halves.toNat 1 then 12 else 0) else 0
/-- Rows of a hart's share in force. -/
def Plan.rowsOn (p : Plan) : Nat := if p.on then p.rows else 0

/-- Four-bit counts of FIFO 1 to 12 (R72). -/
def tokWord (l : List Nat) : Nat := (List.range 12).foldl (fun n i => n + l.getD (i + 1) 0 * 2 ^ (4 * i)) 0

/-- rcinfo (R317). A count past the 13 bits of ucnt, which a routine that has given its bay can reach, wraps in it, of which the
spec says nothing (DESIGN CHOICE, log 88). -/
def BayRegs.infoWord (b : BayRegs) : Nat :=
  b.ucnt % 2 ^ 13 * 2 ^ 48 + b.lb.toNat * 2 ^ 44 + b.rqcls.toNat * 2 ^ 42 + b.aleft.toNat * 2 ^ 40
  + b.rqrsv.toNat * 2 ^ 32 + b.handle.toNat * 2 ^ 24 + b2n b.isOpen

/-- vtype (R204). -/
def VecState.typeWord (v : VecState) : Nat :=
  b2n v.ill * 2 ^ 63 + v.lmode.toNat * 2 ^ 8 + v.cls.toNat * 2 ^ 4 + v.sew.toNat
/-- vffst (R285). -/
def VecState.ffWord (v : VecState) : Nat := b2n v.trim * 2 ^ 63 + v.trimCause.toNat * 2 ^ 32 + v.trimElem.toNat
/-- mshape (R293). -/
def MShape.word (m : MShape) : Nat := m.kcnt.toNat * 2 ^ 7 + b2n m.asc * 2 ^ 6 + b2n m.afmt
/-- mtag (R293): the tags of the tiles in the hart's share. -/
def mtagWord (c : Core) (tiles : Nat) : Nat :=
  (List.range 4).foldl (fun n t =>
    let g := c.tags.toList.getD t {}
    n + (if bit tiles t then (b2n g.sp * 8 + g.fmt.toNat) * 2 ^ (8 * t) else 0)) 0
/-- mhold (R293). -/
def Plan.holdWord (p : Plan) : Nat := p.rowsOn * 2 ^ 16 + p.tiles

/-- Bits over the 16 stream registers (R156). -/
def qBits (h : Hart) (f : Stream → Bool) : Nat := (h.q.toList.zipIdx).foldl (fun n p => n + b2n (f p.1) * 2 ^ p.2) 0

/-- Sampler work of a hart accepted and not complete (R335). -/
def State.worksOf (s : State) (hid : Nat) : Nat :=
  s.clus.foldl (fun n kc => n + (kc.2.works.filter (fun w => w.hid == hid)).length) 0

/-- The value a hart reads in a status register. -/
def State.readStatus (s : State) (hid n : Nat) : Word :=
  let h := s.hartAt hid
  let k := s.coreAt (hid / 8)
  let core := hid / 8
  let nat (x : Nat) : Word := BitVec.ofNat 64 x
  match n with
  | 0x000 => nat (b2n h.surr.isSome * 2 + b2n h.sup)
  | 0x002 => h.stklo
  | 0x003 => h.stkhi
  | 0x004 => nat (tokWord h.tok.toList)
  | 0x010 => nat h.fflags.toNat
  | 0x011 => nat h.frm.toNat
  | 0x012 => h.rkey
  | 0x013 => h.rstrm
  | 0x014 => h.rctr
  | 0x020 => h.pfxsave.toWord
  | 0x100 => nat (qBits h (fun q => q.loaded))
  | 0x101 => nat (qBits h (fun q => q.armed))
  | 0x200 => nat h.vec.vl
  | 0x201 => nat h.vec.rc
  | 0x202 => nat h.vec.typeWord
  | 0x203 => nat h.vec.estart.toNat
  | 0x204 => nat h.vec.rowstart.toNat
  | 0x205 => nat h.vec.vgrant
  | 0x206 => nat Config.vlmaxb
  | 0x207 => nat (if h.vec.ill then 0 else h.vec.vlmax)
  | 0x208 => nat (b2n h.vec.strap)
  | 0x209 => h.vec.vsplit
  | 0x20A => nat h.vec.ffWord
  | 0x20B => nat h.vec.vwtmo.toNat
  | 0x300 => nat h.mshape.word
  | 0x301 => nat (mtagWord k h.plan.tiles)
  | 0x302 => nat h.plan.holdWord
  | 0x380 => h.cpcnt
  | 0x381 => nat h.cpmcs.toNat
  | 0x400 => nat (h.bay.bayh.toNat * 2 ^ 24)
  | 0x401 => nat h.bay.infoWord
  | 0x402 => h.bay.rcend
  | 0x403 => nat (h.bay.lostHandle.toNat * 2 ^ 8 + b2n h.bay.lost)
  | 0x404 => nat (s.clusAt (hid / 64)).free
  | 0x405 => nat Config.recallQueue
  | 0x480 => h.smp.cnt
  | 0x481 => nat (h.smp.stOp.toNat * 2 ^ 8 + h.smp.stCause.toNat)
  | 0x482 => h.smp.addr
  | 0x483 => nat (s.worksOf hid)
  | 0x500 => nat ((if h.sup then 0 else (s.rsvAt h.resv.toNat).cls.toNat) * 2 ^ 8 + (if h.sup then 0 else h.resv.toNat))
  | 0x501 => nat h.rsvsel.toNat
  | 0x502 => (s.rsvAt h.rsvsel.toNat).cfgWord
  | 0x518 => nat s.dev.eceil
  | 0x700 => k.lpart
  | 0x701 => k.mpart
  | 0x710 => k.tqbase
  | 0x711 => nat k.tqlen.toNat
  | 0x712 => k.tqhead
  | 0x713 => k.tqtail
  | 0x714 => nat (b2n k.trKill * 2 ^ 8 + k.trSlot.toNat)
  | 0x715 => k.stkpool
  | 0x716 => k.stkmax
  | 0x720 => nat k.ptsel.toNat
  | 0x721 => k.ptroot.toList.getD k.ptsel.toNat 0
  | 0x730 => nat (k.smpCnt.toNat * 2 ^ 16 + k.smpBase.toNat)
  | 0x731 => nat h.lfunc.toNat
  | 0x800 => s.time
  | 0x801 => nat hid
  | 0x802 => nat h.gang.toNat
  | 0x803 => nat core
  | 0x804 => nat (hid / 64)
  | 0x805 => nat (hid / 320)
  | 0x806 => nat (hid % 8)
  | 0x807 => 0x00090768
  | 0x808 => nat Config.frmopq
  | 0x80A => nat h.ghart
  | 0x80B => nat h.gsize
  | 0x810 => nat Config.qdvec
  | 0x811 => nat Config.qdmat
  | 0x812 => nat Config.qdcpy
  | 0x813 => nat Config.qdtok
  | 0x814 => nat Config.qdcon
  | m =>
    if 0x508 ≤ m && m ≤ 0x50F then nat ((s.rsvAt h.rsvsel.toNat).budW (m - 0x508))
    else if 0x510 ≤ m && m ≤ 0x517 then
      nat (s.remaining (if h.sup then 0 else h.resv.toNat) (m - 0x510) (instOf core (m - 0x510)))
    else 0

/-- A write of the trap ring's registers: 0 tqbase, 1 tqlen, 2 tqhead, each followed by the pending records' retry
(R119, R128). -/
def State.ringRegWrite (s : State) (k : Nat) (which : Nat) (v : Word) : State :=
  let c := s.coreAt k
  let c1 := match which with
    | 0 => { c with tqbase := v &&& 0xFFFFFFFFFFFFF000 }
    | 1 => if 4 ≤ v.toNat % 16 && v.toNat % 16 ≤ 12 then { c with tqlen := BitVec.ofNat 4 v.toNat } else c
    | 2 => { c with tqhead := v }
    | _ => c
  (s.setCoreAt k c1).ringRetry k

/-- A write to fflags, which replaces the value (R71). -/
def State.fflagsWrite (s : State) (hid : Nat) (v : Word) : State :=
  s.setHartAt hid { s.hartAt hid with fflags := BitVec.ofNat 5 v.toNat }

/-- Translations of a context dropped, in one core or in every core, for one page or for all (R159). -/
def State.dropTlb (s : State) (all : Bool) (core ctx : Nat) (va : Option Nat) : State :=
  { s with cores := s.cores.map (fun p => if all || p.1 == core then (p.1, p.2.dropTlb ctx va) else p) }
/-- A write to xinv is about the core of a hart, its context and an address: kinds 1 and 3 name a whole context, 2 and 3 every
core, and 0 and 2 whatever the translation of a page covers, at most the GiB around it (R159; log 26). -/
def xinvNames (core : Nat) (v : Word) (hid ctx a : Nat) : Bool :=
  (decide (2 ≤ bits v.toNat 5 2) || hid / 8 == core) && bits v.toNat 0 5 == ctx &&
    (bits v.toNat 5 2 % 2 == 1 || bits v.toNat 30 27 == a / 2 ^ 30)
/-- A write to xinv (R159): translations are dropped. What waits in stream S is translated when it is performed. -/
def State.xinvWrite (s : State) (core : Nat) (v : Word) : State :=
  let kind := bits v.toNat 5 2
  s.dropTlb (decide (2 ≤ kind)) core (bits v.toNat 0 5) (if kind % 2 = 0 then some (bits v.toNat 16 41 * 65536) else none)
/-- Requests translated through what a write to xinv drops are not performed yet: updates on their way to their bins (R159).
Every other access is performed when it is translated (log 26). -/
def State.xinvBusy (s : State) (core : Nat) (v : Word) : Bool :=
  s.dev.updates.any (fun u =>
    xinvNames core v u.hid (match s.gangAt u.gang.toNat with | some x => x.fn.toNat | none => 0) u.dva.toNat)

/-- What a hart's write to a status register does; the access has been checked (R70). -/
def State.writeStatus (s : State) (hid n : Nat) (v : Word) : State :=
  let h := s.hartAt hid
  let core := hid / 8
  let k := s.coreAt core
  let put (x : Hart) : State := s.setHartAt hid x
  match n with
  | 0x010 => s.fflagsWrite hid v
  | 0x011 => put { h with frm := BitVec.ofNat 2 v.toNat }
  | 0x012 => put { h with rkey := v }
  | 0x013 => put { h with rstrm := v }
  | 0x014 => put { h with rctr := v }
  | 0x020 => put { h with pfxsave := { pend := bit v.toNat 63, popd := bit v.toNat 62, word := BitVec.ofNat 32 v.toNat } }
  | 0x203 => put { h with vec := { h.vec with estart := BitVec.ofNat 32 v.toNat } }
  | 0x204 => put { h with vec := { h.vec with rowstart := BitVec.ofNat 3 v.toNat } }
  | 0x208 => put { h with vec := { h.vec with strap := bit v.toNat 0 } }
  | 0x20B => put { h with vec := { h.vec with vwtmo := BitVec.ofNat 32 v.toNat } }
  | 0x300 => put { h with mshape := { kcnt := BitVec.ofNat 10 (v.toNat / 2 ^ 7), asc := bit v.toNat 6, afmt := bit v.toNat 0 } }
  | 0x380 => put { h with cpcnt := v }
  | 0x403 => put { h with bay := { h.bay with lost := h.bay.lost && !bit v.toNat 0 } }
  | 0x480 => put { h with smp := { h.smp with cnt := v } }
  | 0x501 => put { h with rsvsel := BitVec.ofNat 8 v.toNat }
  | 0x502 => s.rsvcfgWrite v
  | 0x710 => s.ringRegWrite core 0 v
  | 0x711 => s.ringRegWrite core 1 v
  | 0x712 => s.ringRegWrite core 2 v
  | 0x714 => s.setCoreAt core { k with trKill := bit v.toNat 8, trSlot := BitVec.ofNat 3 v.toNat }
  | 0x715 => s.setCoreAt core { k with stkpool := v &&& 0xFFFFFFFFFFFFFFC0 }
  | 0x716 => s.setCoreAt core { k with stkmax := v &&& 0xFFFFFFFFFFFFFFC0 }
  | 0x720 => s.setCoreAt core { k with ptsel := BitVec.ofNat 5 v.toNat }
  | 0x721 => s.setCoreAt core { k with ptroot := k.ptroot.setIfInBounds k.ptsel.toNat (v &&& 0x000FFFFFFFFF0001) }
  | 0x722 => s.xinvWrite core v
  | 0x730 => s.setCoreAt core
      { k with smpBase := BitVec.ofNat 10 v.toNat, smpCnt := BitVec.ofNat 11 (min 1024 (bits v.toNat 16 11)) }
  | 0x731 => if v.toNat % 32 ≤ 16 then put { h with lfunc := BitVec.ofNat 5 v.toNat } else s
  | m => if 0x508 ≤ m && m ≤ 0x50F then s.rsvbudWrite (m - 0x508) v else s

/-! ### Stream registers (R140 to R155) -/

/-- A stream register of a hart replaced. -/
def State.setStream (s : State) (hid : Nat) (q : BitVec 4) (x : Stream) : State :=
  let h := s.hartAt hid
  s.setHartAt hid { h with q := h.q.set q.toNat x }

/-- The translations that the core keeps for a stream dropped (R148, R160). -/
def State.dropAhead (s : State) (hid : Nat) (q : BitVec 4) : State :=
  { s with cores := s.cores.map (fun p =>
      if p.1 = hid / 8 then (p.1, { p.2 with tlb := p.2.tlb.filter (fun e => !(e.hid == hid && e.q == q)) }) else p) }

/-- What a status move or a change of a stream register does when its turn in its engine's order comes (R110, R150); `late`
where that is after its dispatch. A routine's change is remembered for the streams behind what it has set aside. -/
def moveAct (late : Bool) (en : Entry) (hid : Nat) (s : State) : State :=
  let h := s.hartAt hid
  let put (d : BitVec 5) (v : Word) : State := s.setHartAt hid (if late then h.setLate en.surr d v else h.setReg d v)
  match en.instr with
  | .mfs d n => put d (s.readStatus hid n.toNat)
  | .mts _ n => s.writeStatus hid n.toNat en.op1
  | .qget d q sel =>
    let x := h.q[q.toNat]
    let v := match sel.toNat with
      | 0 => x.base | 1 => x.stride | 2 => x.bound | 3 => x.cursor | 4 => BitVec.ofNat 64 x.cfg.toNat | 5 => x.waddr | _ => x.woff
    put d v
  | i =>
    let s1 := match i with | .qrel q => s.dropAhead hid q | _ => s
    s1.setHartAt hid { h with
      q := en.changeStream h.q
      surr := h.surr.map (fun x =>
        if en.surr then { x with chg := addChange x.chg en } else { x with q := en.changeStream x.q }) }

/-- The status moves and stream changes at the head of a queue take effect, up to the next engine instruction (R110), or the
first that stands behind a stream S access which can still trap (R99). -/
def State.drainMoves (s : State) (hid : Nat) (e : Eng) : Nat → State
  | 0 => s
  | n + 1 =>
    match (s.hartAt hid).queue e with
    | en :: _ =>
      if en.isMove && !(s.hartAt hid).behind en then
        let s1 := moveAct true en hid s
        (s1.setHartAt hid ((s1.hartAt hid).retireHead e)).drainMoves hid e n
      else s
    | [] => s

/-- An entry that only reads what it moves into a scalar register. -/
def Entry.onlyReads (en : Entry) : Bool := match en.instr with | .mfs .. | .qget .. => true | _ => false
/-- A move of an engine's order: at once where the engine's queue is empty, else behind it (R110, R150); one that changes what a
hart could not go back over is queued while a stream S access can still trap (R99; log 26). -/
def moveBody (e : Eng) (t : State) (en : Entry) : Except Stop (State × After) :=
  if (t.hart.queue e).isEmpty && (e == .s || en.onlyReads || !t.hart.unsettled) then .ok (moveAct false en t.cur t, .retire)
  else match t.hart.moveWait e en.instr with
  | some w => .error (.wait w)
  | none =>
    let h := t.hart
    .ok (t.setHart { h.setQueue e (h.queue e ++ [en]) with seq := h.seq + 1 }, .queue)

/-- Vector or matrix instructions of the hart that have not retired, which moves of fflags wait for (R71). -/
def Hart.flagsBusy (h : Hart) : Bool := decide (0 < realEntries (h.allQueue .v) + realEntries h.mq)

/-- `mfs` (R70, R71, R110). -/
def execMfs (d : BitVec 5) (n : BitVec 12) (s : State) : Out :=
  .next (s.frame (statusEarly s.hart.sup n.toNat) none (fun t =>
    if n = 0x010 && t.hart.flagsBusy then .error (.wait .flags)
    else moveBody (statusEng n.toNat) t (t.mkEntry (.mfs d n) 0 0)))

/-- `mts` (R70, R71, R110). One of xinv stops dispatch until the requests already translated are performed (R159). -/
def execMts (a : BitVec 5) (n : BitVec 12) (s : State) : Out :=
  .next (s.frame (statusEarly s.hart.sup n.toNat) (statusLate n.toNat) (fun t =>
    if n = 0x010 && t.hart.flagsBusy then .error (.wait .flags)
    else if n = 0x722 && t.xinvBusy t.coreNo (t.reg a) then .error (.wait (.xinv (t.reg a)))
    else moveBody (statusEng n.toNat) t (t.mkEntry (.mts a n) (t.reg a) 0)))

/-- A stream descriptor read from memory: the stream as loaded, or none where a reserved part is set (R140, R141). -/
def descOf (x : Nat) : Option Stream :=
  let c := BitVec.ofNat 32 (bits x 192 32)
  if cfgBad c || bits x 224 32 != 0 then none
  else some { base := BitVec.ofNat 64 x, stride := BitVec.ofNat 64 (bits x 64 64), bound := BitVec.ofNat 64 (bits x 128 64), cfg := c, loaded := true }

/-- `qld` (R148): checked as a scalar load of size 32. -/
def execQld (q : BitVec 4) (a : BitVec 5) (sp : BitVec 1) (imm : BitVec 6) (s : State) : Out :=
  .next (s.frame none none (fun t =>
    match t.scalarPlace sp (t.reg a + sext imm * 32) 32 .read with
    | .error e => .error e
    | .ok (t1, p) =>
      match descOf (t1.getAt p 32) with
      | none => trapAt 0x16 0
      | some x => moveBody .v t1 { t1.mkEntry (.qld q a sp imm) 0 0 with str := x }))

/-- `qbase` (R148, R153). -/
def execQbase (q : BitVec 4) (a : BitVec 5) (s : State) : Out :=
  .next (s.frame none none (fun t => moveBody .v t (t.mkEntry (.qbase q a) (t.reg a) 0)))

/-- `qstride` (R148). -/
def execQstride (q : BitVec 4) (a : BitVec 5) (s : State) : Out :=
  .next (s.frame none none (fun t => moveBody .v t (t.mkEntry (.qstride q a) (t.reg a) 0)))

/-- `qbound` (R148). -/
def execQbound (q : BitVec 4) (a : BitVec 5) (s : State) : Out :=
  .next (s.frame none none (fun t => moveBody .v t (t.mkEntry (.qbound q a) (t.reg a) 0)))

/-- `qcur` (R148). -/
def execQcur (q : BitVec 4) (a : BitVec 5) (s : State) : Out :=
  .next (s.frame none none (fun t => moveBody .v t (t.mkEntry (.qcur q a) (t.reg a) 0)))

/-- `qcfg` (R141, R148). -/
def execQcfg (q : BitVec 4) (a : BitVec 5) (s : State) : Out :=
  .next (s.frame none none (fun t =>
    if 2 ^ 32 ≤ (t.reg a).toNat || cfgBad (BitVec.ofNat 32 (t.reg a).toNat) then trapAt 0x16 0
    else moveBody .v t (t.mkEntry (.qcfg q a) (t.reg a) 0)))

/-- `qget` (R148, R150). -/
def execQget (d : BitVec 5) (q : BitVec 4) (sel : BitVec 6) (s : State) : Out :=
  .next (s.frame none none (fun t => moveBody .v t (t.mkEntry (.qget d q sel) 0 0)))

/-- `qrel` (R142, R148). -/
def execQrel (q : BitVec 4) (s : State) : Out :=
  .next (s.frame none none (fun t => moveBody .v t (t.mkEntry (.qrel q) 0 0)))

/-- The probe word of an address for the acting hart (R149): no fault, and no bit set. -/
def State.probe (s : State) (a : Nat) : Word :=
  if 2 ^ 57 ≤ a then 0
  else match s.leafOf s.who a with
    | .error c => if c = 0x18 then 0x400 else 0
    | .ok (_, p) =>
      let use := if inHbm (leafPa p a) then (s.dev.use.find (leafPa p a / 65536)).getD 0 else 0
      let sz := match bits p 7 2 with | 0 => 0 | 1 => 1 | _ => 2
      let pa := if s.hart.sup then pteBase p else 0
      BitVec.ofNat 64 (pa + use * 2 ^ 8 + b2n (inHost (pteBase p)) * 2 ^ 7 + sz * 2 ^ 5 + b2n (bit p 6) * 2 ^ 4
        + bits p 3 3 * 2 + 1)

/-- `qprobe` (R148, R149). -/
def execQprobe (d a : BitVec 5) (s : State) : Out :=
  .next (s.simple (fun t => t.setReg d (t.probe (t.reg a).toNat)))

/-- `sbar` (R152): vector accesses are performed in queue order. A named stream S waits for the vector memory instructions
queued before it; later vector memory instructions through the named stream registers wait for what stands in stream S. -/
def execSbar (qs : BitVec 1) (_sc : BitVec 3) (qmask : BitVec 16) (s : State) : Out :=
  .next (s.simple (fun t =>
    let t1 := if qs = 1 && t.hart.vecMemPending then t.setHart { t.hart with holdS := t.hart.seq } else t
    if t.hart.ss.isEmpty then t1
    else
      let h := t1.hart
      t1.setHart { h with qHold := (List.range 16).foldl (fun v i => if bit qmask.toNat i then v.setIfInBounds i h.seq else v) h.qHold }))

/-- `qwatch` (R153). -/
def execQwatch (a b : BitVec 5) (q : BitVec 4) (s : State) : Out :=
  .next (s.frame none none (fun t =>
    if (t.reg a).toNat % 8 ≠ 0 then trapAt 0x10 (t.reg a).toNat
    else moveBody .v t (t.mkEntry (.qwatch a b q) (t.reg a) (t.reg b))))

/-- `qunwatch` (R153). -/
def execQunwatch (q : BitVec 4) (s : State) : Out :=
  .next (s.frame none none (fun t => moveBody .v t (t.mkEntry (.qunwatch q) 0 0)))

/-- The stream register q as the changes dispatched so far leave its watch (R154); those that a surrender routine has set
aside are in the streams it finds (R150). -/
def Hart.latestWatch (h : Hart) (q : BitVec 4) : Stream :=
  h.vq.foldl (fun x en =>
    match en.instr with
    | .qwatch _ _ r => if r = q then { x with armed := true, waddr := en.op1, woff := en.op2 } else x
    | .qunwatch r | .qrel r | .qbase r _ => if r = q then x.disarm else x
    | .qld r .. => if r = q then x.disarm else x
    | _ => x) h.q[q.toNat]

/-- The value a watch reads now (R153, R154), its page touched as the hint of the qwait's prefix says and its block charged
(R47, R64); a soft error in the word is cause 0x52. -/
def State.watchValue (s : State) (hid : Nat) (x : Stream) : Except Stop (State × Word) :=
  let h := s.hartAt hid
  match s.dv (s.whoOf hid) x.waddr.toNat .read h.scalarTouch with
  | .error e => .error e
  | .ok (s1, pa) =>
    let s2 := if inHbm pa then s1.chargeEnergy h.workResv 2 else s1
    if s2.spoiled 3 0 pa 8 then trapAt 0x52 x.waddr.toNat else .ok (s2, BitVec.ofNat 64 (s2.mem.read pa 8))

/-- `qwait` (R154). -/
def execQwait (a d : BitVec 5) (q : BitVec 4) (s : State) : Out :=
  .next (s.frame none none (fun t =>
    let x := t.hart.latestWatch q
    if !x.armed then trapAt 0x16 0
    else match t.watchValue t.cur x with
      | .error e => .error e
      | .ok (t1, w) =>
        if t.reg a ≤ w || t.hart.surr.isSome then .ok (t1.setReg d w, .retire)
        else .ok (t1, .park (.qwait q (t.reg a) d))))

/-- `wmpub` (R155): at once where nothing it waits for is under way, else when all before it is over; dispatch goes on,
and later stream S accesses wait behind it. -/
def execWmpub (a b : BitVec 5) (_sc : BitVec 3) (s : State) : Out :=
  .next (s.frame none none (fun t =>
    let later (w : Wait) := t.defer w .publish 0 (t.reg a) 8 .rmw (t.reg b) 0
    match t.scalarPlace 0 (t.reg a) 8 .rmw with
    | .error (.wait w) => later w
    | .error e => .error e
    | .ok (t1, p) =>
      if t.hart.queuesBusy || t.pubHeld t.cur (t.reg a) then later .publish
      else .ok (t1.putAt p 8 (max (t1.getAt p 8) (t1.reg b).toNat), .retire)))

end Sys2Proof.Machine
end

