-- ==== Sys2Proof/Machine/Copy.lean ====
section
/-! DEFINITION. The copy engine (majors 0x24 and 0x25; R187 to R202): shapes, admission, chunks, multicast, sparse
expand, completion. -/

namespace Sys2Proof.Machine

/-! ### Shapes (R189, R191) -/

/-- n1, n2, n and the distances of R191. -/
def Shape.rows (c : Shape) : Nat := max c.count1.toNat 1
def Shape.planes (c : Shape) : Nat := max c.count2.toNat 1
def Shape.total (c : Shape) : Nat := c.count0.toNat * c.rows * c.planes
def Shape.srcRow (c : Shape) : Int := if c.s1 = 0 then (c.count0.toNat : Int) else c.s1.toInt
def Shape.srcPlane (c : Shape) : Int := if c.s2 = 0 then c.srcRow * (c.rows : Int) else c.s2.toInt
def Shape.dstRow (c : Shape) : Int := if c.d1 = 0 then (c.count0.toNat : Int) else c.d1.toInt

/-- A contiguous piece of a chunk: its distances from the two bases, its length, and where it stands in the chunk. -/
structure Piece where
  src : Int
  dst : Int
  len : Nat
  off : Nat
  deriving DecidableEq, Repr

/-- The pieces of a command from byte q up to byte `fin`, in a chunk that begins at q0 (R191); fuel bounds their
number. -/
def Shape.pieces (c : Shape) (q0 fin q : Nat) : Nat → List Piece
  | 0 => []
  | n + 1 =>
    if fin ≤ q then []
    else
      let n0 := max c.count0.toNat 1
      let r := q / n0
      let j := q % n0
      let len := min (n0 - j) (fin - q)
      let i1 := r % c.rows
      let i2 := r / c.rows
      { src := (i2 : Int) * c.srcPlane + (i1 : Int) * c.srcRow + (j : Int)
        dst := (r : Int) * c.dstRow + (j : Int), len := len, off := q - q0 } :: c.pieces q0 fin (q + len) n

/-! ### Spans of bytes -/

/-- Contiguous bytes once checked: where they lie, and where in the chunk they stand. -/
structure Span where
  place : Place
  off : Nat
  len : Nat
  deriving DecidableEq, Repr

/-- The byte memory a place lies in. -/
def State.store (s : State) (p : Place) : Mem :=
  match p.sp with
  | .dv => s.mem
  | .ab => (s.coreAt p.core).ab
  | .wb => (s.coreAt p.core).wb
  | .as => (s.coreAt p.core).acc
  | .sq => (s.clusAt p.cl).square
  | .lp => (s.hartAt p.hid).vec.lp
/-- The byte memory a place lies in, replaced. -/
def State.setStore (s : State) (p : Place) (m : Mem) : State :=
  match p.sp with
  | .dv => { s with mem := m }
  | .ab => s.setCoreAt p.core { s.coreAt p.core with ab := m }
  | .wb => s.setCoreAt p.core { s.coreAt p.core with wb := m }
  | .as => s.setCoreAt p.core { s.coreAt p.core with acc := m }
  | .sq => s.setClusAt p.cl { s.clusAt p.cl with square := m }
  | .lp => let h := s.hartAt p.hid; s.setHartAt p.hid { h with vec := { h.vec with lp := m } }

/-- The bytes of spans gathered, each where it stands. -/
def State.gather (s : State) (l : List Span) : Mem :=
  l.foldl (fun img x => img.blit x.off x.len ((s.store x.place).slice x.place.at_ x.len)) []
/-- Bytes scattered to spans. -/
def State.scatter (s : State) (l : List Span) (img : Mem) : State :=
  l.foldl (fun t x => t.setStore x.place ((t.store x.place).blit x.place.at_ x.len (img.slice x.off x.len))) s

/-- Device-virtual bytes, page by page, each touched as `kind` says (R166, R192); fuel bounds the pages. -/
def State.dvSpans (s : State) (who : Who) (a len off : Nat) (acc : Acc) (kind : Nat) : Nat → Except Stop (State × List Span)
  | 0 => .ok (s, [])
  | n + 1 =>
    if len = 0 then .ok (s, [])
    else
      let k := min len (65536 - a % 65536)
      match s.dv who a acc kind with
      | .error e => .error e
      | .ok (s1, pa) =>
        match s1.dvSpans who ((a + k) % 2 ^ 64) (len - k) (off + k) acc kind n with
        | .error e => .error e
        | .ok (s2, l) => .ok (s2, ⟨⟨.dv, who.clus, who.core, 0, pa⟩, off, k⟩ :: l)

/-- Square bytes in a cluster; the offset never carries into the handle (R192, R193). -/
def State.sqSpan (s : State) (who : Who) (cl base : Nat) (delta : Int) (len off : Nat) : Except Stop Span :=
  let hd := bits base 24 8
  let o : Int := (bits base 0 24 : Nat) + delta
  let addr (x : Int) : Nat := hd * 2 ^ 24 + wrap 24 x
  match s.reach who cl hd with
  | .error (.trap t) => trapAt t.cause (addr o)
  | .error w => .error w
  | .ok size =>
    if o < 0 || decide ((size : Int) < o + len) then trapAt 0x17 (addr (if o < 0 then o else max o size))
    else .ok ⟨⟨.sq, cl, who.core, 0, hd * 2 ^ 24 + o.toNat⟩, off, len⟩

/-- Bytes of a local space of the core (R29, R192). -/
def State.localSpan (s : State) (hid : Nat) (sp : Space) (base : Nat) (delta : Int) (len off : Nat) : Except Stop Span :=
  let h := s.hartAt hid
  let size := match sp with | .ab => Config.abBytes | .wb => Config.wbBytes | _ => 1024 * h.plan.rows
  let start := match sp with | .as => 1024 * h.plan.rowBase | _ => 0
  let o : Int := (base : Int) + delta
  if o < 0 || decide ((size : Int) < o + len) then trapAt 0x17 (wrap 64 (if o < 0 then o else max o size))
  else .ok ⟨⟨sp, hid / 64, hid / 8, hid, start + o.toNat⟩, off, len⟩

/-- Bytes of a side of a copy, `cl` the cluster of a Square side, checked under R192. -/
def State.sideSpans (s : State) (hid : Nat) (sp : Space) (cl base : Nat) (acc : Acc) (kind : Nat) (delta : Int) (len off : Nat) :
    Except Stop (State × List Span) :=
  match sp with
  | .dv => s.dvSpans (s.whoOf hid) (wrap 64 ((base : Int) + delta)) len off acc kind (len / 65536 + 2)
  | .sq =>
    if 2 ^ 32 ≤ base then trapAt 0x14 (wrap 64 ((base : Int) + delta))
    else match s.sqSpan (s.whoOf hid) cl base delta len off with | .error e => .error e | .ok x => .ok (s, [x])
  | sp => match s.localSpan hid sp base delta len off with | .error e => .error e | .ok x => .ok (s, [x])

/-- The spans of several pieces of a side. -/
def State.allSpans (s : State) (hid : Nat) (sp : Space) (cl base : Nat) (acc : Acc) (kind : Nat) (sel : Piece → Int) :
    List Piece → Except Stop (State × List Span)
  | [] => .ok (s, [])
  | p :: t =>
    match s.sideSpans hid sp cl base acc kind (sel p) p.len p.off with
    | .error e => .error e
    | .ok (s1, l) =>
      match s1.allSpans hid sp cl base acc kind sel t with
      | .error e => .error e
      | .ok (s2, m) => .ok (s2, l ++ m)

/-! ### Admission (R192, R196, R197) -/

/-- Source and destination spaces of their codes (R187). -/
def srcSpace (c : BitVec 2) : Space := match c.toNat with | 0 => .dv | 1 => .ab | 2 => .as | _ => .sq
def dstSpace (c : BitVec 2) : Space := match c.toNat with | 0 => .dv | 1 => .ab | 2 => .wb | _ => .sq
/-- The token FIFO of a completion code; 0 for the counter (R187). -/
def compTok (c : BitVec 2) : Nat := match c.toNat with | 0 => 0 | n => 9 + n

/-- The multicast destinations of a Square base: mask bit and cluster (R193). -/
def castTargets (hid : Nat) (sp : Space) (b : Word) : List (Nat × Nat) :=
  let mask := bits b.toNat 32 5
  if sp = .sq && mask != 0 then ((List.range 5).filter (fun i => bit mask i)).map (fun i => (i, 5 * (hid / 320) + i))
  else [(0, hid / 64)]

/-- A base that translates into the host window, looked at as qprobe looks (R149, R192). -/
def State.hostBase (s : State) (hid : Nat) (sp : Space) (a : Word) : Bool :=
  decide (sp = .dv) && decide (a.toNat < 2 ^ 57) &&
    (match s.leafOf (s.whoOf hid) a.toNat with | .ok (_, p) => inHost (pteBase p) | .error _ => false)

/-- What a copy asks of its reservation: copy units, HBM units, and whether a side is in the host window (R196). -/
structure CopyAsk where
  wc : Nat
  wh : Nat
  host : Bool
  deriving DecidableEq, Repr

/-- The charges a command states at admission: n bytes in `rows` rows, or for a sparse expand those of R201. -/
def State.copyAsk (s : State) (hid : Nat) (ssp dsp : Space) (a b : Word) (xpd : Bool) (n rows : Nat) : CopyAsk :=
  let m := (castTargets hid dsp b).length
  let hostA := s.hostBase hid ssp a
  let hostB := s.hostBase hid dsp b
  let blocks := if xpd then 256 else cdiv n 256
  let src := if ssp = .dv && !hostA then (if xpd then 289 + 1 else blocks + rows) else 0
  let dst := if dsp = .dv && !hostB then blocks + (if xpd then 1 else rows) else 0
  { wc := blocks * m, wh := src + dst, host := hostA || hostB }

/-- The deadline of R196: paced in copy bytes and in HBM bytes, q and qh units of the source ahead of it, and no earlier
than the last one of the hart's copies (R55). -/
def State.copyDeadline (s : State) (hid r : Nat) (k : CopyAsk) (q qh : Nat) : Nat :=
  let core := hid / 8
  max (s.hartAt hid).srcDl[0].toNat <| max (pace s.now (k.wc + q) (s.remaining r 5 core) (s.budget r 5) 2048)
    (pace s.now (k.wh + qh) (s.remaining r 3 core) (s.budget r 3) 2048)
/-- Copy units, and HBM units, of a hart's queue not yet performed (R54). -/
def queuedCopy (l : List Entry) : Nat × Nat := l.foldl (fun n e => (n.1 + e.left, n.2 + e.leftH)) (0, 0)

/-- The checks at dispatch and the admission of a copy of the acting hart (R191, R193, R196, R197). -/
def State.copyAdmit (s : State) (i : Instr) (w xpd : Bool) (ssp dsp : Space) (a b : Word) (shape : Shape) :
    Except Stop Adm :=
  let h := s.hart
  let n := shape.total
  if !xpd && (shape.count0 = 0 || decide (2 ^ 30 < n)) then trapAt 0x38 0
  else if dsp = .sq && decide (2 ^ 37 ≤ b.toNat) then trapAt 0x39 b.toNat
  else
    let r := h.workResv
    let k := s.copyAsk s.cur ssp dsp a b xpd n (shape.rows * shape.planes)
    let why := s.commonReason s.who.fn r (5 :: (if k.wh = 0 then [] else [3]))
    if why != 0 then .ok (.refused why false)
    else if !h.hasRoom .c then .ok (.refused 0x20 true)
    else
      let cls := s.workCls h
      let q := queuedCopy h.cq
      let d := s.copyDeadline s.cur r k q.1 q.2
      let free := cls = 0 || k.host
      if !free && tooFar s.now d then
        let never := hopelessPace s.now k.wc (s.budget r 5) 2048 || hopelessPace s.now k.wh (s.budget r 3) 2048
        .ok (.refused 2 (w && !never))
      else
        let word := acceptWord (if free then 0 else cls) d
        let en := { s.mkEntry i a b with
          deadline := if free then word else BitVec.ofNat 64 d, shape := shape, left := k.wc, leftH := k.wh, host := k.host }
        let dl := if free then h.srcDl else h.srcDl.set 0 (BitVec.ofNat 64 d)
        .ok (.accepted (s.setHart { h with cq := h.cq ++ [en], seq := h.seq + 1, srcDl := dl }) word)

/-- `cp.go` submitted (R191). -/
def State.cpGo (s : State) (o : Copy) : State :=
  let tok := compTok o.comp
  s.submission .c (.cp o) (o.w = 1) o.d (if tok = 0 then [] else [tok])
    (fun t => t.copyAdmit (.cpGo o) (o.w = 1) false (srcSpace o.ssp) (dstSpace o.dsp) (t.reg o.a) (t.reg o.b) t.hart.c[o.ck.toNat]) id
/-- `cp.xpd` submitted (R201). -/
def State.cpXpd (s : State) (o : Xpd) : State :=
  let tok := compTok o.comp
  s.submission .c (.xpd o) (o.w = 1) o.d (if tok = 0 then [] else [tok])
    (fun t => t.copyAdmit (.cpXpd o) (o.w = 1) true (srcSpace o.ssp) (dstSpace o.dsp) (t.reg o.a) (t.reg o.b) {}) id

/-! ### Performing chunks (R192, R198 to R201) -/

/-- 256-byte blocks of HBM that spans touch. -/
def hbmBlocks (l : List Span) : Nat :=
  l.foldl (fun n x =>
    n + (if x.place.sp = .dv && inHbm x.place.at_ && x.len != 0 then
      (x.place.at_ + x.len - 1) / 256 - x.place.at_ / 256 + 1 else 0)) 0
/-- Bytes of spans that lie in a Square. -/
def sqBytesOf (l : List Span) : Nat := l.foldl (fun n x => n + (if x.place.sp = .sq then x.len else 0)) 0

/-- A command of the copy queue as it runs. -/
structure CopyRun where
  ssp : Space
  dsp : Space
  tok : Nat
  /-- Bytes of a value of a sparse expand; 0 for cp.go. -/
  w : Nat
/-- The run of a copy entry. -/
def copyRunOf : Instr → Option CopyRun
  | .cpGo o => some ⟨srcSpace o.ssp, dstSpace o.dsp, compTok o.comp, 0⟩
  | .cpXpd o => some ⟨srcSpace o.ssp, dstSpace o.dsp, compTok o.comp, 2 ^ o.ty.toNat⟩
  | _ => none

/-- A destination of a chunk that was checked, or the fault it met. -/
abbrev CastDone := List (List Span) × List (Nat × Trap)

/-- The destinations of a multicast checked in order: one that faults is left out (R199). A pending bay counts as none
of the gang's (R193); the record then holds the chunk's first address there (R198). -/
def State.castSpans (s : State) (hid base kind : Nat) (ps : List Piece) :
    List (Nat × Nat) → State × CastDone
  | [] => (s, [], [])
  | (i, cl) :: t =>
    match s.allSpans hid .sq cl base .write kind (fun p => p.dst) ps with
    | .ok (s1, l) => let r := s1.castSpans hid base kind ps t; (r.1, l :: r.2.1, r.2.2)
    | .error (.trap x) => let r := s.castSpans hid base kind ps t; (r.1, r.2.1, (i, x) :: r.2.2)
    | .error (.wait _) =>
      let r := s.castSpans hid base kind ps t
      let o : Int := (bits base 0 24 : Nat) + (match ps with | p :: _ => p.dst | [] => 0)
      (r.1, r.2.1, (i, ⟨0x40, BitVec.ofNat 64 (bits base 24 8 * 2 ^ 24 + wrap 24 o)⟩) :: r.2.2)

/-- The completion of a command: its retirement, with its token or count (R194). `mcs` is cpmcs when a multicast
failed. -/
def Hart.endCopy (h : Hart) (tok : Nat) : Hart :=
  let h1 := h.retireHead .c
  if tok = 0 then { h1 with cpcnt := h1.cpcnt + 1 } else h1.depositTok tok

/-- A command ended with a cause: it counts as retired and is never run again, and the hart traps (R199). -/
def State.copyEnded (s : State) (hid : Nat) (en : Entry) (tok : Nat) (t : Trap) : State :=
  (s.setHartAt hid ((s.hartAt hid).endCopy tok)).takeTrap hid t
    { engine := 4, ipc := en.pc, word := en.word, imprecise := true }

/-- What the source side of a chunk gives: the state, the chunk's bytes, and the spans read. -/
abbrev ChunkSrc := Except Stop (State × Mem × List Span)

/-- Bytes read for a copy: one that meets an uncorrectable soft error is cause 0x52, recorded with the source's base, since
the spec names no address (R56; DESIGN CHOICE, log 68). -/
def State.copyRead (s : State) (en : Entry) (l : List Span) : Except Stop Mem :=
  if l.any (fun x => s.spoiledAt x.place x.len) then trapAt 0x52 en.op1.toNat else .ok (s.gather l)

/-- The source of a cp.go chunk. -/
def State.goSource (s : State) (hid : Nat) (c : CopyRun) (en : Entry) (ps : List Piece) : ChunkSrc :=
  match s.allSpans hid c.ssp (hid / 64) en.op1.toNat .read (hintTouch en.hint) (fun p => p.src) ps with
  | .error e => .error e
  | .ok (s1, l) => match s1.copyRead en l with | .error e => .error e | .ok m => .ok (s1, m, l)

/-- The present elements below i of a bitmap. -/
def presentBelow (bm i : Nat) : Nat := popcount bm i

/-- The dense bytes of elements i to i + n - 1, given the packed values from element i on. -/
def denseBytes (w bm i : Nat) (packed : Mem) (n : Nat) : Mem :=
  ((List.range n).foldl (fun (acc : Mem × Nat) j =>
    if bit bm (i + j) then (acc.1.blit (w * j) w (packed.slice (w * acc.2) w), acc.2 + 1) else acc) ([], 0)).1

/-- The source of a chunk of a sparse expand: its packed values, spread (R201). -/
def State.xpdSource (s : State) (hid : Nat) (c : CopyRun) (en : Entry) (q fin : Nat) : ChunkSrc :=
  let ne := en.shape.count0.toNat / c.w
  let i := q / c.w
  let n := (fin - q) / c.w
  let k0 := presentBelow en.bitmap i
  let k := presentBelow en.bitmap (i + n) - k0
  match s.sideSpans hid c.ssp (hid / 64) en.op1.toNat .read (hintTouch en.hint) ((8 + 8 * cdiv ne 64 + c.w * k0 : Nat) : Int) (c.w * k) 0 with
  | .error e => .error e
  | .ok (s1, l) =>
    match s1.copyRead en l with
    | .error e => .error e
    | .ok m => .ok (s1, denseBytes c.w en.bitmap i m n, l)

/-- The HBM blocks, and KiB of a Square, of spans read charged, with their energy (R47, R196). -/
def State.chargeRead (s : State) (hid : Nat) (en : Entry) (l : List Span) : State :=
  let r := (s.hartAt hid).entryResv en
  (s.charge r 3 (hid / 8) (hbmBlocks l)).chargeEnergy r (2 * hbmBlocks l + cdiv (sqBytesOf l) 1024)

/-- The header and bitmap of a sparse expand, charged as they are read (R196): ne, the bitmap and the HBM blocks read, or
none where the format check fails (R201). -/
def State.xpdHeader (s : State) (hid : Nat) (c : CopyRun) (en : Entry) : Except Stop (State × Option (Nat × Nat × Nat)) :=
  let a := en.op1.toNat
  if a % 8 ≠ 0 then trapAt 0x10 a
  else match s.sideSpans hid c.ssp (hid / 64) a .read (hintTouch en.hint) 0 8 0 with
    | .error e => .error e
    | .ok (s1, l) =>
      match s1.copyRead en l with
      | .error e => .error e
      | .ok hd =>
        let ne := bits (hd.read 0 8) 0 32
        let np := bits (hd.read 0 8) 32 32
        match s1.sideSpans hid c.ssp (hid / 64) a .read (hintTouch en.hint) 8 (8 * cdiv ne 64) 0 with
        | .error e => .error e
        | .ok (s2, m) =>
          match s2.copyRead en m with
          | .error e => .error e
          | .ok map =>
            let s3 := s2.chargeRead hid en (l ++ m)
            if ne = 0 || decide (65536 < ne * c.w) then .ok (s3, none)
            else
              let bm := map.read 0 (8 * cdiv ne 64)
              if 2 ^ ne ≤ bm || popcount bm ne != np then .ok (s3, none) else .ok (s3, some (ne, bm, hbmBlocks (l ++ m)))

/-- The cycle in which what the copy engine has taken on, and its ports with it, is through (R43). -/
def State.copyThrough (s : State) (hid : Nat) (c : CopyRun) : Nat :=
  max (s.throughAt (hid / 8) 9 1) (max (s.portThrough (hid / 8) c.ssp false) (s.portThrough (hid / 8) c.dsp true))

/-- One chunk of the head command: read, checked and written, or a stop (R198, R199); its charges are those of R196. A
multicast all of whose destinations have failed goes on reading its source to the end (DESIGN CHOICE, log 67). -/
def State.chunkOne (s : State) (hid : Nat) (c : CopyRun) (en : Entry) : Except Stop State :=
  let n := en.shape.total
  let q := en.prog
  let fin := min n (q + 4096)
  let ps := en.shape.pieces q fin q 4096
  let src := if c.w = 0 then s.goSource hid c en ps else s.xpdSource hid c en q fin
  match src with
  | .error e => .error e
  | .ok (s1, img, ss) =>
    let targets := castTargets hid c.dsp en.op2
    let multi := c.dsp = .sq && bits en.op2.toNat 32 5 != 0
    let live := targets.filter (fun x => !(multi && bit en.mcf.toNat x.1))
    let base := if c.dsp = .sq then bits en.op2.toNat 0 32 else en.op2.toNat
    let checked : Except Stop (State × CastDone) :=
      if multi then .ok (s1.castSpans hid base (hintTouch en.hint) ps live)
      else match s1.allSpans hid c.dsp (hid / 64) base .write (hintTouch en.hint) (fun p => p.dst) ps with
        | .error e => .error e
        | .ok (s2, l) => .ok (s2, [l], [])
    match checked with
    | .error e => .error e
    | .ok (s2, dests, fails) =>
      let s3 := dests.foldl (fun t l => t.scatter l img) s2
      let h := s3.hartAt hid
      let r := h.entryResv en
      let bytes := fin - q
      let blocks := cdiv bytes 256 * dests.length
      let hbm := hbmBlocks ss + (dests.map hbmBlocks).foldl (· + ·) 0
      let sq := cdiv (sqBytesOf ss) 1024 + (dests.map (fun l => cdiv (sqBytesOf l) 1024)).foldl (· + ·) 0
      let s4 := ((s3.charge r 5 (hid / 8) blocks).charge r 3 (hid / 8) hbm).chargeEnergy r (blocks + 2 * hbm + sq)
      let s5 := (s4.usePort (hid / 8) c.ssp false ((ss.map (fun x => x.len)).foldl (· + ·) 0)).usePort (hid / 8) c.dsp true
        (bytes * dests.length)
      let mcf := fails.foldl (fun m x => m ||| (1#5 <<< x.1)) en.mcf
      -- the record names the failed destination with the lowest mask bit
      let lowest := fails.foldl (fun (acc : Nat × BitVec 8 × Word) x =>
        if x.1 < acc.1 then (x.1, x.2.cause, x.2.addr) else acc)
        ((List.range 5).foldr (fun i k => if bit en.mcf.toNat i then i else k) 5, en.mcc, en.mca)
      let e1 := { en with
        started := true, prog := q + 4096, tried := s5.copyThrough hid c, left := en.left - blocks, leftH := en.leftH - hbm
        mcf := mcf, mcc := lowest.2.1, mca := lowest.2.2 }
      let h1 := (s5.hartAt hid).setHead .c e1
      .ok (s5.setHartAt hid (if en.span then h1.count blocks else h1))

/-- A copy held at the head of its queue: the hart does not run, it stands behind a stream S access that can still trap (R99), the
engine or a port it needs is at work, or a budget it needs is spent or energy is held (R43, R46, R48). -/
def State.copyHeld (s : State) (hid : Nat) (c : CopyRun) : Bool :=
  let h := s.hartAt hid
  let (surr, host) := match h.cq with | en :: _ => (en.surr, en.host) | [] => (false, false)
  h.run != .running || h.headBehind h.cq || s.atWork 5 (hid / 8) || s.portBusy (hid / 8) c.ssp false || s.portBusy (hid / 8) c.dsp true ||
    s.held h (hid / 8) surr host (5 :: (if c.ssp = .dv || c.dsp = .dv then [3] else []))

/-- The next chunk of the command at the head of a hart's copy queue (R198 to R201). -/
def State.copyChunk (s : State) (hid : Nat) : State :=
  let h := s.hartAt hid
  match h.cq with
  | [] => s
  | en :: _ =>
    match copyRunOf en.instr with
    | none => s
    | some c =>
      if s.copyHeld hid c then s
      else
        let go (s1 : State) (e1 : Entry) : State :=
          match s1.chunkOne hid c e1 with
          | .ok s2 => s2
          | .error (.trap t) => s1.engineTrap hid .c t 0 0
          | .error (.wait _) => s1.setHartAt hid ((s1.hartAt hid).setHead .c { e1 with started := true, tried := s.now + 1 })
        if c.w != 0 && en.shape.count0 = 0 then
          match s.xpdHeader hid c en with
          | .error (.trap t) => s.engineTrap hid .c t 0 0
          | .error (.wait _) => s.setHartAt hid (h.setHead .c { en with tried := s.now + 1 })
          | .ok (s1, none) => s1.copyEnded hid en c.tok ⟨0x3A, 0⟩
          | .ok (s1, some (ne, bm, hbm)) =>
            let e1 := { en with leftH := en.leftH - hbm, shape := { count0 := BitVec.ofNat 32 (ne * c.w) }, bitmap := bm }
            go (s1.setHartAt hid ((s1.hartAt hid).setHead .c e1)) e1
        else if en.shape.total ≤ en.prog then s
        else go s en

/-- The completion of the command at the head of a hart's copy queue, all of whose chunks are written (R194, R199). -/
def State.copyComplete (s : State) (hid : Nat) : State :=
  let h := s.hartAt hid
  match h.cq with
  | [] => s
  | en :: _ =>
    match copyRunOf en.instr with
    | none => s
    | some c =>
      if h.run != .running || en.shape.count0 = 0 || decide (en.prog < en.shape.total) then s
      else if en.mcf = 0 then
        (s.setHartAt hid (h.endCopy c.tok)).drainMoves hid .c 64
      else
        let s1 := s.copyEnded hid en c.tok ⟨en.mcc, en.mca⟩
        s1.setHartAt hid { s1.hartAt hid with cpmcs := en.mcf }

/-- The tokens, or the count, of a command that has ended (R194, R199). -/
def Hart.endOf (h : Hart) (en : Entry) : Hart :=
  match copyRunOf en.instr with
  | none => h
  | some c =>
    let h1 := match en.pfx with | some w => h.deposit (pfxPush w) | none => h
    if c.tok = 0 then { h1 with cpcnt := h1.cpcnt + 1 } else h1.depositTok c.tok
/-- The record of a command of a hart that has ended in error, beside the record of the hart's own trap: in the trap ring of its
core, or for a supervisor with the service cores (R56, R128, R129). -/
def State.reportEnd (s : State) (hid : Nat) (cause : BitVec 8) (en : Entry) : State :=
  let h := s.hartAt hid
  let r : Record :=
    { cause := cause, engine := 4, flags := 1, ipc := en.pc, word := en.word, hid := BitVec.ofNat 16 hid, gang := h.gang, rpc := h.pc
      time := s.time }
  if h.sup then { s with dev := { s.dev with svc := s.dev.svc ++ [r] } } else s.postRecord (hid / 8) r
/-- The commands of a hart that satisfy a condition end in error with a cause, as R199 has a failed command end: they count as
retired and are never run again, and each is reported: the first by the trap of a hart that runs, every other by a record of its own
(R56, R364, R365). The spec names no cause for them, nor that the hart traps (DESIGN CHOICE, log 75). -/
def State.cutCopies (s : State) (hid : Nat) (c : Entry → Bool) (cause : BitVec 8) : State :=
  let h := s.hartAt hid
  let cut (en : Entry) : Bool := (copyRunOf en.instr).isSome && c en
  let s1 := s.setHartAt hid ((h.cq.filter cut).foldl Hart.endOf { h with cq := h.cq.filter (fun x => !cut x) })
  match h.cq.filter cut with
  | [] => s
  | en :: t =>
    if h.run != .running then (en :: t).foldl (fun u x => u.reportEnd hid cause x) s1
    else t.foldl (fun u x => u.reportEnd hid cause x)
      (s1.takeTrap hid ⟨cause, 0⟩ { engine := 4, ipc := en.pc, word := en.word, imprecise := true })

/-- A cp.shape or a cp.cnt held at the head of its queue: it is work of the copy engine, of which the energy of its reservation
is asked (R46, R48). -/
def State.shapeHeld (s : State) (hid : Nat) : Bool :=
  let h := s.hartAt hid
  match h.cq with
  | [] => false
  | en :: _ => !en.isMove && (h.run != .running || h.behind en || s.held h (hid / 8) en.surr false [])
/-- The retirement of a cp.shape or a cp.cnt at the head of the copy queue (R190, R195). -/
def State.copyRetire (s : State) (hid : Nat) : State :=
  let h := s.hartAt hid
  if s.shapeHeld hid then s
  else match h.cq with
  | [] => s
  | en :: _ =>
    match en.instr with
    | .cpShape .. => (s.setHartAt hid (h.retireHead .c)).drainMoves hid .c 64
    | .cpCnt d => (s.setHartAt hid ((h.setHead .c { en with res := some (d, h.cpcnt) }).retireHead .c)).drainMoves hid .c 64
    | _ => s.drainMoves hid .c 64

/-! ### The instructions -/

/-- `cp.go` (R191 to R199). -/
def execCpGo (o : Copy) (s : State) : Out := .next (s.cpGo o)

/-- `cp.xpd` (R201). -/
def execCpXpd (o : Xpd) (s : State) : Out := .next (s.cpXpd o)

/-- n words of 8 bytes read through stream S from address a on, the energy of each 256-byte block charged once (R47). -/
def State.wordsAt (s : State) (a : Word) (first : Bool) : Nat → Except Stop (State × Nat)
  | 0 => .ok (s, 0)
  | n + 1 =>
    match s.scalarLook s.cur s.hart.scalarTouch 0 a 8 .read with
    | .error e => .error e
    | .ok (t, p) =>
      let s1 := (if first || decide (a.toNat % 256 = 0) then t.scalarEnergy s.hart.workResv p else t).usePort p.core p.sp false 8
      match s1.wordsAt (a + 8) false n with
      | .error e => .error e
      | .ok (s2, x) => .ok (s2, s1.getAt p 8 + 2 ^ 64 * x)
/-- A record of n words read through stream S at dispatch (R190, R339), in its turn behind what waits there. -/
def State.shapeRecord (s : State) (a : Word) (n : Nat) : Except Stop (State × Nat) :=
  match s.scalarGate 0 .read with
  | some w => .error (.wait w)
  | none => s.wordsAt a true n

/-- A shape of count0 and a record (R189, R190). -/
def shapeOf (count0 : BitVec 32) (x : Nat) : Shape :=
  { count0 := count0, count1 := BitVec.ofNat 16 (bits x 32 16), count2 := BitVec.ofNat 16 (bits x 48 16)
    s1 := BitVec.ofNat 64 (bits x 64 64), s2 := BitVec.ofNat 64 (bits x 128 64), d1 := BitVec.ofNat 64 (bits x 192 64) }

/-- `cp.shape` (R190): it takes a queue entry, which keeps the shape it replaces, and its write applies to every command dispatched
after it. -/
def execCpShape (ck : BitVec 2) (a b : BitVec 5) (s : State) : Out :=
  .next (s.engineIssue .c false false (fun t =>
    let x := t.reg a
    let put (t1 : State) (r : Nat) : State × Entry :=
      (t1.setHart { t1.hart with c := t1.hart.c.set ck.toNat (shapeOf (BitVec.ofNat 32 x.toNat) r) },
        { t.mkEntry (.cpShape ck a b) x (t.reg b) with shape := t.hart.c[ck.toNat] })
    if 2 ^ 32 ≤ x.toNat then trapAt 0x38 0
    else if b = 0 then .ok (put t 0)
    else match t.shapeRecord (t.reg b) 4 with
      | .error e => .error e
      | .ok (t1, r) => .ok (put t1 r)))

/-- `cp.cnt` (R195): S[d] is written when it retires. -/
def execCpCnt (d : BitVec 5) (s : State) : Out :=
  .next (s.engineIssue .c false false (fun t => .ok (t, t.mkEntry (.cpCnt d) 0 0)))

end Sys2Proof.Machine
end

