-- ==== Sys2Proof/Machine/Vector.lean ====
section
/-! DEFINITION. The frame of every vector instruction: masks and element order (R20, R209 to R212), the checks at its
start (R206, R212, R239, R250, R251), convoys (R217, R218), charges (R209), and running the head of the vector queue. -/

namespace Sys2Proof.Machine

/-- What a vector run that does not complete leaves: why it stops, at which row and element, and the effects so far. -/
structure VStop where
  stop : Stop
  row : Nat
  el : Nat
  s : State

/-- What a completed run leaves for its retirement. -/
structure VDone where
  s : State
  fl : Flags := 0
  res : Option (BitVec 5 × Word) := none
  newCur : Option (BitVec 4 × Word) := none

/-- The class an instruction needs (R222). -/
inductive ClsNeed where
  | any | int | fp | sInt | uInt
  deriving DecidableEq, Repr

/-- The registers a vector instruction names: a data destination with its width, a mask destination, data sources,
mask sources, whether an exact overlap of the destination is allowed, and whether v1 gives scales (R251). -/
structure VOps where
  dst : Option (Nat × Nat) := none
  mdst : Option Nat := none
  srcs : List (Nat × Nat) := []
  msrcs : List Nat := []
  exact : Bool := true
  /-- A mask result may be exactly a mask source (R251), but not for fn 7 to 13 of major 0x1A (R272). -/
  mexact : Bool := true
  scale : Bool := false

/-- How an instruction behaves in a convoy (R218). -/
inductive ConvoyKind where
  | plain | permute | memory | alone
  deriving DecidableEq, Repr

/-- A vector instruction: its frame and its effect. -/
structure VecOp where
  maskable : Bool := true
  vecResult : Bool := true
  /-- The m and c bits (R220). -/
  m : BitVec 1 := 0
  c : BitVec 1 := 0
  convoy : ConvoyKind := .plain
  /-- Depends on vtype (R206): all but vsetl and vsettype. -/
  typed : Bool := true
  /-- Width code compared with sew, the class needed, and further causes of 0x21 (R206, R259 to R261). -/
  code : Option (BitVec 2) := none
  cls : ClsNeed := .any
  bad : VecState → Entry → Bool := fun _ _ => false
  ops : VecState → Entry → VOps := fun _ _ => {}
  /-- Row-wise instructions start at element 0 of row rowstart (R248). -/
  rowwise : Bool := false
  /-- It sets vl, rc or the lane grant, as vsetl, vsettype and vldff do (R213, R214, R215, R284). -/
  moves : Bool := false
  /-- It accesses memory and stands alone in its convoy (R218). -/
  mem : Bool := false
  /-- It processes element groups (R209): not vsetl, vsettype or vcbld. -/
  grouped : Bool := true
  /-- It stops at no element-group boundary of its own accord (log 18). -/
  whole : Bool := false
  /-- One that stopped in a later row begins its sweep anew: what it gives depends on all of it (R272, R288; log 18). -/
  based : Bool := false
  /-- Its scalar operand is where it goes on from, as that of a reduction (R242, R248). -/
  seed : Bool := false
  /-- A scalar result of the rows before a stop, and one of the rows behind it, put together. -/
  merge : Word → Word → Word := fun _ x => x
  /-- It reads the old value of its destination. -/
  old : Bool := false
  /-- The elements of its first source that an element reads (R248). -/
  source : VecState → Entry → Nat → Nat → List Nat := fun _ _ _ e => [e]
  /-- Where it reads elements of its own and not those of its sweep: their rows and elements. -/
  spots : Option (VecState → Entry → List (Nat × Nat)) := none
  run : State → Nat → Entry → Except VStop VDone

/-- The mask register an instruction selects, if it is masked (R16, R60, R220). -/
def maskOf (m : BitVec 1) (en : Entry) : Option Nat :=
  if m = 0 then none else some (match en.pfx with | some w => pfxMask w | none => 0)
/-- The prefix copy register, if any (R60). -/
def copyOf (en : Entry) : Option Nat :=
  match en.pfx with | some w => if pfxCopy w = 0 then none else some (pfxCopy w) | none => none

/-- Active(row, e) for a mask selection (R21). -/
def VecState.active (v : VecState) (msk : Option Nat) (row e : Nat) : Bool :=
  decide (e < v.vl) && (match msk with | none => true | some r => v.maskBit r row e)

/-- The elements (row, e) of a sweep from a row and an element, in order (R20). -/
def sweepFrom (rc vl row el : Nat) : List (Nat × Nat) :=
  (List.range (rc - row)).flatMap (fun i =>
    let r := row + i
    let first := if i = 0 then el else 0
    (List.range (vl - first)).map (fun j => (r, first + j)))
/-- The elements of the run at hand: from estart of row rowstart, or from element 0 when row-wise (R212), up to where the
run ends (R248). -/
def VecState.elems (v : VecState) (rowwise : Bool) : List (Nat × Nat) :=
  let l := sweepFrom v.rc v.vl v.rowstart.toNat (if rowwise then 0 else v.estart.toNat)
  match v.ends with
  | none => l
  | some x => l.filter (fun re => sweepsBefore re x)

/-- Element groups the instruction processes: one for each row and group with an element below vl that, in a masked
instruction, is active (R209). -/
def VecState.groups (v : VecState) (rowwise : Bool) (msk : Option Nat) : Nat :=
  let n := max (v.groupOf v.n) 1
  let act := (v.elems rowwise).filter (fun re => v.active msk re.1 re.2)
  (act.foldl (fun (acc : Nat × Option (Nat × Nat)) re =>
    let g := (re.1, re.2 / n)
    if acc.2 = some g then acc else (acc.1 + 1, some g)) (0, none)).1

/-- Registers of a group. -/
def VecState.group (v : VecState) (r w : Nat) : List Nat := (List.range (v.groupRegs w)).map (fun i => r + i)
/-- Two register sets share a register. -/
def share (a b : List Nat) : Bool := a.any (fun x => b.contains x)

/-- The registers an instruction writes and reads (R34). -/
def VecState.writes (v : VecState) (o : VOps) (copy : Option Nat) : List Nat :=
  (match o.dst with
    | some (r, w) => v.group r w ++ (match copy with | some c => v.group c w | none => [])
    | none => []) ++
  (match o.mdst with | some r => r :: copy.toList | none => [])
def VecState.reads (v : VecState) (o : VOps) (msk : Option Nat) : List Nat :=
  o.srcs.flatMap (fun p => v.group p.1 p.2) ++ o.msrcs ++ msk.toList ++ (if o.scale then [1] else [])

/-- A misaligned register group (R212, R239). -/
def VecState.badGroups (v : VecState) (o : VOps) (copy : Option Nat) : Bool :=
  o.srcs.any (fun p => v.misaligned p.1 p.2) ||
  (match o.dst with
    | some (r, w) => v.misaligned r w || (match copy with | some c => v.misaligned c w | none => false)
    | none => false)

/-- A forbidden overlap (R251, R272, R277). -/
def VecState.badOverlap (v : VecState) (o : VOps) (msk copy : Option Nat) : Bool :=
  let src := o.srcs.flatMap (fun p => v.group p.1 p.2)
  let msrc := o.msrcs ++ msk.toList
  (match o.dst with
    | some (r, w) =>
      let d := v.group r w
      o.srcs.any (fun p => share d (v.group p.1 p.2) && !(o.exact && p == (r, w))) ||
      share d msrc || (o.scale && d.contains 1)
    | none => false) ||
  (match o.mdst with
    | some r => src.contains r || (!o.mexact && msrc.contains r)
    | none => false) ||
  (match copy with
    | some c =>
      let cg := match o.dst with | some (_, w) => v.group c w | none => [c]
      let dg := match o.dst with | some (r, w) => v.group r w | none => o.mdst.toList
      share cg (dg ++ src ++ msrc) || (o.scale && cg.contains 1)
    | none => false)

/-- The class check of R222. -/
def VecState.clsOk (v : VecState) : ClsNeed → Bool
  | .any => true
  | .int => decide (v.cls.toNat ≤ 1)
  | .fp => v.isFp
  | .sInt => v.cls == 1
  | .uInt => v.cls == 0

/-- The checks at the start, in the order of R250: the first cause, or none. -/
def VecState.startCheck (v : VecState) (op : VecOp) (en : Entry) : Option (BitVec 8) :=
  let o := op.ops v en
  if v.vgrant = 0 then some 0x22
  else if op.typed && (v.ill || (match op.code with | some x => x != v.sew | none => false) || !v.clsOk op.cls || op.bad v en)
    then some 0x21
  else if v.badGroups o (copyOf en) then some 0x24
  else if v.badOverlap o (maskOf op.m en) (copyOf en) then some 0x23
  else none

/-- Whether hardware splits the convoy in progress before this member (R218). -/
def VecState.splits (v : VecState) (op : VecOp) (held : Bool) : Bool :=
  v.convoy != 0 &&
    (decide (Config.qdcon ≤ v.convoy) || held ||
      (match op.convoy with
        | .plain => false
        | .alone => true
        | .permute => op.c == 1
        | .memory => v.convoyMem))

/-- The convoy after a member: chained on by its c bit (R217). A c bit with no successor in the queue chains to the next
vector instruction dispatched, whenever that comes (DESIGN CHOICE, log 63). -/
def VecState.chain (v : VecState) (op : VecOp) : VecState :=
  if op.c = 1 then { v with convoy := v.convoy + 1, convoyMem := v.convoyMem || op.convoy == .memory || op.mem }
  else { v with convoy := 0, convoyMem := false }

/-- The reservation that the vector instruction at the head of a hart's queue is charged to (R44). -/
def Hart.vecResv (h : Hart) : Nat := match h.vq with | en :: _ => h.entryResv en | [] => h.ownResv
/-- Charges of a vector instruction's processed groups: element-group units, energy, and surrender units (R209, R326); the
hart's lanes do one group per cycle (R43). -/
def State.chargeGroups (s : State) (hid g : Nat) : State :=
  let h := s.hartAt hid
  let n := g * h.vec.vgrant / 8
  let s1 := ((s.charge h.vecResv 1 (hid / 8) n).chargeEnergy h.vecResv n).busyFor (hid / 8) (lanesAt hid) 1 g
  let counts := match h.vq with | en :: _ => en.span | [] => false
  if counts then s1.setHartAt hid ((s1.hartAt hid).count g) else s1

/-- A vector entry with the stream it names as that stands now (R143, R150). -/
def Hart.look (h : Hart) (en : Entry) : Entry :=
  match streamOf en.instr with | some q => { en with str := h.q[q.toNat] } | none => en

/-- Where a sweep begins, in one word. -/
def VecState.begins (v : VecState) : Word := BitVec.ofNat 64 (v.rowstart.toNat * 2 ^ 32 + v.estart.toNat)
/-- An entry as it goes on after a stop: a reduction from the value it has kept (R248), and one whose sweep begins anew with the
element it stopped at (R282). -/
def Entry.seeded (en : Entry) (op : VecOp) (v : VecState) : Entry :=
  match en.acc with
  | none => en
  | some a =>
    if op.seed then { en with op1 := a }
    else if op.based then { en with left := v.rowstart.toNat * v.vl + v.estart.toNat + 1 } else en
/-- The vector state with which an entry goes on after a stop: one whose sweep begins anew goes back to where it began. -/
def VecState.rebase (v : VecState) (op : VecOp) (en : Entry) : VecState :=
  match en.acc with
  | none => v
  | some a => if op.based then { v with rowstart := BitVec.ofNat 3 (a.toNat / 2 ^ 32), estart := BitVec.ofNat 32 a.toNat } else v

/-- The cycle in which a vector instruction's element groups, and the bytes it moves, are through (R43). -/
def State.vecThrough (s : State) (hid : Nat) (en : Entry) : Nat :=
  max (s.throughAt (hid / 8) (lanesAt hid) 1)
    (match streamOf en.instr with
     | none => s.now
     | some q => s.portThrough (hid / 8) (s.hartAt hid).q[q.toNat].space (vecStores en.instr))
/-- A run that has come to the end of its sweep is done, at the head of its queue, to retire when its groups are through (R43),
and its convoy goes on (R217). -/
def State.vecDone (s : State) (hid : Nat) (op : VecOp) (en : Entry) : State :=
  let h := s.hartAt hid
  s.setHartAt hid ({ h with vec := { h.vec.chain op with ends := none } }.setHead .v
    { en with started := true, done := true, tried := s.vecThrough hid en })
/-- What becomes of a vector run that began with vector state v at cycle `now` (R209, R216, R250, R281): done at the head
of its queue, trapped, or waiting there; the element groups it processed are charged. One that was to end before its
sweep, at `pause`, stops there for the reason given, and keeps its flags and its partial result (R248). -/
def State.vecAfter (now hid : Nat) (op : VecOp) (en : Entry) (v : VecState) (pause : Option ((Nat × Nat) × Stop)) :
    Except VStop VDone → State
  | .error r =>
    -- element groups processed before the stop
    let left := { v with estart := BitVec.ofNat 32 r.el, rowstart := BitVec.ofNat 3 r.row }
    let part := if op.grouped then v.groups op.rowwise (maskOf op.m en) - left.groups op.rowwise (maskOf op.m en) else 0
    let s2 := r.s.chargeGroups hid part
    let h2 := s2.hartAt hid
    let e2 := match h2.vq with | e :: _ => e | [] => en
    let acc := if op.based then some v.begins else e2.acc
    match r.stop with
    | .trap t =>
      (s2.setHartAt hid ({ h2 with vec := { h2.vec with ends := none } }.setHead .v { e2 with acc := acc })).engineTrap hid .v t r.row r.el
    | .wait _ =>
      s2.setHartAt hid ({ h2 with vec :=
        { h2.vec with estart := BitVec.ofNat 32 r.el, rowstart := BitVec.ofNat 3 r.row, ends := none } }.setHead .v
          { e2 with started := true, tried := now + 1, acc := acc })
  | .ok d =>
    let v2 := { v with vl := (d.s.hartAt hid).vec.vl }
    let s2 := if op.grouped then d.s.chargeGroups hid (v2.groups op.rowwise (maskOf op.m en)) else d.s
    let h2 := s2.hartAt hid
    let res := match en.acc with | none => d.res | some a => d.res.map (fun x => (x.1, op.merge a x.2))
    match pause.filter (fun _ => !op.moves || h2.vec.vl == v.vl) with
    | none =>
      s2.vecDone hid op { en with fl := en.fl ||| d.fl, res := res, newCur := d.newCur }
    | some (x, stop) =>
      let e2 := match h2.vq with | e :: _ => e | [] => en
      let acc := if op.based then some v.begins else res.map (fun y => y.2)
      let s3 := s2.setHartAt hid ({ h2 with vec :=
        { h2.vec with estart := BitVec.ofNat 32 x.2, rowstart := BitVec.ofNat 3 x.1, ends := none } }.setHead .v
          { e2 with started := true, tried := now + 1, fl := e2.fl ||| d.fl, acc := acc })
      match stop with
      | .trap t => s3.engineTrap hid .v t x.1 x.2
      | .wait _ => s3

/-- A trap of the vector instruction at the head before its first effect, with vector state v. -/
def State.vecTrap (s : State) (hid : Nat) (c : BitVec 8) (v : VecState) : State :=
  (s.setHartAt hid { s.hartAt hid with vec := v }).engineTrap hid .v ⟨c, 0⟩ v.rowstart.toNat v.estart.toNat

/-- The byte of a hart's v registers in which an uncorrectable soft error stands (R366). -/
def State.vecError (s : State) (hid : Nat) : Option Nat :=
  match s.dev.latent with
  | none => none
  | some x =>
    let a := vregSram (hid % 8) 0
    if x.loc == 0 && x.unit == hid / 8 && decide (a ≤ x.addr) && decide (x.addr < a + 32 * Config.vregBytes) then some (x.addr - a)
    else none
/-- An element of an instruction reads byte a of the v registers as an operand (R250). -/
def VecState.meets (v : VecState) (op : VecOp) (en : Entry) (a : Nat) (re : Nat × Nat) : Bool :=
  let o := op.ops v en
  let at_ (p : Nat × Nat) (i : Nat) : Bool :=
    let x := v.place p.1 p.2 re.1 i
    let b := Config.vregBytes * x.1 + x.2 * (p.2 / 8)
    decide (b ≤ a) && decide (a < b + p.2 / 8)
  o.srcs.zipIdx.any (fun x => (if x.2 = 0 then op.source v en re.1 re.2 else [re.2]).any (at_ x.1)) ||
  (op.old && (match o.dst with | some p => at_ p re.2 | none => false)) ||
  o.msrcs.any (fun r => Config.vregBytes * r + (v.maskPos re.1 re.2).1 == a) ||
  (o.scale && Config.vregBytes + re.1 * (v.vlmax / 32) + re.2 / 32 == a)
/-- Where an instruction meets a soft error in byte a of the v registers: the first element group of its sweep, or row of a
row-wise one, in which an active element reads the byte, or any element reads its mask bit there (R250). -/
def VecState.meetsAt (v : VecState) (op : VecOp) (en : Entry) (a : Nat) : Option (Nat × Nat) :=
  let msk := maskOf op.m en
  let n := max (v.groupOf v.n) 1
  match op.spots with
  | some f => if (f v en).any (v.meets op en a) then some (v.rowstart.toNat, if op.rowwise then 0 else v.estart.toNat) else none
  | none =>
    ((v.elems op.rowwise).find? (fun re =>
      (match msk with | some r => Config.vregBytes * r + (v.maskPos re.1 re.2).1 == a | none => false) ||
        (v.active msk re.1 re.2 && v.meets op en a re))).map (fun re =>
      if op.rowwise then (re.1, 0)
      else (re.1, max (re.2 / n * n) (if re.1 = v.rowstart.toNat then v.estart.toNat else 0)))
/-- The first element-group boundary of an instruction's sweep behind an active element, or row of a row-wise one: none where
the sweep ends there (R134, R248). -/
def VecState.boundary (v : VecState) (op : VecOp) (en : Entry) : Option (Nat × Nat) :=
  let n := max (v.groupOf v.n) 1
  let next (row : Nat) : Option (Nat × Nat) := if row + 1 < v.rc then some (row + 1, 0) else none
  if op.whole then none
  else if op.rowwise then next v.rowstart.toNat
  else match (v.elems false).find? (fun re => v.active (maskOf op.m en) re.1 re.2) with
    | none => none
    | some re => if (re.2 / n + 1) * n < v.vl then some (re.1, (re.2 / n + 1) * n) else next re.1
/-- Where a run stops before the end of its sweep, and why: where it meets a soft error (R250), or where the engine may turn
to another hart (R42, R134; log 18). -/
def State.vecPause (s : State) (hid : Nat) (op : VecOp) (v : VecState) (en : Entry) (part : Bool) : Option ((Nat × Nat) × Stop) :=
  let bad := (s.vecError hid).bind (v.meetsAt op en)
  let turn := if part && s.shared hid then v.boundary op en else none
  match bad, turn with
  | some x, some y => if sweepsBefore x y then some (x, .trap ⟨0x52, 0⟩) else some (y, .wait (.room .v))
  | some x, none => some (x, .trap ⟨0x52, 0⟩)
  | none, y => y.map (fun z => (z, .wait (.room .v)))

/-- The vector state with the convoy in progress split (R218). -/
def VecState.cut (v : VecState) : VecState := { v with convoy := 0, convoyMem := false, vsplit := v.vsplit + 1 }

/-- The vector state in which an entry runs: with the convoy before it split, where hardware splits it (R218). -/
def VecState.enter (v : VecState) (op : VecOp) (en : Entry) (split : Bool) : VecState :=
  { (if split then v.cut else v).rebase op en with ends := none }
/-- The vector state of a run that is to end where it pauses (R248). -/
def VecState.endAt (v : VecState) (pause : Option ((Nat × Nat) × Stop)) : VecState := { v with ends := pause.map (fun x => x.1) }
/-- The head of the vector queue runs as `op`: its convoy, its checks, its effect (R216 to R218, R250). `part` says that it
goes on element group by element group, or row by row, where another hart of the core runs. -/
def State.vecRun (s : State) (hid : Nat) (op : VecOp) (part : Bool) : State :=
  let h := s.hartAt hid
  match h.vq with
  | [] => s
  | e0 :: _ =>
    let en := (h.look e0).seeded op h.vec
    let split := !en.started && h.vec.splits op (en.tried != 0)
    if split && h.vec.strap then s.vecTrap hid 0x25 { h.vec with convoy := 0, convoyMem := false }
    else
      let v1 := h.vec.enter op en split
      match v1.startCheck op en with
      | some c => s.vecTrap hid c v1
      | none =>
        let pause := s.vecPause hid op v1 en part
        let v2 := v1.endAt pause
        State.vecAfter s.now hid op en v2 pause (op.run (s.setHartAt hid { h with vec := v2 }) hid en)

/-- The head of a hart's vector queue retires if it is done, and what it did is through (R35, R43). -/
def State.vecRetire (s : State) (hid : Nat) : State :=
  let h := s.hartAt hid
  match h.vq with
  | en :: _ => if en.over s.now then s.setHartAt hid (h.retireHead .v) else s
  | [] => s

/-- Lanes of a hart's granted groups (R39). -/
def Hart.grantLanes (h : Hart) : Nat := 8 * popcount h.plan.groups.toNat 8
/-- A lane grant made at a frame boundary that no vsetl has applied yet (R39, R214). -/
def Hart.grantPending (h : Hart) : Bool := h.plan.on && h.grantLanes != h.vec.vgrant

/-- The v-register scoreboard holds a vector instruction at the head of its queue (R34). A change of vl, rc or the grant waits for every earlier matrix instruction that uses v registers, which reads
them as program order gives them (R298). -/
def State.vecScore (s : State) (hid : Nat) (op : VecOp) (en : Entry) : Bool :=
  let h := s.hartAt hid
  let o := op.ops h.vec (h.look en)
  let w := h.vec.writes o (copyOf en)
  let r := h.vec.reads o (maskOf op.m en)
  h.mq.any (fun m => decide (m.seq < en.seq) &&
    ((op.moves && usesV m.instr) ||
     share w (matReads h h.vec.rc m) || share (r ++ w) (matWrites h.vec.rc m)))
/-- What holds a vector instruction at the head of its queue beside the scoreboard: the hart does not run, it stands behind a
stream S access that can still trap (R99), its grant after a load is not in force, the lanes or the port it needs is at work, a
stream S access comes first, a budget is spent or energy is held (R43, R46, R48, R107, R138, R152). -/
def State.vecHeld (s : State) (hid : Nat) (op : VecOp) : Bool :=
  let h := s.hartAt hid
  let mem : List Nat := match h.vq with
    | [] => []
    | en :: _ => match streamOf en.instr with
      | none => []
      | some q => match h.q[q.toNat].space with | .dv => [3] | .sq => [4] | _ => []
  let surr := match h.vq with | en :: _ => en.surr | [] => false
  let needs := (if op.grouped then [1] else []) ++ mem
  -- stream S accesses that a fence.sv or an sbar puts before a vector memory instruction (R107, R152)
  let fenced := match h.vq with
    | en :: _ => (streamOf en.instr).isSome && h.ss.any (fun x => decide (x.seq < en.after))
    | [] => false
  let port := match h.vq with
    | [] => false
    | en :: _ => match streamOf en.instr with
      | none => false
      | some q => s.portBusy (hid / 8) h.q[q.toNat].space (vecStores en.instr)
  h.run != .running || s.busyAt (hid / 8) (lanesAt hid) 1 || h.headBehind h.vq || (decide (0 < h.vec.vgrant) && !h.plan.on) || fenced || port ||
    s.held h (hid / 8) surr false needs

/-- Issue of a vector instruction by the acting hart: into the queue, and where the queue was empty and nothing holds
it, run in the same step, in which it also retires where it takes one cycle. An instruction that had to wait on the scoreboard is marked as tried. -/
def State.vecIssue (s : State) (i : Instr) (op : VecOp) (op1 op2 : Word) (at_ : State → State) : State :=
  let was := s.hart.vq.isEmpty
  let s1 := s.engineIssue .v op.maskable op.vecResult (fun t =>
    let en := t.mkEntry i op1 op2
    .ok (t, { en with tried := b2n (was && t.vecScore t.cur op en) }))
  if (s1.hart.vq.length == s.hart.vq.length + 1) then
    let s2 := at_ s1
    if was && !s2.vecHeld s2.cur op && !(match s2.hart.vq with | en :: _ => s2.vecScore s2.cur op en | [] => true)
    then (s2.vecRun s2.cur op false).vecRetire s2.cur
    else s2
  else s1

/-! ### Element-wise effects -/

/-- A run that changes only the hart's vector state, its flags and a scalar result. -/
def pureRun (f : VecState → Entry → VecState × Flags × Option (BitVec 5 × Word)) :
    State → Nat → Entry → Except VStop VDone :=
  fun s hid en =>
    let h := s.hartAt hid
    let (v, fl, res) := f h.vec en
    .ok { s := s.setHartAt hid { h with vec := v }, fl := fl, res := res }

/-- Each active element of the sweep gets a value, in the destination and the copy group, at width w (R20, R60, R210). -/
def VecState.mapElems (v : VecState) (msk : Option Nat) (d w : Nat) (copy : Option Nat)
    (f : Nat → Nat → Nat × Flags) : VecState × Flags :=
  (v.elems false).foldl (fun acc re =>
    if v.active msk re.1 re.2 then
      let (x, fl) := f re.1 re.2
      let v1 := acc.1.setOpElem d w re.1 re.2 x
      let v2 := match copy with | some c => v1.setOpElem c w re.1 re.2 x | none => v1
      (v2, acc.2 ||| fl)
    else acc) (v, 0)

/-- Each active element of the sweep gets a mask bit, in the destination and the copy register (R211, R254). -/
def VecState.mapBits (v : VecState) (rowwise : Bool) (msk : Option Nat) (d : Nat) (copy : Option Nat)
    (f : Nat → Nat → Bool × Flags) : VecState × Flags :=
  (v.elems rowwise).foldl (fun acc re =>
    if v.active msk re.1 re.2 then
      let (x, fl) := f re.1 re.2
      let v1 := acc.1.setMaskBit d re.1 re.2 x
      let v2 := match copy with | some c => v1.setMaskBit c re.1 re.2 x | none => v1
      (v2, acc.2 ||| fl)
    else acc) (v, 0)

/-- An element placed in a scalar (R249): signed or by class 1, else zero-extended. -/
def scalarExt (n : Nat) (isSigned : Bool) (x : Nat) : Word :=
  if isSigned then BitVec.ofInt 64 (signed n x) else BitVec.ofNat 64 (x % 2 ^ n)

end Sys2Proof.Machine
end

