-- ==== Sys2Proof/Machine/VecInt.lean ====
section
/-! DEFINITION. Vector integer arithmetic, compares and moves: major 0x15 (R252 to R255). -/

namespace Sys2Proof.Machine

/-- A two-source cell of majors 0x15 and 0x16: A, B (the captured scalar when k = 1) and the old destination, at sew. -/
def vbinOp (o : VBin) (cls : ClsNeed) (f : VecState → Entry → Nat → Nat → Nat → Nat × Flags) : VecOp :=
  { m := o.m, c := o.c, code := some o.x, cls := cls
    ops := fun v _ => {
      dst := some (o.d.toNat, v.n)
      srcs := (o.a.toNat, v.n) :: (if o.k = 1 then [] else [(o.b.toNat, v.n)]) }
    run := pureRun (fun v en =>
      let n := v.n
      let (v1, fl) := v.mapElems (maskOf o.m en) o.d.toNat n (copyOf en) (fun row e =>
        let a := v.opElem o.a.toNat n row e
        let b := if o.k = 1 then en.op1.toNat % 2 ^ n else v.opElem o.b.toNat n row e
        f v en a b (v.opElem o.d.toNat n row e))
      (v1, fl, none)) }

/-- A compare of majors 0x15 and 0x16: a mask bit for each active element (R254, R257). -/
def vcmpOp (o : VBin) (cls : ClsNeed) (f : VecState → Nat → Nat → Bool × Flags) : VecOp :=
  { m := o.m, c := o.c, code := some o.x, cls := cls
    ops := fun v _ => {
      mdst := some o.d.toNat
      srcs := (o.a.toNat, v.n) :: (if o.k = 1 then [] else [(o.b.toNat, v.n)]) }
    run := pureRun (fun v en =>
      let n := v.n
      let (v1, fl) := v.mapBits false (maskOf o.m en) o.d.toNat (copyOf en) (fun row e =>
        f v (v.opElem o.a.toNat n row e)
          (if o.k = 1 then en.op1.toNat % 2 ^ n else v.opElem o.b.toNat n row e))
      (v1, fl, none)) }

/-- Issue of a two-source cell: the scalar operand is captured at dispatch (R249). -/
def State.vbinIssue (s : State) (i : Instr) (o : VBin) (op : VecOp) : State :=
  s.vecIssue i op (if o.k = 1 then s.reg o.b else 0) 0 id

/-- An integer cell: the result is taken modulo 2^N. -/
def vintOp (o : VBin) (f : Nat → Nat → Nat → Nat → Int) : VecOp :=
  vbinOp o .int (fun v _ a b d => (wrap v.n (f v.n a b d), 0))

/-- Division of R253 at width N: signed. -/
def divI (n a b : Nat) : Int := if b % 2 ^ n = 0 then -1 else (signed n a).tdiv (signed n b)
def remI (n a b : Nat) : Int := if b % 2 ^ n = 0 then (a : Int) else (signed n a).tmod (signed n b)
/-- Division of R253 at width N: unsigned. -/
def divN (n a b : Nat) : Int := if b % 2 ^ n = 0 then -1 else ((a / b : Nat) : Int)
def remN (n a b : Nat) : Int := if b % 2 ^ n = 0 then (a : Int) else ((a % b : Nat) : Int)

/-- Sat of R21 at width N. -/
def satI (n : Nat) (x : Int) : Int := max (-(2 ^ (n - 1))) (min (2 ^ (n - 1) - 1) x)
def satN (n : Nat) (x : Int) : Int := max 0 (min (2 ^ n - 1) x)

/-- A shift count: the low log2 N bits (R252). -/
def shCount (n b : Nat) : Nat := b % n

def opVadd (o : VBin) : VecOp := vintOp o (fun _ a b _ => a + b)
def opVsub (o : VBin) : VecOp := vintOp o (fun _ a b _ => (a : Int) - b)
def opVmul (o : VBin) : VecOp := vintOp o (fun _ a b _ => ((a * b : Nat) : Int))
def opVmulhI (o : VBin) : VecOp := vintOp o (fun n a b _ => (signed n a * signed n b).fdiv (2 ^ n))
def opVmulhN (o : VBin) : VecOp := vintOp o (fun n a b _ => ((a * b / 2 ^ n : Nat) : Int))
def opVdivI (o : VBin) : VecOp := vintOp o (fun n a b _ => divI n a b)
def opVdivN (o : VBin) : VecOp := vintOp o (fun n a b _ => divN n a b)
def opVremI (o : VBin) : VecOp := vintOp o (fun n a b _ => remI n a b)
def opVremN (o : VBin) : VecOp := vintOp o (fun n a b _ => remN n a b)
def opVminI (o : VBin) : VecOp := vintOp o (fun n a b _ => min (signed n a) (signed n b))
def opVmaxI (o : VBin) : VecOp := vintOp o (fun n a b _ => max (signed n a) (signed n b))
def opVminN (o : VBin) : VecOp := vintOp o (fun _ a b _ => ((min a b : Nat) : Int))
def opVmaxN (o : VBin) : VecOp := vintOp o (fun _ a b _ => ((max a b : Nat) : Int))
def opVand (o : VBin) : VecOp := vintOp o (fun _ a b _ => ((a &&& b : Nat) : Int))
def opVor (o : VBin) : VecOp := vintOp o (fun _ a b _ => ((a ||| b : Nat) : Int))
def opVxor (o : VBin) : VecOp := vintOp o (fun _ a b _ => ((a ^^^ b : Nat) : Int))
def opVsll (o : VBin) : VecOp := vintOp o (fun n a b _ => ((a * 2 ^ shCount n b : Nat) : Int))
def opVsrl (o : VBin) : VecOp := vintOp o (fun n a b _ => ((a / 2 ^ shCount n b : Nat) : Int))
def opVsra (o : VBin) : VecOp := vintOp o (fun n a b _ => (signed n a).fdiv (2 ^ shCount n b))
def opVaddSatI (o : VBin) : VecOp := vintOp o (fun n a b _ => satI n (signed n a + signed n b))
def opVaddSatN (o : VBin) : VecOp := vintOp o (fun n a b _ => satN n ((a : Int) + b))
def opVsubSatI (o : VBin) : VecOp := vintOp o (fun n a b _ => satI n (signed n a - signed n b))
def opVsubSatN (o : VBin) : VecOp := vintOp o (fun n a b _ => satN n ((a : Int) - b))
def opVmacc (o : VBin) : VecOp := { vintOp o (fun _ a b d => ((d + a * b : Nat) : Int)) with old := true }
def opVmeq (o : VBin) : VecOp := vcmpOp o .int (fun _ a b => (a == b, 0))
def opVmne (o : VBin) : VecOp := vcmpOp o .int (fun _ a b => (a != b, 0))
def opVmltI (o : VBin) : VecOp := vcmpOp o .int (fun v a b => (decide (signed v.n a < signed v.n b), 0))
def opVmleI (o : VBin) : VecOp := vcmpOp o .int (fun v a b => (decide (signed v.n a ≤ signed v.n b), 0))
def opVmltN (o : VBin) : VecOp := vcmpOp o .int (fun _ a b => (decide (a < b), 0))
def opVmleN (o : VBin) : VecOp := vcmpOp o .int (fun _ a b => (decide (a ≤ b), 0))

/-- A one-source move or arithmetic cell. -/
def vunOp (o : VUn) (cls : ClsNeed) (src : Bool) (f : VecState → Entry → Nat → Nat → Nat × Flags) : VecOp :=
  { m := o.m, c := o.c, code := some o.x, cls := cls
    ops := fun v _ => { dst := some (o.d.toNat, v.n), srcs := if src then [(o.a.toNat, v.n)] else [] }
    run := pureRun (fun v en =>
      let (v1, fl) := v.mapElems (maskOf o.m en) o.d.toNat v.n (copyOf en) (fun row e =>
        f v en (if src then v.opElem o.a.toNat v.n row e else 0) e)
      (v1, fl, none)) }

def opVmov (o : VUn) : VecOp := vunOp o .any true (fun _ _ a _ => (a, 0))
def opVbcast (o : VUn) : VecOp := vunOp o .any false (fun v en _ _ => (en.op1.toNat % 2 ^ v.n, 0))
def opVid (d : BitVec 5) (m c : BitVec 1) (x : BitVec 2) : VecOp :=
  vunOp { d := d, a := 0, m := m, c := c, x := x } .int false (fun v _ _ e => (e % 2 ^ v.n, 0))

/-- `vadd` (R252). -/
def execVadd (o : VBin) (s : State) : Host.Outcome State Fault Refusal := .next (s.vbinIssue (.vadd o) o (opVadd o))
/-- `vsub` (R252). -/
def execVsub (o : VBin) (s : State) : Host.Outcome State Fault Refusal := .next (s.vbinIssue (.vsub o) o (opVsub o))
/-- `vmul` (R252). -/
def execVmul (o : VBin) (s : State) : Host.Outcome State Fault Refusal := .next (s.vbinIssue (.vmul o) o (opVmul o))
/-- `vmulhI` (R252). -/
def execVmulhI (o : VBin) (s : State) : Host.Outcome State Fault Refusal := .next (s.vbinIssue (.vmulhI o) o (opVmulhI o))
/-- `vmulhN` (R252). -/
def execVmulhN (o : VBin) (s : State) : Host.Outcome State Fault Refusal := .next (s.vbinIssue (.vmulhN o) o (opVmulhN o))
/-- `vdivI` (R253). -/
def execVdivI (o : VBin) (s : State) : Host.Outcome State Fault Refusal := .next (s.vbinIssue (.vdivI o) o (opVdivI o))
/-- `vdivN` (R253). -/
def execVdivN (o : VBin) (s : State) : Host.Outcome State Fault Refusal := .next (s.vbinIssue (.vdivN o) o (opVdivN o))
/-- `vremI` (R253). -/
def execVremI (o : VBin) (s : State) : Host.Outcome State Fault Refusal := .next (s.vbinIssue (.vremI o) o (opVremI o))
/-- `vremN` (R253). -/
def execVremN (o : VBin) (s : State) : Host.Outcome State Fault Refusal := .next (s.vbinIssue (.vremN o) o (opVremN o))
/-- `vminI` (R252). -/
def execVminI (o : VBin) (s : State) : Host.Outcome State Fault Refusal := .next (s.vbinIssue (.vminI o) o (opVminI o))
/-- `vmaxI` (R252). -/
def execVmaxI (o : VBin) (s : State) : Host.Outcome State Fault Refusal := .next (s.vbinIssue (.vmaxI o) o (opVmaxI o))
/-- `vminN` (R252). -/
def execVminN (o : VBin) (s : State) : Host.Outcome State Fault Refusal := .next (s.vbinIssue (.vminN o) o (opVminN o))
/-- `vmaxN` (R252). -/
def execVmaxN (o : VBin) (s : State) : Host.Outcome State Fault Refusal := .next (s.vbinIssue (.vmaxN o) o (opVmaxN o))
/-- `vand` (R252). -/
def execVand (o : VBin) (s : State) : Host.Outcome State Fault Refusal := .next (s.vbinIssue (.vand o) o (opVand o))
/-- `vor` (R252). -/
def execVor (o : VBin) (s : State) : Host.Outcome State Fault Refusal := .next (s.vbinIssue (.vor o) o (opVor o))
/-- `vxor` (R252). -/
def execVxor (o : VBin) (s : State) : Host.Outcome State Fault Refusal := .next (s.vbinIssue (.vxor o) o (opVxor o))
/-- `vsll` (R252). -/
def execVsll (o : VBin) (s : State) : Host.Outcome State Fault Refusal := .next (s.vbinIssue (.vsll o) o (opVsll o))
/-- `vsrl` (R252). -/
def execVsrl (o : VBin) (s : State) : Host.Outcome State Fault Refusal := .next (s.vbinIssue (.vsrl o) o (opVsrl o))
/-- `vsra` (R252). -/
def execVsra (o : VBin) (s : State) : Host.Outcome State Fault Refusal := .next (s.vbinIssue (.vsra o) o (opVsra o))
/-- `vaddSatI` (R252). -/
def execVaddSatI (o : VBin) (s : State) : Host.Outcome State Fault Refusal := .next (s.vbinIssue (.vaddSatI o) o (opVaddSatI o))
/-- `vaddSatN` (R252). -/
def execVaddSatN (o : VBin) (s : State) : Host.Outcome State Fault Refusal := .next (s.vbinIssue (.vaddSatN o) o (opVaddSatN o))
/-- `vsubSatI` (R252). -/
def execVsubSatI (o : VBin) (s : State) : Host.Outcome State Fault Refusal := .next (s.vbinIssue (.vsubSatI o) o (opVsubSatI o))
/-- `vsubSatN` (R252). -/
def execVsubSatN (o : VBin) (s : State) : Host.Outcome State Fault Refusal := .next (s.vbinIssue (.vsubSatN o) o (opVsubSatN o))
/-- `vmacc` (R252). -/
def execVmacc (o : VBin) (s : State) : Host.Outcome State Fault Refusal := .next (s.vbinIssue (.vmacc o) o (opVmacc o))
/-- `vmeq` (R254). -/
def execVmeq (o : VBin) (s : State) : Host.Outcome State Fault Refusal := .next (s.vbinIssue (.vmeq o) o (opVmeq o))
/-- `vmne` (R254). -/
def execVmne (o : VBin) (s : State) : Host.Outcome State Fault Refusal := .next (s.vbinIssue (.vmne o) o (opVmne o))
/-- `vmltI` (R254). -/
def execVmltI (o : VBin) (s : State) : Host.Outcome State Fault Refusal := .next (s.vbinIssue (.vmltI o) o (opVmltI o))
/-- `vmleI` (R254). -/
def execVmleI (o : VBin) (s : State) : Host.Outcome State Fault Refusal := .next (s.vbinIssue (.vmleI o) o (opVmleI o))
/-- `vmltN` (R254). -/
def execVmltN (o : VBin) (s : State) : Host.Outcome State Fault Refusal := .next (s.vbinIssue (.vmltN o) o (opVmltN o))
/-- `vmleN` (R254). -/
def execVmleN (o : VBin) (s : State) : Host.Outcome State Fault Refusal := .next (s.vbinIssue (.vmleN o) o (opVmleN o))
/-- `vmov` (R255). -/
def execVmov (o : VUn) (s : State) : Host.Outcome State Fault Refusal := .next (s.vecIssue (.vmov o) (opVmov o) 0 0 id)
/-- `vbcast`: the scalar is captured at dispatch (R249, R255). -/
def execVbcast (o : VUn) (s : State) : Host.Outcome State Fault Refusal :=
  .next (s.vecIssue (.vbcast o) (opVbcast o) (s.reg o.a) 0 id)
/-- `vid` (R255). -/
def execVid (d : BitVec 5) (m c : BitVec 1) (x : BitVec 2) (s : State) : Host.Outcome State Fault Refusal :=
  .next (s.vecIssue (.vid d m c x) (opVid d m c x) 0 0 id)

end Sys2Proof.Machine
end

