-- ==== Sys2Proof/Machine/VecFp.lean ====
section
/-! DEFINITION. Vector floating-point arithmetic and compares (major 0x16; R256, R257), conversions (R258, R235 to
R238), mixed widths, dot products and scales (R259 to R262). -/

namespace Sys2Proof.Machine

/-- The mode of a vector FP instruction: frm at dispatch (R71, R230). -/
def Entry.mode (en : Entry) : Rnd := frmMode en.frm

/-- A two-source FP cell. -/
def vfpOp (o : VBin) (f : Fmt → Rnd → Nat → Nat → Nat → Nat × Flags) : VecOp :=
  vbinOp o .fp (fun v en a b d => f v.fmt en.mode a b d)

def opVaddFp (o : VBin) : VecOp := vfpOp o (fun k m a b _ => k.add m a b)
def opVsubFp (o : VBin) : VecOp := vfpOp o (fun k m a b _ => k.sub m a b)
def opVmulFp (o : VBin) : VecOp := vfpOp o (fun k m a b _ => k.mul m a b)
def opVdivFp (o : VBin) : VecOp := vfpOp o (fun k m a b _ => k.div m a b)
def opVfma (o : VBin) : VecOp := { vfpOp o (fun k m a b d => k.fma m a b d) with old := true }
def opVfms (o : VBin) : VecOp := { vfpOp o (fun k m a b d => k.fmaV m (k.num a) (k.num b) (k.num d).neg) with old := true }
def opVfnma (o : VBin) : VecOp := { vfpOp o (fun k m a b d => k.fmaV m (k.num a).neg (k.num b) (k.num d)) with old := true }
def opVminFp (o : VBin) : VecOp := vfpOp o (fun k _ a b _ => k.minMax false a b)
def opVmaxFp (o : VBin) : VecOp := vfpOp o (fun k _ a b _ => k.minMax true a b)
def opVmfeq (o : VBin) : VecOp := vcmpOp o .fp (fun v a b => v.fmt.eq a b)
def opVmfne (o : VBin) : VecOp := vcmpOp o .fp (fun v a b => let r := v.fmt.eq a b; (!r.1, r.2))
def opVmflt (o : VBin) : VecOp := vcmpOp o .fp (fun v a b => v.fmt.lt a b)
def opVmfle (o : VBin) : VecOp := vcmpOp o .fp (fun v a b => v.fmt.le a b)
def opVsqrt (o : VUn) : VecOp := vunOp o .fp true (fun v en a _ => v.fmt.sqrt en.mode a)

/-- vabs and vneg change only the sign bit; a NaN gives the canonical NaN, with NV when signalling (R257). -/
def signOp (k : Fmt) (a : Nat) (neg : Bool) : Nat × Flags :=
  match k.num a with
  | .nan sg => (k.nan, nvIf sg)
  | _ => (k.withSign (neg && !k.sign a) (a % 2 ^ (k.w - 1)), 0)
def opVabs (o : VUn) : VecOp := vunOp o .fp true (fun v _ a _ => signOp v.fmt a false)
def opVneg (o : VUn) : VecOp := vunOp o .fp true (fun v _ a _ => signOp v.fmt a true)

/-! ### Conversions -/

/-- A conversion: source at sew, destination at the width of x (R223, R239, R258). -/
def vcvtOp (o : VCvt) (cls : ClsNeed) (f : VecState → Entry → Nat → Nat → Nat → Nat × Flags) : VecOp :=
  { m := o.m, c := o.c, code := some o.sw, cls := cls
    ops := fun v _ => { dst := some (o.d.toNat, codeBits o.x.toNat), srcs := [(o.a.toNat, v.n)] }
    run := pureRun (fun v en =>
      let (v1, fl) := v.mapElems (maskOf o.m en) o.d.toNat (codeBits o.x.toNat) (copyOf en) (fun row e =>
        f v en (v.opElem o.a.toNat v.n row e) row e)
      (v1, fl, none)) }

/-- The mode of a conversion's rounding code: 6, `.sat`, takes frm (R223, R236). -/
def cvtMode (o : VCvt) (en : Entry) : Rnd := rmMode (if o.rnd = 6 then 0 else o.rnd.toNat) en.frm

/-- FP to FP: RoundTo, or stochastic rounding under code 5 (R233, R235). -/
def cvtFpFp (o : VCvt) (dst : Fmt) : VecOp :=
  vcvtOp o .fp (fun v en a row e =>
    if o.rnd = 5 then v.fmt.toFmtSr dst (srDraw en.rkey en.rstrm en.op1 row e) a else v.fmt.toFmt dst (cvtMode o en) a)
/-- FP to integer (R236). -/
def cvtFpInt (o : VCvt) (isSigned : Bool) : VecOp :=
  vcvtOp o .fp (fun v en a _ _ => v.fmt.toInt (cvtMode o en) isSigned (codeBits o.x.toNat) a)
/-- Integer to FP (R237). -/
def cvtIntFp (o : VCvt) (isSigned : Bool) (dst : Fmt) : VecOp :=
  vcvtOp o (if isSigned then .sInt else .uInt) (fun v en a row e =>
    let x := intNum (if isSigned then signed v.n a else (a : Int))
    if o.rnd = 5 then dst.roundSr (srDraw en.rkey en.rstrm en.op1 row e) x else dst.round (cvtMode o en) x)
/-- Integer to integer (R238): low bits, or Sat under code 6. -/
def cvtIntInt (o : VCvt) (isSigned : Bool) : VecOp :=
  vcvtOp o .int (fun v _ a _ _ =>
    let w := codeBits o.x.toNat
    let x : Int := if v.cls = 1 then signed v.n a else (a : Int)
    (wrap w (if o.rnd = 6 then (if isSigned then satI w x else satN w x) else x), 0))

/-- The IEEE format of a width code (R205, R258). -/
def ieeeOf (x : BitVec 2) : Fmt := fmtOf 2 (codeBits x.toNat)

def opVcvtFpToIeee (o : VCvt) : VecOp := cvtFpFp o (ieeeOf o.x)
def opVcvtFpToBf16 (o : VCvt) : VecOp := cvtFpFp o bf16
def opVcvtFpToE4m3 (o : VCvt) : VecOp := cvtFpFp o e4m3
def opVcvtFpToE5m2 (o : VCvt) : VecOp := cvtFpFp o e5m2
def opVcvtFpToI (o : VCvt) : VecOp := cvtFpInt o true
def opVcvtFpToN (o : VCvt) : VecOp := cvtFpInt o false
def opVcvtIToIeee (o : VCvt) : VecOp := cvtIntFp o true (ieeeOf o.x)
def opVcvtIToBf16 (o : VCvt) : VecOp := cvtIntFp o true bf16
def opVcvtIToE4m3 (o : VCvt) : VecOp := cvtIntFp o true e4m3
def opVcvtIToE5m2 (o : VCvt) : VecOp := cvtIntFp o true e5m2
def opVcvtNToIeee (o : VCvt) : VecOp := cvtIntFp o false (ieeeOf o.x)
def opVcvtNToBf16 (o : VCvt) : VecOp := cvtIntFp o false bf16
def opVcvtNToE4m3 (o : VCvt) : VecOp := cvtIntFp o false e4m3
def opVcvtNToE5m2 (o : VCvt) : VecOp := cvtIntFp o false e5m2
def opVcvtIntToI (o : VCvt) : VecOp := cvtIntInt o true
def opVcvtIntToN (o : VCvt) : VecOp := cvtIntInt o false

/-- Issue of a conversion: one that rounds stochastically captures rctr and advances it by 2^21 (R233). -/
def State.cvtIssue (s : State) (i : Instr) (o : VCvt) (op : VecOp) : State :=
  if o.rnd = 5 then
    s.vecIssue i op s.hart.rctr 0 (fun t => t.setHart { t.hart with rctr := t.hart.rctr + 0x200000 })
  else s.vecIssue i op 0 0 id

/-! ### Mixed width, dot products and scales -/

/-- A mixed-width cell: va at sew, vb at the width of x, vd at width wd (R259, R262). -/
def vmixOp (o : VTri) (cls : ClsNeed) (wd : Nat → Nat → Nat) (bad : VecState → Nat → Bool) (scale : Bool)
    (f : VecState → Entry → Nat → Nat → Nat → Nat → Nat → Nat → Nat × Flags) : VecOp :=
  let wb := codeBits o.x.toNat
  { m := o.m, c := o.c, cls := cls
    bad := fun v _ => bad v wb
    ops := fun v _ => {
      dst := some (o.d.toNat, wd v.n wb)
      srcs := [(o.a.toNat, v.n), (o.b.toNat, wb)]
      scale := scale }
    run := pureRun (fun v en =>
      let w := wd v.n wb
      let (v1, fl) := v.mapElems (maskOf o.m en) o.d.toNat w (copyOf en) (fun row e =>
        f v en wb (v.opElem o.a.toNat v.n row e) (v.opElem o.b.toNat wb row e) (v.opElem o.d.toNat w row e) row e)
      (v1, fl, none)) }

/-- The destination width of R259. -/
def wideOf (n wb : Nat) : Nat := 2 * max n wb
/-- Fw of R259. -/
def wideFmt (wd : Nat) : Fmt := if wd = 16 then bf16 else if wd = 32 then f32 else f64
/-- The format of vb by its width and vtype.class (R260). -/
def secondFmt (cls wb : Nat) : Fmt :=
  if wb = 64 then f64 else if wb = 32 then f32
  else if wb = 16 then (if cls = 3 then bf16 else f16)
  else (if cls = 5 then e5m2 else e4m3)

/-- Widening integer multiply, or multiply-accumulate. -/
def vwInt (o : VTri) (isSigned acc : Bool) : VecOp :=
  { vmixOp o .int wideOf (fun v wb => decide (64 < wideOf v.n wb)) false (fun v _ wb a b d _ _ =>
    let x : Int := if isSigned then signed v.n a * signed wb b else ((a * b : Nat) : Int)
    (wrap (wideOf v.n wb) ((if acc then (d : Int) else 0) + x), 0)) with old := acc }
/-- Widening FP multiply, or multiply-accumulate with one rounding. -/
def vwFp (o : VTri) (acc : Bool) : VecOp :=
  { vmixOp o .fp wideOf (fun v wb => decide (64 < wideOf v.n wb)) false (fun v en wb a b d _ _ =>
    let k := wideFmt (wideOf v.n wb)
    let x := v.fmt.num a
    let y := (secondFmt v.cls.toNat wb).num b
    if acc then k.fmaV en.mode x y (k.num d) else k.mulV en.mode x y) with old := acc }

def opVwmulI (o : VTri) : VecOp := vwInt o true false
def opVwmulN (o : VTri) : VecOp := vwInt o false false
def opVwmaccI (o : VTri) : VecOp := vwInt o true true
def opVwmaccN (o : VTri) : VecOp := vwInt o false true
def opVwmulFp (o : VTri) : VecOp := vwFp o false
def opVwmaccFp (o : VTri) : VecOp := vwFp o true

/-- The E8M0 scale of element e of row r, from v1 (R240). -/
def VecState.scaleByte (v : VecState) (row e : Nat) : Nat := v.elem 1 8 (row * (v.vlmax / 32) + e / 32)
/-- A value times an E8M0 scale, exactly; the scale NaN makes it an invalid NaN (R227). -/
def scaleNum (x : Num) (e8 : Nat) : Num :=
  if e8 = 255 then .nan true
  else match x with | .fin s m e => .fin s m (e + ((e8 : Int) - 127)) | y => y
/-- vsmul and vsmacc (R262). -/
def vsOp (o : VTri) (acc : Bool) : VecOp :=
  { vmixOp o .fp (fun n _ => n) (fun _ _ => false) true (fun v en wb a b d row e =>
    let k := v.fmt
    let y := scaleNum ((secondFmt v.cls.toNat wb).num b) (v.scaleByte row e)
    let r := if acc then k.fmaV en.mode (k.num a) y (k.num d) else k.mulV en.mode (k.num a) y
    (r.1, r.2 ||| nvIf ((secondFmt v.cls.toNat wb).num b).snan)) with old := acc }
def opVsmul (o : VTri) : VecOp := vsOp o false
def opVsmacc (o : VTri) : VecOp := vsOp o true

/-- The four-byte dot product of R261. -/
def vdot4Op (d a b : BitVec 5) (m c : BitVec 1) (isSigned : Bool) : VecOp :=
  { m := m, c := c, cls := .int, old := true
    bad := fun v _ => v.sew != 2
    ops := fun v _ => { dst := some (d.toNat, v.n), srcs := [(a.toNat, v.n), (b.toNat, v.n)] }
    run := pureRun (fun v en =>
      let byte (x j : Nat) : Int := let y := bits x (8 * j) 8; if isSigned then signed 8 y else (y : Int)
      let (v1, fl) := v.mapElems (maskOf m en) d.toNat v.n (copyOf en) (fun row e =>
        let x := v.opElem a.toNat v.n row e
        let y := v.opElem b.toNat v.n row e
        (wrap 32 ((v.opElem d.toNat v.n row e : Int) + byte x 0 * byte y 0 + byte x 1 * byte y 1
          + byte x 2 * byte y 2 + byte x 3 * byte y 3), 0))
      (v1, fl, none)) }
def opVdot4I8 (d a b : BitVec 5) (m c : BitVec 1) : VecOp := vdot4Op d a b m c true
def opVdot4N8 (d a b : BitVec 5) (m c : BitVec 1) : VecOp := vdot4Op d a b m c false

/-- `vaddFp` (R256, R257). -/
def execVaddFp (o : VBin) (s : State) : Host.Outcome State Fault Refusal := .next (s.vbinIssue (.vaddFp o) o (opVaddFp o))
/-- `vsubFp` (R256, R257). -/
def execVsubFp (o : VBin) (s : State) : Host.Outcome State Fault Refusal := .next (s.vbinIssue (.vsubFp o) o (opVsubFp o))
/-- `vmulFp` (R256, R257). -/
def execVmulFp (o : VBin) (s : State) : Host.Outcome State Fault Refusal := .next (s.vbinIssue (.vmulFp o) o (opVmulFp o))
/-- `vdivFp` (R256, R257). -/
def execVdivFp (o : VBin) (s : State) : Host.Outcome State Fault Refusal := .next (s.vbinIssue (.vdivFp o) o (opVdivFp o))
/-- `vfma` (R256, R257). -/
def execVfma (o : VBin) (s : State) : Host.Outcome State Fault Refusal := .next (s.vbinIssue (.vfma o) o (opVfma o))
/-- `vfms` (R256, R257). -/
def execVfms (o : VBin) (s : State) : Host.Outcome State Fault Refusal := .next (s.vbinIssue (.vfms o) o (opVfms o))
/-- `vfnma` (R256, R257). -/
def execVfnma (o : VBin) (s : State) : Host.Outcome State Fault Refusal := .next (s.vbinIssue (.vfnma o) o (opVfnma o))
/-- `vminFp` (R256, R257). -/
def execVminFp (o : VBin) (s : State) : Host.Outcome State Fault Refusal := .next (s.vbinIssue (.vminFp o) o (opVminFp o))
/-- `vmaxFp` (R256, R257). -/
def execVmaxFp (o : VBin) (s : State) : Host.Outcome State Fault Refusal := .next (s.vbinIssue (.vmaxFp o) o (opVmaxFp o))
/-- `vmfeq` (R257). -/
def execVmfeq (o : VBin) (s : State) : Host.Outcome State Fault Refusal := .next (s.vbinIssue (.vmfeq o) o (opVmfeq o))
/-- `vmfne` (R257). -/
def execVmfne (o : VBin) (s : State) : Host.Outcome State Fault Refusal := .next (s.vbinIssue (.vmfne o) o (opVmfne o))
/-- `vmflt` (R257). -/
def execVmflt (o : VBin) (s : State) : Host.Outcome State Fault Refusal := .next (s.vbinIssue (.vmflt o) o (opVmflt o))
/-- `vmfle` (R257). -/
def execVmfle (o : VBin) (s : State) : Host.Outcome State Fault Refusal := .next (s.vbinIssue (.vmfle o) o (opVmfle o))
/-- `vsqrt` (R256, R257). -/
def execVsqrt (o : VUn) (s : State) : Host.Outcome State Fault Refusal := .next (s.vecIssue (.vsqrt o) (opVsqrt o) 0 0 id)
/-- `vabs` (R256, R257). -/
def execVabs (o : VUn) (s : State) : Host.Outcome State Fault Refusal := .next (s.vecIssue (.vabs o) (opVabs o) 0 0 id)
/-- `vneg` (R256, R257). -/
def execVneg (o : VUn) (s : State) : Host.Outcome State Fault Refusal := .next (s.vecIssue (.vneg o) (opVneg o) 0 0 id)
/-- `vcvtFpToIeee` (R258, R235). -/
def execVcvtFpToIeee (o : VCvt) (s : State) : Host.Outcome State Fault Refusal := .next (s.cvtIssue (.vcvtFpToIeee o) o (opVcvtFpToIeee o))
/-- `vcvtFpToBf16` (R258, R235). -/
def execVcvtFpToBf16 (o : VCvt) (s : State) : Host.Outcome State Fault Refusal := .next (s.cvtIssue (.vcvtFpToBf16 o) o (opVcvtFpToBf16 o))
/-- `vcvtFpToE4m3` (R258, R235). -/
def execVcvtFpToE4m3 (o : VCvt) (s : State) : Host.Outcome State Fault Refusal := .next (s.cvtIssue (.vcvtFpToE4m3 o) o (opVcvtFpToE4m3 o))
/-- `vcvtFpToE5m2` (R258, R235). -/
def execVcvtFpToE5m2 (o : VCvt) (s : State) : Host.Outcome State Fault Refusal := .next (s.cvtIssue (.vcvtFpToE5m2 o) o (opVcvtFpToE5m2 o))
/-- `vcvtFpToI` (R258, R236). -/
def execVcvtFpToI (o : VCvt) (s : State) : Host.Outcome State Fault Refusal := .next (s.cvtIssue (.vcvtFpToI o) o (opVcvtFpToI o))
/-- `vcvtFpToN` (R258, R236). -/
def execVcvtFpToN (o : VCvt) (s : State) : Host.Outcome State Fault Refusal := .next (s.cvtIssue (.vcvtFpToN o) o (opVcvtFpToN o))
/-- `vcvtIToIeee` (R258, R237). -/
def execVcvtIToIeee (o : VCvt) (s : State) : Host.Outcome State Fault Refusal := .next (s.cvtIssue (.vcvtIToIeee o) o (opVcvtIToIeee o))
/-- `vcvtIToBf16` (R258, R237). -/
def execVcvtIToBf16 (o : VCvt) (s : State) : Host.Outcome State Fault Refusal := .next (s.cvtIssue (.vcvtIToBf16 o) o (opVcvtIToBf16 o))
/-- `vcvtIToE4m3` (R258, R237). -/
def execVcvtIToE4m3 (o : VCvt) (s : State) : Host.Outcome State Fault Refusal := .next (s.cvtIssue (.vcvtIToE4m3 o) o (opVcvtIToE4m3 o))
/-- `vcvtIToE5m2` (R258, R237). -/
def execVcvtIToE5m2 (o : VCvt) (s : State) : Host.Outcome State Fault Refusal := .next (s.cvtIssue (.vcvtIToE5m2 o) o (opVcvtIToE5m2 o))
/-- `vcvtNToIeee` (R258, R237). -/
def execVcvtNToIeee (o : VCvt) (s : State) : Host.Outcome State Fault Refusal := .next (s.cvtIssue (.vcvtNToIeee o) o (opVcvtNToIeee o))
/-- `vcvtNToBf16` (R258, R237). -/
def execVcvtNToBf16 (o : VCvt) (s : State) : Host.Outcome State Fault Refusal := .next (s.cvtIssue (.vcvtNToBf16 o) o (opVcvtNToBf16 o))
/-- `vcvtNToE4m3` (R258, R237). -/
def execVcvtNToE4m3 (o : VCvt) (s : State) : Host.Outcome State Fault Refusal := .next (s.cvtIssue (.vcvtNToE4m3 o) o (opVcvtNToE4m3 o))
/-- `vcvtNToE5m2` (R258, R237). -/
def execVcvtNToE5m2 (o : VCvt) (s : State) : Host.Outcome State Fault Refusal := .next (s.cvtIssue (.vcvtNToE5m2 o) o (opVcvtNToE5m2 o))
/-- `vcvtIntToI` (R258, R238). -/
def execVcvtIntToI (o : VCvt) (s : State) : Host.Outcome State Fault Refusal := .next (s.cvtIssue (.vcvtIntToI o) o (opVcvtIntToI o))
/-- `vcvtIntToN` (R258, R238). -/
def execVcvtIntToN (o : VCvt) (s : State) : Host.Outcome State Fault Refusal := .next (s.cvtIssue (.vcvtIntToN o) o (opVcvtIntToN o))
/-- `vwmulI` (R259). -/
def execVwmulI (o : VTri) (s : State) : Host.Outcome State Fault Refusal := .next (s.vecIssue (.vwmulI o) (opVwmulI o) 0 0 id)
/-- `vwmulN` (R259). -/
def execVwmulN (o : VTri) (s : State) : Host.Outcome State Fault Refusal := .next (s.vecIssue (.vwmulN o) (opVwmulN o) 0 0 id)
/-- `vwmaccI` (R259). -/
def execVwmaccI (o : VTri) (s : State) : Host.Outcome State Fault Refusal := .next (s.vecIssue (.vwmaccI o) (opVwmaccI o) 0 0 id)
/-- `vwmaccN` (R259). -/
def execVwmaccN (o : VTri) (s : State) : Host.Outcome State Fault Refusal := .next (s.vecIssue (.vwmaccN o) (opVwmaccN o) 0 0 id)
/-- `vwmulFp` (R259). -/
def execVwmulFp (o : VTri) (s : State) : Host.Outcome State Fault Refusal := .next (s.vecIssue (.vwmulFp o) (opVwmulFp o) 0 0 id)
/-- `vwmaccFp` (R259). -/
def execVwmaccFp (o : VTri) (s : State) : Host.Outcome State Fault Refusal := .next (s.vecIssue (.vwmaccFp o) (opVwmaccFp o) 0 0 id)
/-- `vsmul` (R262). -/
def execVsmul (o : VTri) (s : State) : Host.Outcome State Fault Refusal := .next (s.vecIssue (.vsmul o) (opVsmul o) 0 0 id)
/-- `vsmacc` (R262). -/
def execVsmacc (o : VTri) (s : State) : Host.Outcome State Fault Refusal := .next (s.vecIssue (.vsmacc o) (opVsmacc o) 0 0 id)
/-- `vdot4I8` (R261). -/
def execVdot4I8 (d a b : BitVec 5) (m c : BitVec 1) (s : State) : Host.Outcome State Fault Refusal :=
  .next (s.vecIssue (.vdot4I8 d a b m c) (opVdot4I8 d a b m c) 0 0 id)
/-- `vdot4N8` (R261). -/
def execVdot4N8 (d a b : BitVec 5) (m c : BitVec 1) (s : State) : Host.Outcome State Fault Refusal :=
  .next (s.vecIssue (.vdot4N8 d a b m c) (opVdot4N8 d a b m c) 0 0 id)

end Sys2Proof.Machine
end

