-- ==== Sys2Proof/Machine/VecMem.lean ====
section
/-! DEFINITION. Vector memory (major 0x1B; R143 to R146, R153, R276 to R289): loads, stores, scatter-add updates,
vwait and the codebook. -/

namespace Sys2Proof.Machine

/-- A run over the elements of a memory instruction: the state so far, the 256-byte blocks the instruction has reached,
how many of them this run was the first to reach in HBM and in the Square, the bytes it moved in the Square, the places a
vstxu has written, the element groups that the stream's watch has let pass, and the bytes of its accesses. -/
structure MemRun where
  s : State
  seen : List Nat := []
  hbm : Nat := 0
  sq : Nat := 0
  sqBytes : Nat := 0
  wrote : List Nat := []
  passed : List (Nat × Nat) := []
  bytes : Nat := 0

/-- A run of an entry that may have run in part before: one request for a block (R161), a watch once passed stays so
(R181), and what a vstxu wrote is remembered (R279). -/
def MemRun.of (s : State) (en : Entry) : MemRun := { s := s, seen := en.blk, wrote := en.met, passed := en.passed }
/-- What an entry keeps of a run that waits. -/
def Entry.keep (en : Entry) (m : MemRun) : Entry := { en with blk := m.seen, met := m.wrote, passed := m.passed }

/-- The blocks and bytes of an access noted (R161). -/
def MemRun.note (m : MemRun) (p : Place) (sz : Nat) : MemRun :=
  let b := p.at_ / 256
  let m := { m with bytes := m.bytes + sz }
  match p.sp with
  | .dv => if inHbm p.at_ && !m.seen.contains b then { m with seen := b :: m.seen, hbm := m.hbm + 1 } else m
  | .sq =>
    let m1 := { m with sqBytes := m.sqBytes + sz }
    if m.seen.contains b then m1 else { m1 with seen := b :: m.seen, sq := m.sq + 1 }
  | _ => m

/-- The charges of a run by the instruction at the head of a hart's vector queue (R45, R47, R161), and its use of the port
(R43). -/
def MemRun.charge (m : MemRun) (hid : Nat) : State :=
  let h := m.s.hartAt hid
  let r := h.vecResv
  let s1 := ((m.s.charge r 3 (hid / 8) m.hbm).charge r 4 (hid / 64) m.sq).chargeEnergy r (2 * m.hbm + cdiv m.sqBytes 1024)
  match h.vq with
  | [] => s1
  | en :: _ => match streamOf en.instr with
    | none => s1
    | some q => s1.usePort (hid / 8) h.q[q.toNat].space (vecStores en.instr) m.bytes

/-- Elements in order until one stops: what was done, and the stop with its element and those after it. -/
def memGo (f : MemRun → Nat × Nat → MemRun × Option Stop) (m : MemRun) :
    List (Nat × Nat) → MemRun × Option (Stop × (Nat × Nat) × List (Nat × Nat))
  | [] => (m, none)
  | re :: t =>
    match f m re with
    | (m1, none) => memGo f m1 t
    | (m1, some e) => (m1, some (e, re, t))

/-- Position, or lane slot, and lane of an element (R143, R145). -/
def VecState.position (v : VecState) (q : Stream) (row e : Nat) : Nat × Nat :=
  if q.space = .lp then lpSlot v.vgrant q.width v.vl q.cursor.toNat row e
  else (q.cursor.toNat + row * v.vl + e, 0)

/-- Whether the watch lets position p through: the state with the watch word's page touched as the prefix hint says and its
block charged (R47, R64), and, where it does not, a wait or the fault of that word; in a surrender routine cause 0x16 instead of a
wait (R153). -/
def State.watchPass (s : State) (hid : Nat) (q : Stream) (surr : Bool) (hint p : Nat) : State × Option Stop :=
  if !q.armed then (s, none)
  else match s.dv (s.whoOf hid) q.waddr.toNat .read (hintTouch hint) with
    | .error e => (s, some e)
    | .ok (s0, pa) =>
      let s1 := if inHbm pa then s0.chargeEnergy (s.hartAt hid).vecResv 2 else s0
      if s1.spoiled 3 0 pa 8 then (s1, some (.trap ⟨0x52, q.waddr⟩))
      else if signed 64 (wrap 64 ((p : Int) + 1 + q.woff.toInt)) ≤ signed 64 (s1.mem.read pa 8) then (s1, none)
      else (s1, some (if surr then .trap ⟨0x16, 0⟩ else .wait .watch))

/-- The highest position of the active elements of an element's group (R153). -/
def VecState.groupTop (v : VecState) (q : Stream) (msk : Option Nat) (row e : Nat) : Nat :=
  let n := max (v.groupOf v.n) 1
  let g := e / n
  (List.range n).foldl (fun t i =>
    let x := g * n + i
    if v.active msk row x then max t (v.position q row x).1 else t) (v.position q row e).1

/-- What is left of the hart's budget of a resource covers only n requests: the next one finds it exhausted (R46, R161).
A surrender routine's work is never held (R324). -/
def State.spent (s : State) (hid res n : Nat) : Bool :=
  let h := s.hartAt hid
  let surr := match h.vq with | en :: _ => en.surr | [] => false
  !surr && (s.rsvAt h.ownResv).cls != 0 && decide (s.remaining h.ownResv res (instOf (hid / 8) res) ≤ n)
/-- The element that brought a run from m to m1 opened a request for which no budget is left. -/
def MemRun.short (m m1 : MemRun) (hid : Nat) : Bool :=
  (decide (m.hbm < m1.hbm) && m.s.spent hid 3 m.hbm) || (decide (m.sq < m1.sq) && m.s.spent hid 4 m.sq)

/-- The watch of a stream for the group of an element: one that has let it pass before is not asked again (R153, R181). -/
def memWatch (hid : Nat) (en : Entry) (msk : Option Nat) (m : MemRun) (re : Nat × Nat) : MemRun × Option Stop :=
  let v := (m.s.hartAt hid).vec
  let g := (re.1, re.2 / max (v.groupOf v.n) 1)
  if !en.str.armed || m.passed.contains g then (m, none)
  else match m.s.watchPass hid en.str en.surr en.hint (v.groupTop en.str msk re.1 re.2) with
    | (s1, none) => ({ m with s := s1, passed := g :: m.passed }, none)
    | (s1, some e) => ({ m with s := s1 }, some e)

/-- One element: the watch, the checks of R280, then its access, once its request finds a budget left. A condition unmet
in a surrender routine is recorded with the element's address (R153, R280). An element that stops after its watch has let its
group pass leaves it passed (R181). -/
def memElem (hid : Nat) (en : Entry) (msk idx : Option Nat) (acc : Acc) (act : MemRun → ElemOk → Nat × Nat → Except Stop MemRun)
    (m : MemRun) (re : Nat × Nat) : MemRun × Option Stop :=
  let v := (m.s.hartAt hid).vec
  let q := en.str
  let hint := match en.pfx with | some w => pfxHint w | none => 0
  let (p, lane) := v.position q re.1 re.2
  let i : Int := match idx with | some a => signed v.n (v.opElem a v.n re.1 re.2) | none => 0
  match memWatch hid en msk m re with
  | (m0, some (.trap t)) =>
    (m0, some (.trap (if t.cause = 0x16 then ⟨0x16, BitVec.ofNat 64 (m.s.elemAddr hid q p i)⟩ else t)))
  | (m0, some w) => (m0, some w)
  | (m0, none) =>
    match m0.s.elemCheck hid q p lane i acc (q.touchKind hint) with
    | .error e => (m0, some e)
    | .ok r =>
      let m1 := { m0 with s := r.s }.note r.place q.sz
      if m0.short m1 hid then (m0, some (.wait (.room .v)))
      else match act m1 r re with
        | .error e => (m0, some e)
        | .ok m2 => (m2, none)

/-- A loaded element in its register and the copy register, bit for bit (R278). -/
def loadElem (hid : Nat) (en : Entry) (d : BitVec 5) (m : MemRun) (r : ElemOk) (re : Nat × Nat) : Except Stop MemRun :=
  let x := m.s.getAt r.place en.str.sz
  let h := m.s.hartAt hid
  let v1 := h.vec.setOpElem d.toNat en.str.width re.1 re.2 x
  let v2 := match copyOf en with | some c => v1.setOpElem c en.str.width re.1 re.2 x | none => v1
  .ok { m with s := m.s.setHartAt hid { h with vec := v2 } }

/-- A stored element (R278). -/
def storeElem (hid : Nat) (en : Entry) (d : BitVec 5) (m : MemRun) (r : ElemOk) (re : Nat × Nat) : Except Stop MemRun :=
  let x := (m.s.hartAt hid).vec.opElem d.toNat en.str.width re.1 re.2
  .ok { m with s := m.s.putAt r.place en.str.sz x }

/-- An element stored in no order: where another of the instruction wrote the same place, either value may stay
(R279; log 10). What was written is remembered across a wait. -/
def scatterElem (hid : Nat) (en : Entry) (d : BitVec 5) (m : MemRun) (r : ElemOk) (re : Nat × Nat) : Except Stop MemRun :=
  if m.wrote.contains r.place.at_ then
    let later := Config.scatterKeepsLater m.s.fresh
    let m1 := { m with s := { m.s with fresh := m.s.fresh + 1 } }
    if later then storeElem hid en d m1 r re else .ok m1
  else storeElem hid en d { m with wrote := r.place.at_ :: m.wrote } r re

/-- An update sent to the applier of its bin; one in the host window raises 0x17 (R182, R286). -/
def sendElem (hid : Nat) (en : Entry) (d : BitVec 5) (m : MemRun) (r : ElemOk) (re : Nat × Nat) : Except Stop MemRun :=
  if !inHbm r.place.at_ then trapAt 0x17 r.addr
  else
    let h := m.s.hartAt hid
    let u : Update :=
      { hid := hid, gang := h.gang, pa := r.place.at_, dva := BitVec.ofNat 64 r.addr, fp := h.vec.cls == 2, size := en.str.sz
        val := h.vec.opElem d.toNat en.str.width re.1 re.2 }
    let s1 := { m.s with dev := { m.s.dev with updates := m.s.dev.updates ++ [u] } }
    .ok { m with s := (s1.charge h.vecResv 3 (hid / 8) 2).chargeEnergy h.vecResv 4, seen := [], hbm := 0 }

/-- The stream state an instruction takes: loaded, one of its modes, one of its spaces (R276). -/
def streamOk (q : Stream) (indexed : Bool) (spaces : Space → Bool) : Bool :=
  q.loaded && ((q.mode == 2) == indexed) && spaces q.space

/-- The frame of fn 0 to 6 (R276 to R284). -/
def vmemOp (m c : BitVec 1) (load : Option (BitVec 5)) (data : BitVec 5) (idx : Option (BitVec 5))
    (kind : ConvoyKind) (bad : VecState → Entry → Bool) (spaces : Space → Bool) (acc : Acc)
    (act : Nat → Entry → BitVec 5 → MemRun → ElemOk → Nat × Nat → Except Stop MemRun)
    (onTrap : Nat → Entry → MemRun → (Trap × (Nat × Nat) × List (Nat × Nat)) → Bool → Except VStop MemRun)
    (q : BitVec 4) : VecOp :=
  { vecResult := load.isSome, m := m, c := c, convoy := kind, bad := bad
    ops := fun v en => {
      dst := load.map (fun d => (d.toNat, en.str.width))
      srcs := (if load.isSome then [] else [(data.toNat, en.str.width)]) ++ (idx.map (fun a => (a.toNat, v.n))).toList
      exact := false }
    run := fun s hid en =>
      let h := s.hartAt hid
      let v := h.vec
      let msk := maskOf m en
      let els := (v.elems false).filter (fun re => v.active msk re.1 re.2)
      let finish (mr : MemRun) : Except VStop VDone :=
        let s1 := mr.charge hid
        let v1 := (s1.hartAt hid).vec
        -- a run that ends before its sweep keeps what it has reached
        let s2 := match v1.ends with
          | none => s1
          | some _ => let h1 := s1.hartAt hid
            match h1.vq with | e :: _ => s1.setHartAt hid (h1.setHead .v ({ e with prog := 1 }.keep mr)) | [] => s1
        .ok { s := s2, newCur := some (q, (en.str.advance v1 v1.rc v1.vl).cursor) }
      match els with
      | [] => finish (.of s en)
      | (row, e) :: _ =>
        if !streamOk en.str idx.isSome spaces then
          .error ⟨.trap ⟨0x16, BitVec.ofNat 64 (s.elemAddr hid en.str (v.position en.str row e).1
            (match idx with | some a => signed v.n (v.opElem a.toNat v.n row e) | none => 0))⟩, row, e, s⟩
        else
          match memGo (memElem hid en msk (idx.map (fun a => a.toNat)) acc (act hid en data)) (.of s en) els with
          | (mr, none) => finish mr
          | (mr, some (.wait w, re, _)) =>
            let s1 := mr.charge hid
            let h1 := s1.hartAt hid
            let on := en.prog != 0 || re != (row, e)
            -- a watch holds the head at an element-group boundary (R153)
            let n := max (v.groupOf v.n) 1
            let low := if re.1 = v.rowstart.toNat then v.estart.toNat else 0
            let el := if w == .watch then max low (re.2 / n * n) else re.2
            .error ⟨.wait w, re.1, el, s1.setHartAt hid (h1.setHead .v ({ en with prog := b2n on }.keep mr))⟩
          | (mr, some (.trap t, re, rest)) =>
            match onTrap hid en mr (t, re, rest) (en.prog == 0 && re == (row, e)) with
            | .error st => .error st
            | .ok mr1 => finish mr1 }

/-- A trap at an element: elements below it stand, it and those above don't (R281). -/
def trapStops (hid : Nat) (_ : Entry) (m : MemRun) (x : Trap × (Nat × Nat) × List (Nat × Nat)) (_ : Bool) :
    Except VStop MemRun :=
  let s1 := m.charge hid
  let h1 := s1.hartAt hid
  -- the watch stays passed for what it has let through (R139, R181)
  let s2 := match h1.vq with | e :: _ => s1.setHartAt hid (h1.setHead .v { e with passed := m.passed }) | [] => s1
  .error ⟨.trap x.1, x.2.1.1, x.2.1.2, s2⟩

/-- The word of a watch faults in a run that goes on after a wait: a fault of the instruction, not of an element (R153,
R284). A run that begins an instruction reads the word for its first element first. -/
def watchFault (hid : Nat) (en : Entry) (msk : Option Nat) (m : MemRun) (re : Nat × Nat) : Bool :=
  en.prog != 0 && (match (memWatch hid en msk m re).2 with | some (.trap t) => t.cause != 0x16 | _ => false)

/-- A first-fault load: past its first element a fault trims vl instead (R284, R285). -/
def trapTrims (m_ : BitVec 1) (hid : Nat) (en : Entry) (m : MemRun) (x : Trap × (Nat × Nat) × List (Nat × Nat)) (first : Bool) :
    Except VStop MemRun :=
  if first || x.1.cause = 0x52 || watchFault hid en (maskOf m_ en) m x.2.1 then trapStops hid en m x first
  else
    let h := m.s.hartAt hid
    .ok { m with s := m.s.setHartAt hid { h with vec :=
      { h.vec with vl := x.2.1.2, trim := true, trimCause := x.1.cause, trimElem := BitVec.ofNat 32 x.2.1.2 } } }

/-- An unordered scatter traps: any element above the fault may be performed too (R281; log 11). -/
def trapScatters (d : BitVec 5) (m_ : BitVec 1) (idx : BitVec 5) (hid : Nat) (en : Entry) (m : MemRun)
    (x : Trap × (Nat × Nat) × List (Nat × Nat)) (first : Bool) : Except VStop MemRun :=
  let k := m.s.fresh
  let m0 := { m with s := { m.s with fresh := k + 1 } }
  let m1 := x.2.2.zipIdx.foldl (fun (acc : MemRun) p =>
    if Config.scatterPastFault k p.2 then
      match memElem hid en (maskOf m_ en) (some idx.toNat) .write (scatterElem hid en d) acc p.1 with
      | (a, none) => a
      | _ => acc
    else acc) m0
  trapStops hid en m1 x first

def anySpace (_ : Space) : Bool := true
def neverBad (_ : VecState) (_ : Entry) : Bool := false

def opVld (d : BitVec 5) (q : BitVec 4) (m c : BitVec 1) : VecOp :=
  vmemOp m c (some d) d none .memory neverBad anySpace .read loadElem trapStops q
def opVldff (d : BitVec 5) (q : BitVec 4) (m c : BitVec 1) : VecOp :=
  let o := vmemOp m c (some d) d none .alone (fun v _ => v.rc != 1) anySpace .read loadElem (trapTrims m) q
  { o with moves := true, mem := true, whole := true, run := fun s hid en =>
      let h := s.hartAt hid
      let v := { h.vec with trim := false, trimCause := 0, trimElem := 0 }
      match o.run (s.setHartAt hid { h with vec := v }) hid en with
      | .ok d => .ok d
      | .error r =>
        -- a vldff that traps, or waits, leaves vffst as it was
        let h1 := r.s.hartAt hid
        let w := { h1.vec with trim := h.vec.trim, trimCause := h.vec.trimCause, trimElem := h.vec.trimElem }
        .error { r with s := r.s.setHartAt hid { h1 with vec := w } } }
def opVst (v : BitVec 5) (q : BitVec 4) (m c : BitVec 1) : VecOp :=
  vmemOp m c none v none .memory neverBad anySpace .write storeElem trapStops q
def opVldx (d a : BitVec 5) (q : BitVec 4) (m c : BitVec 1) : VecOp :=
  vmemOp m c (some d) d (some a) .memory neverBad anySpace .read loadElem trapStops q
def opVstx (v a : BitVec 5) (q : BitVec 4) (m c : BitVec 1) : VecOp :=
  vmemOp m c none v (some a) .memory neverBad anySpace .write storeElem trapStops q
def opVstxu (v a : BitVec 5) (q : BitVec 4) (m c : BitVec 1) : VecOp :=
  vmemOp m c none v (some a) .memory neverBad anySpace .write scatterElem (trapScatters v m a) q
def opVsadd (v a : BitVec 5) (q : BitVec 4) (m c : BitVec 1) : VecOp :=
  vmemOp m c none v (some a) .memory
    (fun v en => !(decide (v.cls.toNat ≤ 2) && decide (32 ≤ en.str.width))) (fun sp => sp == .dv) .write sendElem trapStops q

/-- vwait (R288): one reading of the flags that aren't met yet, the one it stopped at first (R282). It waits until all are, or its
time is up, which ends it also where a watch or a bay still holds flags back: they count as unmet (DESIGN CHOICE, log 93). -/
def opVwait (d : BitVec 5) (q : BitVec 4) (c : BitVec 1) : VecOp :=
  { maskable := false, vecResult := false, c := c, convoy := .alone, rowwise := true, mem := true, whole := true, based := true
    ops := fun _ _ => { mdst := some 0 }
    run := fun s hid en =>
      let v := (s.hartAt hid).vec
      let els := v.elems true
      let w := en.str.width
      let stop (st : Stop) (s1 : State) (re : Nat × Nat) : Except VStop VDone := .error ⟨st, re.1, re.2, s1⟩
      let ok := streamOk en.str false (fun sp => sp == .dv || sp == .sq) && decide (32 ≤ w)
      let re0 := els.headD (0, 0)
      if !ok && !els.isEmpty then
        stop (.trap ⟨0x16, BitVec.ofNat 64 (s.elemAddr hid en.str (v.position en.str re0.1 re0.2).1 0)⟩) s re0
      else
        let t0 := if en.prog = 0 then s.now else en.prog - 1
        let flat (re : Nat × Nat) : Nat := re.1 * v.vl + re.2
        let look (m : MemRun) (r : ElemOk) (re : Nat × Nat) : Except Stop MemRun :=
          .ok (if en.op1.toNat % 2 ^ w ≤ m.s.getAt r.place en.str.sz then { m with wrote := flat re :: m.wrote } else m)
        let first (re : Nat × Nat) : Bool := flat re + 1 == en.left
        let todo := (els.filter first ++ els.filter (fun re => !first re)).filter (fun re => !en.met.contains (flat re))
        let keep (m : MemRun) (n : Nat) (s1 : State) : State :=
          s1.setHartAt hid ((s1.hartAt hid).setHead .v { en with prog := n, met := m.wrote, passed := m.passed })
        match memGo (memElem hid en none none .read look) { s := s, wrote := en.met, passed := en.passed } todo with
        | (m, some (.trap t, re, _)) => stop (.trap t) (keep m en.prog (m.charge hid)) re
        | (m, r) =>
          let s1 := m.charge hid
          let h1 := s1.hartAt hid
          let unmet := els.filter (fun re => !m.wrote.contains (flat re))
          let through := (r.isNone && (unmet.isEmpty || en.surr)) || decide (v.vwtmo.toNat ≤ s.now - t0)
          if through then
            let v1 := els.foldl (fun (x : VecState) re => x.setMaskBit 0 re.1 re.2 (!m.wrote.contains (flat re))) h1.vec
            .ok {
              s := s1.setHartAt hid { h1 with vec := v1 }
              res := some (d, BitVec.ofNat 64 unmet.length)
              newCur := some (q, (en.str.advance v v.rc v.vl).cursor) }
          else .error ⟨.wait .vwait, v.rowstart.toNat, v.estart.toNat, keep m (t0 + 1) s1⟩ }

/-- vcbld (R289): 1024 bytes of a unit stream replace the core's codebook. Elements that the watch has let pass are not
asked about again (R181). -/
def opVcbld (q : BitVec 4) (c : BitVec 1) : VecOp :=
  { maskable := false, vecResult := false, c := c, convoy := .alone, grouped := false, mem := true, whole := true
    run := fun s hid en =>
      let h := s.hartAt hid
      let q1 := en.str
      let n := 1024 / q1.sz
      let v := { h.vec with vl := n, lmode := 0 }
      if !(q1.loaded && q1.mode == 0) then
        .error ⟨.trap ⟨0x16, BitVec.ofNat 64 (s.elemAddr hid q1 (v.position q1 0 0).1 0)⟩, 0, 0, s⟩
      else
        -- a stop comes with its element, and how many the watch has let pass
        let step (acc : Except (Stop × Nat × Nat × MemRun) (MemRun × Nat)) (i : Nat) :
            Except (Stop × Nat × Nat × MemRun) (MemRun × Nat) :=
          match acc with
          | .error e => .error e
          | .ok (m, x) =>
            let (p, lane) := v.position q1 0 i
            match (if en.passed.contains (0, i) then (m.s, none) else m.s.watchPass hid q1 en.surr en.hint p) with
            | (s1, some (.trap t)) =>
              .error (.trap (if t.cause = 0x16 then ⟨0x16, BitVec.ofNat 64 (m.s.elemAddr hid q1 p 0)⟩ else t), i, i, { m with s := s1 })
            | (s1, some e) => .error (e, i, i, { m with s := s1 })
            | (s1, none) =>
              match s1.elemCheck hid q1 p lane 0 .read (q1.touchKind en.hint) with
              | .error e => .error (e, i, i + 1, { m with s := s1 })
              | .ok r => .ok ({ m with s := r.s }.note r.place q1.sz, x + r.s.getAt r.place q1.sz * 2 ^ (8 * q1.sz * i))
        match (List.range n).foldl step (.ok ({ s := s, seen := en.blk }, 0)) with
        | .error (e, n, k, m) =>
          let s1 := m.charge hid
          let en1 := { en with blk := m.seen, passed := (List.range k).map (fun i => (0, i)) }
          let s2 := s1.setHartAt hid ((s1.hartAt hid).setHead .v en1)
          match e with
          | .trap t => .error ⟨.trap t, 0, n, s2⟩
          | w => .error ⟨w, h.vec.rowstart.toNat, h.vec.estart.toNat, s2⟩
        | .ok (m, x) =>
          let s1 := m.charge hid
          let k := s1.coreAt (hid / 8)
          .ok {
            s := s1.setCoreAt (hid / 8) { k with cb := Mem.write [] 0 1024 x }
            newCur := some (q, q1.cursor + BitVec.ofNat 64 n) } }

/-- `vld` (R278). -/
def execVld (d : BitVec 5) (q : BitVec 4) (m c : BitVec 1) (s : State) : Host.Outcome State Fault Refusal :=
  .next (s.vecIssue (.vld d q m c) (opVld d q m c) 0 0 id)

/-- `vldff` (R284). -/
def execVldff (d : BitVec 5) (q : BitVec 4) (m c : BitVec 1) (s : State) : Host.Outcome State Fault Refusal :=
  .next (s.vecIssue (.vldff d q m c) (opVldff d q m c) 0 0 id)

/-- `vst` (R278). -/
def execVst (v : BitVec 5) (q : BitVec 4) (m c : BitVec 1) (s : State) : Host.Outcome State Fault Refusal :=
  .next (s.vecIssue (.vst v q m c) (opVst v q m c) 0 0 id)

/-- `vldx` (R278). -/
def execVldx (d a : BitVec 5) (q : BitVec 4) (m c : BitVec 1) (s : State) : Host.Outcome State Fault Refusal :=
  .next (s.vecIssue (.vldx d a q m c) (opVldx d a q m c) 0 0 id)

/-- `vstx` (R278). -/
def execVstx (v a : BitVec 5) (q : BitVec 4) (m c : BitVec 1) (s : State) : Host.Outcome State Fault Refusal :=
  .next (s.vecIssue (.vstx v a q m c) (opVstx v a q m c) 0 0 id)

/-- `vstxu` (R279, R281). -/
def execVstxu (v a : BitVec 5) (q : BitVec 4) (m c : BitVec 1) (s : State) : Host.Outcome State Fault Refusal :=
  .next (s.vecIssue (.vstxu v a q m c) (opVstxu v a q m c) 0 0 id)

/-- `vsadd` (R286). -/
def execVsadd (v a : BitVec 5) (q : BitVec 4) (m c : BitVec 1) (s : State) : Host.Outcome State Fault Refusal :=
  .next (s.vecIssue (.vsadd v a q m c) (opVsadd v a q m c) 0 0 id)

/-- `vwait` (R288). -/
def execVwait (d : BitVec 5) (q : BitVec 4) (c : BitVec 1) (s : State) : Host.Outcome State Fault Refusal :=
  .next (s.vecIssue (.vwait d q c) (opVwait d q c) (s.reg d) 0 id)

/-- `vcbld` (R289). -/
def execVcbld (q : BitVec 4) (c : BitVec 1) (s : State) : Host.Outcome State Fault Refusal :=
  .next (s.vecIssue (.vcbld q c) (opVcbld q c) 0 0 id)

end Sys2Proof.Machine
end

