-- ==== Sys2Proof/Machine/VecRed.lean ====
section
/-! DEFINITION. Reductions and scans: major 0x18 (R241 to R245, R263, R264). -/

namespace Sys2Proof.Machine

/-- A value that may be absent, with the flags raised so far. -/
abbrev Part := Option Nat × Flags

/-- a and b combined: absent counts for nothing and raises nothing (R241). -/
def Part.cat (f : Nat → Nat → Nat × Flags) (a b : Part) : Part :=
  match a.1, b.1 with
  | none, _ => (b.1, a.2 ||| b.2)
  | _, none => (a.1, a.2 ||| b.2)
  | some x, some y => let r := f x y; (some r.1, a.2 ||| b.2 ||| r.2)

/-- Neighbours combined, an odd last one kept. -/
def pairUp (f : Nat → Nat → Nat × Flags) : List Part → List Part
  | a :: b :: t => Part.cat f a b :: pairUp f t
  | l => l
/-- The fold across lanes of R241: at most 9 rounds take 512 positions to one. -/
def foldPairs (f : Nat → Nat → Nat × Flags) : Nat → List Part → Part
  | _, [] => (none, 0)
  | _, [p] => p
  | 0, p :: _ => p
  | n + 1, l => foldPairs f n (pairUp f l)
/-- Tree(row) of R241 over active elements (e, value), with n elements in a group. -/
def tree (f : Nat → Nat → Nat × Flags) (n : Nat) (xs : List (Nat × Nat)) : Part :=
  foldPairs f 9 ((List.range n).map (fun i =>
    (xs.filter (fun x => x.1 % n == i)).foldl (fun p x => Part.cat f p (some x.2, 0)) (none, 0)))
/-- The values in order, one after another. -/
def inOrder (f : Nat → Nat → Nat × Flags) (p : Part) (xs : List (Nat × Nat)) : Part :=
  xs.foldl (fun p x => Part.cat f p (some x.2, 0)) p

/-- The active elements (e, value) of a row at sew, in ascending order. -/
def VecState.activeRow (v : VecState) (msk : Option Nat) (r row : Nat) : List (Nat × Nat) :=
  ((List.range v.vl).filter (fun e => v.active msk row e)).map (fun e => (e, v.opElem r v.n row e))
/-- The rows of the run at hand: rowstart to rc - 1, or up to where the run ends (R248). -/
def VecState.rowsLeft (v : VecState) : List Nat :=
  let l := (List.range v.rc).drop v.rowstart.toNat
  match v.ends with
  | none => l
  | some x => l.filter (fun r => decide (r < x.1))

/-- How a reduction or scan combines: as an unordered sum, or one element after another; `first` is what a scan makes
of the first active element of a row. -/
structure Comb where
  unordered : Bool := false
  first : VecState → Nat → Nat × Flags := fun _ x => (x, 0)
  f : VecState → Rnd → Nat → Nat → Nat × Flags

/-- The operations of R263 and R264: on an FP class by its format, else modulo 2^N. -/
def combSum (unordered : Bool) : Comb :=
  { unordered := unordered, f := fun v m a b => if v.isFp then v.fmt.add m a b else ((a + b) % 2 ^ v.n, 0) }
def combMax (max : Bool) : Comb :=
  { -- an all-NaN input gives the canonical NaN, a signalling one raises NV (R245)
    first := fun v x => if v.isFp then v.fmt.minMax max x x else (x, 0)
    f := fun v _ a b =>
      if v.isFp then v.fmt.minMax max a b
      else (if (decide (signed v.n a < signed v.n b)) != max then a else b, 0) }
def combMaxN (max : Bool) : Comb := { f := fun _ _ a b => (if (decide (a < b)) != max then a else b, 0) }
def combBits (f : Nat → Nat → Nat) : Comb := { f := fun _ _ a b => (f a b, 0) }

/-- A reduction: the rows in order from z, the captured scalar (R242, R243). -/
def vredOp (o : VTri) (cls : ClsNeed) (k : Comb) (ext : VecState → Nat → Word) : VecOp :=
  { vecResult := false, m := o.m, c := o.c, convoy := .permute, code := some o.x, cls := cls, rowwise := true, seed := true
    ops := fun v _ => { srcs := [(o.a.toNat, v.n)] }
    run := pureRun (fun v en =>
      let f := k.f v (frmMode en.frm)
      let z : Part := (some (en.op1.toNat % 2 ^ v.n), 0)
      let r := v.rowsLeft.foldl (fun acc row =>
        let xs := v.activeRow (maskOf o.m en) o.a.toNat row
        if k.unordered && v.isFp then Part.cat f acc (tree f (v.groupOf v.n) xs) else inOrder f acc xs) z
      (v, r.2, some (o.d, ext v (r.1.getD 0)))) }
/-- The extension of an unmarked cell: signed under class 1 (R249). -/
def extCls (v : VecState) (x : Nat) : Word := scalarExt v.n (v.cls == 1) x
/-- The extension of a cell marked .iN or FP: signed unless the class is FP (R249). -/
def extSigned (v : VecState) (x : Nat) : Word := scalarExt v.n (!v.isFp) x
/-- The extension of a cell marked .nN (R249). -/
def extZero (v : VecState) (x : Nat) : Word := scalarExt v.n false x

def opVredsum (o : VTri) : VecOp := vredOp o .any (combSum true) extCls
def opVredosum (o : VTri) : VecOp := vredOp o .any (combSum false) extCls
def opVredmax (o : VTri) : VecOp := vredOp o .any (combMax true) extSigned
def opVredmin (o : VTri) : VecOp := vredOp o .any (combMax false) extSigned
def opVredmaxN (o : VTri) : VecOp := vredOp o .int (combMaxN true) extZero
def opVredminN (o : VTri) : VecOp := vredOp o .int (combMaxN false) extZero
def opVredand (o : VTri) : VecOp := vredOp o .int (combBits (· &&& ·)) extCls
def opVredor (o : VTri) : VecOp := vredOp o .int (combBits (· ||| ·)) extCls
def opVredxor (o : VTri) : VecOp := vredOp o .int (combBits (· ^^^ ·)) extCls

/-- The running combinations of a list, each with its element. -/
def running (f : Nat → Nat → Nat × Flags) : Part → List (Nat × Nat) → List (Nat × Part)
  | _, [] => []
  | p, x :: t => let q := Part.cat f p (some x.2, 0); (x.1, q) :: running f q t
/-- The running combinations of a row, its first element through `g`. -/
def runningRow (f : Nat → Nat → Nat × Flags) (g : Nat → Nat × Flags) : List (Nat × Nat) → List (Nat × Part)
  | [] => []
  | x :: t => let r := g x.2; (x.1, (some r.1, r.2)) :: running f (some r.1, r.2) t
/-- The trees over each prefix of a list (R244). -/
def prefixTrees (f : Nat → Nat → Nat × Flags) (n : Nat) : List (Nat × Nat) → List (Nat × Nat) → List (Nat × Part)
  | _, [] => []
  | before, x :: t => (x.1, tree f n (before ++ [x])) :: prefixTrees f n (before ++ [x]) t

/-- A scan: each row afresh (R244, R264). -/
def vscanOp (o : VUn) (cls : ClsNeed) (k : Comb) : VecOp :=
  { m := o.m, c := o.c, convoy := .permute, code := some o.x, cls := cls, rowwise := true
    ops := fun v _ => { dst := some (o.d.toNat, v.n), srcs := [(o.a.toNat, v.n)], exact := false }
    run := pureRun (fun v en =>
      let f := k.f v (frmMode en.frm)
      let r := v.rowsLeft.foldl (fun (acc : VecState × Flags) row =>
        let xs := v.activeRow (maskOf o.m en) o.a.toNat row
        let ys := if k.unordered && v.isFp then prefixTrees f (v.groupOf v.n) [] xs else runningRow f (k.first v) xs
        ys.foldl (fun (acc : VecState × Flags) y =>
          let x := y.2.1.getD 0
          let v1 := acc.1.setOpElem o.d.toNat v.n row y.1 x
          (match copyOf en with | some c => v1.setOpElem c v.n row y.1 x | none => v1, acc.2 ||| y.2.2)) acc) (v, 0)
      (r.1, r.2, none)) }

def opVscan (o : VUn) : VecOp := vscanOp o .any (combSum true)
def opVscano (o : VUn) : VecOp := vscanOp o .any (combSum false)
def opVscanmax (o : VUn) : VecOp := vscanOp o .any (combMax true)
def opVscanmin (o : VUn) : VecOp := vscanOp o .any (combMax false)
def opVscanmaxN (o : VUn) : VecOp := vscanOp o .int (combMaxN true)
def opVscanminN (o : VUn) : VecOp := vscanOp o .int (combMaxN false)

/-- `vredsum` (R263). -/
def execVredsum (o : VTri) (s : State) : Host.Outcome State Fault Refusal :=
  .next (s.vecIssue (.vredsum o) (opVredsum o) (s.reg o.b) 0 id)

/-- `vredosum` (R263). -/
def execVredosum (o : VTri) (s : State) : Host.Outcome State Fault Refusal :=
  .next (s.vecIssue (.vredosum o) (opVredosum o) (s.reg o.b) 0 id)

/-- `vredmax` (R263). -/
def execVredmax (o : VTri) (s : State) : Host.Outcome State Fault Refusal :=
  .next (s.vecIssue (.vredmax o) (opVredmax o) (s.reg o.b) 0 id)

/-- `vredmin` (R263). -/
def execVredmin (o : VTri) (s : State) : Host.Outcome State Fault Refusal :=
  .next (s.vecIssue (.vredmin o) (opVredmin o) (s.reg o.b) 0 id)

/-- `vredmaxN` (R263). -/
def execVredmaxN (o : VTri) (s : State) : Host.Outcome State Fault Refusal :=
  .next (s.vecIssue (.vredmaxN o) (opVredmaxN o) (s.reg o.b) 0 id)

/-- `vredminN` (R263). -/
def execVredminN (o : VTri) (s : State) : Host.Outcome State Fault Refusal :=
  .next (s.vecIssue (.vredminN o) (opVredminN o) (s.reg o.b) 0 id)

/-- `vredand` (R263). -/
def execVredand (o : VTri) (s : State) : Host.Outcome State Fault Refusal :=
  .next (s.vecIssue (.vredand o) (opVredand o) (s.reg o.b) 0 id)

/-- `vredor` (R263). -/
def execVredor (o : VTri) (s : State) : Host.Outcome State Fault Refusal :=
  .next (s.vecIssue (.vredor o) (opVredor o) (s.reg o.b) 0 id)

/-- `vredxor` (R263). -/
def execVredxor (o : VTri) (s : State) : Host.Outcome State Fault Refusal :=
  .next (s.vecIssue (.vredxor o) (opVredxor o) (s.reg o.b) 0 id)

/-- `vscan` (R264). -/
def execVscan (o : VUn) (s : State) : Host.Outcome State Fault Refusal :=
  .next (s.vecIssue (.vscan o) (opVscan o) 0 0 id)

/-- `vscano` (R264). -/
def execVscano (o : VUn) (s : State) : Host.Outcome State Fault Refusal :=
  .next (s.vecIssue (.vscano o) (opVscano o) 0 0 id)

/-- `vscanmax` (R264). -/
def execVscanmax (o : VUn) (s : State) : Host.Outcome State Fault Refusal :=
  .next (s.vecIssue (.vscanmax o) (opVscanmax o) 0 0 id)

/-- `vscanmin` (R264). -/
def execVscanmin (o : VUn) (s : State) : Host.Outcome State Fault Refusal :=
  .next (s.vecIssue (.vscanmin o) (opVscanmin o) 0 0 id)

/-- `vscanmaxN` (R264). -/
def execVscanmaxN (o : VUn) (s : State) : Host.Outcome State Fault Refusal :=
  .next (s.vecIssue (.vscanmaxN o) (opVscanmaxN o) 0 0 id)

/-- `vscanminN` (R264). -/
def execVscanminN (o : VUn) (s : State) : Host.Outcome State Fault Refusal :=
  .next (s.vecIssue (.vscanminN o) (opVscanminN o) 0 0 id)

end Sys2Proof.Machine
end

