-- ==== Sys2Proof/Machine/VecPerm.lean ====
section
/-! DEFINITION. Permutations and scalar moves (major 0x19; R265 to R268), masks, conflicts and runs (major 0x1A; R269
to R275), and the vector configuration (major 0x14; R213 to R215). -/

namespace Sys2Proof.Machine

/-! ### Permutations -/

/-- An element-wise permutation: each active element gets a value, or keeps its own; `source` says which element of va it
reads, if any. -/
def vpermOp (o : VTri) (idx : Bool) (source : VecState → Entry → Nat → Nat → List Nat)
    (f : VecState → Entry → Nat → Nat → Option Nat) : VecOp :=
  { m := o.m, c := o.c, convoy := .permute, code := some o.x, source := source
    ops := fun v _ => {
      dst := some (o.d.toNat, v.n)
      srcs := (o.a.toNat, v.n) :: (if idx then [(o.b.toNat, v.n)] else [])
      exact := false }
    run := pureRun (fun v en =>
      let v1 := (v.elems false).foldl (fun (acc : VecState) re =>
        if v.active (maskOf o.m en) re.1 re.2 then
          match f v en re.1 re.2 with
          | none => acc
          | some x =>
            let a1 := acc.setOpElem o.d.toNat v.n re.1 re.2 x
            match copyOf en with | some c => a1.setOpElem c v.n re.1 re.2 x | none => a1
        else acc) v
      (v1, 0, none)) }

def opVrgath (o : VTri) : VecOp := vpermOp o true (fun v _ row e => [v.opElem o.b.toNat v.n row e].filter (fun i => decide (i < v.vlmax))) (fun v _ row e =>
  let i := v.opElem o.b.toNat v.n row e
  some (if i < v.vlmax then v.opElem o.a.toNat v.n row i else 0))
def opVslideup (o : VTri) : VecOp := vpermOp o false (fun _ en _ e => if en.op1.toNat ≤ e then [e - en.op1.toNat] else []) (fun v en row e =>
  let k := en.op1.toNat
  if k ≤ e then some (v.opElem o.a.toNat v.n row (e - k)) else none)
def opVslidedn (o : VTri) : VecOp := vpermOp o false (fun v en _ e => [e + en.op1.toNat].filter (fun i => decide (i < v.vlmax))) (fun v en row e =>
  let k := en.op1.toNat
  some (if e + k < v.vlmax then v.opElem o.a.toNat v.n row (e + k) else 0))
def opVslide1up (o : VTri) : VecOp := vpermOp o false (fun _ _ _ e => if e = 0 then [] else [e - 1]) (fun v en row e =>
  some (if e = 0 then en.op1.toNat % 2 ^ v.n else v.opElem o.a.toNat v.n row (e - 1)))
def opVslide1dn (o : VTri) : VecOp := vpermOp o false (fun v _ _ e => if e + 1 = v.vl then [] else [e + 1]) (fun v en row e =>
  some (if e + 1 = v.vl then en.op1.toNat % 2 ^ v.n else v.opElem o.a.toNat v.n row (e + 1)))

/-- A compaction or its reverse: pairs (destination, source) of a row's active elements (R267). -/
def vpackOp (o : VUn) (pairs : List Nat → List (Nat × Nat)) : VecOp :=
  { m := o.m, c := o.c, convoy := .permute, code := some o.x, rowwise := true
    ops := fun v _ => { dst := some (o.d.toNat, v.n), srcs := [(o.a.toNat, v.n)], exact := false }
    run := pureRun (fun v en =>
      let v1 := v.rowsLeft.foldl (fun (acc : VecState) row =>
        (pairs ((v.activeRow (maskOf o.m en) o.a.toNat row).map (fun x => x.1))).foldl (fun (acc : VecState) p =>
          let x := v.opElem o.a.toNat v.n row p.2
          let a1 := acc.setOpElem o.d.toNat v.n row p.1 x
          match copyOf en with | some c => a1.setOpElem c v.n row p.1 x | none => a1) acc) v
      (v1, 0, none)) }
def opVcomp (o : VUn) : VecOp := vpackOp o (fun act => act.zipIdx.map (fun p => (p.2, p.1)))
def opVexpand (o : VUn) : VecOp :=
  { vpackOp o (fun act => act.zipIdx.map (fun p => (p.1, p.2))) with
    source := fun v en row e => [((List.range e).filter (v.active (maskOf o.m en) row)).length] }

/-- A scalar result from the vector registers (R268, R270, R274). -/
def scalarRun (d : BitVec 5) (f : VecState → Entry → Word) : State → Nat → Entry → Except VStop VDone :=
  pureRun (fun v en => (v, 0, some (d, f v en)))

def opVmvS (d a : BitVec 5) (c : BitVec 1) (x : BitVec 2) : VecOp :=
  { maskable := false, vecResult := false, c := c, convoy := .permute, code := some x, rowwise := true, whole := true
    spots := some (fun _ _ => [(0, 0)])
    ops := fun v _ => { srcs := [(a.toNat, v.n)] }
    run := scalarRun d (fun v _ => extCls v (v.opElem a.toNat v.n 0 0)) }
def opVmvV (d _a : BitVec 5) (c : BitVec 1) (x : BitVec 2) : VecOp :=
  { maskable := false, c := c, convoy := .permute, code := some x, rowwise := true, whole := true
    ops := fun v _ => { dst := some (d.toNat, v.n) }
    run := pureRun (fun v en =>
      let y := en.op1.toNat % 2 ^ v.n
      let v1 := v.setOpElem d.toNat v.n 0 0 y
      let v2 := match copyOf en with | some c => v1.setOpElem c v.n 0 0 y | none => v1
      (if 1 ≤ v.vl then v2 else v, 0, none)) }
def opVmvX (d a _b : BitVec 5) (c : BitVec 1) (x : BitVec 2) : VecOp :=
  { maskable := false, vecResult := false, c := c, convoy := .permute, code := some x, rowwise := true, whole := true
    spots := some (fun v en => [(en.op1.toNat / v.vlmax, en.op1.toNat % v.vlmax)].filter (fun y => decide (y.1 < v.rc)))
    ops := fun v _ => { srcs := [(a.toNat, v.n)] }
    run := scalarRun d (fun v en =>
      let i := en.op1.toNat
      let row := i / v.vlmax
      if row < v.rc then extCls v (v.opElem a.toNat v.n row (i % v.vlmax)) else 0) }

/-! ### Masks -/

/-- A mask-logic cell (R269). -/
def vmaskOp (d : BitVec 5) (c : BitVec 1) (srcs : List (BitVec 5)) (f : Bool → Bool → Bool) : VecOp :=
  { maskable := false, c := c
    ops := fun _ _ => { mdst := some d.toNat, msrcs := srcs.map (fun r => r.toNat) }
    run := pureRun (fun v en =>
      let at_ (i row e : Nat) : Bool := match srcs[i]? with | some r => v.maskBit r.toNat row e | none => false
      let (v1, fl) := v.mapBits false none d.toNat (copyOf en) (fun row e => (f (at_ 0 row e) (at_ 1 row e), 0))
      (v1, fl, none)) }
def opVmand (d a b : BitVec 5) (c : BitVec 1) : VecOp := vmaskOp d c [a, b] (fun x y => x && y)
def opVmor (d a b : BitVec 5) (c : BitVec 1) : VecOp := vmaskOp d c [a, b] (fun x y => x || y)
def opVmxor (d a b : BitVec 5) (c : BitVec 1) : VecOp := vmaskOp d c [a, b] (fun x y => x != y)
def opVmandn (d a b : BitVec 5) (c : BitVec 1) : VecOp := vmaskOp d c [a, b] (fun x y => x && !y)
def opVmnot (d a : BitVec 5) (c : BitVec 1) : VecOp := vmaskOp d c [a] (fun x _ => !x)
def opVmset (d : BitVec 5) (c : BitVec 1) : VecOp := vmaskOp d c [] (fun _ _ => true)
def opVmclr (d : BitVec 5) (c : BitVec 1) : VecOp := vmaskOp d c [] (fun _ _ => false)

/-- The active elements of the rows of the sweep whose bit in a mask register is set (R270, R275). -/
def VecState.setBits (v : VecState) (msk : Option Nat) (a : Nat) : List (Nat × Nat) :=
  (v.elems true).filter (fun re => v.active msk re.1 re.2 && v.maskBit a re.1 re.2)
/-- The flat index of an element (R272). -/
def VecState.flat (v : VecState) (re : Nat × Nat) : Nat := re.1 * v.vl + re.2

/-- vpop and vfirst (R270). -/
def vcountOp (d a : BitVec 5) (m c : BitVec 1) (f : VecState → List (Nat × Nat) → Word) : VecOp :=
  { vecResult := false, m := m, c := c, rowwise := true
    ops := fun _ _ => { msrcs := [a.toNat] }
    run := scalarRun d (fun v en => f v (v.setBits (maskOf m en) a.toNat)) }
def opVpop (d a : BitVec 5) (m c : BitVec 1) : VecOp :=
  { vcountOp d a m c (fun _ l => BitVec.ofNat 64 l.length) with merge := fun x y => x + y }
def opVfirst (d a : BitVec 5) (m c : BitVec 1) : VecOp :=
  { vcountOp d a m c (fun v l => match l with | [] => BitVec.allOnes 64 | re :: _ => BitVec.ofNat 64 (v.flat re)) with
    merge := fun x y => if x = BitVec.allOnes 64 then y else x }

/-- vmsbf, vmsif, vmsof: a mask relative to the first set bit (R275). -/
def vfirstOp (d a : BitVec 5) (m c : BitVec 1) (f : Nat → Nat → Bool) : VecOp :=
  { m := m, c := c, rowwise := true, whole := true, based := true
    ops := fun _ _ => { mdst := some d.toNat, msrcs := [a.toNat], mexact := false }
    run := pureRun (fun v en =>
      let first := match v.setBits (maskOf m en) a.toNat with | [] => v.rc * v.vl | re :: _ => v.flat re
      let (v1, fl) := v.mapBits true (maskOf m en) d.toNat (copyOf en) (fun row e => (f (v.flat (row, e)) first, 0))
      (v1, fl, none)) }
def opVmsbf (d a : BitVec 5) (m c : BitVec 1) : VecOp := vfirstOp d a m c (fun f first => decide (f < first))
def opVmsif (d a : BitVec 5) (m c : BitVec 1) : VecOp := vfirstOp d a m c (fun f first => decide (f ≤ first))
def opVmsof (d a : BitVec 5) (m c : BitVec 1) : VecOp := vfirstOp d a m c (fun f first => f == first)

/-! ### Conflicts and runs -/

/-- "None", 2^N - 1 (R272). -/
def VecState.noDep (v : VecState) : Nat := 2 ^ v.n - 1
/-- Flat indices that reach "none" (R272). -/
def tooFlat (v : VecState) (_ : Entry) : Bool := decide (v.noDep < v.rc * v.vl)

/-- The dependences of a list of (row, e): the flat index of the latest earlier one with an equal value that counts. -/
def conflicts (value : Nat × Nat → Nat) (counts : Nat × Nat → Bool) (flat : Nat × Nat → Nat) (none_ : Nat) :
    List (Nat × Nat) → List (Nat × Nat) → List ((Nat × Nat) × Nat)
  | _, [] => []
  | before, x :: t =>
    let dep := match before.find? (fun y => counts y && value y == value x) with | some y => flat y | none => none_
    (x, dep) :: conflicts value counts flat none_ (x :: before) t

/-- vconf and vconfm (R273). -/
def vconfOp (d a : BitVec 5) (cond : Option (BitVec 5)) (m c : BitVec 1) (x : BitVec 2) : VecOp :=
  { m := m, c := c, code := some x, cls := .int, rowwise := true, bad := tooFlat, whole := true, based := true
    ops := fun v _ => {
      dst := some (d.toNat, v.n), srcs := [(a.toNat, v.n)]
      msrcs := (cond.map (fun r => r.toNat)).toList, exact := false }
    run := pureRun (fun v en =>
      let act := (v.elems true).filter (fun re => v.active (maskOf m en) re.1 re.2)
      let counts (re : Nat × Nat) : Bool := match cond with | some r => v.maskBit r.toNat re.1 re.2 | none => true
      let deps := conflicts (fun re => v.opElem a.toNat v.n re.1 re.2) counts v.flat v.noDep [] act
      let v1 := deps.foldl (fun (acc : VecState) p =>
        let a1 := acc.setOpElem d.toNat v.n p.1.1 p.1.2 p.2
        match copyOf en with | some c => a1.setOpElem c v.n p.1.1 p.1.2 p.2 | none => a1) v
      (v1, 0, none)) }
def opVconf (o : VUn) : VecOp := vconfOp o.d o.a none o.m o.c o.x
def opVconfm (o : VTri) : VecOp := vconfOp o.d o.a (some o.b) o.m o.c o.x

/-- The run that starts at s: [s, t) (R274). -/
def VecState.runOf (v : VecState) (a : Nat) (msk : Option Nat) : Nat × Nat :=
  let s := v.rowstart.toNat * v.vl + v.estart.toNat
  let hi := v.rc * v.vl
  let hit := (v.elems true).find? (fun re =>
    let x := v.opElem a v.n re.1 re.2
    decide (s < v.flat re) && v.active msk re.1 re.2 && x != v.noDep && decide (s ≤ x))
  (s, if hi ≤ s then s else match hit with | some re => v.flat re | none => hi)

def opVpart (d a : BitVec 5) (m c : BitVec 1) : VecOp :=
  { m := m, c := c, rowwise := true, bad := tooFlat, whole := true, based := true
    ops := fun v _ => { mdst := some d.toNat, srcs := [(a.toNat, v.n)], mexact := false }
    run := pureRun (fun v en =>
      let (lo, hi) := v.runOf a.toNat (maskOf m en)
      let (v1, fl) := v.mapBits true none d.toNat (copyOf en) (fun row e =>
        let f := v.flat (row, e)
        (decide (lo ≤ f) && decide (f < hi) && v.active (maskOf m en) row e, 0))
      (v1, fl, none)) }
def opVrun (d a : BitVec 5) (m c : BitVec 1) : VecOp :=
  { vecResult := false, m := m, c := c, rowwise := true, bad := tooFlat, whole := true, based := true
    ops := fun v _ => { srcs := [(a.toNat, v.n)] }
    run := scalarRun d (fun v en => let r := v.runOf a.toNat (maskOf m en); BitVec.ofNat 64 (r.2 - r.1)) }

/-! ### Length and type (R213 to R215, R39) -/

/-- The registers and the lane-private store moved to a new grant: elements below the smaller VLMAX and lanes below the
smaller grant stay, the rest reads 0 (R39). -/
def VecState.regrant (v : VecState) (g : Nat) : VecState :=
  let keep := min v.vgrant g
  { v with
    vgrant := g
    regs := v.regs.filter (fun c => decide (c.1 % Config.vregBytes < keep * Config.vlmaxb))
    lp := v.lp.filter (fun c => decide (c.1 < 2048 * keep)) }

def opVsetl (d _a : BitVec 5) (c : BitVec 1) : VecOp :=
  { maskable := false, vecResult := false, c := c, convoy := .alone, typed := false, moves := true, grouped := false, whole := true
    run := fun s hid en =>
      let h := s.hartAt hid
      let v := if h.grantPending then h.vec.regrant h.grantLanes else h.vec
      let vl := if v.ill then 0 else min en.op1.toNat v.vlmax
      .ok {
        s := s.setHartAt hid { h with vec := { v with vl := vl }, throttle := h.throttle && h.plan.lanes == 0 }
        res := some (d, BitVec.ofNat 64 vl) } }

def opVsettype (d : BitVec 5) (cls : BitVec 4) (sew lmode : BitVec 2) (c : BitVec 1) : VecOp :=
  { maskable := false, vecResult := false, c := c, convoy := .alone, typed := false, moves := true, grouped := false, whole := true
    run := pureRun (fun v _ =>
      let ok := typeOk cls.toNat sew.toNat
      let v1 := { v with cls := cls, sew := sew, lmode := lmode, ill := !ok, vl := 0 }
      (v1, 0, some (d, if ok then BitVec.ofNat 64 v1.vlmax else 0))) }

/-- `vrgath` (R265). -/
def execVrgath (o : VTri) (s : State) : Host.Outcome State Fault Refusal :=
  .next (s.vecIssue (.vrgath o) (opVrgath o) 0 0 id)

/-- `vslideup` (R266). -/
def execVslideup (o : VTri) (s : State) : Host.Outcome State Fault Refusal :=
  .next (s.vecIssue (.vslideup o) (opVslideup o) (s.reg o.b) 0 id)

/-- `vslidedn` (R266). -/
def execVslidedn (o : VTri) (s : State) : Host.Outcome State Fault Refusal :=
  .next (s.vecIssue (.vslidedn o) (opVslidedn o) (s.reg o.b) 0 id)

/-- `vslide1up` (R266). -/
def execVslide1up (o : VTri) (s : State) : Host.Outcome State Fault Refusal :=
  .next (s.vecIssue (.vslide1up o) (opVslide1up o) (s.reg o.b) 0 id)

/-- `vslide1dn` (R266). -/
def execVslide1dn (o : VTri) (s : State) : Host.Outcome State Fault Refusal :=
  .next (s.vecIssue (.vslide1dn o) (opVslide1dn o) (s.reg o.b) 0 id)

/-- `vcomp` (R267). -/
def execVcomp (o : VUn) (s : State) : Host.Outcome State Fault Refusal :=
  .next (s.vecIssue (.vcomp o) (opVcomp o) 0 0 id)

/-- `vexpand` (R267). -/
def execVexpand (o : VUn) (s : State) : Host.Outcome State Fault Refusal :=
  .next (s.vecIssue (.vexpand o) (opVexpand o) 0 0 id)

/-- `vmvS` (R268). -/
def execVmvS (d a : BitVec 5) (c : BitVec 1) (x : BitVec 2) (s : State) : Host.Outcome State Fault Refusal :=
  .next (s.vecIssue (.vmvS d a c x) (opVmvS d a c x) 0 0 id)

/-- `vmvV` (R268). -/
def execVmvV (d a : BitVec 5) (c : BitVec 1) (x : BitVec 2) (s : State) : Host.Outcome State Fault Refusal :=
  .next (s.vecIssue (.vmvV d a c x) (opVmvV d a c x) (s.reg a) 0 id)

/-- `vmvX` (R268). -/
def execVmvX (d a b : BitVec 5) (c : BitVec 1) (x : BitVec 2) (s : State) : Host.Outcome State Fault Refusal :=
  .next (s.vecIssue (.vmvX d a b c x) (opVmvX d a b c x) (s.reg b) 0 id)

/-- `vmand` (R269). -/
def execVmand (d a b : BitVec 5) (c : BitVec 1) (s : State) : Host.Outcome State Fault Refusal :=
  .next (s.vecIssue (.vmand d a b c) (opVmand d a b c) 0 0 id)

/-- `vmor` (R269). -/
def execVmor (d a b : BitVec 5) (c : BitVec 1) (s : State) : Host.Outcome State Fault Refusal :=
  .next (s.vecIssue (.vmor d a b c) (opVmor d a b c) 0 0 id)

/-- `vmxor` (R269). -/
def execVmxor (d a b : BitVec 5) (c : BitVec 1) (s : State) : Host.Outcome State Fault Refusal :=
  .next (s.vecIssue (.vmxor d a b c) (opVmxor d a b c) 0 0 id)

/-- `vmandn` (R269). -/
def execVmandn (d a b : BitVec 5) (c : BitVec 1) (s : State) : Host.Outcome State Fault Refusal :=
  .next (s.vecIssue (.vmandn d a b c) (opVmandn d a b c) 0 0 id)

/-- `vmnot` (R269). -/
def execVmnot (d a : BitVec 5) (c : BitVec 1) (s : State) : Host.Outcome State Fault Refusal :=
  .next (s.vecIssue (.vmnot d a c) (opVmnot d a c) 0 0 id)

/-- `vpop` (R270). -/
def execVpop (d a : BitVec 5) (m c : BitVec 1) (s : State) : Host.Outcome State Fault Refusal :=
  .next (s.vecIssue (.vpop d a m c) (opVpop d a m c) 0 0 id)

/-- `vfirst` (R270). -/
def execVfirst (d a : BitVec 5) (m c : BitVec 1) (s : State) : Host.Outcome State Fault Refusal :=
  .next (s.vecIssue (.vfirst d a m c) (opVfirst d a m c) 0 0 id)

/-- `vmsbf` (R275). -/
def execVmsbf (d a : BitVec 5) (m c : BitVec 1) (s : State) : Host.Outcome State Fault Refusal :=
  .next (s.vecIssue (.vmsbf d a m c) (opVmsbf d a m c) 0 0 id)

/-- `vmsif` (R275). -/
def execVmsif (d a : BitVec 5) (m c : BitVec 1) (s : State) : Host.Outcome State Fault Refusal :=
  .next (s.vecIssue (.vmsif d a m c) (opVmsif d a m c) 0 0 id)

/-- `vmsof` (R275). -/
def execVmsof (d a : BitVec 5) (m c : BitVec 1) (s : State) : Host.Outcome State Fault Refusal :=
  .next (s.vecIssue (.vmsof d a m c) (opVmsof d a m c) 0 0 id)

/-- `vconf` (R273). -/
def execVconf (o : VUn) (s : State) : Host.Outcome State Fault Refusal :=
  .next (s.vecIssue (.vconf o) (opVconf o) 0 0 id)

/-- `vconfm` (R273). -/
def execVconfm (o : VTri) (s : State) : Host.Outcome State Fault Refusal :=
  .next (s.vecIssue (.vconfm o) (opVconfm o) 0 0 id)

/-- `vpart` (R274). -/
def execVpart (d a : BitVec 5) (m c : BitVec 1) (s : State) : Host.Outcome State Fault Refusal :=
  .next (s.vecIssue (.vpart d a m c) (opVpart d a m c) 0 0 id)

/-- `vrun` (R274). -/
def execVrun (d a : BitVec 5) (m c : BitVec 1) (s : State) : Host.Outcome State Fault Refusal :=
  .next (s.vecIssue (.vrun d a m c) (opVrun d a m c) 0 0 id)

/-- `vmset` (R269). -/
def execVmset (d : BitVec 5) (c : BitVec 1) (s : State) : Host.Outcome State Fault Refusal :=
  .next (s.vecIssue (.vmset d c) (opVmset d c) 0 0 id)

/-- `vmclr` (R269). -/
def execVmclr (d : BitVec 5) (c : BitVec 1) (s : State) : Host.Outcome State Fault Refusal :=
  .next (s.vecIssue (.vmclr d c) (opVmclr d c) 0 0 id)

/-- `vsetl` (R214). -/
def execVsetl (d a : BitVec 5) (c : BitVec 1) (s : State) : Host.Outcome State Fault Refusal :=
  .next (s.vecIssue (.vsetl d a c) (opVsetl d a c) (s.reg a) 0 id)

/-- `vsettype` (R215). -/
def execVsettype (d : BitVec 5) (cls : BitVec 4) (sew lmode : BitVec 2) (c : BitVec 1) (s : State) : Host.Outcome State Fault Refusal :=
  .next (s.vecIssue (.vsettype d cls sew lmode c) (opVsettype d cls sew lmode c) 0 0 id)

end Sys2Proof.Machine
end

