-- ==== Sys2Proof/Machine/VecTable.lean ====
section
/-! DEFINITION. The vector instructions as their queue runs them again: each constructor's operation. -/

namespace Sys2Proof.Machine

/-- The operation of a vector instruction. -/
def vecOpOf : Instr → Option VecOp
  | .vadd o => some (opVadd o)
  | .vsub o => some (opVsub o)
  | .vmul o => some (opVmul o)
  | .vmulhI o => some (opVmulhI o)
  | .vmulhN o => some (opVmulhN o)
  | .vdivI o => some (opVdivI o)
  | .vdivN o => some (opVdivN o)
  | .vremI o => some (opVremI o)
  | .vremN o => some (opVremN o)
  | .vminI o => some (opVminI o)
  | .vmaxI o => some (opVmaxI o)
  | .vminN o => some (opVminN o)
  | .vmaxN o => some (opVmaxN o)
  | .vand o => some (opVand o)
  | .vor o => some (opVor o)
  | .vxor o => some (opVxor o)
  | .vsll o => some (opVsll o)
  | .vsrl o => some (opVsrl o)
  | .vsra o => some (opVsra o)
  | .vaddSatI o => some (opVaddSatI o)
  | .vaddSatN o => some (opVaddSatN o)
  | .vsubSatI o => some (opVsubSatI o)
  | .vsubSatN o => some (opVsubSatN o)
  | .vmacc o => some (opVmacc o)
  | .vmeq o => some (opVmeq o)
  | .vmne o => some (opVmne o)
  | .vmltI o => some (opVmltI o)
  | .vmleI o => some (opVmleI o)
  | .vmltN o => some (opVmltN o)
  | .vmleN o => some (opVmleN o)
  | .vmov o => some (opVmov o)
  | .vbcast o => some (opVbcast o)
  | .vid d m c x => some (opVid d m c x)
  | .vaddFp o => some (opVaddFp o)
  | .vsubFp o => some (opVsubFp o)
  | .vmulFp o => some (opVmulFp o)
  | .vdivFp o => some (opVdivFp o)
  | .vfma o => some (opVfma o)
  | .vfms o => some (opVfms o)
  | .vfnma o => some (opVfnma o)
  | .vminFp o => some (opVminFp o)
  | .vmaxFp o => some (opVmaxFp o)
  | .vmfeq o => some (opVmfeq o)
  | .vmfne o => some (opVmfne o)
  | .vmflt o => some (opVmflt o)
  | .vmfle o => some (opVmfle o)
  | .vsqrt o => some (opVsqrt o)
  | .vabs o => some (opVabs o)
  | .vneg o => some (opVneg o)
  | .vcvtFpToIeee o => some (opVcvtFpToIeee o)
  | .vcvtFpToBf16 o => some (opVcvtFpToBf16 o)
  | .vcvtFpToE4m3 o => some (opVcvtFpToE4m3 o)
  | .vcvtFpToE5m2 o => some (opVcvtFpToE5m2 o)
  | .vcvtFpToI o => some (opVcvtFpToI o)
  | .vcvtFpToN o => some (opVcvtFpToN o)
  | .vcvtIToIeee o => some (opVcvtIToIeee o)
  | .vcvtIToBf16 o => some (opVcvtIToBf16 o)
  | .vcvtIToE4m3 o => some (opVcvtIToE4m3 o)
  | .vcvtIToE5m2 o => some (opVcvtIToE5m2 o)
  | .vcvtNToIeee o => some (opVcvtNToIeee o)
  | .vcvtNToBf16 o => some (opVcvtNToBf16 o)
  | .vcvtNToE4m3 o => some (opVcvtNToE4m3 o)
  | .vcvtNToE5m2 o => some (opVcvtNToE5m2 o)
  | .vcvtIntToI o => some (opVcvtIntToI o)
  | .vcvtIntToN o => some (opVcvtIntToN o)
  | .vwmulI o => some (opVwmulI o)
  | .vwmulN o => some (opVwmulN o)
  | .vwmaccI o => some (opVwmaccI o)
  | .vwmaccN o => some (opVwmaccN o)
  | .vwmulFp o => some (opVwmulFp o)
  | .vwmaccFp o => some (opVwmaccFp o)
  | .vsmul o => some (opVsmul o)
  | .vsmacc o => some (opVsmacc o)
  | .vdot4I8 d a b m c => some (opVdot4I8 d a b m c)
  | .vdot4N8 d a b m c => some (opVdot4N8 d a b m c)
  | .vredsum o => some (opVredsum o)
  | .vredosum o => some (opVredosum o)
  | .vredmax o => some (opVredmax o)
  | .vredmin o => some (opVredmin o)
  | .vredmaxN o => some (opVredmaxN o)
  | .vredminN o => some (opVredminN o)
  | .vredand o => some (opVredand o)
  | .vredor o => some (opVredor o)
  | .vredxor o => some (opVredxor o)
  | .vscan o => some (opVscan o)
  | .vscano o => some (opVscano o)
  | .vscanmax o => some (opVscanmax o)
  | .vscanmin o => some (opVscanmin o)
  | .vscanmaxN o => some (opVscanmaxN o)
  | .vscanminN o => some (opVscanminN o)
  | .vrgath o => some (opVrgath o)
  | .vslideup o => some (opVslideup o)
  | .vslidedn o => some (opVslidedn o)
  | .vslide1up o => some (opVslide1up o)
  | .vslide1dn o => some (opVslide1dn o)
  | .vcomp o => some (opVcomp o)
  | .vexpand o => some (opVexpand o)
  | .vmvS d a c x => some (opVmvS d a c x)
  | .vmvV d _a c x => some (opVmvV d _a c x)
  | .vmvX d a _b c x => some (opVmvX d a _b c x)
  | .vmand d a b c => some (opVmand d a b c)
  | .vmor d a b c => some (opVmor d a b c)
  | .vmxor d a b c => some (opVmxor d a b c)
  | .vmandn d a b c => some (opVmandn d a b c)
  | .vmnot d a c => some (opVmnot d a c)
  | .vmset d c => some (opVmset d c)
  | .vmclr d c => some (opVmclr d c)
  | .vpop d a m c => some (opVpop d a m c)
  | .vfirst d a m c => some (opVfirst d a m c)
  | .vmsbf d a m c => some (opVmsbf d a m c)
  | .vmsif d a m c => some (opVmsif d a m c)
  | .vmsof d a m c => some (opVmsof d a m c)
  | .vconf o => some (opVconf o)
  | .vconfm o => some (opVconfm o)
  | .vpart d a m c => some (opVpart d a m c)
  | .vrun d a m c => some (opVrun d a m c)
  | .vsetl d _a c => some (opVsetl d _a c)
  | .vsettype d cls sew lmode c => some (opVsettype d cls sew lmode c)
  | .vld d q m c => some (opVld d q m c)
  | .vldff d q m c => some (opVldff d q m c)
  | .vst v q m c => some (opVst v q m c)
  | .vldx d a q m c => some (opVldx d a q m c)
  | .vstx v a q m c => some (opVstx v a q m c)
  | .vstxu v a q m c => some (opVstxu v a q m c)
  | .vsadd v a q m c => some (opVsadd v a q m c)
  | .vwait d q c => some (opVwait d q c)
  | .vcbld q c => some (opVcbld q c)
  | _ => none

/-- The head of a hart's vector queue runs, piece by piece where another hart of the core runs (R42, R216, R250). -/
def State.vecHead (s : State) (hid : Nat) : State :=
  match (s.hartAt hid).vq with
  | en :: _ => match vecOpOf en.instr with | some op => s.vecRun hid op true | none => s
  | [] => s

end Sys2Proof.Machine
end

