-- ==== Sys2Proof/Machine/Matrix.lean ====
section
/-! DEFINITION. The matrix engine (majors 0x20 to 0x22; R228, R246, R291 to R312): tiles, rows, sweeps, loads and the
accumulator instructions. -/

namespace Sys2Proof.Machine

/-! ### Tiles and rows (R228, R291, R297) -/

/-- K of a tile format. -/
def tileK (fmt : Nat) : Nat := if fmt = 7 then 512 else if fmt ≤ 2 then 128 else 256
/-- Width in bits of a row element. -/
def rowWidth (fmt : Nat) : Nat := if fmt ≤ 2 then 16 else 8
/-- Row bytes L. -/
def rowBytes (fmt : Nat) : Nat := if fmt = 7 then 512 else 256
/-- Energy of a row, in 1/1024 µJ (R47). -/
def rowEnergy (fmt : Nat) : Nat := if fmt ≤ 2 then 8 else if fmt = 7 then 12 else 10
/-- An INT8 format. -/
def isInt8 (fmt : Nat) : Bool := fmt == 5 || fmt == 6
/-- The format of row elements of FP tiles. -/
def rowFmt (fmt : Nat) (afmt : Bool) : Fmt := if fmt = 1 then bf16 else if fmt = 2 then f16 else if afmt then e5m2 else e4m3

/-- Weight j of an lq8 index under a codebook (R228, R229). -/
def lq8Weight (cb : Mem) (idx j : Nat) : Num :=
  let neg := if j < 7 then bit idx (1 + j) else popcount (bits idx 1 7) 7 % 2 == 1
  let mag := bits (cb.read (4 * bits idx 8 8) 4) (4 * j) 4
  .fin neg (2 * mag + bits idx 0 1) (-2)

/-- w[k][n] of an FP or lq8 tile, its scale applied exactly. -/
def Core.weight (c : Core) (t fmt k n : Nat) : Num :=
  let at_ := 65536 * t
  match fmt with
  | 1 => bf16.num (c.tiles.read (at_ + 2 * (256 * k + n)) 2)
  | 2 => f16.num (c.tiles.read (at_ + 2 * (256 * k + n)) 2)
  | 3 => e4m3.num (c.tiles.read (at_ + (256 * k + n)) 1)
  | 4 => e5m2.num (c.tiles.read (at_ + (256 * k + n)) 1)
  | _ =>
    scaleNum (lq8Weight c.cb (c.tiles.read (at_ + 2 * (256 * (k / 8) + n)) 2) (k % 8))
      (c.tiles.byte (at_ + 32768 + 256 * (k / 32) + n)).toNat

/-- A row operand element: its k, its pattern, and its scale byte with asc = 1. -/
structure RowTerm where
  k : Nat
  x : Nat
  e8 : Option Nat

/-- One accumulator element after a row (R246, R297). -/
def Core.rowElem (c : Core) (t fmt : Nat) (afmt : Bool) (terms : List RowTerm) (n old : Nat) : Nat × Flags :=
  if isInt8 fmt then
    let sum := terms.foldl (fun (acc : Int) r =>
      let a : Int := if afmt then (r.x : Int) else signed 8 r.x
      let b := c.tiles.read (65536 * t + 256 * r.k + n) 1
      let w : Int := if fmt = 6 then (b : Int) else signed 8 b
      acc + a * w) (old : Int)
    (wrap 32 sum, 0)
  else
    let sum := terms.foldl (fun acc r =>
      let a := (rowFmt fmt afmt).num r.x
      let a1 := match r.e8 with | some e => scaleNum a e | none => a
      (addNum .rne acc (mulNum a1 (c.weight t fmt r.k n)).1).1) (f32.num old)
    if sum.isNan then (f32.nan, NV) else f32.round .rne sum

/-- A row added into accumulator row ar of a hart (R297): the new state and its flags. -/
def State.rowAdd (s : State) (hid t fmt ar : Nat) (terms : List RowTerm) : State × Flags :=
  let c := s.coreAt (hid / 8)
  let h := s.hartAt hid
  let at_ := 1024 * (h.plan.rowBase + ar)
  let r := (List.range 256).foldl (fun (acc : Nat × Flags) n =>
    let y := c.rowElem t fmt h.mshape.afmt terms n (c.acc.read (at_ + 4 * n) 4)
    (acc.1 + y.1 * 2 ^ (32 * n), acc.2 ||| y.2)) (0, 0)
  (s.setCoreAt (hid / 8) { c with acc := c.acc.write at_ 1024 r.1 }, r.2)

/-! ### The frame of a matrix instruction (R33, R298, R307, R310) -/

/-- What stops a matrix instruction, the row it stops at, and what it has done. -/
structure MStop where
  stop : Stop
  row : Nat
  s : State
  fl : Flags

/-- A matrix instruction: what its checks look at, and its effect. -/
structure MatOp where
  /-- Only mrd takes a copy register (R296). -/
  vecResult : Bool := false
  tile : Option Nat := none
  /-- Row ranges it names: first row and count. -/
  rows : VecState → Entry → List (Nat × Nat) := fun _ _ => []
  usesV : Bool := false
  /-- The space its memory operand is read from (R28). -/
  from_ : Option Space := none
  bad : Hart → Entry → Tag → Bool := fun _ _ _ => false
  badGroup : VecState → Entry → Bool := fun _ _ => false
  badCopy : VecState → Entry → Bool := fun _ _ => false
  run : State → Nat → Entry → Except MStop (State × Flags)

/-- kc (R297). -/
def MShape.kc (m : MShape) (fmt : Nat) : Nat := if m.kcnt = 0 then tileK fmt else m.kcnt.toNat
/-- The accumulator row a field d names (R294). -/
def matRow (d : BitVec 5) (i : BitVec 1) (en : Entry) : Nat := if i = 1 then d.toNat else en.op3.toNat

/-- Causes of 0x31 for an instruction that multiplies by a tile. -/
def badTile (fmt : BitVec 3) (h : Hart) (_ : Entry) (g : Tag) : Bool :=
  g.fmt == 0 || g.fmt != fmt || decide (tileK fmt.toNat < h.mshape.kcnt.toNat) ||
  (h.mshape.asc && isInt8 fmt.toNat) || (fmt == 7 && !g.sp)

/-- The engine's other half may have work: a hart that runs then has its rows done one at a time, between which the engine
serves the other (R42). One that is being suspended completes what it has started (R309). -/
def State.byRow (s : State) (hid : Nat) : Bool := s.shared hid && (s.hartAt hid).run == .running
/-- The row behind the last that an instruction of n rows does now. -/
def State.rowEnd (s : State) (hid : Nat) (en : Entry) (n : Nat) : Nat := if s.byRow hid then min n (en.prog + 1) else n
/-- Rows done up to `last` of n: the instruction is done, or waits for its next turn. -/
def rowsDone (n last : Nat) (r : State × Flags) : Except MStop (State × Flags) :=
  if last < n then .error ⟨.wait (.room .m), last, r.1, r.2⟩ else .ok r

/-- The checks at the start, in the order of R307. -/
def State.matCheck (s : State) (hid : Nat) (op : MatOp) (en : Entry) : Option (BitVec 8) :=
  let h := s.hartAt hid
  let tiles := h.plan.tiles
  let g := match op.tile with | some t => (s.coreAt (hid / 8)).tags.toList.getD t {} | none => {}
  if tiles = 0 || (match op.tile with | some t => !bit tiles t | none => false) ||
      (op.rows h.vec en).any (fun r => r.2 != 0 && decide (h.plan.rowsOn < r.1 + r.2)) then some 0x30
  else if op.usesV && h.vec.vgrant = 0 then some 0x22
  else if op.bad h en g then some 0x31
  else if op.badGroup h.vec en then some 0x24
  else if op.badCopy h.vec en then some 0x23
  else none

/-- Rows charged, with the energy and Square blocks of R310. -/
def State.chargeRows (s : State) (hid : Nat) (en : Entry) (rows energy sqBlocks sqKib : Nat) : State :=
  let r := (s.hartAt hid).entryResv en
  let s1 := ((s.charge r 2 (hid / 8) rows).charge r 4 (hid / 64) sqBlocks).chargeEnergy r (energy + sqKib)
  if en.span then s1.setHartAt hid ((s1.hartAt hid).count rows) else s1

/-- The head of a hart's matrix queue has done its last row: it stands done, to retire when its rows are through (R43). -/
def State.matDone (s : State) (hid : Nat) (op : MatOp) (en : Entry) (fl : Flags) : State :=
  let n := max (s.throughAt (hid / 8) 8 1) (match op.from_ with | some sp => s.portThrough (hid / 8) sp false | none => s.now)
  s.setHartAt hid ((s.hartAt hid).setHead .m { en with started := true, done := true, tried := n, fl := en.fl ||| fl })
/-- The head of a hart's matrix queue runs as `op`: it stands done at the head, has trapped, or waits. -/
def State.matRun (s : State) (hid : Nat) (op : MatOp) : State :=
  match (s.hartAt hid).mq with
  | [] => s
  | en :: _ =>
    match s.matCheck hid op en with
    | some c => s.engineTrap hid .m ⟨c, 0⟩ 0 0
    | none =>
      match op.run s hid en with
      | .ok (s1, fl) => s1.matDone hid op en fl
      | .error r =>
        let e1 := { en with started := true, prog := r.row, fl := en.fl ||| r.fl, tried := s.now + 1 }
        let s1 := r.s.setHartAt hid ((r.s.hartAt hid).setHead .m e1)
        match r.stop with
        | .trap t => s1.engineTrap hid .m t 0 0
        | .wait _ => s1

/-- The head of a hart's matrix queue retires if it is done, and its rows are through (R35, R43). -/
def State.matRetire (s : State) (hid : Nat) : State :=
  let h := s.hartAt hid
  match h.mq with
  | en :: _ => if en.over s.now then s.setHartAt hid (h.retireHead .m) else s
  | [] => s

/-- A vector entry still to run that a matrix instruction with v registers waits for: it writes a register the matrix
instruction reads, reads or writes one it writes, or may change vl or rc (R34, R298). -/
def Hart.matWaits (h : Hart) (en : Entry) : Bool :=
  let rc := h.vec.rc
  let rd := matReads h rc en
  let wr := matWrites rc en
  usesV en.instr && (h.vq ++ h.banked).any (fun v => !v.done && decide (v.seq < en.seq) &&
    (match v.instr with
      | .vsetl .. | .vsettype .. | .vldff .. => true
      | i => match vecOpOf i with
        | none => false
        | some op =>
          let v1 := h.look v
          let o := op.ops h.vec v1
          let w := h.vec.writes o (copyOf v)
          share w (rd ++ wr) || share (h.vec.reads o (maskOf op.m v)) wr))

/-- The budgets a matrix instruction needs, rows and where it reads the Square its blocks (R310). -/
def MatOp.needs (op : MatOp) : List Nat := 2 :: (if op.from_ == some .sq then [4] else [])
/-- What holds a matrix instruction at the head of its queue (R34, R43, R46, R48,
R138, R298). -/
def State.matHeld (s : State) (hid : Nat) (op : MatOp) (en : Entry) : Bool :=
  let h := s.hartAt hid
  h.run != .running || h.headBehind h.mq || s.atWork 2 (hid / 8) || (h.plan.halves != 0 && !h.plan.on) || h.matWaits en ||
    (match op.from_ with | some sp => s.portBusy (hid / 8) sp false | none => false) || s.held h (hid / 8) en.surr false op.needs

/-- Issue of a matrix instruction by the acting hart: into the queue, and where the queue was empty and nothing holds
it, run in the same step, in which it also retires where it takes one cycle; where another hart of the core runs, the engine takes it from the queue in its turn
(R42). The operands are S[a], S[b] and S[d]. -/
def State.matIssue (s : State) (i : Instr) (op : MatOp) (d a b : Word) : State :=
  let was := s.hart.mq.isEmpty
  let s1 := s.engineIssue .m false op.vecResult (fun t => .ok (t, { t.mkEntry i a b with op3 := d }))
  if s1.hart.mq.length == s.hart.mq.length + 1 then
    match s1.hart.mq with
    | en :: _ => if was && !s1.shared s1.cur && !s1.matHeld s1.cur op en then (s1.matRun s1.cur op).matRetire s1.cur else s1
    | [] => s1
  else s1

/-! ### Row operands -/

/-- The bytes of a tile of a format that rows of kc elements read: offset and number. -/
def tileSpans (fmt kc : Nat) : List (Nat × Nat) :=
  if fmt = 7 then [(0, 512 * cdiv kc 8), (32768, 256 * cdiv kc 32)] else [(0, 32 * rowWidth fmt * kc)]
/-- An uncorrectable soft error stands in what a row of kc elements reads of tile t, or in accumulator row `row` of the store
(R308). -/
def State.rowSpoiled (s : State) (hid t fmt kc row : Nat) : Bool :=
  (tileSpans fmt kc).any (fun x => s.spoiled 0 (hid / 8) (tileSram (65536 * t + x.1)) x.2) ||
    s.spoiled 0 (hid / 8) (accSram (1024 * row)) 1024
/-- One stands in n bytes of v register r from byte o on. -/
def State.regSpoiled (s : State) (hid r o n : Nat) : Bool :=
  s.spoiled 0 (hid / 8) (vregSram (hid % 8) (Config.vregBytes * r + o)) n

/-- The terms of row r of a v-register operand (R298). -/
def vTerms (h : Hart) (fmt va r : Nat) : List RowTerm :=
  (List.range (h.mshape.kc fmt)).map (fun k =>
    { k := k, x := h.vec.elem (va + r) (rowWidth fmt) k
      e8 := if h.mshape.asc then some (h.vec.elem 1 8 (16 * r + k / 32)) else none })
/-- An error stands in what row r reads of its registers, elements below kc and their scales alone (R297, R308). -/
def State.vSpoiled (s : State) (hid fmt va r : Nat) : Bool :=
  let h := s.hartAt hid
  let kc := h.mshape.kc fmt
  s.regSpoiled hid (va + r) 0 (rowWidth fmt / 8 * kc) || (h.mshape.asc && s.regSpoiled hid 1 (16 * r) (cdiv kc 32))

/-- Rows from v registers, up to the first that meets a soft error (R299, R300, R308): those before it are added (DESIGN CHOICE,
log 84). -/
def vRows (fmt t : Nat) (n : VecState → Nat) (row : Entry → Nat) (va : Nat) :
    State → Nat → Entry → Except MStop (State × Flags) :=
  fun s hid en =>
    let h := s.hartAt hid
    let rc := n h.vec
    let last := s.rowEnd hid en rc
    let now := (List.range last).drop en.prog
    let add (l : List Nat) : State × Flags :=
      let r := l.foldl (fun (acc : State × Flags) i =>
        let x := acc.1.rowAdd hid t fmt (row en + i) (vTerms h fmt va i)
        (x.1, acc.2 ||| x.2)) (s, 0)
      (r.1.chargeRows hid en l.length (l.length * rowEnergy fmt) 0 0, r.2)
    match now.find? (fun i => s.rowSpoiled hid t fmt (h.mshape.kc fmt) (h.plan.rowBase + row en + i) || s.vSpoiled hid fmt va i) with
    | some k => let r := add (now.filter (fun i => decide (i < k))); .error ⟨.trap ⟨0x52, 0⟩, 0, r.1, r.2⟩
    | none => rowsDone rc last (add now)

def opMmr (d a : BitVec 5) (fmt : BitVec 3) (i : BitVec 1) (t : BitVec 2) : MatOp :=
  { tile := some t.toNat
    rows := fun _ en => [(matRow d i en, 1)]
    usesV := true
    bad := badTile fmt
    run := vRows fmt.toNat t.toNat (fun _ => 1) (matRow d i) a.toNat }

def opMms (d a : BitVec 5) (fmt : BitVec 3) (i : BitVec 1) (t : BitVec 2) : MatOp :=
  { tile := some t.toNat
    rows := fun v en => [(matRow d i en, v.rc)]
    usesV := true
    bad := badTile fmt
    badGroup := fun v _ => a.toNat % v.rc != 0
    run := vRows fmt.toNat t.toNat (fun v => v.rc) (matRow d i) a.toNat }

/-- Fields of an mmq's S[b] (R301). -/
def qRows (x : Word) : Nat := bits x.toNat 48 10
def qGroup (x : Word) : Nat := 2 ^ bits x.toNat 44 2
def qRot (x : Word) : Nat := bits x.toNat 40 4
def qTp (x : Word) : Nat := bits x.toNat 20 20
def qRp (x : Word) : Nat := bits x.toNat 0 20
/-- An invalid mmq shape (R301). -/
def qBad (x : Word) : Bool :=
  bits x.toNat 58 6 != 0 || bits x.toNat 46 2 != 0 || qRows x == 0 || decide (512 < qRows x) || decide (7 < qRot x) ||
  qTp x % 8 != 0 || qRp x % 8 != 0

/-- The bytes of row i of an mmq: L element bytes and the scale bytes behind them, checked (R301, R303). The spec gives the
checks no order: 0x10 comes first, then 0x14, 0x40 and 0x43, 0x17 (DESIGN CHOICE, log 82). -/
def State.qRow (s : State) (hid : Nat) (sq : Bool) (base : Nat) (delta n : Nat) : Except Stop Mem :=
  if sq then
    let hd := bits base 24 8
    let o := bits base 0 24 + delta
    let a := hd * 2 ^ 24 + o % 2 ^ 24
    let addr := base / 2 ^ 24 * 2 ^ 24 + o % 2 ^ 24
    if o % 8 ≠ 0 then trapAt 0x10 addr
    else if 2 ^ 32 ≤ base then trapAt 0x14 addr
    else match s.reach (s.whoOf hid) (hid / 64) hd with
      | .error (.trap t) => trapAt t.cause a
      | .error w => .error w
      | .ok size => if size < o + n then trapAt 0x17 a else .ok ((s.clusAt (hid / 64)).square.slice (hd * 2 ^ 24 + o) n)
  else
    let a := base + delta
    if a % 8 ≠ 0 then trapAt 0x10 (a % 2 ^ 64)
    else if Config.abBytes < a + n then trapAt 0x17 (a % 2 ^ 64)
    else .ok ((s.coreAt (hid / 8)).ab.slice a n)

/-- The bytes of an mmq row that are read of its l element bytes, rotated by sigma, and of the scales behind them: those of the kc
elements alone (R297, R301): offsets and numbers. -/
def qReads (h : Hart) (fmt sigma l : Nat) : List (Nat × Nat) :=
  let kc := h.mshape.kc fmt
  let n := kc * (rowWidth fmt / 8)
  [(sigma, min n (l - sigma)), (0, n - (l - sigma))] ++ (if h.mshape.asc then [(l, cdiv kc 32)] else [])
/-- What an mmq row reads of its operand holds an uncorrectable soft error (R308). -/
def State.qSpoiled (s : State) (hid : Nat) (sq : Bool) (a : Nat) (l : List (Nat × Nat)) : Bool :=
  l.any (fun x => if sq then s.spoiled 1 (hid / 64) (a + x.1) x.2 else s.spoiled 0 (hid / 8) (abSram (a + x.1)) x.2)
/-- Rows i on of an mmq, fuel bounding their number (R301, R308, R309). -/
def qGo (fmt t ar : Nat) (sq : Bool) (hid : Nat) (en : Entry) : Nat → Nat → State → Flags → Except MStop (State × Flags)
  | 0, _, s, fl => .ok (s, fl)
  | fuel + 1, i, s, fl =>
    let h := s.hartAt hid
    let x := en.op2
    let l := rowBytes fmt
    let lx := l + (if h.mshape.asc then tileK fmt / 32 else 0)
    if qRows x ≤ i then .ok (s, fl)
    else if s.held h (hid / 8) en.surr false (2 :: (if sq then [4] else [])) then .error ⟨.wait (.room .m), i, s, fl⟩
    else
      let delta := i / qGroup x * qTp x + i % qGroup x * qRp x
      match s.qRow hid sq en.op1.toNat delta lx with
      | .error e => .error ⟨e, i, s, fl⟩
      | .ok row =>
        let sigma := 128 * (qRot x * i % (l / 128))
        if s.qSpoiled hid sq (en.op1.toNat + delta) (qReads h fmt sigma l) then .error ⟨.trap ⟨0x52, en.op1 + BitVec.ofNat 64 delta⟩, i, s, fl⟩
        else if s.rowSpoiled hid t fmt (h.mshape.kc fmt) (h.plan.rowBase + ar + i) then .error ⟨.trap ⟨0x52, 0⟩, i, s, fl⟩
        else
        let wb := rowWidth fmt / 8
        let terms := (List.range (h.mshape.kc fmt)).map (fun k => ({
          k := k, x := row.read ((k * wb + sigma) % l) wb
          e8 := if h.mshape.asc then some (row.byte (l + k / 32)).toNat else none } : RowTerm))
        let r := s.rowAdd hid t fmt (ar + i) terms
        let kib := if sq then (i + 1) * lx / 1024 - i * lx / 1024 else 0
        let s1 := (r.1.chargeRows hid en 1 (rowEnergy fmt) (if sq then cdiv lx 256 else 0) kib).usePort (hid / 8)
          (if sq then .sq else .ab) false lx
        if i + 1 < qRows x && s1.shared hid then .error ⟨.wait (.room .m), i + 1, s1, fl ||| r.2⟩
        else qGo fmt t ar sq hid en fuel (i + 1) s1 (fl ||| r.2)

/-- An mmq from the Square or from ab. -/
def qOp (sq : Bool) (d : BitVec 5) (fmt : BitVec 3) (i : BitVec 1) (t : BitVec 2) : MatOp :=
  { tile := some t.toNat
    rows := fun _ en =>
      let n := qRows en.op2
      [(matRow d i en, if n = 0 || 512 < n then 1 else n)]
    from_ := some (if sq then .sq else .ab)
    bad := fun h en g => badTile fmt h en g || qBad en.op2
    run := fun s hid en => qGo fmt.toNat t.toNat (matRow d i en) sq hid en 513 en.prog s 0 }

def opMmqSq (d : BitVec 5) (fmt : BitVec 3) (i : BitVec 1) (t : BitVec 2) : MatOp := qOp true d fmt i t
def opMmqAb (d : BitVec 5) (fmt : BitVec 3) (i : BitVec 1) (t : BitVec 2) : MatOp := qOp false d fmt i t

/-- An error stands in one of n packed elements. -/
def State.packSpoiled (s : State) (hid r w n : Nat) : Bool :=
  let vw := max (vlmaxOf (s.hartAt hid).vec.vgrant w) 1
  s.dev.latent.isSome && (List.range n).any (fun e => s.regSpoiled hid ((r + e / vw) % 32) (w / 8 * (e % vw)) (w / 8))
/-- A packed element past its register's room lies in the next register (R239, R302). -/
def VecState.packed (v : VecState) (r w e : Nat) : Nat :=
  let vw := max (vlmaxOf v.vgrant w) 1
  v.elem ((r + e / vw) % 32) w (e % vw)

/-- mmsp (R302). An index past kc (0x31) at any element comes before a soft error (0x52) in what an earlier one reads, since the
spec gives the two no order (DESIGN CHOICE, log 84). -/
def opMmsp (d a b : BitVec 5) (fmt : BitVec 3) (i : BitVec 1) (t : BitVec 2) : MatOp :=
  let f := fmt.toNat
  { tile := some t.toNat
    rows := fun _ en => [(matRow d i en, 1)]
    usesV := true
    bad := badTile fmt
    badGroup := fun _ _ => b.toNat % (16 / rowWidth f) != 0
    run := fun s hid en =>
      let h := s.hartAt hid
      let v := h.vec
      let idx := (List.range v.vl).map (fun e => v.packed b.toNat 16 e)
      if idx.any (fun k => decide (h.mshape.kc f ≤ k)) then .error ⟨.trap ⟨0x31, 0⟩, 0, s, 0⟩
      -- one of no elements reads nothing and raises nothing
      else if v.vl != 0 && (s.rowSpoiled hid t.toNat f (h.mshape.kc f) (h.plan.rowBase + matRow d i en) ||
          s.packSpoiled hid b.toNat 16 v.vl || s.packSpoiled hid a.toNat (rowWidth f) v.vl ||
          (h.mshape.asc && idx.any (fun k => s.regSpoiled hid 1 (k / 32) 1))) then
        .error ⟨.trap ⟨0x52, 0⟩, 0, s, 0⟩
      else
        let terms := idx.zipIdx.map (fun p => ({
          k := p.1, x := v.packed a.toNat (rowWidth f) p.2
          e8 := if h.mshape.asc then some (v.elem 1 8 (p.1 / 32)) else none } : RowTerm))
        let r := if v.vl = 0 then (s, 0) else s.rowAdd hid t.toNat f (matRow d i en) terms
        let n := max 1 (cdiv v.vl (tileK f))
        .ok (r.1.chargeRows hid en n (n * rowEnergy f) 0 0, r.2) }

/-! ### Loads (R303 to R305) -/

/-- A load of n bytes from wb or the Square into a tile at byte o, the tile then tagged; its bytes come with its last row. An
uncorrectable soft error in the source leaves the tag 0 (R304); of an mlds, of which the spec does not say it, the whole tag
too (DESIGN CHOICE, log 83). The checks come in the order 0x10, 0x14, 0x40 and 0x43, 0x17, as the spec gives them none (R303; DESIGN
CHOICE, log 82). -/
def mldOp (sq : Bool) (t n o : Nat) (clear : Bool) (tag : Tag → Tag) (bad : Tag → Bool) (rows : Nat) : MatOp :=
  { tile := some t
    from_ := some (if sq then .sq else .wb)
    bad := fun _ _ g => bad g
    run := fun s hid en =>
      let a := en.op1.toNat
      let src : Except Stop (Mem × Bool) :=
        if a % 256 ≠ 0 then trapAt 0x10 a
        else if sq then match s.sq (s.whoOf hid) a n with
          | .error e => .error e
          | .ok p => .ok ((s.clusAt (hid / 64)).square.slice p n, s.spoiled 1 (hid / 64) p n)
        else if Config.wbBytes < a + n then trapAt 0x17 a
        else .ok ((s.coreAt (hid / 8)).wb.slice a n, s.spoiled 0 (hid / 8) (wbSram a) n)
      match src with
      | .error e => .error ⟨e, 0, s, 0⟩
      | .ok (_, true) =>
        let c := s.coreAt (hid / 8)
        .error ⟨.trap ⟨0x52, en.op1⟩, 0, s.setCoreAt (hid / 8) { c with tags := c.tags.setIfInBounds t {} }, 0⟩
      | .ok (img, false) =>
        let c := s.coreAt (hid / 8)
        let at_ := 65536 * t
        let base := if clear then c.tiles.clear at_ (at_ + 65536) else c.tiles
        let tiles := base.blit (at_ + o) n img
        let tags := c.tags.setIfInBounds t (tag (c.tags.toList.getD t {}))
        let last := s.rowEnd hid en rows
        let k := last - en.prog
        let s1 := if last < rows then s else s.setCoreAt (hid / 8) { c with tiles := tiles, tags := tags }
        let kib := if sq then n * last / rows / 1024 - n * en.prog / rows / 1024 else 0
        rowsDone rows last (((s1.chargeRows hid en k 0 (if sq then 4 * k else 0) kib).usePort (hid / 8) (if sq then .sq else .wb)
          false (n * k / rows)), 0) }

/-- The load of a tile. -/
def mldTile (sq : Bool) (fmt : BitVec 3) (t : BitVec 2) : MatOp :=
  mldOp sq t.toNat (if fmt = 7 then 32768 else 65536) 0 true (fun _ => { fmt := fmt, sp := false }) (fun _ => false) 64
/-- The load of a scale plane. -/
def mldPlane (sq : Bool) (t : BitVec 2) : MatOp :=
  mldOp sq t.toNat 4096 32768 false (fun g => { g with sp := true }) (fun g => g.fmt != 7) 4

def opMldWb (fmt : BitVec 3) (t : BitVec 2) : MatOp := mldTile false fmt t
def opMldSq (fmt : BitVec 3) (t : BitVec 2) : MatOp := mldTile true fmt t
def opMldsWb (t : BitVec 2) : MatOp := mldPlane false t
def opMldsSq (t : BitVec 2) : MatOp := mldPlane true t

/-! ### The accumulator instructions (R306) -/

def opMclr (d : BitVec 5) (i : BitVec 1) : MatOp :=
  { rows := fun _ en => [(matRow d i en, en.op2.toNat)]
    run := fun s hid en =>
      let c := s.coreAt (hid / 8)
      let r := (s.hartAt hid).plan.rowBase + matRow d i en
      let n := en.op2.toNat
      let last := s.rowEnd hid en n
      let s1 := s.setCoreAt (hid / 8) { c with acc := c.acc.clear (1024 * (r + en.prog)) (1024 * (r + last)) }
      rowsDone n last (s1.chargeRows hid en (last - en.prog) 0 0 0, 0) }

/-- Of rows in which one holds a soft error, those before it are read out (DESIGN CHOICE, log 84). -/
def opMrd (d a : BitVec 5) (i : BitVec 1) : MatOp :=
  { vecResult := true
    rows := fun v en => [(matRow d i en, v.rc)]
    usesV := true
    badGroup := fun v en =>
      a.toNat % v.rc != 0 || (match copyOf en with | some c => c % v.rc != 0 | none => false)
    badCopy := fun v en => match copyOf en with
      | some c => share ((List.range v.rc).map (fun j => a.toNat + j)) ((List.range v.rc).map (fun j => c + j))
      | none => false
    run := fun s hid en =>
      let h := s.hartAt hid
      let acc := (s.coreAt (hid / 8)).acc
      let row := h.plan.rowBase + matRow d i en
      let rc := h.vec.rc
      let last := s.rowEnd hid en rc
      let now := (List.range last).drop en.prog
      let put (l : List Nat) (v : VecState) (vd : Nat) : VecState :=
        l.foldl (fun (v1 : VecState) r =>
          { v1 with regs := v1.regs.blit (Config.vregBytes * (vd + r)) 1024 (acc.slice (1024 * (row + r)) 1024) }) v
      let read (l : List Nat) : State :=
        let v1 := put l h.vec a.toNat
        let v2 := match copyOf en with | some c => put l v1 c | none => v1
        (s.setHartAt hid { h with vec := v2 }).chargeRows hid en l.length 0 0 0
      match now.find? (fun r => s.spoiled 0 (hid / 8) (accSram (1024 * (row + r))) 1024) with
      | some k => .error ⟨.trap ⟨0x52, 0⟩, 0, read (now.filter (fun r => decide (r < k))), 0⟩
      | none => rowsDone rc last (read now, 0) }

def opMmov (d : BitVec 5) (i : BitVec 1) : MatOp :=
  { rows := fun _ en => [(matRow d i en, en.op2.toNat), (en.op1.toNat, en.op2.toNat)]
    run := fun s hid en =>
      let c := s.coreAt (hid / 8)
      let base := (s.hartAt hid).plan.rowBase
      let n := 1024 * en.op2.toNat
      if s.spoiled 0 (hid / 8) (accSram (1024 * (base + en.op1.toNat))) n then .error ⟨.trap ⟨0x52, 0⟩, 0, s, 0⟩
      else
      let last := s.rowEnd hid en en.op2.toNat
      -- every source row is read before any row is written: with the last row
      let acc := if n = 0 || decide (last < en.op2.toNat) then c.acc
        else c.acc.blit (1024 * (base + matRow d i en)) n (c.acc.slice (1024 * (base + en.op1.toNat)) n)
      rowsDone en.op2.toNat last ((s.setCoreAt (hid / 8) { c with acc := acc }).chargeRows hid en (last - en.prog) 0 0 0, 0) }

/-- The operation of a matrix instruction. -/
def matOpOf : Instr → Option MatOp
  | .mmr d a fmt i _ t => some (opMmr d a fmt i t)
  | .mms d a fmt i _ t => some (opMms d a fmt i t)
  | .mmqSq d _ _ fmt i _ t => some (opMmqSq d fmt i t)
  | .mmqAb d _ _ fmt i _ t => some (opMmqAb d fmt i t)
  | .mmsp d a b fmt i _ t => some (opMmsp d a b fmt i t)
  | .mldWb _ fmt _ t => some (opMldWb fmt t)
  | .mldSq _ fmt _ t => some (opMldSq fmt t)
  | .mldsWb _ _ t => some (opMldsWb t)
  | .mldsSq _ _ t => some (opMldsSq t)
  | .mclr d _ i _ => some (opMclr d i)
  | .mrd d a i _ => some (opMrd d a i)
  | .mmov d _ _ i _ => some (opMmov d i)
  | _ => none

/-- The head of a hart's matrix queue runs. -/
def State.matHead (s : State) (hid : Nat) : State :=
  match (s.hartAt hid).mq with
  | en :: _ => match matOpOf en.instr with | some op => s.matRun hid op | none => s
  | [] => s

/-- A matrix instruction other than mmq that a hart being suspended has begun completes (R134, R309). -/
def State.matFinish (s : State) (hid : Nat) : State :=
  match (s.hartAt hid).mq with
  | en :: _ =>
    if en.done || en.prog = 0 || (match en.instr with | .mmqSq .. | .mmqAb .. => true | _ => false) then s
    else match matOpOf en.instr with
      | none => s
      | some op => match op.run s hid en with
        | .ok (s1, fl) => s1.matDone hid op en fl
        | .error r => r.s.setHartAt hid ((r.s.hartAt hid).setHead .m { en with prog := 0 })
  | [] => s

/-! ### The instructions -/

/-- `mmr` (R299). -/
def execMmr (d a : BitVec 5) (fmt : BitVec 3) (i r : BitVec 1) (t : BitVec 2) (s : State) : Out :=
  .next (s.matIssue (.mmr d a fmt i r t) (opMmr d a fmt i t) (s.reg d) 0 0)

/-- `mms` (R300). -/
def execMms (d a : BitVec 5) (fmt : BitVec 3) (i r : BitVec 1) (t : BitVec 2) (s : State) : Out :=
  .next (s.matIssue (.mms d a fmt i r t) (opMms d a fmt i t) (s.reg d) 0 0)

/-- `mmq` from the Square (R301). -/
def execMmqSq (d a b : BitVec 5) (fmt : BitVec 3) (i r : BitVec 1) (t : BitVec 2) (s : State) : Out :=
  .next (s.matIssue (.mmqSq d a b fmt i r t) (opMmqSq d fmt i t) (s.reg d) (s.reg a) (s.reg b))

/-- `mmq` from the activation buffer (R301). -/
def execMmqAb (d a b : BitVec 5) (fmt : BitVec 3) (i r : BitVec 1) (t : BitVec 2) (s : State) : Out :=
  .next (s.matIssue (.mmqAb d a b fmt i r t) (opMmqAb d fmt i t) (s.reg d) (s.reg a) (s.reg b))

/-- `mmsp` (R302). -/
def execMmsp (d a b : BitVec 5) (fmt : BitVec 3) (i r : BitVec 1) (t : BitVec 2) (s : State) : Out :=
  .next (s.matIssue (.mmsp d a b fmt i r t) (opMmsp d a b fmt i t) (s.reg d) 0 0)

/-- `mld` from wb (R304). -/
def execMldWb (a : BitVec 5) (fmt : BitVec 3) (r : BitVec 1) (t : BitVec 2) (s : State) : Out :=
  .next (s.matIssue (.mldWb a fmt r t) (opMldWb fmt t) 0 (s.reg a) 0)

/-- `mld` from the Square (R304). -/
def execMldSq (a : BitVec 5) (fmt : BitVec 3) (r : BitVec 1) (t : BitVec 2) (s : State) : Out :=
  .next (s.matIssue (.mldSq a fmt r t) (opMldSq fmt t) 0 (s.reg a) 0)

/-- `mlds` from wb (R305). -/
def execMldsWb (a : BitVec 5) (r : BitVec 1) (t : BitVec 2) (s : State) : Out :=
  .next (s.matIssue (.mldsWb a r t) (opMldsWb t) 0 (s.reg a) 0)

/-- `mlds` from the Square (R305). -/
def execMldsSq (a : BitVec 5) (r : BitVec 1) (t : BitVec 2) (s : State) : Out :=
  .next (s.matIssue (.mldsSq a r t) (opMldsSq t) 0 (s.reg a) 0)

/-- `mclr` (R306). -/
def execMclr (d b : BitVec 5) (i r : BitVec 1) (s : State) : Out :=
  .next (s.matIssue (.mclr d b i r) (opMclr d i) (s.reg d) 0 (s.reg b))

/-- `mrd` (R306). -/
def execMrd (d a : BitVec 5) (i r : BitVec 1) (s : State) : Out :=
  .next (s.matIssue (.mrd d a i r) (opMrd d a i) (s.reg d) 0 0)

/-- `mmov` (R306). -/
def execMmov (d a b : BitVec 5) (i r : BitVec 1) (s : State) : Out :=
  .next (s.matIssue (.mmov d a b i r) (opMmov d i) (s.reg d) (s.reg a) (s.reg b))

end Sys2Proof.Machine
end

