-- ==== Sys2Proof/Machine/Bays.lean ====
section
/-! DEFINITION. Negotiated bays (major 0x26; R313 to R330): takes and their admission, grants, gives, recalls, surrender
routines and their returns. -/

namespace Sys2Proof.Machine

/-! ### Taking a bay (R319 to R322) -/

/-- Fields of S[a] of a bay.take. -/
def takeUnits (x : Word) : Nat := bits x.toNat 0 7
def takeLb (x : Word) : Nat := bits x.toNat 8 4
def takeAllow (x : Word) : Nat := bits x.toNat 12 2
/-- A malformed request (R319). -/
def takeBad (neg : Bool) (x ent : Word) : Bool :=
  takeUnits x == 0 || decide (64 < takeUnits x) || bit x.toNat 7 || decide (2 ^ 14 ≤ x.toNat) ||
  (!neg && bits x.toNat 8 6 != 0) || (neg && (decide (takeLb x < 4) || decide (12 < takeLb x))) ||
  (neg && (ent.toNat % 4 != 0 || decide (2 ^ 57 ≤ ent.toNat)))

/-- The time limit of a recall (R322). -/
def tsurr (lb : Nat) : Nat := 16 * 2 ^ lb + 2048

/-- The recallable bays for a class, oldest grant first, ties to the lower handle (R321). -/
def State.recallable (s : State) (cl : Nat) (cls : BitVec 2) : List (Nat × Bay) :=
  let c := s.clusAt cl
  let l := c.bays.filter (fun kb =>
    kb.2.st == .held && kb.2.neg && !c.recalls.any (fun r => r.victim == kb.1) && decide ((s.rsvAt kb.2.resv.toNat).cls < cls))
  l.foldr (fun kb acc =>
    acc.filter (fun x => decide (x.2.grant < kb.2.grant) || (x.2.grant == kb.2.grant && decide (x.1 < kb.1))) ++
      kb :: acc.filter (fun x => decide (kb.2.grant < x.2.grant) || (x.2.grant == kb.2.grant && decide (kb.1 < x.1)))) []

/-- Victims in order until they cover a shortfall; none where they fall short. -/
def pickVictims (short : Nat) : List (Nat × Bay) → Option (List (Nat × Bay))
  | [] => if short = 0 then some [] else none
  | v :: t =>
    if short = 0 then some []
    else match pickVictims (short - v.2.units) t with
      | some l => some (v :: l)
      | none => none

/-- r after the allowed refusals (R322). -/
def refusals (ts : Nat) : Nat → Nat → Nat
  | 0, r => r
  | n + 1, r => refusals ts n (nextFrame (r + 64 + ts))

/-- The victims with their release bounds; `acc` holds earlier bounds by holder (R322). -/
def boundsOf (t : Nat) (acc : List (Nat × Nat)) : List (Nat × Bay) → List ((Nat × Bay) × Nat)
  | [] => []
  | v :: rest =>
    let busy := acc.foldl (fun m x => if x.1 = v.2.holder then max m x.2 else m) 0
    let d := refusals (tsurr v.2.lb) v.2.allow (max t busy) + 64 + tsurr v.2.lb
    (v, d) :: boundsOf t ((v.2.holder, d) :: acc) rest

/-- The next free handle after the last assigned, round-robin over 1 to 255 (R315). -/
def Clus.nextHandle (c : Clus) : Nat :=
  ((List.range 255).map (fun i => (c.last + i) % 255 + 1)).find? (fun h => (c.bay h).st == .free) |>.getD 0

/-- The admission of a take by the acting hart (R319 to R322). -/
def State.takeAdmit (s : State) (neg w : Bool) (x ent : Word) : Except Stop Adm :=
  let h := s.hart
  if h.surr.isSome then trapAt 0x44 0
  else if takeBad neg x ent then .ok (.refused 0x30 false)
  else
    let r := if h.sup then 0 else h.resv.toNat
    let why := s.commonReason s.who.fn r []
    if why != 0 && why != 1 then .ok (.refused why false)
    else
      let cl := s.clusNo
      let c := s.clusAt cl
      let cls := (s.rsvAt r).cls
      let u := takeUnits x
      let f := c.free
      match pickVictims (u - f) (if cls = 0 then [] else s.recallable cl cls) with
      | none => .ok (.refused 0x31 w)
      | some victims =>
        if Config.recallQueue < c.recalls.length + victims.length then .ok (.refused 0x32 w)
        else
          let bounds := boundsOf s.now (c.recalls.map (fun y => (y.holder, y.bound.toNat))) victims
          let by_ (t : Nat) (l : List ((Nat × Bay) × Nat)) : Nat := l.foldl (fun m b => max m b.2) t + 64 + 4 * u
          let d := by_ s.now bounds
          -- one too far even with no earlier recall ahead is refused at once (R52)
          let fresh := nextFrame s.now
          if cls != 0 && tooFar s.now d then .ok (.refused 2 (w && !tooFar fresh (by_ fresh (boundsOf fresh [] victims))))
          else
            let hd := c.nextHandle
            -- no earlier than the last of the hart's bays (R55)
            let dl := max h.srcDl[1].toNat d
            let word := acceptWord cls dl
            let b : Bay := {
              st := .pending, neg := neg, units := u, gang := h.gang, holder := s.cur, resv := BitVec.ofNat 8 r
              fn := h.fn, entry := if neg then ent else 0, lb := if neg then takeLb x else 0
              allow := if neg then takeAllow x else 0, lastGang := h.gang
              deadline := if cls = 0 then word else BitVec.ofNat 64 dl, order := c.order, got := min u f }
            let posted := bounds.map (fun v => ({
              victim := v.1.1, forBay := hd, holder := v.1.2.holder, rqrsv := BitVec.ofNat 8 r, rqcls := cls
              posted := s.time, bound := BitVec.ofNat 64 v.2, aleft := BitVec.ofNat 2 v.1.2.allow } : Recall))
            let s1 := s.setClusAt cl { c with
              bays := c.bays.set hd b, last := hd, order := c.order + 1, recalls := c.recalls ++ posted }
            .ok (.accepted (s1.setHart { s1.hart with
              srcDl := if cls = 0 then h.srcDl else h.srcDl.set 1 (BitVec.ofNat 64 dl)
              bay := { s1.hart.bay with bayh := BitVec.ofNat 8 hd } }) word)

/-- A bay.take submitted (R319, R320): a refusal writes bayh ← 0. -/
def State.bayTake (s : State) (neg : Bool) (d a b : BitVec 5) (w : Bool) : State :=
  s.submission .s (.take neg d a b) w d [] (fun t => t.takeAdmit neg w (t.reg a) (if neg then t.reg b else 0))
    (fun t => t.setHart { t.hart with bay := { t.hart.bay with bayh := 0 } })

/-- A pending bay whose units are all present is granted: its bytes read 0 (R316, R321). One to be released at its
grant goes at once. -/
def State.bayGrant (s : State) (cl h : Nat) : State :=
  let c := s.clusAt cl
  let b := c.bay h
  if b.st != .pending || decide (b.got < b.units) then s
  else
    let s1 := s.setClusAt cl { c with
      bays := c.bays.set h { b with st := .held, grant := s.time }
      square := c.square.clear (h * 2 ^ 24) ((h + 1) * 2 ^ 24) }
    if b.giveAtGrant then s1.releaseBay cl h else s1

/-! ### Giving a bay back (R323) -/

/-- The hart has instructions that access memory and are not performed (R323). What a surrender routine has set aside runs
again after its bay.ret (R324), and so comes after what the routine releases (log 69). -/
def Hart.accessPending (h : Hart) : Bool :=
  h.vq.any (fun e => !e.done && (streamOf e.instr).isSome) ||
  h.mq.any (fun e => !e.done && (match e.instr with
    | .mmqSq .. | .mmqAb .. | .mldWb .. | .mldSq .. | .mldsWb .. | .mldsSq .. => true
    | _ => false)) || !h.ss.isEmpty ||
  h.cq.any (fun e => match e.instr with | .cpGo .. | .cpXpd .. => true | _ => false)

/-- A hart's earlier accesses are not all performed: its sampler work's count as its own (R323, R329, R355). -/
def State.accessBusy (s : State) (hid : Nat) : Bool := (s.hartAt hid).accessPending || s.samplerBusy hid

/-! ### Recall and surrender mode (R324 to R328) -/

/-- The entries of a vector queue from its first vwait that is not done. -/
def fromVwait : List Entry → List Entry
  | [] => []
  | e :: t => if !e.done && (match e.instr with | .vwait .. => true | _ => false) then e :: t else fromVwait t

/-- The holder enters its surrender routine: pc, s24 to s31 and pfxsave are banked (R87, R324). Vector instructions ahead
of a wait go on. One that waits for its watch, with all behind it, or a vwait, is set aside, to run again after
bay.ret; the routine finds the streams as their changes leave them (R150). An access in stream S that can still trap is dispatched
again after it, with all behind it (R99; log 26). What was dispatched before does not count (R326). -/
def Hart.enterRoutine (h : Hart) (watching : Bool) (entry : Word) (r : Recall) (lb : Nat) (now : Word) : Hart :=
  let h1 := h.unpark.rollBack.savePfx
  let aside := if watching then h1.vq else fromVwait h1.vq
  let unspan (l : List Entry) : List Entry := l.map (fun e => { e with span := false })
  let on := unspan (h1.vq.take (h1.vq.length - aside.length))
  let again (e : Entry) : Entry := { e with span := false, tried := 0, prog := if e.isVec then 0 else e.prog, met := if e.isVec then [] else e.met }
  let atHead := on.isEmpty && !aside.isEmpty
  { h1 with
    surr := some {
      pc := h1.pc, bank := Vector.ofFn (fun i => h1.regs.toList.getD (24 + i.val) 0), pfx := h1.pfxsave
      cls := r.rqcls, resv := r.rqrsv, vq := aside.map again
      estart := if atHead then h1.vec.estart else 0, rowstart := if atHead then h1.vec.rowstart else 0, q := h1.q }
    pc := entry &&& pcMask, pfxsave := {}
    vq := on, mq := unspan h1.mq, cq := unspan h1.cq, q := aside.foldl (fun v e => e.changeStream v) h1.q
    vec := if atHead then { h1.vec with estart := 0, rowstart := 0 } else h1.vec
    bay := { h1.bay with
      ucnt := 0, lb := BitVec.ofNat 4 lb, rqcls := r.rqcls, aleft := r.aleft, rqrsv := r.rqrsv
      handle := BitVec.ofNat 8 r.victim, isOpen := true, counting := true
      rcend := now + BitVec.ofNat 64 (tsurr lb) } }

/-- The instruction at the head of a hart's vector queue waits for its stream's watch (R153, R324): it was tried, and the
watch does not let the group it stands at pass. -/
def State.watching (s : State) (hid : Nat) : Bool :=
  let h := s.hartAt hid
  match h.vq with
  | [] => false
  | e :: _ =>
    let en := h.look e
    !en.done && en.tried != 0 &&
      (match streamOf en.instr, vecOpOf en.instr with
       | some _, some op =>
         let msk := maskOf op.m en
         match (h.vec.elems op.rowwise).find? (fun re => h.vec.active msk re.1 re.2) with
         | some re => (match memWatch hid { en with surr := false } msk { s := s, passed := en.passed } re with
           | (_, some (.wait _)) => true | _ => false)
         | none => false
       | _, _ => false)

/-- A recall may be delivered now: its holder is in no routine and has no other recall open, and a deferred one's frame
boundary has come (R324, R327). -/
def State.recallReady (s : State) (r : Recall) : Bool :=
  if 4096 ≤ r.holder then true
  else
    let h := s.hartAt r.holder
    h.surr.isNone && (if r.isOpen then r.notBefore != 0 && decide (r.notBefore ≤ s.time) else !h.bay.isOpen)

/-- A posted recall is delivered (R324); to a holder that is suspended or loaded, or in a frame, it is a forced release
(R328). -/
def State.recallDeliver (s : State) (cl v : Nat) : State :=
  let c := s.clusAt cl
  match c.recalls.find? (fun r => r.victim == v) with
  | none => s
  | some r =>
    if !s.recallReady r then s
    else
      let h := s.hartAt r.holder
      if decide (4096 ≤ r.holder) || h.run != .running then s.forceRelease cl v
      else
        let b := c.bay v
        let recalls := c.recalls.map (fun x => if x.victim == v then { x with isOpen := true, notBefore := 0 } else x)
        (s.setClusAt cl { c with recalls := recalls }).setHartAt r.holder (h.enterRoutine (s.watching r.holder) b.entry r b.lb s.time)

/-- The state a bay.ret restores; the hart goes on at the banked pc with the banked prefix (R61, R87, R327). -/
def Hart.leaveRoutine (h : Hart) : Hart :=
  match h.surr with
  | none => h
  | some x =>
    let regs := (List.range 8).foldl (fun r i => r.setIfInBounds (24 + i) (x.bank.toList.getD i 0)) h.regs
    let back := h.backStreams x
    { h with
      surr := none, pc := x.pc, regs := regs, wait := none
      pfx := if x.pfx.pend then some (x.pfx.word, x.pfx.popd) else none
      pfxOld := true, pfxsave := { x.pfx with pend := false, popd := false }
      q := back.1, vq := h.vq ++ back.2
      vec := if x.vq.isEmpty || !h.vq.isEmpty then h.vec else { h.vec with estart := x.estart, rowstart := x.rowstart } }

/-- A bay.ret of the acting hart (R327): `act` is what it does while the recalled bay is still held. -/
def State.bayRet (s : State) (sum : Bool) (act : State → State) : State :=
  s.bare none none (fun t =>
    let h := t.hart
    if h.surr.isNone then trapAt 0x45 0
    else if (h.vq ++ h.mq ++ h.cq).any (fun e => e.surr) || h.ss.any (fun x => x.surr) then .error (.wait .routine)
    else if sum && h.bay.isOpen && t.accessBusy t.cur then .error (.wait .accesses)
    else
      let t1 := t.setHart (h.count 1)
      let t2 := if h.bay.isOpen then act t1 else t1
      -- where the bay is given by now, the recall ends, and its count with it (R326, R327)
      let t3 := t2.setHart { t2.hart.leaveRoutine with
        preempt := false, bay := if t2.hart.bay.isOpen then t2.hart.bay else t2.hart.bay.ended }
      .ok (if h.preempt then t3.beginSuspend t3.cur ⟨0x50, 0⟩ { engine := 7 } false else t3))

/-- The refusal of a recall (R327): with allowance left it is delivered again at the next frame boundary. -/
def State.bayRefuse (s : State) : State :=
  let h := s.hart
  let cl := s.clusNo
  let c := s.clusAt cl
  if h.bay.aleft = 0 then s
  else
    let recalls := c.recalls.map (fun r =>
      if r.victim == h.bay.handle.toNat then
        { r with aleft := r.aleft - 1, notBefore := BitVec.ofNat 64 (nextFrame s.now) } else r)
    (s.setClusAt cl { c with recalls := recalls }).setHart
      { h with bay := { h.bay with aleft := h.bay.aleft - 1, counting := false } }

/-- An overrun: the bay goes at once, and the hart traps with cause 0x42 (R326, R328). -/
def State.surrOverrun (s : State) (hid : Nat) : State :=
  let h := s.hartAt hid
  if h.surr.isSome then s.takeTrap hid ⟨0x42, 0⟩ { engine := 5, ipc := h.pc }
  else s.takeTrap hid ⟨0x42, BitVec.ofNat 64 (h.bay.handle.toNat * 2 ^ 24)⟩ { engine := 5 }

/-! ### The instructions -/

/-- `bay.take.fix` (R319). -/
def execBayTakeFix (d a : BitVec 5) (w : BitVec 1) (s : State) : Out := .next (s.bayTake false d a 0 (w = 1))

/-- `bay.take.neg` (R319). -/
def execBayTakeNeg (d a b : BitVec 5) (w : BitVec 1) (s : State) : Out := .next (s.bayTake true d a b (w = 1))

/-- `bay.give` (R323). -/
def execBayGive (a : BitVec 5) (s : State) : Out :=
  .next (s.sequencer none none (fun t =>
    let x := (t.reg a).toNat
    let h := bits x 24 8
    if 2 ^ 32 ≤ x then trapAt 0x14 x
    else match t.reach t.who t.clusNo h with
      | .error (.trap c) => trapAt c.cause x
      | .error w => .error w
      | .ok _ => if t.accessBusy t.cur then .error (.wait .accesses) else .ok (t.releaseBay t.clusNo h)))

/-- `bay.ret.fin` (R327): the bay stays, and the count goes on. -/
def execBayRetFin (s : State) : Out := .next (s.bayRet false id)

/-- `bay.ret.sum` (R327): the bay is released before the restore. -/
def execBayRetSum (s : State) : Out := .next (s.bayRet true (fun t => t.releaseBay t.clusNo t.hart.bay.handle.toNat))

/-- `bay.ret.ref` (R327). -/
def execBayRetRef (s : State) : Out := .next (s.bayRet false State.bayRefuse)

end Sys2Proof.Machine
end

