-- ==== Sys2Proof/WellFormed.lean ====
section
/-! DEFINITION. Which instructions the encodings allow: the reserved values that R59, R78, R80, R83, R85, R147, R151, R223,
R294, R336 and R344 name are refused here; an event names an agent the part has. -/

namespace Sys2Proof

/-- The check that a decoded instruction holds no reserved field value (cause 0x02 otherwise, R59). -/
def Instr.wellFormed : Instr → Bool
  | .add _ _ _ => true
  | .sub _ _ _ => true
  | .and _ _ _ => true
  | .or _ _ _ => true
  | .xor _ _ _ => true
  | .sll _ _ _ => true
  | .srl _ _ _ => true
  | .sra _ _ _ => true
  | .mul _ _ _ => true
  | .mulh _ _ _ => true
  | .mulhu _ _ _ => true
  | .div _ _ _ => true
  | .divu _ _ _ => true
  | .rem _ _ _ => true
  | .remu _ _ _ => true
  | .slt _ _ _ => true
  | .sltu _ _ _ => true
  | .seq _ _ _ => true
  | .sne _ _ _ => true
  | .min _ _ _ => true
  | .max _ _ _ => true
  | .minu _ _ _ => true
  | .maxu _ _ _ => true
  | .slli _ _ _ => true
  | .srli _ _ _ => true
  | .srai _ _ _ => true
  | .andi _ _ _ => true
  | .ori _ _ _ => true
  | .xori _ _ _ => true
  | .slti _ _ _ => true
  | .sltiu _ _ _ => true
  | .addi _ _ _ => true
  | .lui _ _ => true
  | .aupc d _ => decide (3 ≤ d.toNat)
  | .fadd _ _ _ t rm => decide (t.toNat ≤ 1 ∧ rm.toNat ≤ 4)
  | .fsub _ _ _ t rm => decide (t.toNat ≤ 1 ∧ rm.toNat ≤ 4)
  | .fmul _ _ _ t rm => decide (t.toNat ≤ 1 ∧ rm.toNat ≤ 4)
  | .fma _ _ _ t rm => decide (t.toNat ≤ 1 ∧ rm.toNat ≤ 4)
  | .fmin _ _ _ t => decide (t.toNat ≤ 1)
  | .fmax _ _ _ t => decide (t.toNat ≤ 1)
  | .feq _ _ _ t => decide (t.toNat ≤ 1)
  | .flt _ _ _ t => decide (t.toNat ≤ 1)
  | .fle _ _ _ t => decide (t.toNat ≤ 1)
  | .fcvtFpFp _ _ t rm => decide (t.toNat ≤ 1 ∧ rm.toNat ≤ 4)
  | .fcvtToI64 _ _ t rm => decide (t.toNat ≤ 1 ∧ rm.toNat ≤ 4)
  | .fcvtToN64 _ _ t rm => decide (t.toNat ≤ 1 ∧ rm.toNat ≤ 4)
  | .fcvtFromI64 _ _ t rm => decide (t.toNat ≤ 1 ∧ rm.toNat ≤ 4)
  | .fcvtFromN64 _ _ t rm => decide (t.toNat ≤ 1 ∧ rm.toNat ≤ 4)
  | .ld _ _ _ ordsc _ _ => decide (ordsc.toNat ≤ 5)
  | .st _ _ _ ordsc _ ty => decide ((ordsc.toNat = 0 ∨ (6 ≤ ordsc.toNat ∧ ordsc.toNat ≤ 10)) ∧ ty.toNat ≤ 3)
  | .beq _ _ _ => true
  | .bne _ _ _ => true
  | .blt _ _ _ => true
  | .bge _ _ _ => true
  | .bltu _ _ _ => true
  | .bgeu _ _ _ => true
  | .j _ => true
  | .call _ => true
  | .jr _ => true
  | .callr _ => true
  | .aadd o => decide (o.ord.toNat ≤ 2 ∧ o.sc.toNat ≤ 4)
  | .aswap o => decide (o.ord.toNat ≤ 2 ∧ o.sc.toNat ≤ 4)
  | .aand o => decide (o.ord.toNat ≤ 2 ∧ o.sc.toNat ≤ 4)
  | .aor o => decide (o.ord.toNat ≤ 2 ∧ o.sc.toNat ≤ 4)
  | .aminI o => decide (o.ord.toNat ≤ 2 ∧ o.sc.toNat ≤ 4)
  | .amaxI o => decide (o.ord.toNat ≤ 2 ∧ o.sc.toNat ≤ 4)
  | .aminN o => decide (o.ord.toNat ≤ 2 ∧ o.sc.toNat ≤ 4)
  | .amaxN o => decide (o.ord.toNat ≤ 2 ∧ o.sc.toNat ≤ 4)
  | .acas o => decide (o.ord.toNat ≤ 2 ∧ o.sc.toNat ≤ 4)
  | .fenceSv sc => decide (sc.toNat ≤ 4)
  | .fenceVs sc => decide (sc.toNat ≤ 4)
  | .fenceVv sc => decide (sc.toNat ≤ 4)
  | .fenceAll sc => decide (sc.toNat ≤ 4)
  | .fenceBinsRel sc => decide (sc.toNat ≤ 4)
  | .tkpush id => decide (1 ≤ id.toNat ∧ id.toNat ≤ 12)
  | .tkpop id => decide (1 ≤ id.toNat ∧ id.toNat ≤ 12)
  | .wtime _ _ => true
  | .mfs _ _ => true
  | .mts _ _ => true
  | .glaunch _ _ => true
  | .gbar g => decide (g.toNat ≤ 2)
  | .hsusp _ => true
  | .hsave _ _ => true
  | .hload _ _ => true
  | .tret => true
  | .hend => true
  | .pfx _ _ pop push _ => decide (pop.toNat ≤ 12 ∧ push.toNat ≤ 12)
  | .qld _ _ _ _ => true
  | .qbase _ _ => true
  | .qstride _ _ => true
  | .qbound _ _ => true
  | .qcur _ _ => true
  | .qcfg _ _ => true
  | .qget _ _ sel => decide (sel.toNat ≤ 6)
  | .qrel _ => true
  | .qprobe _ _ => true
  | .sbar _ sc _ => decide (sc.toNat ≤ 4)
  | .qwatch _ _ _ => true
  | .qunwatch _ => true
  | .qwait _ _ _ => true
  | .wmpub _ _ sc => decide (sc.toNat ≤ 4)
  | .vsetl _ _ _ => true
  | .vsettype _ _ _ _ _ => true
  | .vadd _ => true
  | .vsub _ => true
  | .vmul _ => true
  | .vmulhI _ => true
  | .vmulhN _ => true
  | .vdivI _ => true
  | .vdivN _ => true
  | .vremI _ => true
  | .vremN _ => true
  | .vminI _ => true
  | .vmaxI _ => true
  | .vminN _ => true
  | .vmaxN _ => true
  | .vand _ => true
  | .vor _ => true
  | .vxor _ => true
  | .vsll _ => true
  | .vsrl _ => true
  | .vsra _ => true
  | .vaddSatI _ => true
  | .vaddSatN _ => true
  | .vsubSatI _ => true
  | .vsubSatN _ => true
  | .vmacc _ => true
  | .vmeq _ => true
  | .vmne _ => true
  | .vmltI _ => true
  | .vmleI _ => true
  | .vmltN _ => true
  | .vmleN _ => true
  | .vmov _ => true
  | .vbcast _ => true
  | .vid _ _ _ _ => true
  | .vaddFp _ => true
  | .vsubFp _ => true
  | .vmulFp _ => true
  | .vdivFp _ => true
  | .vfma _ => true
  | .vfms _ => true
  | .vfnma _ => true
  | .vsqrt _ => true
  | .vminFp _ => true
  | .vmaxFp _ => true
  | .vabs _ => true
  | .vneg _ => true
  | .vmfeq _ => true
  | .vmfne _ => true
  | .vmflt _ => true
  | .vmfle _ => true
  | .vcvtFpToIeee o => decide (o.rnd.toNat ≤ 4 ∧ 1 ≤ o.x.toNat)
  | .vcvtFpToBf16 o => decide (o.rnd.toNat ≤ 5 ∧ o.x.toNat = 1)
  | .vcvtFpToE4m3 o => decide (o.rnd.toNat ≤ 5 ∧ o.x.toNat = 0)
  | .vcvtFpToE5m2 o => decide (o.rnd.toNat ≤ 5 ∧ o.x.toNat = 0)
  | .vcvtFpToI o => decide (o.rnd.toNat ≠ 5 ∧ o.rnd.toNat ≠ 7)
  | .vcvtFpToN o => decide (o.rnd.toNat ≠ 5 ∧ o.rnd.toNat ≠ 7)
  | .vcvtIToIeee o => decide (o.rnd.toNat ≤ 4 ∧ 1 ≤ o.x.toNat)
  | .vcvtIToBf16 o => decide (o.rnd.toNat ≤ 5 ∧ o.x.toNat = 1)
  | .vcvtIToE4m3 o => decide (o.rnd.toNat ≤ 5 ∧ o.x.toNat = 0)
  | .vcvtIToE5m2 o => decide (o.rnd.toNat ≤ 5 ∧ o.x.toNat = 0)
  | .vcvtNToIeee o => decide (o.rnd.toNat ≤ 4 ∧ 1 ≤ o.x.toNat)
  | .vcvtNToBf16 o => decide (o.rnd.toNat ≤ 5 ∧ o.x.toNat = 1)
  | .vcvtNToE4m3 o => decide (o.rnd.toNat ≤ 5 ∧ o.x.toNat = 0)
  | .vcvtNToE5m2 o => decide (o.rnd.toNat ≤ 5 ∧ o.x.toNat = 0)
  | .vcvtIntToI o => decide (o.rnd.toNat ≠ 5 ∧ o.rnd.toNat ≠ 7)
  | .vcvtIntToN o => decide (o.rnd.toNat ≠ 5 ∧ o.rnd.toNat ≠ 7)
  | .vwmulI _ => true
  | .vwmulN _ => true
  | .vwmaccI _ => true
  | .vwmaccN _ => true
  | .vwmulFp _ => true
  | .vwmaccFp _ => true
  | .vdot4I8 _ _ _ _ _ => true
  | .vdot4N8 _ _ _ _ _ => true
  | .vsmul _ => true
  | .vsmacc _ => true
  | .vredsum _ => true
  | .vredosum _ => true
  | .vredmax _ => true
  | .vredmin _ => true
  | .vredmaxN _ => true
  | .vredminN _ => true
  | .vredand _ => true
  | .vredor _ => true
  | .vredxor _ => true
  | .vscan _ => true
  | .vscano _ => true
  | .vscanmax _ => true
  | .vscanmin _ => true
  | .vscanmaxN _ => true
  | .vscanminN _ => true
  | .vrgath _ => true
  | .vslideup _ => true
  | .vslidedn _ => true
  | .vslide1up _ => true
  | .vslide1dn _ => true
  | .vcomp _ => true
  | .vexpand _ => true
  | .vmvS _ _ _ _ => true
  | .vmvV _ _ _ _ => true
  | .vmvX _ _ _ _ _ => true
  | .vmand _ _ _ _ => true
  | .vmor _ _ _ _ => true
  | .vmxor _ _ _ _ => true
  | .vmandn _ _ _ _ => true
  | .vmnot _ _ _ => true
  | .vpop _ _ _ _ => true
  | .vfirst _ _ _ _ => true
  | .vmsbf _ _ _ _ => true
  | .vmsif _ _ _ _ => true
  | .vmsof _ _ _ _ => true
  | .vconf _ => true
  | .vconfm _ => true
  | .vpart _ _ _ _ => true
  | .vrun _ _ _ _ => true
  | .vmset _ _ => true
  | .vmclr _ _ => true
  | .vld _ _ _ _ => true
  | .vldff _ _ _ _ => true
  | .vst _ _ _ _ => true
  | .vldx _ _ _ _ _ => true
  | .vstx _ _ _ _ _ => true
  | .vstxu _ _ _ _ _ => true
  | .vsadd _ _ _ _ _ => true
  | .vwait _ _ _ => true
  | .vcbld _ _ => true
  | .mmr _ _ fmt _ _ _ => decide (fmt.toNat ≠ 0)
  | .mms _ _ fmt _ _ _ => decide (fmt.toNat ≠ 0)
  | .mmqSq _ _ _ fmt _ _ _ => decide (fmt.toNat ≠ 0)
  | .mmqAb _ _ _ fmt _ _ _ => decide (fmt.toNat ≠ 0)
  | .mmsp _ _ _ fmt _ _ _ => decide (fmt.toNat ≠ 0)
  | .mldWb _ fmt _ _ => decide (fmt.toNat ≠ 0)
  | .mldSq _ fmt _ _ => decide (fmt.toNat ≠ 0)
  | .mldsWb _ _ _ => true
  | .mldsSq _ _ _ => true
  | .mclr _ _ _ _ => true
  | .mrd _ _ _ _ => true
  | .mmov _ _ _ _ _ => true
  | .cpGo o => decide (o.fl.toNat ≠ 7)
  | .cpXpd o => decide (o.ty.toNat ≠ 3)
  | .cpShape _ _ _ => true
  | .cpCnt _ => true
  | .bayTakeFix _ _ _ => true
  | .bayTakeNeg _ _ _ _ => true
  | .bayGive _ => true
  | .bayRetFin => true
  | .bayRetSum => true
  | .bayRetRef => true
  | .smpReq _ _ _ fl => decide (fl.toNat ≤ 5)
  | .smpTld _ _ _ _ => true
  | .smpTst _ _ _ _ => true
  | .smpPld _ _ _ _ => true
  | .ladd _ p _ _ => decide (p.toNat ≤ 2)
  | .lsub _ p _ _ => decide (p.toNat ≤ 2)
  | .lmul _ p _ _ => decide (p.toNat ≤ 2)
  | .lfma _ p _ _ => decide (p.toNat ≤ 2)
  | .lmin _ p _ _ => decide (p.toNat ≤ 2)
  | .lmax _ p _ _ => decide (p.toNat ≤ 2)
  | .lmov _ p _ => decide (p.toNat ≤ 2)
  | .lneg _ p _ => decide (p.toNat ≤ 2)
  | .lconst _ p _ => decide (p.toNat ≤ 2)
  | .lconstl _ p _ => decide (p.toNat ≤ 2)
  | .lcnt _ p => decide (p.toNat ≤ 2)
  | .lbias _ p _ => decide (p.toNat ≤ 2)
  | .lcmplt p _ _ => decide (p.toNat ≤ 2)
  | .lcmpeq p _ _ => decide (p.toNat ≤ 2)
  | .lmask p => decide (p.toNat ≤ 2)
  | .lret p _ => decide (p.toNat ≤ 2)
  | .lcnti _ p _ => decide (p.toNat ≤ 2)
  | .lbiasi _ p _ => decide (p.toNat ≤ 2)
  | .lcmple p _ _ => decide (p.toNat ≤ 2)
  | .xinvPageCore _ ctx => decide (ctx.toNat ≤ 16)
  | .xinvContextCore ctx => decide (ctx.toNat ≤ 16)
  | .xinvPageAll _ ctx => decide (ctx.toNat ≤ 16)
  | .xinvContextAll ctx => decide (ctx.toNat ≤ 16)
  | .rsvcfgWrite _ => true
  | .rsvbudWrite _ _ => true
  | .trapRingRegWrite _ _ => true
  | .fflagsWrite _ => true
  | .frameBoundary => true
  | .energyCeilingReached => true
  | .deadlineReached hid _ => decide (hid.toNat < 1280)
  | .memLatencyMiss hid => decide (hid.toNat < 1280)
  | .tokenDeadlock hid => decide (hid.toNat < 1280)
  | .waitedAdmission hid => decide (hid.toNat < 1280)
  | .admissionWaitTimeout hid => decide (hid.toNat < 1280)
  | .vectorStart hid => decide (hid.toNat < 1280)
  | .matrixStart hid => decide (hid.toNat < 1280)
  | .instructionRetire hid _ => decide (hid.toNat < 1280)
  | .copyChunk hid => decide (hid.toNat < 1280)
  | .copyComplete hid => decide (hid.toNat < 1280)
  | .lookaheadTranslate hid _ => decide (hid.toNat < 1280)
  | .watchReread hid => decide (hid.toNat < 1280)
  | .qwaitWake hid => decide (hid.toNat < 1280)
  | .vwaitReread hid => decide (hid.toNat < 1280)
  | .vwaitTimeout hid => decide (hid.toNat < 1280)
  | .wtimeWake hid => decide (hid.toNat < 1280)
  | .startWatermarkPoll _ => true
  | .gbarDepart _ _ _ => true
  | .suspensionComplete hid => decide (hid.toNat < 1280)
  | .hartEnd hid => decide (hid.toNat < 1280)
  | .gangComplete _ => true
  | .updateApply => true
  | .bayGrant cl _ => decide (cl.toNat < 20)
  | .recallDelivery cl _ => decide (cl.toNat < 20)
  | .surrenderUnitOverrun hid => decide (hid.toNat < 1280)
  | .surrenderTimeOverrun hid => decide (hid.toNat < 1280)
  | .samplerStart cl _ => decide (cl.toNat < 20)
  | .samplerWmReread cl _ => decide (cl.toNat < 20)
  | .samplerStrip cl _ => decide (cl.toNat < 20)
  | .samplerCycleOverrun cl _ => decide (cl.toNat < 20)
  | .samplerDraw cl _ => decide (cl.toNat < 20)
  | .tableLoadPerform cl _ => decide (cl.toNat < 20)
  | .tableStorePerform cl _ => decide (cl.toNat < 20)
  | .programLoadPerform cl _ => decide (cl.toNat < 20)
  | .hostWrite fn _ _ _ => decide (fn.toNat ≤ 16)
  | .hostRead fn _ r => decide (r.via.toNat ≤ 2) && decide (fn.toNat ≤ 16)
  | .hostAtomicop fn _ _ _ _ _ => decide (fn.toNat ≤ 16)
  | .hostCas16 fn _ => decide (fn.toNat ≤ 16)
  | .cxlMemWrite _ _ _ => true
  | .bar2Access fn _ _ _ _ => decide (fn.toNat ≤ 16)
  | .mailboxWrite fn _ _ => decide (fn.toNat ≤ 16)
  | .cqtailDoorbell fn _ => decide (fn.toNat ≤ 16)
  | .launch fn => decide (fn.toNat ≤ 16)
  | .openConnection fn => decide (fn.toNat ≤ 16)
  | .closeConnection fn => decide (fn.toNat ≤ 16)
  | .readErrorRecord fn => decide (fn.toNat ≤ 16)
  | .unknownCommand fn => decide (fn.toNat ≤ 16)
  | .ringTransfer fn _ _ _ _ => decide (fn.toNat ≤ 16)
  | .functionLevelReset fn => decide (fn.toNat ≤ 16)
  | .tdiRun fn => decide (fn.toNat ≤ 16)
  | .tdiLeaveRun l => decide (l.fn.toNat ≤ 16)
  | .spdmKeyExchange _ => true
  | .spdmSessionExpiry _ => true
  | .correctableError _ => true
  | .uncorrectableError _ _ _ _ _ _ => true
  | .reset => true
  | .thermalHold _ => true
  | .thermalRelease _ => true
  | .thermalStop => true
  | .eceilLower _ => true
  | .pldmMonitorRead => true
  | .pageMigrate _ _ _ => true
  | .wordNotAnInstruction _ => true
  | .fetchFault _ => true
  | .tdiLock fn => decide (fn.toNat ≤ 16)
  | .cxlCacheHostAtomic _ _ _ _ _ => true

/-- A well-formed instruction, as a proposition. -/
abbrev WellFormed (i : Instr) : Prop := i.wellFormed = true

end Sys2Proof
end

