-- ==== Sys2Proof/Decode.lean ====
section
/-! DEFINITION. The decoder, total on every 32-bit word (R57 to R59), and after it the encoder, both written from the
field layouts of R58, R77 to R85, R147, R151, R187, R213, R219, R294, R318, R336 and R344. Words of a sampler program
have their own map (R346): decodeLogit. -/

namespace Sys2Proof

/-- Why a word is no instruction (R59): a permanently illegal major (cause 0x01), or a reserved encoding (cause 0x02). -/
inductive DecodeError where
  | illegalWord
  | reservedEncoding
  deriving DecidableEq, Repr

/-- Bits lo + len - 1 down to lo of a word, as a natural number (R4, R20). -/
def code (w : BitVec 32) (lo len : Nat) : Nat := w.toNat / 2 ^ lo % 2 ^ len

/-- Bits lo + len - 1 down to lo of a word, as a field. -/
def fld (w : BitVec 32) (lo len : Nat) : BitVec len := BitVec.ofNat len (w.toNat / 2 ^ lo)

/-- A field in two parts, the first part high: the 11-bit immediate b ‖ x of R79. -/
def fld2 (w : BitVec 32) (lo1 len1 lo2 len2 : Nat) : BitVec (len1 + len2) :=
  BitVec.ofNat (len1 + len2) (code w lo1 len1 * 2 ^ len2 + code w lo2 len2)

/-- The instruction, if every fixed field fits and no field holds a reserved value; cause 0x02 otherwise. -/
def accept (fits : Bool) (i : Instr) : Except DecodeError Instr :=
  if fits && i.wellFormed then .ok i else .error .reservedEncoding

/-- Major 0x01. -/
def decodeMajor01 (w : BitVec 32) : Except DecodeError Instr :=
  match code w 6 5 with
  | 0 => accept (decide (code w 0 6 = 0)) (.add (fld w 21 5) (fld w 16 5) (fld w 11 5))
  | 1 => accept (decide (code w 0 6 = 0)) (.sub (fld w 21 5) (fld w 16 5) (fld w 11 5))
  | 2 => accept (decide (code w 0 6 = 0)) (.and (fld w 21 5) (fld w 16 5) (fld w 11 5))
  | 3 => accept (decide (code w 0 6 = 0)) (.or (fld w 21 5) (fld w 16 5) (fld w 11 5))
  | 4 => accept (decide (code w 0 6 = 0)) (.xor (fld w 21 5) (fld w 16 5) (fld w 11 5))
  | 5 => accept (decide (code w 0 6 = 0)) (.sll (fld w 21 5) (fld w 16 5) (fld w 11 5))
  | 6 => accept (decide (code w 0 6 = 0)) (.srl (fld w 21 5) (fld w 16 5) (fld w 11 5))
  | 7 => accept (decide (code w 0 6 = 0)) (.sra (fld w 21 5) (fld w 16 5) (fld w 11 5))
  | 8 => accept (decide (code w 0 6 = 0)) (.mul (fld w 21 5) (fld w 16 5) (fld w 11 5))
  | 9 => accept (decide (code w 0 6 = 0)) (.mulh (fld w 21 5) (fld w 16 5) (fld w 11 5))
  | 10 => accept (decide (code w 0 6 = 0)) (.mulhu (fld w 21 5) (fld w 16 5) (fld w 11 5))
  | 11 => accept (decide (code w 0 6 = 0)) (.div (fld w 21 5) (fld w 16 5) (fld w 11 5))
  | 12 => accept (decide (code w 0 6 = 0)) (.divu (fld w 21 5) (fld w 16 5) (fld w 11 5))
  | 13 => accept (decide (code w 0 6 = 0)) (.rem (fld w 21 5) (fld w 16 5) (fld w 11 5))
  | 14 => accept (decide (code w 0 6 = 0)) (.remu (fld w 21 5) (fld w 16 5) (fld w 11 5))
  | 15 => accept (decide (code w 0 6 = 0)) (.slt (fld w 21 5) (fld w 16 5) (fld w 11 5))
  | 16 => accept (decide (code w 0 6 = 0)) (.sltu (fld w 21 5) (fld w 16 5) (fld w 11 5))
  | 17 => accept (decide (code w 0 6 = 0)) (.seq (fld w 21 5) (fld w 16 5) (fld w 11 5))
  | 18 => accept (decide (code w 0 6 = 0)) (.sne (fld w 21 5) (fld w 16 5) (fld w 11 5))
  | 19 => accept (decide (code w 0 6 = 0)) (.min (fld w 21 5) (fld w 16 5) (fld w 11 5))
  | 20 => accept (decide (code w 0 6 = 0)) (.max (fld w 21 5) (fld w 16 5) (fld w 11 5))
  | 21 => accept (decide (code w 0 6 = 0)) (.minu (fld w 21 5) (fld w 16 5) (fld w 11 5))
  | 22 => accept (decide (code w 0 6 = 0)) (.maxu (fld w 21 5) (fld w 16 5) (fld w 11 5))
  | 24 => accept (decide (code w 11 5 = 0)) (.slli (fld w 21 5) (fld w 16 5) (fld w 0 6))
  | 25 => accept (decide (code w 11 5 = 0)) (.srli (fld w 21 5) (fld w 16 5) (fld w 0 6))
  | 26 => accept (decide (code w 11 5 = 0)) (.srai (fld w 21 5) (fld w 16 5) (fld w 0 6))
  | 27 => accept (true) (.andi (fld w 21 5) (fld w 16 5) (fld2 w 11 5 0 6))
  | 28 => accept (true) (.ori (fld w 21 5) (fld w 16 5) (fld2 w 11 5 0 6))
  | 29 => accept (true) (.xori (fld w 21 5) (fld w 16 5) (fld2 w 11 5 0 6))
  | 30 => accept (true) (.slti (fld w 21 5) (fld w 16 5) (fld2 w 11 5 0 6))
  | 31 => accept (true) (.sltiu (fld w 21 5) (fld w 16 5) (fld2 w 11 5 0 6))
  | _ => .error .reservedEncoding

/-- Major 0x02. -/
def decodeMajor02 (w : BitVec 32) : Except DecodeError Instr :=
  accept (true) (.addi (fld w 21 5) (fld w 16 5) (fld w 0 16))

/-- Major 0x03. -/
def decodeMajor03 (w : BitVec 32) : Except DecodeError Instr :=
  accept (true) (.lui (fld w 21 5) (fld w 0 21))

/-- Major 0x04. -/
def decodeMajor04 (w : BitVec 32) : Except DecodeError Instr :=
  match code w 5 6 with
  | 0 => accept (true) (.fadd (fld w 21 5) (fld w 16 5) (fld w 11 5) (fld w 3 2) (fld w 0 3))
  | 1 => accept (true) (.fsub (fld w 21 5) (fld w 16 5) (fld w 11 5) (fld w 3 2) (fld w 0 3))
  | 2 => accept (true) (.fmul (fld w 21 5) (fld w 16 5) (fld w 11 5) (fld w 3 2) (fld w 0 3))
  | 3 => accept (true) (.fma (fld w 21 5) (fld w 16 5) (fld w 11 5) (fld w 3 2) (fld w 0 3))
  | 4 => accept (decide (code w 0 3 = 0)) (.fmin (fld w 21 5) (fld w 16 5) (fld w 11 5) (fld w 3 2))
  | 5 => accept (decide (code w 0 3 = 0)) (.fmax (fld w 21 5) (fld w 16 5) (fld w 11 5) (fld w 3 2))
  | 6 => accept (decide (code w 0 3 = 0)) (.feq (fld w 21 5) (fld w 16 5) (fld w 11 5) (fld w 3 2))
  | 7 => accept (decide (code w 0 3 = 0)) (.flt (fld w 21 5) (fld w 16 5) (fld w 11 5) (fld w 3 2))
  | 8 => accept (decide (code w 0 3 = 0)) (.fle (fld w 21 5) (fld w 16 5) (fld w 11 5) (fld w 3 2))
  | 9 => accept (decide (code w 11 5 = 0)) (.fcvtFpFp (fld w 21 5) (fld w 16 5) (fld w 3 2) (fld w 0 3))
  | 10 => accept (decide (code w 11 5 = 0)) (.fcvtToI64 (fld w 21 5) (fld w 16 5) (fld w 3 2) (fld w 0 3))
  | 11 => accept (decide (code w 11 5 = 0)) (.fcvtToN64 (fld w 21 5) (fld w 16 5) (fld w 3 2) (fld w 0 3))
  | 12 => accept (decide (code w 11 5 = 0)) (.fcvtFromI64 (fld w 21 5) (fld w 16 5) (fld w 3 2) (fld w 0 3))
  | 13 => accept (decide (code w 11 5 = 0)) (.fcvtFromN64 (fld w 21 5) (fld w 16 5) (fld w 3 2) (fld w 0 3))
  | _ => .error .reservedEncoding

/-- Major 0x05. -/
def decodeMajor05 (w : BitVec 32) : Except DecodeError Instr :=
  accept (true) (.ld (fld w 21 5) (fld w 16 5) (fld w 8 8) (fld w 4 4) (fld w 3 1) (fld w 0 3))

/-- Major 0x06. -/
def decodeMajor06 (w : BitVec 32) : Except DecodeError Instr :=
  accept (true) (.st (fld w 21 5) (fld w 16 5) (fld w 8 8) (fld w 4 4) (fld w 3 1) (fld w 0 3))

/-- Major 0x07. -/
def decodeMajor07 (w : BitVec 32) : Except DecodeError Instr :=
  match code w 13 3 with
  | 0 => accept (true) (.beq (fld w 21 5) (fld w 16 5) (fld w 0 13))
  | 1 => accept (true) (.bne (fld w 21 5) (fld w 16 5) (fld w 0 13))
  | 2 => accept (true) (.blt (fld w 21 5) (fld w 16 5) (fld w 0 13))
  | 3 => accept (true) (.bge (fld w 21 5) (fld w 16 5) (fld w 0 13))
  | 4 => accept (true) (.bltu (fld w 21 5) (fld w 16 5) (fld w 0 13))
  | 5 => accept (true) (.bgeu (fld w 21 5) (fld w 16 5) (fld w 0 13))
  | _ => .error .reservedEncoding

/-- Major 0x09. -/
def decodeMajor09 (w : BitVec 32) : Except DecodeError Instr :=
  match code w 7 4 with
  | 0 => accept (true) (.aadd ⟨fld w 21 5, fld w 16 5, fld w 11 5, fld w 6 1, fld w 4 2, fld w 1 3, fld w 0 1⟩)
  | 1 => accept (true) (.aswap ⟨fld w 21 5, fld w 16 5, fld w 11 5, fld w 6 1, fld w 4 2, fld w 1 3, fld w 0 1⟩)
  | 2 => accept (true) (.aand ⟨fld w 21 5, fld w 16 5, fld w 11 5, fld w 6 1, fld w 4 2, fld w 1 3, fld w 0 1⟩)
  | 3 => accept (true) (.aor ⟨fld w 21 5, fld w 16 5, fld w 11 5, fld w 6 1, fld w 4 2, fld w 1 3, fld w 0 1⟩)
  | 4 => accept (true) (.aminI ⟨fld w 21 5, fld w 16 5, fld w 11 5, fld w 6 1, fld w 4 2, fld w 1 3, fld w 0 1⟩)
  | 5 => accept (true) (.amaxI ⟨fld w 21 5, fld w 16 5, fld w 11 5, fld w 6 1, fld w 4 2, fld w 1 3, fld w 0 1⟩)
  | 6 => accept (true) (.aminN ⟨fld w 21 5, fld w 16 5, fld w 11 5, fld w 6 1, fld w 4 2, fld w 1 3, fld w 0 1⟩)
  | 7 => accept (true) (.amaxN ⟨fld w 21 5, fld w 16 5, fld w 11 5, fld w 6 1, fld w 4 2, fld w 1 3, fld w 0 1⟩)
  | 8 => accept (true) (.acas ⟨fld w 21 5, fld w 16 5, fld w 11 5, fld w 6 1, fld w 4 2, fld w 1 3, fld w 0 1⟩)
  | _ => .error .reservedEncoding

/-- Major 0x0A. -/
def decodeMajor0A (w : BitVec 32) : Except DecodeError Instr :=
  match code w 6 5 with
  | 0 => accept (decide (code w 0 3 = 0 ∧ code w 11 15 = 0)) (.fenceSv (fld w 3 3))
  | 1 => accept (decide (code w 0 3 = 0 ∧ code w 11 15 = 0)) (.fenceVs (fld w 3 3))
  | 2 => accept (decide (code w 0 3 = 0 ∧ code w 11 15 = 0)) (.fenceVv (fld w 3 3))
  | 3 => accept (decide (code w 0 3 = 0 ∧ code w 11 15 = 0)) (.fenceAll (fld w 3 3))
  | 4 => accept (decide (code w 0 3 = 0 ∧ code w 11 15 = 0)) (.fenceBinsRel (fld w 3 3))
  | 5 => accept (decide (code w 0 6 = 0 ∧ code w 16 10 = 0)) (.tkpush (fld w 11 5))
  | 6 => accept (decide (code w 0 6 = 0 ∧ code w 16 10 = 0)) (.tkpop (fld w 11 5))
  | 7 => accept (decide (code w 0 6 = 0 ∧ code w 11 5 = 0)) (.wtime (fld w 21 5) (fld w 16 5))
  | _ => .error .reservedEncoding

/-- Major 0x0B. -/
def decodeMajor0B (w : BitVec 32) : Except DecodeError Instr :=
  match code w 12 4 with
  | 0 => accept (decide (code w 16 5 = 0)) (.mfs (fld w 21 5) (fld w 0 12))
  | 1 => accept (decide (code w 21 5 = 0)) (.mts (fld w 16 5) (fld w 0 12))
  | 2 => accept (decide (code w 0 12 = 0)) (.glaunch (fld w 21 5) (fld w 16 5))
  | 3 => accept (decide (code w 2 10 = 0 ∧ code w 16 10 = 0)) (.gbar (fld w 0 2))
  | 4 => accept (decide (code w 0 12 = 0 ∧ code w 21 5 = 0)) (.hsusp (fld w 16 5))
  | 5 => accept (decide (code w 0 12 = 0)) (.hsave (fld w 21 5) (fld w 16 5))
  | 6 => accept (decide (code w 0 12 = 0)) (.hload (fld w 21 5) (fld w 16 5))
  | 7 => accept (decide (code w 0 12 = 0 ∧ code w 16 10 = 0)) .tret
  | 8 => accept (decide (code w 0 12 = 0 ∧ code w 16 10 = 0)) .hend
  | _ => .error .reservedEncoding

/-- Major 0x10. -/
def decodeMajor10 (w : BitVec 32) : Except DecodeError Instr :=
  accept (decide (code w 4 4 = 0)) (.pfx (fld w 21 5) (fld w 16 5) (fld w 12 4) (fld w 8 4) (fld w 0 4))

/-- Major 0x11. -/
def decodeMajor11 (w : BitVec 32) : Except DecodeError Instr :=
  match code w 6 5 with
  | 0 => accept (decide (code w 12 4 = 0 ∧ code w 25 1 = 0)) (.qld (fld w 21 4) (fld w 16 5) (fld w 11 1) (fld w 0 6))
  | 1 => accept (decide (code w 0 6 = 0 ∧ code w 11 5 = 0 ∧ code w 25 1 = 0)) (.qbase (fld w 21 4) (fld w 16 5))
  | 2 => accept (decide (code w 0 6 = 0 ∧ code w 11 5 = 0 ∧ code w 25 1 = 0)) (.qstride (fld w 21 4) (fld w 16 5))
  | 3 => accept (decide (code w 0 6 = 0 ∧ code w 11 5 = 0 ∧ code w 25 1 = 0)) (.qbound (fld w 21 4) (fld w 16 5))
  | 4 => accept (decide (code w 0 6 = 0 ∧ code w 11 5 = 0 ∧ code w 25 1 = 0)) (.qcur (fld w 21 4) (fld w 16 5))
  | 5 => accept (decide (code w 0 6 = 0 ∧ code w 11 5 = 0 ∧ code w 25 1 = 0)) (.qcfg (fld w 21 4) (fld w 16 5))
  | 6 => accept (decide (code w 15 6 = 0)) (.qget (fld w 21 5) (fld w 11 4) (fld w 0 6))
  | 7 => accept (decide (code w 0 6 = 0 ∧ code w 11 10 = 0 ∧ code w 25 1 = 0)) (.qrel (fld w 21 4))
  | 8 => accept (decide (code w 0 6 = 0 ∧ code w 11 5 = 0)) (.qprobe (fld w 21 5) (fld w 16 5))
  | _ => .error .reservedEncoding

/-- Major 0x12. -/
def decodeMajor12 (w : BitVec 32) : Except DecodeError Instr :=
  match code w 21 5 with
  | 0 => accept (decide (code w 16 1 = 0)) (.sbar (fld w 20 1) (fld w 17 3) (fld w 0 16))
  | 1 => accept (decide (code w 0 7 = 0)) (.qwatch (fld w 16 5) (fld w 11 5) (fld w 7 4))
  | 2 => accept (decide (code w 0 7 = 0 ∧ code w 11 10 = 0)) (.qunwatch (fld w 7 4))
  | 3 => accept (decide (code w 0 7 = 0)) (.qwait (fld w 16 5) (fld w 11 5) (fld w 7 4))
  | 4 => accept (decide (code w 0 8 = 0)) (.wmpub (fld w 16 5) (fld w 11 5) (fld w 8 3))
  | _ => .error .reservedEncoding

/-- Major 0x14. -/
def decodeMajor14 (w : BitVec 32) : Except DecodeError Instr :=
  match code w 4 7 with
  | 0 => accept (decide (code w 0 2 = 0 ∧ code w 3 1 = 0 ∧ code w 11 5 = 0)) (.vsetl (fld w 21 5) (fld w 16 5) (fld w 2 1))
  | 1 => accept (decide (code w 0 2 = 0 ∧ code w 3 1 = 0 ∧ code w 11 1 = 0 ∧ code w 16 1 = 0)) (.vsettype (fld w 21 5) (fld w 17 4) (fld w 14 2) (fld w 12 2) (fld w 2 1))
  | _ => .error .reservedEncoding

/-- Major 0x15. -/
def decodeMajor15 (w : BitVec 32) : Except DecodeError Instr :=
  if code w 10 1 = 1 then
    match code w 4 6 with
    | 0 => accept (decide (code w 11 5 = 0)) (.vmov ⟨fld w 21 5, fld w 16 5, fld w 3 1, fld w 2 1, fld w 0 2⟩)
    | 1 => accept (decide (code w 11 5 = 0)) (.vbcast ⟨fld w 21 5, fld w 16 5, fld w 3 1, fld w 2 1, fld w 0 2⟩)
    | 2 => accept (decide (code w 11 10 = 0)) (.vid (fld w 21 5) (fld w 3 1) (fld w 2 1) (fld w 0 2))
    | _ => .error .reservedEncoding
  else
    match code w 4 5 with
    | 0 => accept (true) (.vadd ⟨fld w 21 5, fld w 16 5, fld w 11 5, fld w 9 1, fld w 3 1, fld w 2 1, fld w 0 2⟩)
    | 1 => accept (true) (.vsub ⟨fld w 21 5, fld w 16 5, fld w 11 5, fld w 9 1, fld w 3 1, fld w 2 1, fld w 0 2⟩)
    | 2 => accept (true) (.vmul ⟨fld w 21 5, fld w 16 5, fld w 11 5, fld w 9 1, fld w 3 1, fld w 2 1, fld w 0 2⟩)
    | 3 => accept (true) (.vmulhI ⟨fld w 21 5, fld w 16 5, fld w 11 5, fld w 9 1, fld w 3 1, fld w 2 1, fld w 0 2⟩)
    | 4 => accept (true) (.vmulhN ⟨fld w 21 5, fld w 16 5, fld w 11 5, fld w 9 1, fld w 3 1, fld w 2 1, fld w 0 2⟩)
    | 5 => accept (true) (.vdivI ⟨fld w 21 5, fld w 16 5, fld w 11 5, fld w 9 1, fld w 3 1, fld w 2 1, fld w 0 2⟩)
    | 6 => accept (true) (.vdivN ⟨fld w 21 5, fld w 16 5, fld w 11 5, fld w 9 1, fld w 3 1, fld w 2 1, fld w 0 2⟩)
    | 7 => accept (true) (.vremI ⟨fld w 21 5, fld w 16 5, fld w 11 5, fld w 9 1, fld w 3 1, fld w 2 1, fld w 0 2⟩)
    | 8 => accept (true) (.vremN ⟨fld w 21 5, fld w 16 5, fld w 11 5, fld w 9 1, fld w 3 1, fld w 2 1, fld w 0 2⟩)
    | 9 => accept (true) (.vminI ⟨fld w 21 5, fld w 16 5, fld w 11 5, fld w 9 1, fld w 3 1, fld w 2 1, fld w 0 2⟩)
    | 10 => accept (true) (.vmaxI ⟨fld w 21 5, fld w 16 5, fld w 11 5, fld w 9 1, fld w 3 1, fld w 2 1, fld w 0 2⟩)
    | 11 => accept (true) (.vminN ⟨fld w 21 5, fld w 16 5, fld w 11 5, fld w 9 1, fld w 3 1, fld w 2 1, fld w 0 2⟩)
    | 12 => accept (true) (.vmaxN ⟨fld w 21 5, fld w 16 5, fld w 11 5, fld w 9 1, fld w 3 1, fld w 2 1, fld w 0 2⟩)
    | 13 => accept (true) (.vand ⟨fld w 21 5, fld w 16 5, fld w 11 5, fld w 9 1, fld w 3 1, fld w 2 1, fld w 0 2⟩)
    | 14 => accept (true) (.vor ⟨fld w 21 5, fld w 16 5, fld w 11 5, fld w 9 1, fld w 3 1, fld w 2 1, fld w 0 2⟩)
    | 15 => accept (true) (.vxor ⟨fld w 21 5, fld w 16 5, fld w 11 5, fld w 9 1, fld w 3 1, fld w 2 1, fld w 0 2⟩)
    | 16 => accept (true) (.vsll ⟨fld w 21 5, fld w 16 5, fld w 11 5, fld w 9 1, fld w 3 1, fld w 2 1, fld w 0 2⟩)
    | 17 => accept (true) (.vsrl ⟨fld w 21 5, fld w 16 5, fld w 11 5, fld w 9 1, fld w 3 1, fld w 2 1, fld w 0 2⟩)
    | 18 => accept (true) (.vsra ⟨fld w 21 5, fld w 16 5, fld w 11 5, fld w 9 1, fld w 3 1, fld w 2 1, fld w 0 2⟩)
    | 19 => accept (true) (.vaddSatI ⟨fld w 21 5, fld w 16 5, fld w 11 5, fld w 9 1, fld w 3 1, fld w 2 1, fld w 0 2⟩)
    | 20 => accept (true) (.vaddSatN ⟨fld w 21 5, fld w 16 5, fld w 11 5, fld w 9 1, fld w 3 1, fld w 2 1, fld w 0 2⟩)
    | 21 => accept (true) (.vsubSatI ⟨fld w 21 5, fld w 16 5, fld w 11 5, fld w 9 1, fld w 3 1, fld w 2 1, fld w 0 2⟩)
    | 22 => accept (true) (.vsubSatN ⟨fld w 21 5, fld w 16 5, fld w 11 5, fld w 9 1, fld w 3 1, fld w 2 1, fld w 0 2⟩)
    | 23 => accept (true) (.vmacc ⟨fld w 21 5, fld w 16 5, fld w 11 5, fld w 9 1, fld w 3 1, fld w 2 1, fld w 0 2⟩)
    | 24 => accept (true) (.vmeq ⟨fld w 21 5, fld w 16 5, fld w 11 5, fld w 9 1, fld w 3 1, fld w 2 1, fld w 0 2⟩)
    | 25 => accept (true) (.vmne ⟨fld w 21 5, fld w 16 5, fld w 11 5, fld w 9 1, fld w 3 1, fld w 2 1, fld w 0 2⟩)
    | 26 => accept (true) (.vmltI ⟨fld w 21 5, fld w 16 5, fld w 11 5, fld w 9 1, fld w 3 1, fld w 2 1, fld w 0 2⟩)
    | 27 => accept (true) (.vmleI ⟨fld w 21 5, fld w 16 5, fld w 11 5, fld w 9 1, fld w 3 1, fld w 2 1, fld w 0 2⟩)
    | 28 => accept (true) (.vmltN ⟨fld w 21 5, fld w 16 5, fld w 11 5, fld w 9 1, fld w 3 1, fld w 2 1, fld w 0 2⟩)
    | 29 => accept (true) (.vmleN ⟨fld w 21 5, fld w 16 5, fld w 11 5, fld w 9 1, fld w 3 1, fld w 2 1, fld w 0 2⟩)
    | _ => .error .reservedEncoding

/-- Major 0x16. -/
def decodeMajor16 (w : BitVec 32) : Except DecodeError Instr :=
  match code w 4 5 with
  | 0 => accept (decide (code w 10 1 = 0)) (.vaddFp ⟨fld w 21 5, fld w 16 5, fld w 11 5, fld w 9 1, fld w 3 1, fld w 2 1, fld w 0 2⟩)
  | 1 => accept (decide (code w 10 1 = 0)) (.vsubFp ⟨fld w 21 5, fld w 16 5, fld w 11 5, fld w 9 1, fld w 3 1, fld w 2 1, fld w 0 2⟩)
  | 2 => accept (decide (code w 10 1 = 0)) (.vmulFp ⟨fld w 21 5, fld w 16 5, fld w 11 5, fld w 9 1, fld w 3 1, fld w 2 1, fld w 0 2⟩)
  | 3 => accept (decide (code w 10 1 = 0)) (.vdivFp ⟨fld w 21 5, fld w 16 5, fld w 11 5, fld w 9 1, fld w 3 1, fld w 2 1, fld w 0 2⟩)
  | 4 => accept (decide (code w 10 1 = 0)) (.vfma ⟨fld w 21 5, fld w 16 5, fld w 11 5, fld w 9 1, fld w 3 1, fld w 2 1, fld w 0 2⟩)
  | 5 => accept (decide (code w 10 1 = 0)) (.vfms ⟨fld w 21 5, fld w 16 5, fld w 11 5, fld w 9 1, fld w 3 1, fld w 2 1, fld w 0 2⟩)
  | 6 => accept (decide (code w 10 1 = 0)) (.vfnma ⟨fld w 21 5, fld w 16 5, fld w 11 5, fld w 9 1, fld w 3 1, fld w 2 1, fld w 0 2⟩)
  | 7 => accept (decide (code w 9 7 = 0)) (.vsqrt ⟨fld w 21 5, fld w 16 5, fld w 3 1, fld w 2 1, fld w 0 2⟩)
  | 8 => accept (decide (code w 10 1 = 0)) (.vminFp ⟨fld w 21 5, fld w 16 5, fld w 11 5, fld w 9 1, fld w 3 1, fld w 2 1, fld w 0 2⟩)
  | 9 => accept (decide (code w 10 1 = 0)) (.vmaxFp ⟨fld w 21 5, fld w 16 5, fld w 11 5, fld w 9 1, fld w 3 1, fld w 2 1, fld w 0 2⟩)
  | 10 => accept (decide (code w 9 7 = 0)) (.vabs ⟨fld w 21 5, fld w 16 5, fld w 3 1, fld w 2 1, fld w 0 2⟩)
  | 11 => accept (decide (code w 9 7 = 0)) (.vneg ⟨fld w 21 5, fld w 16 5, fld w 3 1, fld w 2 1, fld w 0 2⟩)
  | 12 => accept (decide (code w 10 1 = 0)) (.vmfeq ⟨fld w 21 5, fld w 16 5, fld w 11 5, fld w 9 1, fld w 3 1, fld w 2 1, fld w 0 2⟩)
  | 13 => accept (decide (code w 10 1 = 0)) (.vmfne ⟨fld w 21 5, fld w 16 5, fld w 11 5, fld w 9 1, fld w 3 1, fld w 2 1, fld w 0 2⟩)
  | 14 => accept (decide (code w 10 1 = 0)) (.vmflt ⟨fld w 21 5, fld w 16 5, fld w 11 5, fld w 9 1, fld w 3 1, fld w 2 1, fld w 0 2⟩)
  | 15 => accept (decide (code w 10 1 = 0)) (.vmfle ⟨fld w 21 5, fld w 16 5, fld w 11 5, fld w 9 1, fld w 3 1, fld w 2 1, fld w 0 2⟩)
  | _ => .error .reservedEncoding

/-- Major 0x17. -/
def decodeMajor17 (w : BitVec 32) : Except DecodeError Instr :=
  match code w 4 7 with
  | 0 => accept (true) (.vcvtFpToIeee ⟨fld w 21 5, fld w 16 5, fld w 14 2, fld w 11 3, fld w 3 1, fld w 2 1, fld w 0 2⟩)
  | 1 => accept (true) (.vcvtFpToBf16 ⟨fld w 21 5, fld w 16 5, fld w 14 2, fld w 11 3, fld w 3 1, fld w 2 1, fld w 0 2⟩)
  | 2 => accept (true) (.vcvtFpToE4m3 ⟨fld w 21 5, fld w 16 5, fld w 14 2, fld w 11 3, fld w 3 1, fld w 2 1, fld w 0 2⟩)
  | 3 => accept (true) (.vcvtFpToE5m2 ⟨fld w 21 5, fld w 16 5, fld w 14 2, fld w 11 3, fld w 3 1, fld w 2 1, fld w 0 2⟩)
  | 4 => accept (true) (.vcvtFpToI ⟨fld w 21 5, fld w 16 5, fld w 14 2, fld w 11 3, fld w 3 1, fld w 2 1, fld w 0 2⟩)
  | 5 => accept (true) (.vcvtFpToN ⟨fld w 21 5, fld w 16 5, fld w 14 2, fld w 11 3, fld w 3 1, fld w 2 1, fld w 0 2⟩)
  | 6 => accept (true) (.vcvtIToIeee ⟨fld w 21 5, fld w 16 5, fld w 14 2, fld w 11 3, fld w 3 1, fld w 2 1, fld w 0 2⟩)
  | 7 => accept (true) (.vcvtIToBf16 ⟨fld w 21 5, fld w 16 5, fld w 14 2, fld w 11 3, fld w 3 1, fld w 2 1, fld w 0 2⟩)
  | 8 => accept (true) (.vcvtIToE4m3 ⟨fld w 21 5, fld w 16 5, fld w 14 2, fld w 11 3, fld w 3 1, fld w 2 1, fld w 0 2⟩)
  | 9 => accept (true) (.vcvtIToE5m2 ⟨fld w 21 5, fld w 16 5, fld w 14 2, fld w 11 3, fld w 3 1, fld w 2 1, fld w 0 2⟩)
  | 10 => accept (true) (.vcvtNToIeee ⟨fld w 21 5, fld w 16 5, fld w 14 2, fld w 11 3, fld w 3 1, fld w 2 1, fld w 0 2⟩)
  | 11 => accept (true) (.vcvtNToBf16 ⟨fld w 21 5, fld w 16 5, fld w 14 2, fld w 11 3, fld w 3 1, fld w 2 1, fld w 0 2⟩)
  | 12 => accept (true) (.vcvtNToE4m3 ⟨fld w 21 5, fld w 16 5, fld w 14 2, fld w 11 3, fld w 3 1, fld w 2 1, fld w 0 2⟩)
  | 13 => accept (true) (.vcvtNToE5m2 ⟨fld w 21 5, fld w 16 5, fld w 14 2, fld w 11 3, fld w 3 1, fld w 2 1, fld w 0 2⟩)
  | 14 => accept (true) (.vcvtIntToI ⟨fld w 21 5, fld w 16 5, fld w 14 2, fld w 11 3, fld w 3 1, fld w 2 1, fld w 0 2⟩)
  | 15 => accept (true) (.vcvtIntToN ⟨fld w 21 5, fld w 16 5, fld w 14 2, fld w 11 3, fld w 3 1, fld w 2 1, fld w 0 2⟩)
  | 16 => accept (true) (.vwmulI ⟨fld w 21 5, fld w 16 5, fld w 11 5, fld w 3 1, fld w 2 1, fld w 0 2⟩)
  | 17 => accept (true) (.vwmulN ⟨fld w 21 5, fld w 16 5, fld w 11 5, fld w 3 1, fld w 2 1, fld w 0 2⟩)
  | 18 => accept (true) (.vwmaccI ⟨fld w 21 5, fld w 16 5, fld w 11 5, fld w 3 1, fld w 2 1, fld w 0 2⟩)
  | 19 => accept (true) (.vwmaccN ⟨fld w 21 5, fld w 16 5, fld w 11 5, fld w 3 1, fld w 2 1, fld w 0 2⟩)
  | 20 => accept (true) (.vwmulFp ⟨fld w 21 5, fld w 16 5, fld w 11 5, fld w 3 1, fld w 2 1, fld w 0 2⟩)
  | 21 => accept (true) (.vwmaccFp ⟨fld w 21 5, fld w 16 5, fld w 11 5, fld w 3 1, fld w 2 1, fld w 0 2⟩)
  | 22 => accept (decide (code w 0 2 = 0)) (.vdot4I8 (fld w 21 5) (fld w 16 5) (fld w 11 5) (fld w 3 1) (fld w 2 1))
  | 23 => accept (decide (code w 0 2 = 0)) (.vdot4N8 (fld w 21 5) (fld w 16 5) (fld w 11 5) (fld w 3 1) (fld w 2 1))
  | 24 => accept (true) (.vsmul ⟨fld w 21 5, fld w 16 5, fld w 11 5, fld w 3 1, fld w 2 1, fld w 0 2⟩)
  | 25 => accept (true) (.vsmacc ⟨fld w 21 5, fld w 16 5, fld w 11 5, fld w 3 1, fld w 2 1, fld w 0 2⟩)
  | _ => .error .reservedEncoding

/-- Major 0x18. -/
def decodeMajor18 (w : BitVec 32) : Except DecodeError Instr :=
  match code w 4 7 with
  | 0 => accept (true) (.vredsum ⟨fld w 21 5, fld w 16 5, fld w 11 5, fld w 3 1, fld w 2 1, fld w 0 2⟩)
  | 1 => accept (true) (.vredosum ⟨fld w 21 5, fld w 16 5, fld w 11 5, fld w 3 1, fld w 2 1, fld w 0 2⟩)
  | 2 => accept (true) (.vredmax ⟨fld w 21 5, fld w 16 5, fld w 11 5, fld w 3 1, fld w 2 1, fld w 0 2⟩)
  | 3 => accept (true) (.vredmin ⟨fld w 21 5, fld w 16 5, fld w 11 5, fld w 3 1, fld w 2 1, fld w 0 2⟩)
  | 4 => accept (true) (.vredmaxN ⟨fld w 21 5, fld w 16 5, fld w 11 5, fld w 3 1, fld w 2 1, fld w 0 2⟩)
  | 5 => accept (true) (.vredminN ⟨fld w 21 5, fld w 16 5, fld w 11 5, fld w 3 1, fld w 2 1, fld w 0 2⟩)
  | 6 => accept (true) (.vredand ⟨fld w 21 5, fld w 16 5, fld w 11 5, fld w 3 1, fld w 2 1, fld w 0 2⟩)
  | 7 => accept (true) (.vredor ⟨fld w 21 5, fld w 16 5, fld w 11 5, fld w 3 1, fld w 2 1, fld w 0 2⟩)
  | 8 => accept (true) (.vredxor ⟨fld w 21 5, fld w 16 5, fld w 11 5, fld w 3 1, fld w 2 1, fld w 0 2⟩)
  | 9 => accept (decide (code w 11 5 = 0)) (.vscan ⟨fld w 21 5, fld w 16 5, fld w 3 1, fld w 2 1, fld w 0 2⟩)
  | 10 => accept (decide (code w 11 5 = 0)) (.vscano ⟨fld w 21 5, fld w 16 5, fld w 3 1, fld w 2 1, fld w 0 2⟩)
  | 11 => accept (decide (code w 11 5 = 0)) (.vscanmax ⟨fld w 21 5, fld w 16 5, fld w 3 1, fld w 2 1, fld w 0 2⟩)
  | 12 => accept (decide (code w 11 5 = 0)) (.vscanmin ⟨fld w 21 5, fld w 16 5, fld w 3 1, fld w 2 1, fld w 0 2⟩)
  | 13 => accept (decide (code w 11 5 = 0)) (.vscanmaxN ⟨fld w 21 5, fld w 16 5, fld w 3 1, fld w 2 1, fld w 0 2⟩)
  | 14 => accept (decide (code w 11 5 = 0)) (.vscanminN ⟨fld w 21 5, fld w 16 5, fld w 3 1, fld w 2 1, fld w 0 2⟩)
  | _ => .error .reservedEncoding

/-- Major 0x19. -/
def decodeMajor19 (w : BitVec 32) : Except DecodeError Instr :=
  match code w 4 7 with
  | 0 => accept (true) (.vrgath ⟨fld w 21 5, fld w 16 5, fld w 11 5, fld w 3 1, fld w 2 1, fld w 0 2⟩)
  | 1 => accept (true) (.vslideup ⟨fld w 21 5, fld w 16 5, fld w 11 5, fld w 3 1, fld w 2 1, fld w 0 2⟩)
  | 2 => accept (true) (.vslidedn ⟨fld w 21 5, fld w 16 5, fld w 11 5, fld w 3 1, fld w 2 1, fld w 0 2⟩)
  | 3 => accept (true) (.vslide1up ⟨fld w 21 5, fld w 16 5, fld w 11 5, fld w 3 1, fld w 2 1, fld w 0 2⟩)
  | 4 => accept (true) (.vslide1dn ⟨fld w 21 5, fld w 16 5, fld w 11 5, fld w 3 1, fld w 2 1, fld w 0 2⟩)
  | 5 => accept (decide (code w 11 5 = 0)) (.vcomp ⟨fld w 21 5, fld w 16 5, fld w 3 1, fld w 2 1, fld w 0 2⟩)
  | 6 => accept (decide (code w 11 5 = 0)) (.vexpand ⟨fld w 21 5, fld w 16 5, fld w 3 1, fld w 2 1, fld w 0 2⟩)
  | 7 => accept (decide (code w 3 1 = 0 ∧ code w 11 5 = 0)) (.vmvS (fld w 21 5) (fld w 16 5) (fld w 2 1) (fld w 0 2))
  | 8 => accept (decide (code w 3 1 = 0 ∧ code w 11 5 = 0)) (.vmvV (fld w 21 5) (fld w 16 5) (fld w 2 1) (fld w 0 2))
  | 9 => accept (decide (code w 3 1 = 0)) (.vmvX (fld w 21 5) (fld w 16 5) (fld w 11 5) (fld w 2 1) (fld w 0 2))
  | _ => .error .reservedEncoding

/-- Major 0x1A. -/
def decodeMajor1A (w : BitVec 32) : Except DecodeError Instr :=
  match code w 4 7 with
  | 0 => accept (decide (code w 0 2 = 0 ∧ code w 3 1 = 0)) (.vmand (fld w 21 5) (fld w 16 5) (fld w 11 5) (fld w 2 1))
  | 1 => accept (decide (code w 0 2 = 0 ∧ code w 3 1 = 0)) (.vmor (fld w 21 5) (fld w 16 5) (fld w 11 5) (fld w 2 1))
  | 2 => accept (decide (code w 0 2 = 0 ∧ code w 3 1 = 0)) (.vmxor (fld w 21 5) (fld w 16 5) (fld w 11 5) (fld w 2 1))
  | 3 => accept (decide (code w 0 2 = 0 ∧ code w 3 1 = 0)) (.vmandn (fld w 21 5) (fld w 16 5) (fld w 11 5) (fld w 2 1))
  | 4 => accept (decide (code w 0 2 = 0 ∧ code w 3 1 = 0 ∧ code w 11 5 = 0)) (.vmnot (fld w 21 5) (fld w 16 5) (fld w 2 1))
  | 5 => accept (decide (code w 0 2 = 0 ∧ code w 11 5 = 0)) (.vpop (fld w 21 5) (fld w 16 5) (fld w 3 1) (fld w 2 1))
  | 6 => accept (decide (code w 0 2 = 0 ∧ code w 11 5 = 0)) (.vfirst (fld w 21 5) (fld w 16 5) (fld w 3 1) (fld w 2 1))
  | 7 => accept (decide (code w 0 2 = 0 ∧ code w 11 5 = 0)) (.vmsbf (fld w 21 5) (fld w 16 5) (fld w 3 1) (fld w 2 1))
  | 8 => accept (decide (code w 0 2 = 0 ∧ code w 11 5 = 0)) (.vmsif (fld w 21 5) (fld w 16 5) (fld w 3 1) (fld w 2 1))
  | 9 => accept (decide (code w 0 2 = 0 ∧ code w 11 5 = 0)) (.vmsof (fld w 21 5) (fld w 16 5) (fld w 3 1) (fld w 2 1))
  | 10 => accept (decide (code w 11 5 = 0)) (.vconf ⟨fld w 21 5, fld w 16 5, fld w 3 1, fld w 2 1, fld w 0 2⟩)
  | 11 => accept (true) (.vconfm ⟨fld w 21 5, fld w 16 5, fld w 11 5, fld w 3 1, fld w 2 1, fld w 0 2⟩)
  | 12 => accept (decide (code w 0 2 = 0 ∧ code w 11 5 = 0)) (.vpart (fld w 21 5) (fld w 16 5) (fld w 3 1) (fld w 2 1))
  | 13 => accept (decide (code w 0 2 = 0 ∧ code w 11 5 = 0)) (.vrun (fld w 21 5) (fld w 16 5) (fld w 3 1) (fld w 2 1))
  | 14 => accept (decide (code w 0 2 = 0 ∧ code w 3 1 = 0 ∧ code w 11 10 = 0)) (.vmset (fld w 21 5) (fld w 2 1))
  | 15 => accept (decide (code w 0 2 = 0 ∧ code w 3 1 = 0 ∧ code w 11 10 = 0)) (.vmclr (fld w 21 5) (fld w 2 1))
  | _ => .error .reservedEncoding

/-- Major 0x1B. -/
def decodeMajor1B (w : BitVec 32) : Except DecodeError Instr :=
  match code w 4 7 with
  | 0 => accept (decide (code w 0 2 = 0 ∧ code w 15 6 = 0)) (.vld (fld w 21 5) (fld w 11 4) (fld w 3 1) (fld w 2 1))
  | 1 => accept (decide (code w 0 2 = 0 ∧ code w 15 6 = 0)) (.vldff (fld w 21 5) (fld w 11 4) (fld w 3 1) (fld w 2 1))
  | 2 => accept (decide (code w 0 2 = 0 ∧ code w 15 6 = 0)) (.vst (fld w 21 5) (fld w 11 4) (fld w 3 1) (fld w 2 1))
  | 3 => accept (decide (code w 0 2 = 0 ∧ code w 15 1 = 0)) (.vldx (fld w 21 5) (fld w 16 5) (fld w 11 4) (fld w 3 1) (fld w 2 1))
  | 4 => accept (decide (code w 0 2 = 0 ∧ code w 15 1 = 0)) (.vstx (fld w 21 5) (fld w 16 5) (fld w 11 4) (fld w 3 1) (fld w 2 1))
  | 5 => accept (decide (code w 0 2 = 0 ∧ code w 15 1 = 0)) (.vstxu (fld w 21 5) (fld w 16 5) (fld w 11 4) (fld w 3 1) (fld w 2 1))
  | 6 => accept (decide (code w 0 2 = 0 ∧ code w 15 1 = 0)) (.vsadd (fld w 21 5) (fld w 16 5) (fld w 11 4) (fld w 3 1) (fld w 2 1))
  | 7 => accept (decide (code w 0 2 = 0 ∧ code w 3 1 = 0 ∧ code w 15 6 = 0)) (.vwait (fld w 21 5) (fld w 11 4) (fld w 2 1))
  | 8 => accept (decide (code w 0 2 = 0 ∧ code w 3 1 = 0 ∧ code w 15 11 = 0)) (.vcbld (fld w 11 4) (fld w 2 1))
  | _ => .error .reservedEncoding

/-- Major 0x20. -/
def decodeMajor20 (w : BitVec 32) : Except DecodeError Instr :=
  match code w 7 4 with
  | 0 => accept (decide (code w 11 5 = 0)) (.mmr (fld w 21 5) (fld w 16 5) (fld w 4 3) (fld w 3 1) (fld w 2 1) (fld w 0 2))
  | 1 => accept (decide (code w 11 5 = 0)) (.mms (fld w 21 5) (fld w 16 5) (fld w 4 3) (fld w 3 1) (fld w 2 1) (fld w 0 2))
  | 2 => accept (true) (.mmqSq (fld w 21 5) (fld w 16 5) (fld w 11 5) (fld w 4 3) (fld w 3 1) (fld w 2 1) (fld w 0 2))
  | 3 => accept (true) (.mmqAb (fld w 21 5) (fld w 16 5) (fld w 11 5) (fld w 4 3) (fld w 3 1) (fld w 2 1) (fld w 0 2))
  | 4 => accept (true) (.mmsp (fld w 21 5) (fld w 16 5) (fld w 11 5) (fld w 4 3) (fld w 3 1) (fld w 2 1) (fld w 0 2))
  | _ => .error .reservedEncoding

/-- Major 0x21. -/
def decodeMajor21 (w : BitVec 32) : Except DecodeError Instr :=
  match code w 7 4 with
  | 0 => accept (decide (code w 3 1 = 0 ∧ code w 11 5 = 0 ∧ code w 21 5 = 0)) (.mldWb (fld w 16 5) (fld w 4 3) (fld w 2 1) (fld w 0 2))
  | 1 => accept (decide (code w 3 1 = 0 ∧ code w 11 5 = 0 ∧ code w 21 5 = 0)) (.mldSq (fld w 16 5) (fld w 4 3) (fld w 2 1) (fld w 0 2))
  | 2 => accept (decide (code w 3 4 = 14 ∧ code w 11 5 = 0 ∧ code w 21 5 = 0)) (.mldsWb (fld w 16 5) (fld w 2 1) (fld w 0 2))
  | 3 => accept (decide (code w 3 4 = 14 ∧ code w 11 5 = 0 ∧ code w 21 5 = 0)) (.mldsSq (fld w 16 5) (fld w 2 1) (fld w 0 2))
  | _ => .error .reservedEncoding

/-- Major 0x22. -/
def decodeMajor22 (w : BitVec 32) : Except DecodeError Instr :=
  match code w 7 4 with
  | 0 => accept (decide (code w 0 2 = 0 ∧ code w 4 3 = 0 ∧ code w 16 5 = 0)) (.mclr (fld w 21 5) (fld w 11 5) (fld w 3 1) (fld w 2 1))
  | 1 => accept (decide (code w 0 2 = 0 ∧ code w 4 3 = 0 ∧ code w 11 5 = 0)) (.mrd (fld w 21 5) (fld w 16 5) (fld w 3 1) (fld w 2 1))
  | 2 => accept (decide (code w 0 2 = 0 ∧ code w 4 3 = 0)) (.mmov (fld w 21 5) (fld w 16 5) (fld w 11 5) (fld w 3 1) (fld w 2 1))
  | _ => .error .reservedEncoding

/-- Major 0x26. -/
noncomputable def decodeMajor26 (w : BitVec 32) : Except DecodeError Instr :=
  match code w 7 4 with
  | 0 => if code w 5 1 = 0 then accept (decide (code w 0 5 = 0 ∧ code w 11 5 = 0)) (.bayTakeFix (fld w 21 5) (fld w 16 5) (fld w 6 1)) else accept (decide (code w 0 5 = 0)) (.bayTakeNeg (fld w 21 5) (fld w 16 5) (fld w 11 5) (fld w 6 1))
  | 1 => accept (decide (code w 0 7 = 0 ∧ code w 11 5 = 0 ∧ code w 21 5 = 0)) (.bayGive (fld w 16 5))
  | 2 =>
    match code w 5 2 with
    | 0 => accept (decide (code w 0 5 = 0 ∧ code w 11 15 = 0)) .bayRetFin
    | 1 => accept (decide (code w 0 5 = 0 ∧ code w 11 15 = 0)) .bayRetSum
    | 2 => accept (decide (code w 0 5 = 0 ∧ code w 11 15 = 0)) .bayRetRef
    | _ => .error .reservedEncoding
  | _ => .error .reservedEncoding

/-- Major 0x27. -/
noncomputable def decodeMajor27 (w : BitVec 32) : Except DecodeError Instr :=
  match code w 7 4 with
  | 0 => accept (decide (code w 0 3 = 0 ∧ code w 11 5 = 0)) (.smpReq (fld w 21 5) (fld w 16 5) (fld w 6 1) (fld w 3 3))
  | 1 => accept (decide (code w 0 6 = 0)) (.smpTld (fld w 21 5) (fld w 16 5) (fld w 11 5) (fld w 6 1))
  | 2 => accept (decide (code w 0 6 = 0)) (.smpTst (fld w 21 5) (fld w 16 5) (fld w 11 5) (fld w 6 1))
  | 3 => accept (decide (code w 0 6 = 0)) (.smpPld (fld w 21 5) (fld w 16 5) (fld w 11 5) (fld w 6 1))
  | _ => .error .reservedEncoding

/-- Major 0x08, decoded by sel (R81). -/
def decodeMajor08 (w : BitVec 32) : Except DecodeError Instr :=
  match code w 21 5 with
  | 0 => accept (true) (.j (fld w 0 21))
  | 1 => accept (true) (.call (fld w 0 21))
  | 2 => if code w 15 1 = 0 then accept (decide (code w 0 15 = 0)) (.jr (fld w 16 5)) else accept (decide (code w 0 15 = 0)) (.callr (fld w 16 5))
  | _ => accept (true) (.aupc (fld w 21 5) (fld w 0 21))

/-- Majors 0x24 and 0x25 (R187, R188). -/
def decodeCopy (w : BitVec 32) : Except DecodeError Instr :=
  if code w 0 3 = 7 then
    if code w 5 2 = 3 then
      match code w 26 6 * 16 + code w 7 4 with
      | 576 => accept (decide (code w 3 2 = 0 ∧ code w 23 3 = 0)) (.cpShape (fld w 21 2) (fld w 16 5) (fld w 11 5))
      | 577 => accept (decide (code w 3 2 = 0 ∧ code w 11 10 = 0)) (.cpCnt (fld w 21 5))
      | _ => .error .reservedEncoding
    else accept (true) (.cpXpd ⟨fld w 26 1, fld w 21 5, fld w 16 5, fld w 11 5, fld w 9 2, fld w 7 2, fld w 5 2, fld w 3 2⟩)
  else accept (true) (.cpGo ⟨fld w 26 1, fld w 21 5, fld w 16 5, fld w 11 5, fld w 9 2, fld w 7 2, fld w 5 2, fld w 3 2, fld w 0 3⟩)

/-- The words of majors 0x01 to 0x25, and every word that is no instruction (R57, R59). -/
def decodeLow (w : BitVec 32) : Except DecodeError Instr :=
  match code w 26 6 with
  | 0 => .error .illegalWord
  | 63 => .error .illegalWord
  | 1 => decodeMajor01 w
  | 2 => decodeMajor02 w
  | 3 => decodeMajor03 w
  | 4 => decodeMajor04 w
  | 5 => decodeMajor05 w
  | 6 => decodeMajor06 w
  | 7 => decodeMajor07 w
  | 8 => decodeMajor08 w
  | 9 => decodeMajor09 w
  | 10 => decodeMajor0A w
  | 11 => decodeMajor0B w
  | 16 => decodeMajor10 w
  | 17 => decodeMajor11 w
  | 18 => decodeMajor12 w
  | 20 => decodeMajor14 w
  | 21 => decodeMajor15 w
  | 22 => decodeMajor16 w
  | 23 => decodeMajor17 w
  | 24 => decodeMajor18 w
  | 25 => decodeMajor19 w
  | 26 => decodeMajor1A w
  | 27 => decodeMajor1B w
  | 32 => decodeMajor20 w
  | 33 => decodeMajor21 w
  | 34 => decodeMajor22 w
  | 36 => decodeCopy w
  | 37 => decodeCopy w
  | _ => .error .reservedEncoding

/-- The instruction a hart reads from a word (R57), or why the word is none (R59). Noncomputable only because Lean's
compiled code holds at most 245 constructors with fields in one type, and the opcode table has more rows; the kernel
evaluates it as any other definition. -/
noncomputable def decode (w : BitVec 32) : Except DecodeError Instr :=
  match code w 26 6 with
  | 38 => decodeMajor26 w
  | 39 => decodeMajor27 w
  | _ => decodeLow w

/-- One answer for every logit instruction, given its operands: what reading a word of a logit program may be read for. -/
structure LogitCases (α : Type) where
  ladd : BitVec 4 → BitVec 2 → BitVec 4 → BitVec 4 → α
  lsub : BitVec 4 → BitVec 2 → BitVec 4 → BitVec 4 → α
  lmul : BitVec 4 → BitVec 2 → BitVec 4 → BitVec 4 → α
  lfma : BitVec 4 → BitVec 2 → BitVec 4 → BitVec 4 → α
  lmin : BitVec 4 → BitVec 2 → BitVec 4 → BitVec 4 → α
  lmax : BitVec 4 → BitVec 2 → BitVec 4 → BitVec 4 → α
  lmov : BitVec 4 → BitVec 2 → BitVec 4 → α
  lneg : BitVec 4 → BitVec 2 → BitVec 4 → α
  lconst : BitVec 4 → BitVec 2 → BitVec 16 → α
  lconstl : BitVec 4 → BitVec 2 → BitVec 16 → α
  lcnt : BitVec 4 → BitVec 2 → α
  lbias : BitVec 4 → BitVec 2 → BitVec 4 → α
  lcmplt : BitVec 2 → BitVec 4 → BitVec 4 → α
  lcmpeq : BitVec 2 → BitVec 4 → BitVec 4 → α
  lmask : BitVec 2 → α
  lret : BitVec 2 → BitVec 4 → α
  lcnti : BitVec 4 → BitVec 2 → BitVec 4 → α
  lbiasi : BitVec 4 → BitVec 2 → BitVec 4 → α
  lcmple : BitVec 2 → BitVec 4 → BitVec 4 → α

/-- An answer, if the word's fixed fields are as they must be. -/
def keep {α : Type} (ok : Bool) (x : α) : Option α := if ok then some x else none

/-- The logit instruction of a word (R344, R346), answered by `k`; none is an illegal word (R348): a reserved op, the
reserved predicate 3, or a must-be-zero field holding a one. -/
def decodeLogitWith {α : Type} (k : LogitCases α) (w : BitVec 32) : Option α :=
  if code w 20 2 = 3 then none else
  match code w 26 6 with
  | 1 => keep (decide (code w 0 12 = 0)) (k.ladd (fld w 22 4) (fld w 20 2) (fld w 16 4) (fld w 12 4))
  | 2 => keep (decide (code w 0 12 = 0)) (k.lsub (fld w 22 4) (fld w 20 2) (fld w 16 4) (fld w 12 4))
  | 3 => keep (decide (code w 0 12 = 0)) (k.lmul (fld w 22 4) (fld w 20 2) (fld w 16 4) (fld w 12 4))
  | 4 => keep (decide (code w 0 12 = 0)) (k.lfma (fld w 22 4) (fld w 20 2) (fld w 16 4) (fld w 12 4))
  | 5 => keep (decide (code w 0 12 = 0)) (k.lmin (fld w 22 4) (fld w 20 2) (fld w 16 4) (fld w 12 4))
  | 6 => keep (decide (code w 0 12 = 0)) (k.lmax (fld w 22 4) (fld w 20 2) (fld w 16 4) (fld w 12 4))
  | 7 => keep (decide (code w 0 16 = 0)) (k.lmov (fld w 22 4) (fld w 20 2) (fld w 16 4))
  | 8 => keep (decide (code w 0 16 = 0)) (k.lneg (fld w 22 4) (fld w 20 2) (fld w 16 4))
  | 9 => keep (decide (code w 0 4 = 0)) (k.lconst (fld w 22 4) (fld w 20 2) (fld w 4 16))
  | 10 => keep (decide (code w 0 4 = 0)) (k.lconstl (fld w 22 4) (fld w 20 2) (fld w 4 16))
  | 11 => keep (decide (code w 0 20 = 0)) (k.lcnt (fld w 22 4) (fld w 20 2))
  | 12 => keep (decide (code w 0 16 = 0)) (k.lbias (fld w 22 4) (fld w 20 2) (fld w 16 4))
  | 13 => keep (decide (code w 0 12 = 0 ∧ code w 22 4 = 0)) (k.lcmplt (fld w 20 2) (fld w 16 4) (fld w 12 4))
  | 14 => keep (decide (code w 0 12 = 0 ∧ code w 22 4 = 0)) (k.lcmpeq (fld w 20 2) (fld w 16 4) (fld w 12 4))
  | 15 => keep (decide (code w 0 20 = 0 ∧ code w 22 4 = 0)) (k.lmask (fld w 20 2))
  | 16 => keep (decide (code w 0 16 = 0 ∧ code w 22 4 = 0)) (k.lret (fld w 20 2) (fld w 16 4))
  | 17 => keep (decide (code w 0 16 = 0)) (k.lcnti (fld w 22 4) (fld w 20 2) (fld w 16 4))
  | 18 => keep (decide (code w 0 16 = 0)) (k.lbiasi (fld w 22 4) (fld w 20 2) (fld w 16 4))
  | 19 => keep (decide (code w 0 12 = 0 ∧ code w 22 4 = 0)) (k.lcmple (fld w 20 2) (fld w 16 4) (fld w 12 4))
  | _ => none

/-- The logit instructions themselves as answers. -/
noncomputable def LogitCases.instrs : LogitCases Instr :=
  { ladd := .ladd
    lsub := .lsub
    lmul := .lmul
    lfma := .lfma
    lmin := .lmin
    lmax := .lmax
    lmov := .lmov
    lneg := .lneg
    lconst := .lconst
    lconstl := .lconstl
    lcnt := .lcnt
    lbias := .lbias
    lcmplt := .lcmplt
    lcmpeq := .lcmpeq
    lmask := .lmask
    lret := .lret
    lcnti := .lcnti
    lbiasi := .lbiasi
    lcmple := .lcmple }

/-- The instruction a sampler lane reads from a word of a logit program (R344, R346); none is an illegal word (R348). -/
noncomputable def decodeLogit (w : BitVec 32) : Option Instr := decodeLogitWith LogitCases.instrs w

/-- A word from its fixed bits and its fields, each field a value and the place of its lowest bit (R58). -/
def asm (fixed : Nat) (fields : List (Nat × Nat)) : BitVec 32 :=
  BitVec.ofNat 32 (fields.foldl (fun n f => n + f.1 * 2 ^ f.2) fixed)

/-- The words of the instructions of majors 0x01 to 0x0B. -/
def encodeScalar : Instr → Option (BitVec 32)
  | .add d a b => some (asm 67108864 [(d.toNat, 21), (a.toNat, 16), (b.toNat, 11)])
  | .sub d a b => some (asm 67108928 [(d.toNat, 21), (a.toNat, 16), (b.toNat, 11)])
  | .and d a b => some (asm 67108992 [(d.toNat, 21), (a.toNat, 16), (b.toNat, 11)])
  | .or d a b => some (asm 67109056 [(d.toNat, 21), (a.toNat, 16), (b.toNat, 11)])
  | .xor d a b => some (asm 67109120 [(d.toNat, 21), (a.toNat, 16), (b.toNat, 11)])
  | .sll d a b => some (asm 67109184 [(d.toNat, 21), (a.toNat, 16), (b.toNat, 11)])
  | .srl d a b => some (asm 67109248 [(d.toNat, 21), (a.toNat, 16), (b.toNat, 11)])
  | .sra d a b => some (asm 67109312 [(d.toNat, 21), (a.toNat, 16), (b.toNat, 11)])
  | .mul d a b => some (asm 67109376 [(d.toNat, 21), (a.toNat, 16), (b.toNat, 11)])
  | .mulh d a b => some (asm 67109440 [(d.toNat, 21), (a.toNat, 16), (b.toNat, 11)])
  | .mulhu d a b => some (asm 67109504 [(d.toNat, 21), (a.toNat, 16), (b.toNat, 11)])
  | .div d a b => some (asm 67109568 [(d.toNat, 21), (a.toNat, 16), (b.toNat, 11)])
  | .divu d a b => some (asm 67109632 [(d.toNat, 21), (a.toNat, 16), (b.toNat, 11)])
  | .rem d a b => some (asm 67109696 [(d.toNat, 21), (a.toNat, 16), (b.toNat, 11)])
  | .remu d a b => some (asm 67109760 [(d.toNat, 21), (a.toNat, 16), (b.toNat, 11)])
  | .slt d a b => some (asm 67109824 [(d.toNat, 21), (a.toNat, 16), (b.toNat, 11)])
  | .sltu d a b => some (asm 67109888 [(d.toNat, 21), (a.toNat, 16), (b.toNat, 11)])
  | .seq d a b => some (asm 67109952 [(d.toNat, 21), (a.toNat, 16), (b.toNat, 11)])
  | .sne d a b => some (asm 67110016 [(d.toNat, 21), (a.toNat, 16), (b.toNat, 11)])
  | .min d a b => some (asm 67110080 [(d.toNat, 21), (a.toNat, 16), (b.toNat, 11)])
  | .max d a b => some (asm 67110144 [(d.toNat, 21), (a.toNat, 16), (b.toNat, 11)])
  | .minu d a b => some (asm 67110208 [(d.toNat, 21), (a.toNat, 16), (b.toNat, 11)])
  | .maxu d a b => some (asm 67110272 [(d.toNat, 21), (a.toNat, 16), (b.toNat, 11)])
  | .slli d a sh => some (asm 67110400 [(d.toNat, 21), (a.toNat, 16), (sh.toNat, 0)])
  | .srli d a sh => some (asm 67110464 [(d.toNat, 21), (a.toNat, 16), (sh.toNat, 0)])
  | .srai d a sh => some (asm 67110528 [(d.toNat, 21), (a.toNat, 16), (sh.toNat, 0)])
  | .andi d a imm => some (asm 67110592 [(d.toNat, 21), (a.toNat, 16), (imm.toNat / 2 ^ 6, 11), (imm.toNat % 2 ^ 6, 0)])
  | .ori d a imm => some (asm 67110656 [(d.toNat, 21), (a.toNat, 16), (imm.toNat / 2 ^ 6, 11), (imm.toNat % 2 ^ 6, 0)])
  | .xori d a imm => some (asm 67110720 [(d.toNat, 21), (a.toNat, 16), (imm.toNat / 2 ^ 6, 11), (imm.toNat % 2 ^ 6, 0)])
  | .slti d a imm => some (asm 67110784 [(d.toNat, 21), (a.toNat, 16), (imm.toNat / 2 ^ 6, 11), (imm.toNat % 2 ^ 6, 0)])
  | .sltiu d a imm => some (asm 67110848 [(d.toNat, 21), (a.toNat, 16), (imm.toNat / 2 ^ 6, 11), (imm.toNat % 2 ^ 6, 0)])
  | .addi d a imm => some (asm 134217728 [(d.toNat, 21), (a.toNat, 16), (imm.toNat, 0)])
  | .lui d imm => some (asm 201326592 [(d.toNat, 21), (imm.toNat, 0)])
  | .aupc d imm => some (asm 536870912 [(d.toNat, 21), (imm.toNat, 0)])
  | .fadd d a b t rm => some (asm 268435456 [(d.toNat, 21), (a.toNat, 16), (b.toNat, 11), (t.toNat, 3), (rm.toNat, 0)])
  | .fsub d a b t rm => some (asm 268435488 [(d.toNat, 21), (a.toNat, 16), (b.toNat, 11), (t.toNat, 3), (rm.toNat, 0)])
  | .fmul d a b t rm => some (asm 268435520 [(d.toNat, 21), (a.toNat, 16), (b.toNat, 11), (t.toNat, 3), (rm.toNat, 0)])
  | .fma d a b t rm => some (asm 268435552 [(d.toNat, 21), (a.toNat, 16), (b.toNat, 11), (t.toNat, 3), (rm.toNat, 0)])
  | .fmin d a b t => some (asm 268435584 [(d.toNat, 21), (a.toNat, 16), (b.toNat, 11), (t.toNat, 3)])
  | .fmax d a b t => some (asm 268435616 [(d.toNat, 21), (a.toNat, 16), (b.toNat, 11), (t.toNat, 3)])
  | .feq d a b t => some (asm 268435648 [(d.toNat, 21), (a.toNat, 16), (b.toNat, 11), (t.toNat, 3)])
  | .flt d a b t => some (asm 268435680 [(d.toNat, 21), (a.toNat, 16), (b.toNat, 11), (t.toNat, 3)])
  | .fle d a b t => some (asm 268435712 [(d.toNat, 21), (a.toNat, 16), (b.toNat, 11), (t.toNat, 3)])
  | .fcvtFpFp d a t rm => some (asm 268435744 [(d.toNat, 21), (a.toNat, 16), (t.toNat, 3), (rm.toNat, 0)])
  | .fcvtToI64 d a t rm => some (asm 268435776 [(d.toNat, 21), (a.toNat, 16), (t.toNat, 3), (rm.toNat, 0)])
  | .fcvtToN64 d a t rm => some (asm 268435808 [(d.toNat, 21), (a.toNat, 16), (t.toNat, 3), (rm.toNat, 0)])
  | .fcvtFromI64 d a t rm => some (asm 268435840 [(d.toNat, 21), (a.toNat, 16), (t.toNat, 3), (rm.toNat, 0)])
  | .fcvtFromN64 d a t rm => some (asm 268435872 [(d.toNat, 21), (a.toNat, 16), (t.toNat, 3), (rm.toNat, 0)])
  | .ld d a off ordsc sp ty => some (asm 335544320 [(d.toNat, 21), (a.toNat, 16), (off.toNat, 8), (ordsc.toNat, 4), (sp.toNat, 3), (ty.toNat, 0)])
  | .st v a off ordsc sp ty => some (asm 402653184 [(v.toNat, 21), (a.toNat, 16), (off.toNat, 8), (ordsc.toNat, 4), (sp.toNat, 3), (ty.toNat, 0)])
  | .beq a b off => some (asm 469762048 [(a.toNat, 21), (b.toNat, 16), (off.toNat, 0)])
  | .bne a b off => some (asm 469770240 [(a.toNat, 21), (b.toNat, 16), (off.toNat, 0)])
  | .blt a b off => some (asm 469778432 [(a.toNat, 21), (b.toNat, 16), (off.toNat, 0)])
  | .bge a b off => some (asm 469786624 [(a.toNat, 21), (b.toNat, 16), (off.toNat, 0)])
  | .bltu a b off => some (asm 469794816 [(a.toNat, 21), (b.toNat, 16), (off.toNat, 0)])
  | .bgeu a b off => some (asm 469803008 [(a.toNat, 21), (b.toNat, 16), (off.toNat, 0)])
  | .j imm => some (asm 536870912 [(imm.toNat, 0)])
  | .call imm => some (asm 538968064 [(imm.toNat, 0)])
  | .jr a => some (asm 541065216 [(a.toNat, 16)])
  | .callr a => some (asm 541097984 [(a.toNat, 16)])
  | .aadd o => some (asm 603979776 [(o.d.toNat, 21), (o.a.toNat, 16), (o.b.toNat, 11), (o.w.toNat, 6), (o.ord.toNat, 4), (o.sc.toNat, 1), (o.sp.toNat, 0)])
  | .aswap o => some (asm 603979904 [(o.d.toNat, 21), (o.a.toNat, 16), (o.b.toNat, 11), (o.w.toNat, 6), (o.ord.toNat, 4), (o.sc.toNat, 1), (o.sp.toNat, 0)])
  | .aand o => some (asm 603980032 [(o.d.toNat, 21), (o.a.toNat, 16), (o.b.toNat, 11), (o.w.toNat, 6), (o.ord.toNat, 4), (o.sc.toNat, 1), (o.sp.toNat, 0)])
  | .aor o => some (asm 603980160 [(o.d.toNat, 21), (o.a.toNat, 16), (o.b.toNat, 11), (o.w.toNat, 6), (o.ord.toNat, 4), (o.sc.toNat, 1), (o.sp.toNat, 0)])
  | .aminI o => some (asm 603980288 [(o.d.toNat, 21), (o.a.toNat, 16), (o.b.toNat, 11), (o.w.toNat, 6), (o.ord.toNat, 4), (o.sc.toNat, 1), (o.sp.toNat, 0)])
  | .amaxI o => some (asm 603980416 [(o.d.toNat, 21), (o.a.toNat, 16), (o.b.toNat, 11), (o.w.toNat, 6), (o.ord.toNat, 4), (o.sc.toNat, 1), (o.sp.toNat, 0)])
  | .aminN o => some (asm 603980544 [(o.d.toNat, 21), (o.a.toNat, 16), (o.b.toNat, 11), (o.w.toNat, 6), (o.ord.toNat, 4), (o.sc.toNat, 1), (o.sp.toNat, 0)])
  | .amaxN o => some (asm 603980672 [(o.d.toNat, 21), (o.a.toNat, 16), (o.b.toNat, 11), (o.w.toNat, 6), (o.ord.toNat, 4), (o.sc.toNat, 1), (o.sp.toNat, 0)])
  | .acas o => some (asm 603980800 [(o.d.toNat, 21), (o.a.toNat, 16), (o.b.toNat, 11), (o.w.toNat, 6), (o.ord.toNat, 4), (o.sc.toNat, 1), (o.sp.toNat, 0)])
  | .fenceSv sc => some (asm 671088640 [(sc.toNat, 3)])
  | .fenceVs sc => some (asm 671088704 [(sc.toNat, 3)])
  | .fenceVv sc => some (asm 671088768 [(sc.toNat, 3)])
  | .fenceAll sc => some (asm 671088832 [(sc.toNat, 3)])
  | .fenceBinsRel sc => some (asm 671088896 [(sc.toNat, 3)])
  | .tkpush id => some (asm 671088960 [(id.toNat, 11)])
  | .tkpop id => some (asm 671089024 [(id.toNat, 11)])
  | .wtime d a => some (asm 671089088 [(d.toNat, 21), (a.toNat, 16)])
  | .mfs d n => some (asm 738197504 [(d.toNat, 21), (n.toNat, 0)])
  | .mts a n => some (asm 738201600 [(a.toNat, 16), (n.toNat, 0)])
  | .glaunch d a => some (asm 738205696 [(d.toNat, 21), (a.toNat, 16)])
  | .gbar g => some (asm 738209792 [(g.toNat, 0)])
  | .hsusp a => some (asm 738213888 [(a.toNat, 16)])
  | .hsave b a => some (asm 738217984 [(b.toNat, 21), (a.toNat, 16)])
  | .hload b a => some (asm 738222080 [(b.toNat, 21), (a.toNat, 16)])
  | .tret => some (asm 738226176 [])
  | .hend => some (asm 738230272 [])
  | _ => none

/-- The words of the instructions of majors 0x10 to 0x14. -/
def encodeStream : Instr → Option (BitVec 32)
  | .pfx mask copy pop push hint => some (asm 1073741824 [(mask.toNat, 21), (copy.toNat, 16), (pop.toNat, 12), (push.toNat, 8), (hint.toNat, 0)])
  | .qld q a sp imm => some (asm 1140850688 [(q.toNat, 21), (a.toNat, 16), (sp.toNat, 11), (imm.toNat, 0)])
  | .qbase q a => some (asm 1140850752 [(q.toNat, 21), (a.toNat, 16)])
  | .qstride q a => some (asm 1140850816 [(q.toNat, 21), (a.toNat, 16)])
  | .qbound q a => some (asm 1140850880 [(q.toNat, 21), (a.toNat, 16)])
  | .qcur q a => some (asm 1140850944 [(q.toNat, 21), (a.toNat, 16)])
  | .qcfg q a => some (asm 1140851008 [(q.toNat, 21), (a.toNat, 16)])
  | .qget d q sel => some (asm 1140851072 [(d.toNat, 21), (q.toNat, 11), (sel.toNat, 0)])
  | .qrel q => some (asm 1140851136 [(q.toNat, 21)])
  | .qprobe d a => some (asm 1140851200 [(d.toNat, 21), (a.toNat, 16)])
  | .sbar qs sc qmask => some (asm 1207959552 [(qs.toNat, 20), (sc.toNat, 17), (qmask.toNat, 0)])
  | .qwatch a b q => some (asm 1210056704 [(a.toNat, 16), (b.toNat, 11), (q.toNat, 7)])
  | .qunwatch q => some (asm 1212153856 [(q.toNat, 7)])
  | .qwait a d q => some (asm 1214251008 [(a.toNat, 16), (d.toNat, 11), (q.toNat, 7)])
  | .wmpub a b sc => some (asm 1216348160 [(a.toNat, 16), (b.toNat, 11), (sc.toNat, 8)])
  | .vsetl d a c => some (asm 1342177280 [(d.toNat, 21), (a.toNat, 16), (c.toNat, 2)])
  | .vsettype d cls sew lmode c => some (asm 1342177296 [(d.toNat, 21), (cls.toNat, 17), (sew.toNat, 14), (lmode.toNat, 12), (c.toNat, 2)])
  | _ => none

/-- The words of the instructions of majors 0x15 to 0x1B. -/
def encodeVector : Instr → Option (BitVec 32)
  | .vadd o => some (asm 1409286144 [(o.d.toNat, 21), (o.a.toNat, 16), (o.b.toNat, 11), (o.k.toNat, 9), (o.m.toNat, 3), (o.c.toNat, 2), (o.x.toNat, 0)])
  | .vsub o => some (asm 1409286160 [(o.d.toNat, 21), (o.a.toNat, 16), (o.b.toNat, 11), (o.k.toNat, 9), (o.m.toNat, 3), (o.c.toNat, 2), (o.x.toNat, 0)])
  | .vmul o => some (asm 1409286176 [(o.d.toNat, 21), (o.a.toNat, 16), (o.b.toNat, 11), (o.k.toNat, 9), (o.m.toNat, 3), (o.c.toNat, 2), (o.x.toNat, 0)])
  | .vmulhI o => some (asm 1409286192 [(o.d.toNat, 21), (o.a.toNat, 16), (o.b.toNat, 11), (o.k.toNat, 9), (o.m.toNat, 3), (o.c.toNat, 2), (o.x.toNat, 0)])
  | .vmulhN o => some (asm 1409286208 [(o.d.toNat, 21), (o.a.toNat, 16), (o.b.toNat, 11), (o.k.toNat, 9), (o.m.toNat, 3), (o.c.toNat, 2), (o.x.toNat, 0)])
  | .vdivI o => some (asm 1409286224 [(o.d.toNat, 21), (o.a.toNat, 16), (o.b.toNat, 11), (o.k.toNat, 9), (o.m.toNat, 3), (o.c.toNat, 2), (o.x.toNat, 0)])
  | .vdivN o => some (asm 1409286240 [(o.d.toNat, 21), (o.a.toNat, 16), (o.b.toNat, 11), (o.k.toNat, 9), (o.m.toNat, 3), (o.c.toNat, 2), (o.x.toNat, 0)])
  | .vremI o => some (asm 1409286256 [(o.d.toNat, 21), (o.a.toNat, 16), (o.b.toNat, 11), (o.k.toNat, 9), (o.m.toNat, 3), (o.c.toNat, 2), (o.x.toNat, 0)])
  | .vremN o => some (asm 1409286272 [(o.d.toNat, 21), (o.a.toNat, 16), (o.b.toNat, 11), (o.k.toNat, 9), (o.m.toNat, 3), (o.c.toNat, 2), (o.x.toNat, 0)])
  | .vminI o => some (asm 1409286288 [(o.d.toNat, 21), (o.a.toNat, 16), (o.b.toNat, 11), (o.k.toNat, 9), (o.m.toNat, 3), (o.c.toNat, 2), (o.x.toNat, 0)])
  | .vmaxI o => some (asm 1409286304 [(o.d.toNat, 21), (o.a.toNat, 16), (o.b.toNat, 11), (o.k.toNat, 9), (o.m.toNat, 3), (o.c.toNat, 2), (o.x.toNat, 0)])
  | .vminN o => some (asm 1409286320 [(o.d.toNat, 21), (o.a.toNat, 16), (o.b.toNat, 11), (o.k.toNat, 9), (o.m.toNat, 3), (o.c.toNat, 2), (o.x.toNat, 0)])
  | .vmaxN o => some (asm 1409286336 [(o.d.toNat, 21), (o.a.toNat, 16), (o.b.toNat, 11), (o.k.toNat, 9), (o.m.toNat, 3), (o.c.toNat, 2), (o.x.toNat, 0)])
  | .vand o => some (asm 1409286352 [(o.d.toNat, 21), (o.a.toNat, 16), (o.b.toNat, 11), (o.k.toNat, 9), (o.m.toNat, 3), (o.c.toNat, 2), (o.x.toNat, 0)])
  | .vor o => some (asm 1409286368 [(o.d.toNat, 21), (o.a.toNat, 16), (o.b.toNat, 11), (o.k.toNat, 9), (o.m.toNat, 3), (o.c.toNat, 2), (o.x.toNat, 0)])
  | .vxor o => some (asm 1409286384 [(o.d.toNat, 21), (o.a.toNat, 16), (o.b.toNat, 11), (o.k.toNat, 9), (o.m.toNat, 3), (o.c.toNat, 2), (o.x.toNat, 0)])
  | .vsll o => some (asm 1409286400 [(o.d.toNat, 21), (o.a.toNat, 16), (o.b.toNat, 11), (o.k.toNat, 9), (o.m.toNat, 3), (o.c.toNat, 2), (o.x.toNat, 0)])
  | .vsrl o => some (asm 1409286416 [(o.d.toNat, 21), (o.a.toNat, 16), (o.b.toNat, 11), (o.k.toNat, 9), (o.m.toNat, 3), (o.c.toNat, 2), (o.x.toNat, 0)])
  | .vsra o => some (asm 1409286432 [(o.d.toNat, 21), (o.a.toNat, 16), (o.b.toNat, 11), (o.k.toNat, 9), (o.m.toNat, 3), (o.c.toNat, 2), (o.x.toNat, 0)])
  | .vaddSatI o => some (asm 1409286448 [(o.d.toNat, 21), (o.a.toNat, 16), (o.b.toNat, 11), (o.k.toNat, 9), (o.m.toNat, 3), (o.c.toNat, 2), (o.x.toNat, 0)])
  | .vaddSatN o => some (asm 1409286464 [(o.d.toNat, 21), (o.a.toNat, 16), (o.b.toNat, 11), (o.k.toNat, 9), (o.m.toNat, 3), (o.c.toNat, 2), (o.x.toNat, 0)])
  | .vsubSatI o => some (asm 1409286480 [(o.d.toNat, 21), (o.a.toNat, 16), (o.b.toNat, 11), (o.k.toNat, 9), (o.m.toNat, 3), (o.c.toNat, 2), (o.x.toNat, 0)])
  | .vsubSatN o => some (asm 1409286496 [(o.d.toNat, 21), (o.a.toNat, 16), (o.b.toNat, 11), (o.k.toNat, 9), (o.m.toNat, 3), (o.c.toNat, 2), (o.x.toNat, 0)])
  | .vmacc o => some (asm 1409286512 [(o.d.toNat, 21), (o.a.toNat, 16), (o.b.toNat, 11), (o.k.toNat, 9), (o.m.toNat, 3), (o.c.toNat, 2), (o.x.toNat, 0)])
  | .vmeq o => some (asm 1409286528 [(o.d.toNat, 21), (o.a.toNat, 16), (o.b.toNat, 11), (o.k.toNat, 9), (o.m.toNat, 3), (o.c.toNat, 2), (o.x.toNat, 0)])
  | .vmne o => some (asm 1409286544 [(o.d.toNat, 21), (o.a.toNat, 16), (o.b.toNat, 11), (o.k.toNat, 9), (o.m.toNat, 3), (o.c.toNat, 2), (o.x.toNat, 0)])
  | .vmltI o => some (asm 1409286560 [(o.d.toNat, 21), (o.a.toNat, 16), (o.b.toNat, 11), (o.k.toNat, 9), (o.m.toNat, 3), (o.c.toNat, 2), (o.x.toNat, 0)])
  | .vmleI o => some (asm 1409286576 [(o.d.toNat, 21), (o.a.toNat, 16), (o.b.toNat, 11), (o.k.toNat, 9), (o.m.toNat, 3), (o.c.toNat, 2), (o.x.toNat, 0)])
  | .vmltN o => some (asm 1409286592 [(o.d.toNat, 21), (o.a.toNat, 16), (o.b.toNat, 11), (o.k.toNat, 9), (o.m.toNat, 3), (o.c.toNat, 2), (o.x.toNat, 0)])
  | .vmleN o => some (asm 1409286608 [(o.d.toNat, 21), (o.a.toNat, 16), (o.b.toNat, 11), (o.k.toNat, 9), (o.m.toNat, 3), (o.c.toNat, 2), (o.x.toNat, 0)])
  | .vmov o => some (asm 1409287168 [(o.d.toNat, 21), (o.a.toNat, 16), (o.m.toNat, 3), (o.c.toNat, 2), (o.x.toNat, 0)])
  | .vbcast o => some (asm 1409287184 [(o.d.toNat, 21), (o.a.toNat, 16), (o.m.toNat, 3), (o.c.toNat, 2), (o.x.toNat, 0)])
  | .vid d m c x => some (asm 1409287200 [(d.toNat, 21), (m.toNat, 3), (c.toNat, 2), (x.toNat, 0)])
  | .vaddFp o => some (asm 1476395008 [(o.d.toNat, 21), (o.a.toNat, 16), (o.b.toNat, 11), (o.k.toNat, 9), (o.m.toNat, 3), (o.c.toNat, 2), (o.x.toNat, 0)])
  | .vsubFp o => some (asm 1476395024 [(o.d.toNat, 21), (o.a.toNat, 16), (o.b.toNat, 11), (o.k.toNat, 9), (o.m.toNat, 3), (o.c.toNat, 2), (o.x.toNat, 0)])
  | .vmulFp o => some (asm 1476395040 [(o.d.toNat, 21), (o.a.toNat, 16), (o.b.toNat, 11), (o.k.toNat, 9), (o.m.toNat, 3), (o.c.toNat, 2), (o.x.toNat, 0)])
  | .vdivFp o => some (asm 1476395056 [(o.d.toNat, 21), (o.a.toNat, 16), (o.b.toNat, 11), (o.k.toNat, 9), (o.m.toNat, 3), (o.c.toNat, 2), (o.x.toNat, 0)])
  | .vfma o => some (asm 1476395072 [(o.d.toNat, 21), (o.a.toNat, 16), (o.b.toNat, 11), (o.k.toNat, 9), (o.m.toNat, 3), (o.c.toNat, 2), (o.x.toNat, 0)])
  | .vfms o => some (asm 1476395088 [(o.d.toNat, 21), (o.a.toNat, 16), (o.b.toNat, 11), (o.k.toNat, 9), (o.m.toNat, 3), (o.c.toNat, 2), (o.x.toNat, 0)])
  | .vfnma o => some (asm 1476395104 [(o.d.toNat, 21), (o.a.toNat, 16), (o.b.toNat, 11), (o.k.toNat, 9), (o.m.toNat, 3), (o.c.toNat, 2), (o.x.toNat, 0)])
  | .vsqrt o => some (asm 1476395120 [(o.d.toNat, 21), (o.a.toNat, 16), (o.m.toNat, 3), (o.c.toNat, 2), (o.x.toNat, 0)])
  | .vminFp o => some (asm 1476395136 [(o.d.toNat, 21), (o.a.toNat, 16), (o.b.toNat, 11), (o.k.toNat, 9), (o.m.toNat, 3), (o.c.toNat, 2), (o.x.toNat, 0)])
  | .vmaxFp o => some (asm 1476395152 [(o.d.toNat, 21), (o.a.toNat, 16), (o.b.toNat, 11), (o.k.toNat, 9), (o.m.toNat, 3), (o.c.toNat, 2), (o.x.toNat, 0)])
  | .vabs o => some (asm 1476395168 [(o.d.toNat, 21), (o.a.toNat, 16), (o.m.toNat, 3), (o.c.toNat, 2), (o.x.toNat, 0)])
  | .vneg o => some (asm 1476395184 [(o.d.toNat, 21), (o.a.toNat, 16), (o.m.toNat, 3), (o.c.toNat, 2), (o.x.toNat, 0)])
  | .vmfeq o => some (asm 1476395200 [(o.d.toNat, 21), (o.a.toNat, 16), (o.b.toNat, 11), (o.k.toNat, 9), (o.m.toNat, 3), (o.c.toNat, 2), (o.x.toNat, 0)])
  | .vmfne o => some (asm 1476395216 [(o.d.toNat, 21), (o.a.toNat, 16), (o.b.toNat, 11), (o.k.toNat, 9), (o.m.toNat, 3), (o.c.toNat, 2), (o.x.toNat, 0)])
  | .vmflt o => some (asm 1476395232 [(o.d.toNat, 21), (o.a.toNat, 16), (o.b.toNat, 11), (o.k.toNat, 9), (o.m.toNat, 3), (o.c.toNat, 2), (o.x.toNat, 0)])
  | .vmfle o => some (asm 1476395248 [(o.d.toNat, 21), (o.a.toNat, 16), (o.b.toNat, 11), (o.k.toNat, 9), (o.m.toNat, 3), (o.c.toNat, 2), (o.x.toNat, 0)])
  | .vcvtFpToIeee o => some (asm 1543503872 [(o.d.toNat, 21), (o.a.toNat, 16), (o.sw.toNat, 14), (o.rnd.toNat, 11), (o.m.toNat, 3), (o.c.toNat, 2), (o.x.toNat, 0)])
  | .vcvtFpToBf16 o => some (asm 1543503888 [(o.d.toNat, 21), (o.a.toNat, 16), (o.sw.toNat, 14), (o.rnd.toNat, 11), (o.m.toNat, 3), (o.c.toNat, 2), (o.x.toNat, 0)])
  | .vcvtFpToE4m3 o => some (asm 1543503904 [(o.d.toNat, 21), (o.a.toNat, 16), (o.sw.toNat, 14), (o.rnd.toNat, 11), (o.m.toNat, 3), (o.c.toNat, 2), (o.x.toNat, 0)])
  | .vcvtFpToE5m2 o => some (asm 1543503920 [(o.d.toNat, 21), (o.a.toNat, 16), (o.sw.toNat, 14), (o.rnd.toNat, 11), (o.m.toNat, 3), (o.c.toNat, 2), (o.x.toNat, 0)])
  | .vcvtFpToI o => some (asm 1543503936 [(o.d.toNat, 21), (o.a.toNat, 16), (o.sw.toNat, 14), (o.rnd.toNat, 11), (o.m.toNat, 3), (o.c.toNat, 2), (o.x.toNat, 0)])
  | .vcvtFpToN o => some (asm 1543503952 [(o.d.toNat, 21), (o.a.toNat, 16), (o.sw.toNat, 14), (o.rnd.toNat, 11), (o.m.toNat, 3), (o.c.toNat, 2), (o.x.toNat, 0)])
  | .vcvtIToIeee o => some (asm 1543503968 [(o.d.toNat, 21), (o.a.toNat, 16), (o.sw.toNat, 14), (o.rnd.toNat, 11), (o.m.toNat, 3), (o.c.toNat, 2), (o.x.toNat, 0)])
  | .vcvtIToBf16 o => some (asm 1543503984 [(o.d.toNat, 21), (o.a.toNat, 16), (o.sw.toNat, 14), (o.rnd.toNat, 11), (o.m.toNat, 3), (o.c.toNat, 2), (o.x.toNat, 0)])
  | .vcvtIToE4m3 o => some (asm 1543504000 [(o.d.toNat, 21), (o.a.toNat, 16), (o.sw.toNat, 14), (o.rnd.toNat, 11), (o.m.toNat, 3), (o.c.toNat, 2), (o.x.toNat, 0)])
  | .vcvtIToE5m2 o => some (asm 1543504016 [(o.d.toNat, 21), (o.a.toNat, 16), (o.sw.toNat, 14), (o.rnd.toNat, 11), (o.m.toNat, 3), (o.c.toNat, 2), (o.x.toNat, 0)])
  | .vcvtNToIeee o => some (asm 1543504032 [(o.d.toNat, 21), (o.a.toNat, 16), (o.sw.toNat, 14), (o.rnd.toNat, 11), (o.m.toNat, 3), (o.c.toNat, 2), (o.x.toNat, 0)])
  | .vcvtNToBf16 o => some (asm 1543504048 [(o.d.toNat, 21), (o.a.toNat, 16), (o.sw.toNat, 14), (o.rnd.toNat, 11), (o.m.toNat, 3), (o.c.toNat, 2), (o.x.toNat, 0)])
  | .vcvtNToE4m3 o => some (asm 1543504064 [(o.d.toNat, 21), (o.a.toNat, 16), (o.sw.toNat, 14), (o.rnd.toNat, 11), (o.m.toNat, 3), (o.c.toNat, 2), (o.x.toNat, 0)])
  | .vcvtNToE5m2 o => some (asm 1543504080 [(o.d.toNat, 21), (o.a.toNat, 16), (o.sw.toNat, 14), (o.rnd.toNat, 11), (o.m.toNat, 3), (o.c.toNat, 2), (o.x.toNat, 0)])
  | .vcvtIntToI o => some (asm 1543504096 [(o.d.toNat, 21), (o.a.toNat, 16), (o.sw.toNat, 14), (o.rnd.toNat, 11), (o.m.toNat, 3), (o.c.toNat, 2), (o.x.toNat, 0)])
  | .vcvtIntToN o => some (asm 1543504112 [(o.d.toNat, 21), (o.a.toNat, 16), (o.sw.toNat, 14), (o.rnd.toNat, 11), (o.m.toNat, 3), (o.c.toNat, 2), (o.x.toNat, 0)])
  | .vwmulI o => some (asm 1543504128 [(o.d.toNat, 21), (o.a.toNat, 16), (o.b.toNat, 11), (o.m.toNat, 3), (o.c.toNat, 2), (o.x.toNat, 0)])
  | .vwmulN o => some (asm 1543504144 [(o.d.toNat, 21), (o.a.toNat, 16), (o.b.toNat, 11), (o.m.toNat, 3), (o.c.toNat, 2), (o.x.toNat, 0)])
  | .vwmaccI o => some (asm 1543504160 [(o.d.toNat, 21), (o.a.toNat, 16), (o.b.toNat, 11), (o.m.toNat, 3), (o.c.toNat, 2), (o.x.toNat, 0)])
  | .vwmaccN o => some (asm 1543504176 [(o.d.toNat, 21), (o.a.toNat, 16), (o.b.toNat, 11), (o.m.toNat, 3), (o.c.toNat, 2), (o.x.toNat, 0)])
  | .vwmulFp o => some (asm 1543504192 [(o.d.toNat, 21), (o.a.toNat, 16), (o.b.toNat, 11), (o.m.toNat, 3), (o.c.toNat, 2), (o.x.toNat, 0)])
  | .vwmaccFp o => some (asm 1543504208 [(o.d.toNat, 21), (o.a.toNat, 16), (o.b.toNat, 11), (o.m.toNat, 3), (o.c.toNat, 2), (o.x.toNat, 0)])
  | .vdot4I8 d a b m c => some (asm 1543504224 [(d.toNat, 21), (a.toNat, 16), (b.toNat, 11), (m.toNat, 3), (c.toNat, 2)])
  | .vdot4N8 d a b m c => some (asm 1543504240 [(d.toNat, 21), (a.toNat, 16), (b.toNat, 11), (m.toNat, 3), (c.toNat, 2)])
  | .vsmul o => some (asm 1543504256 [(o.d.toNat, 21), (o.a.toNat, 16), (o.b.toNat, 11), (o.m.toNat, 3), (o.c.toNat, 2), (o.x.toNat, 0)])
  | .vsmacc o => some (asm 1543504272 [(o.d.toNat, 21), (o.a.toNat, 16), (o.b.toNat, 11), (o.m.toNat, 3), (o.c.toNat, 2), (o.x.toNat, 0)])
  | .vredsum o => some (asm 1610612736 [(o.d.toNat, 21), (o.a.toNat, 16), (o.b.toNat, 11), (o.m.toNat, 3), (o.c.toNat, 2), (o.x.toNat, 0)])
  | .vredosum o => some (asm 1610612752 [(o.d.toNat, 21), (o.a.toNat, 16), (o.b.toNat, 11), (o.m.toNat, 3), (o.c.toNat, 2), (o.x.toNat, 0)])
  | .vredmax o => some (asm 1610612768 [(o.d.toNat, 21), (o.a.toNat, 16), (o.b.toNat, 11), (o.m.toNat, 3), (o.c.toNat, 2), (o.x.toNat, 0)])
  | .vredmin o => some (asm 1610612784 [(o.d.toNat, 21), (o.a.toNat, 16), (o.b.toNat, 11), (o.m.toNat, 3), (o.c.toNat, 2), (o.x.toNat, 0)])
  | .vredmaxN o => some (asm 1610612800 [(o.d.toNat, 21), (o.a.toNat, 16), (o.b.toNat, 11), (o.m.toNat, 3), (o.c.toNat, 2), (o.x.toNat, 0)])
  | .vredminN o => some (asm 1610612816 [(o.d.toNat, 21), (o.a.toNat, 16), (o.b.toNat, 11), (o.m.toNat, 3), (o.c.toNat, 2), (o.x.toNat, 0)])
  | .vredand o => some (asm 1610612832 [(o.d.toNat, 21), (o.a.toNat, 16), (o.b.toNat, 11), (o.m.toNat, 3), (o.c.toNat, 2), (o.x.toNat, 0)])
  | .vredor o => some (asm 1610612848 [(o.d.toNat, 21), (o.a.toNat, 16), (o.b.toNat, 11), (o.m.toNat, 3), (o.c.toNat, 2), (o.x.toNat, 0)])
  | .vredxor o => some (asm 1610612864 [(o.d.toNat, 21), (o.a.toNat, 16), (o.b.toNat, 11), (o.m.toNat, 3), (o.c.toNat, 2), (o.x.toNat, 0)])
  | .vscan o => some (asm 1610612880 [(o.d.toNat, 21), (o.a.toNat, 16), (o.m.toNat, 3), (o.c.toNat, 2), (o.x.toNat, 0)])
  | .vscano o => some (asm 1610612896 [(o.d.toNat, 21), (o.a.toNat, 16), (o.m.toNat, 3), (o.c.toNat, 2), (o.x.toNat, 0)])
  | .vscanmax o => some (asm 1610612912 [(o.d.toNat, 21), (o.a.toNat, 16), (o.m.toNat, 3), (o.c.toNat, 2), (o.x.toNat, 0)])
  | .vscanmin o => some (asm 1610612928 [(o.d.toNat, 21), (o.a.toNat, 16), (o.m.toNat, 3), (o.c.toNat, 2), (o.x.toNat, 0)])
  | .vscanmaxN o => some (asm 1610612944 [(o.d.toNat, 21), (o.a.toNat, 16), (o.m.toNat, 3), (o.c.toNat, 2), (o.x.toNat, 0)])
  | .vscanminN o => some (asm 1610612960 [(o.d.toNat, 21), (o.a.toNat, 16), (o.m.toNat, 3), (o.c.toNat, 2), (o.x.toNat, 0)])
  | .vrgath o => some (asm 1677721600 [(o.d.toNat, 21), (o.a.toNat, 16), (o.b.toNat, 11), (o.m.toNat, 3), (o.c.toNat, 2), (o.x.toNat, 0)])
  | .vslideup o => some (asm 1677721616 [(o.d.toNat, 21), (o.a.toNat, 16), (o.b.toNat, 11), (o.m.toNat, 3), (o.c.toNat, 2), (o.x.toNat, 0)])
  | .vslidedn o => some (asm 1677721632 [(o.d.toNat, 21), (o.a.toNat, 16), (o.b.toNat, 11), (o.m.toNat, 3), (o.c.toNat, 2), (o.x.toNat, 0)])
  | .vslide1up o => some (asm 1677721648 [(o.d.toNat, 21), (o.a.toNat, 16), (o.b.toNat, 11), (o.m.toNat, 3), (o.c.toNat, 2), (o.x.toNat, 0)])
  | .vslide1dn o => some (asm 1677721664 [(o.d.toNat, 21), (o.a.toNat, 16), (o.b.toNat, 11), (o.m.toNat, 3), (o.c.toNat, 2), (o.x.toNat, 0)])
  | .vcomp o => some (asm 1677721680 [(o.d.toNat, 21), (o.a.toNat, 16), (o.m.toNat, 3), (o.c.toNat, 2), (o.x.toNat, 0)])
  | .vexpand o => some (asm 1677721696 [(o.d.toNat, 21), (o.a.toNat, 16), (o.m.toNat, 3), (o.c.toNat, 2), (o.x.toNat, 0)])
  | .vmvS d a c x => some (asm 1677721712 [(d.toNat, 21), (a.toNat, 16), (c.toNat, 2), (x.toNat, 0)])
  | .vmvV d a c x => some (asm 1677721728 [(d.toNat, 21), (a.toNat, 16), (c.toNat, 2), (x.toNat, 0)])
  | .vmvX d a b c x => some (asm 1677721744 [(d.toNat, 21), (a.toNat, 16), (b.toNat, 11), (c.toNat, 2), (x.toNat, 0)])
  | .vmand d a b c => some (asm 1744830464 [(d.toNat, 21), (a.toNat, 16), (b.toNat, 11), (c.toNat, 2)])
  | .vmor d a b c => some (asm 1744830480 [(d.toNat, 21), (a.toNat, 16), (b.toNat, 11), (c.toNat, 2)])
  | .vmxor d a b c => some (asm 1744830496 [(d.toNat, 21), (a.toNat, 16), (b.toNat, 11), (c.toNat, 2)])
  | .vmandn d a b c => some (asm 1744830512 [(d.toNat, 21), (a.toNat, 16), (b.toNat, 11), (c.toNat, 2)])
  | .vmnot d a c => some (asm 1744830528 [(d.toNat, 21), (a.toNat, 16), (c.toNat, 2)])
  | .vpop d a m c => some (asm 1744830544 [(d.toNat, 21), (a.toNat, 16), (m.toNat, 3), (c.toNat, 2)])
  | .vfirst d a m c => some (asm 1744830560 [(d.toNat, 21), (a.toNat, 16), (m.toNat, 3), (c.toNat, 2)])
  | .vmsbf d a m c => some (asm 1744830576 [(d.toNat, 21), (a.toNat, 16), (m.toNat, 3), (c.toNat, 2)])
  | .vmsif d a m c => some (asm 1744830592 [(d.toNat, 21), (a.toNat, 16), (m.toNat, 3), (c.toNat, 2)])
  | .vmsof d a m c => some (asm 1744830608 [(d.toNat, 21), (a.toNat, 16), (m.toNat, 3), (c.toNat, 2)])
  | .vconf o => some (asm 1744830624 [(o.d.toNat, 21), (o.a.toNat, 16), (o.m.toNat, 3), (o.c.toNat, 2), (o.x.toNat, 0)])
  | .vconfm o => some (asm 1744830640 [(o.d.toNat, 21), (o.a.toNat, 16), (o.b.toNat, 11), (o.m.toNat, 3), (o.c.toNat, 2), (o.x.toNat, 0)])
  | .vpart d a m c => some (asm 1744830656 [(d.toNat, 21), (a.toNat, 16), (m.toNat, 3), (c.toNat, 2)])
  | .vrun d a m c => some (asm 1744830672 [(d.toNat, 21), (a.toNat, 16), (m.toNat, 3), (c.toNat, 2)])
  | .vmset d c => some (asm 1744830688 [(d.toNat, 21), (c.toNat, 2)])
  | .vmclr d c => some (asm 1744830704 [(d.toNat, 21), (c.toNat, 2)])
  | .vld d q m c => some (asm 1811939328 [(d.toNat, 21), (q.toNat, 11), (m.toNat, 3), (c.toNat, 2)])
  | .vldff d q m c => some (asm 1811939344 [(d.toNat, 21), (q.toNat, 11), (m.toNat, 3), (c.toNat, 2)])
  | .vst v q m c => some (asm 1811939360 [(v.toNat, 21), (q.toNat, 11), (m.toNat, 3), (c.toNat, 2)])
  | .vldx d a q m c => some (asm 1811939376 [(d.toNat, 21), (a.toNat, 16), (q.toNat, 11), (m.toNat, 3), (c.toNat, 2)])
  | .vstx v a q m c => some (asm 1811939392 [(v.toNat, 21), (a.toNat, 16), (q.toNat, 11), (m.toNat, 3), (c.toNat, 2)])
  | .vstxu v a q m c => some (asm 1811939408 [(v.toNat, 21), (a.toNat, 16), (q.toNat, 11), (m.toNat, 3), (c.toNat, 2)])
  | .vsadd v a q m c => some (asm 1811939424 [(v.toNat, 21), (a.toNat, 16), (q.toNat, 11), (m.toNat, 3), (c.toNat, 2)])
  | .vwait d q c => some (asm 1811939440 [(d.toNat, 21), (q.toNat, 11), (c.toNat, 2)])
  | .vcbld q c => some (asm 1811939456 [(q.toNat, 11), (c.toNat, 2)])
  | _ => none

/-- The words of the instructions of majors 0x20 to 0x27. -/
def encodeEngine : Instr → Option (BitVec 32)
  | .mmr d a fmt i r t => some (asm 2147483648 [(d.toNat, 21), (a.toNat, 16), (fmt.toNat, 4), (i.toNat, 3), (r.toNat, 2), (t.toNat, 0)])
  | .mms d a fmt i r t => some (asm 2147483776 [(d.toNat, 21), (a.toNat, 16), (fmt.toNat, 4), (i.toNat, 3), (r.toNat, 2), (t.toNat, 0)])
  | .mmqSq d a b fmt i r t => some (asm 2147483904 [(d.toNat, 21), (a.toNat, 16), (b.toNat, 11), (fmt.toNat, 4), (i.toNat, 3), (r.toNat, 2), (t.toNat, 0)])
  | .mmqAb d a b fmt i r t => some (asm 2147484032 [(d.toNat, 21), (a.toNat, 16), (b.toNat, 11), (fmt.toNat, 4), (i.toNat, 3), (r.toNat, 2), (t.toNat, 0)])
  | .mmsp d a b fmt i r t => some (asm 2147484160 [(d.toNat, 21), (a.toNat, 16), (b.toNat, 11), (fmt.toNat, 4), (i.toNat, 3), (r.toNat, 2), (t.toNat, 0)])
  | .mldWb a fmt r t => some (asm 2214592512 [(a.toNat, 16), (fmt.toNat, 4), (r.toNat, 2), (t.toNat, 0)])
  | .mldSq a fmt r t => some (asm 2214592640 [(a.toNat, 16), (fmt.toNat, 4), (r.toNat, 2), (t.toNat, 0)])
  | .mldsWb a r t => some (asm 2214592880 [(a.toNat, 16), (r.toNat, 2), (t.toNat, 0)])
  | .mldsSq a r t => some (asm 2214593008 [(a.toNat, 16), (r.toNat, 2), (t.toNat, 0)])
  | .mclr d b i r => some (asm 2281701376 [(d.toNat, 21), (b.toNat, 11), (i.toNat, 3), (r.toNat, 2)])
  | .mrd d a i r => some (asm 2281701504 [(d.toNat, 21), (a.toNat, 16), (i.toNat, 3), (r.toNat, 2)])
  | .mmov d a b i r => some (asm 2281701632 [(d.toNat, 21), (a.toNat, 16), (b.toNat, 11), (i.toNat, 3), (r.toNat, 2)])
  | .cpGo o => some (asm 2415919104 [(o.w.toNat, 26), (o.d.toNat, 21), (o.a.toNat, 16), (o.b.toNat, 11), (o.ssp.toNat, 9), (o.dsp.toNat, 7), (o.ck.toNat, 5), (o.comp.toNat, 3), (o.fl.toNat, 0)])
  | .cpXpd o => some (asm 2415919111 [(o.w.toNat, 26), (o.d.toNat, 21), (o.a.toNat, 16), (o.b.toNat, 11), (o.ssp.toNat, 9), (o.dsp.toNat, 7), (o.ty.toNat, 5), (o.comp.toNat, 3)])
  | .cpShape ck a b => some (asm 2415919207 [(ck.toNat, 21), (a.toNat, 16), (b.toNat, 11)])
  | .cpCnt d => some (asm 2415919335 [(d.toNat, 21)])
  | .bayTakeFix d a w => some (asm 2550136832 [(d.toNat, 21), (a.toNat, 16), (w.toNat, 6)])
  | .bayTakeNeg d a b w => some (asm 2550136864 [(d.toNat, 21), (a.toNat, 16), (b.toNat, 11), (w.toNat, 6)])
  | .bayGive a => some (asm 2550136960 [(a.toNat, 16)])
  | .bayRetFin => some (asm 2550137088 [])
  | .bayRetSum => some (asm 2550137120 [])
  | .bayRetRef => some (asm 2550137152 [])
  | .smpReq d a w fl => some (asm 2617245696 [(d.toNat, 21), (a.toNat, 16), (w.toNat, 6), (fl.toNat, 3)])
  | .smpTld d a b w => some (asm 2617245824 [(d.toNat, 21), (a.toNat, 16), (b.toNat, 11), (w.toNat, 6)])
  | .smpTst d a b w => some (asm 2617245952 [(d.toNat, 21), (a.toNat, 16), (b.toNat, 11), (w.toNat, 6)])
  | .smpPld d a b w => some (asm 2617246080 [(d.toNat, 21), (a.toNat, 16), (b.toNat, 11), (w.toNat, 6)])
  | _ => none

/-- The word of a hart instruction (R58 and the format of its major); an event or a logit instruction has none. -/
def encode (i : Instr) : Option (BitVec 32) :=
  match encodeScalar i, encodeStream i, encodeVector i, encodeEngine i with
  | some w, _, _, _ => some w
  | _, some w, _, _ => some w
  | _, _, some w, _ => some w
  | _, _, _, w => w

/-- The word of a logit instruction (formats LR and LI of R344). -/
def encodeLogit : Instr → Option (BitVec 32)
  | .ladd d p a b => some (asm 67108864 [(d.toNat, 22), (p.toNat, 20), (a.toNat, 16), (b.toNat, 12)])
  | .lsub d p a b => some (asm 134217728 [(d.toNat, 22), (p.toNat, 20), (a.toNat, 16), (b.toNat, 12)])
  | .lmul d p a b => some (asm 201326592 [(d.toNat, 22), (p.toNat, 20), (a.toNat, 16), (b.toNat, 12)])
  | .lfma d p a b => some (asm 268435456 [(d.toNat, 22), (p.toNat, 20), (a.toNat, 16), (b.toNat, 12)])
  | .lmin d p a b => some (asm 335544320 [(d.toNat, 22), (p.toNat, 20), (a.toNat, 16), (b.toNat, 12)])
  | .lmax d p a b => some (asm 402653184 [(d.toNat, 22), (p.toNat, 20), (a.toNat, 16), (b.toNat, 12)])
  | .lmov d p a => some (asm 469762048 [(d.toNat, 22), (p.toNat, 20), (a.toNat, 16)])
  | .lneg d p a => some (asm 536870912 [(d.toNat, 22), (p.toNat, 20), (a.toNat, 16)])
  | .lconst d p imm => some (asm 603979776 [(d.toNat, 22), (p.toNat, 20), (imm.toNat, 4)])
  | .lconstl d p imm => some (asm 671088640 [(d.toNat, 22), (p.toNat, 20), (imm.toNat, 4)])
  | .lcnt d p => some (asm 738197504 [(d.toNat, 22), (p.toNat, 20)])
  | .lbias d p a => some (asm 805306368 [(d.toNat, 22), (p.toNat, 20), (a.toNat, 16)])
  | .lcmplt p a b => some (asm 872415232 [(p.toNat, 20), (a.toNat, 16), (b.toNat, 12)])
  | .lcmpeq p a b => some (asm 939524096 [(p.toNat, 20), (a.toNat, 16), (b.toNat, 12)])
  | .lmask p => some (asm 1006632960 [(p.toNat, 20)])
  | .lret p a => some (asm 1073741824 [(p.toNat, 20), (a.toNat, 16)])
  | .lcnti d p a => some (asm 1140850688 [(d.toNat, 22), (p.toNat, 20), (a.toNat, 16)])
  | .lbiasi d p a => some (asm 1207959552 [(d.toNat, 22), (p.toNat, 20), (a.toNat, 16)])
  | .lcmple p a b => some (asm 1275068416 [(p.toNat, 20), (a.toNat, 16), (b.toNat, 12)])
  | _ => none

/-- The word of an instruction as the trap record holds it (R130); an event has word 0. -/
def wordOf (i : Instr) : BitVec 32 := (encode i).getD 0#32

/-- The four bytes of a word, the lowest address first (R6). -/
def wordBytes (w : BitVec 32) : List (BitVec 8) :=
  [w.setWidth 8, (w >>> 8).setWidth 8, (w >>> 16).setWidth 8, (w >>> 24).setWidth 8]

/-- The word that four bytes hold, little-endian (R6). -/
def wordOfBytes (b : List (BitVec 8)) : BitVec 32 :=
  BitVec.ofNat 32 ((b.getD 0 0#8).toNat + (b.getD 1 0#8).toNat * 2 ^ 8 + (b.getD 2 0#8).toNat * 2 ^ 16 +
    (b.getD 3 0#8).toNat * 2 ^ 24)

/-- The instruction read from the bits of an opcode-table row: a hart's decoder reads the word's bytes; a word it refuses
is read as a word of a logit program (R346), the sampler's own map. -/
noncomputable def decodeTableWord (nbits w : Nat) : Option Instr :=
  let word := wordOfBytes (wordBytes (BitVec.ofNat 32 (w % 2 ^ nbits)))
  match decode word with
  | .ok i => some i
  | .error _ => decodeLogit word

end Sys2Proof
end

