-- ==== Sys2Proof/Machine/Sampler.lean ====
section
/-! DEFINITION. The sampler (major 0x27; R332 to R356): requests and their admission, table and program work, strips,
the draw, and the logit instructions. -/

namespace Sys2Proof.Machine

/-! ### Slots (R332) -/

/-- The 512 bytes of a slot. -/
def Clus.slot (c : Clus) (n : Nat) : Mem := c.table.slice (512 * n) 512
/-- Count entry i of a slot: token and count. -/
def countEntry (slot : Mem) (i : Nat) : Nat × Nat := let x := slot.read (4 * i) 4; (bits x 0 24, bits x 24 8)
/-- Bias entry i of a slot: token, attr and bias. -/
def biasEntry (slot : Mem) (i : Nat) : Nat × Nat × Nat :=
  let x := slot.read (384 + 8 * i) 8; (bits x 0 24, bits x 24 8, bits x 32 32)
/-- The lowest-numbered non-empty count entry of a token. -/
def countOf (slot : Mem) (t : Nat) : Option Nat :=
  (List.range 96).find? (fun i => let e := countEntry slot i; e.2 != 0 && e.1 == t)
/-- The bias of a token: of the lowest-numbered entry that holds it. -/
def biasOf (slot : Mem) (t : Nat) : Nat :=
  match (List.range 16).find? (fun i => let e := biasEntry slot i; e.1 != 0xFFFFFF && e.1 == t) with
  | some i => (biasEntry slot i).2.2
  | none => 0

/-! ### Logit instructions (R345 to R348) -/

/-- What a logit instruction does in one lane: a bad index, whatever the predicate, and its effect. -/
structure LaneOp where
  p : BitVec 2
  bad : Lane → Bool := fun _ => false
  act : Mem → Lane → Lane

/-- A logit register. -/
def Lane.reg (l : Lane) (r : BitVec 4) : Nat := l.l[r.toNat].toNat
/-- A logit register written. -/
def Lane.setReg (l : Lane) (r : BitVec 4) (x : Nat) : Lane := { l with l := l.l.set r.toNat (BitVec.ofNat 32 x) }
/-- The predicate of R344. -/
def Lane.holds (l : Lane) (p : BitVec 2) : Bool := if p = 1 then l.cf else if p = 2 then !l.cf else true
/-- A lane ends with an output. -/
def Lane.finish (l : Lane) (x : Nat) : Lane := { l with live := false, out := BitVec.ofNat 32 x }
/-- An integer as FP32. -/
def f32OfNat (n : Nat) : Nat := (f32.round .rne (intNum (n : Int))).1
/-- A as an index below n, if it is exactly one (R347). -/
def indexOf (x n : Nat) : Option Nat :=
  match f32.num x with
  | .fin neg m e =>
    if m = 0 then some 0
    else if neg then none
    else
      let (t, r, _) := inUnits m e 0
      if r = 0 && decide (t < n) then some t else none
  | _ => none

/-- An arithmetic logit instruction on two sources. -/
def laneBin (d : BitVec 4) (p : BitVec 2) (a b : BitVec 4) (f : Nat → Nat → Nat × Flags) : LaneOp :=
  { p := p, act := fun _ l => l.setReg d (f (l.reg a) (l.reg b)).1 }
/-- A comparison. -/
def laneCmp (p : BitVec 2) (a b : BitVec 4) (f : Nat → Nat → Bool × Flags) : LaneOp :=
  { p := p, act := fun _ l => { l with cf := (f (l.reg a) (l.reg b)).1 } }

def opLadd (d : BitVec 4) (p : BitVec 2) (a b : BitVec 4) : LaneOp := laneBin d p a b (f32.add .rne)
def opLsub (d : BitVec 4) (p : BitVec 2) (a b : BitVec 4) : LaneOp := laneBin d p a b (f32.sub .rne)
def opLmul (d : BitVec 4) (p : BitVec 2) (a b : BitVec 4) : LaneOp := laneBin d p a b (f32.mul .rne)
def opLfma (d : BitVec 4) (p : BitVec 2) (a b : BitVec 4) : LaneOp :=
  { p := p, act := fun _ l => l.setReg d (f32.fma .rne (l.reg a) (l.reg b) (l.reg d)).1 }
def opLmin (d : BitVec 4) (p : BitVec 2) (a b : BitVec 4) : LaneOp := laneBin d p a b (f32.minMax false)
def opLmax (d : BitVec 4) (p : BitVec 2) (a b : BitVec 4) : LaneOp := laneBin d p a b (f32.minMax true)
def opLmov (d : BitVec 4) (p : BitVec 2) (a : BitVec 4) : LaneOp := { p := p, act := fun _ l => l.setReg d (l.reg a) }
def opLneg (d : BitVec 4) (p : BitVec 2) (a : BitVec 4) : LaneOp :=
  { p := p, act := fun _ l => l.setReg d (l.reg a ^^^ 2 ^ 31) }
def opLconst (d : BitVec 4) (p : BitVec 2) (imm : BitVec 16) : LaneOp :=
  { p := p, act := fun _ l => l.setReg d (imm.toNat * 2 ^ 16) }
def opLconstl (d : BitVec 4) (p : BitVec 2) (imm : BitVec 16) : LaneOp :=
  { p := p, act := fun _ l => l.setReg d (bits (l.reg d) 16 16 * 2 ^ 16 + imm.toNat) }
def opLcnt (d : BitVec 4) (p : BitVec 2) : LaneOp :=
  { p := p
    act := fun slot l => l.setReg d (match countOf slot l.tok with | some i => f32OfNat (countEntry slot i).2 | none => 0) }
def opLbias (d : BitVec 4) (p : BitVec 2) (a : BitVec 4) : LaneOp :=
  { p := p, act := fun slot l => l.setReg d (f32.add .rne (l.reg a) (biasOf slot l.tok)).1 }
def opLcmplt (p : BitVec 2) (a b : BitVec 4) : LaneOp := laneCmp p a b f32.lt
def opLcmpeq (p : BitVec 2) (a b : BitVec 4) : LaneOp := laneCmp p a b f32.eq
def opLcmple (p : BitVec 2) (a b : BitVec 4) : LaneOp := laneCmp p a b f32.le
def opLmask (p : BitVec 2) : LaneOp := { p := p, act := fun _ l => l.finish 0xFF800000 }
def opLret (p : BitVec 2) (a : BitVec 4) : LaneOp := { p := p, act := fun _ l => l.finish (l.reg a) }
def opLcnti (d : BitVec 4) (p : BitVec 2) (a : BitVec 4) : LaneOp :=
  { p := p, bad := fun l => (indexOf (l.reg a) 96).isNone
    act := fun slot l => l.setReg d (f32OfNat (countEntry slot ((indexOf (l.reg a) 96).getD 0)).2) }
def opLbiasi (d : BitVec 4) (p : BitVec 2) (a : BitVec 4) : LaneOp :=
  { p := p, bad := fun l => (indexOf (l.reg a) 16).isNone
    act := fun slot l => l.setReg d (biasEntry slot ((indexOf (l.reg a) 16).getD 0)).2.2 }

/-- The operations of the logit instructions. -/
def laneCases : LogitCases LaneOp :=
  { ladd := opLadd
    lsub := opLsub
    lmul := opLmul
    lfma := opLfma
    lmin := opLmin
    lmax := opLmax
    lmov := opLmov
    lneg := opLneg
    lconst := opLconst
    lconstl := opLconstl
    lcnt := opLcnt
    lbias := opLbias
    lcmplt := opLcmplt
    lcmpeq := opLcmpeq
    lmask := opLmask
    lret := opLret
    lcnti := opLcnti
    lbiasi := opLbiasi
    lcmple := opLcmple }
/-- The operation of a word of a logit program; none for an illegal word. -/
def laneOpOf (w : BitVec 32) : Option LaneOp := decodeLogitWith laneCases w

/-- A logit instruction in lockstep over the lanes of a cluster's sampler: in every live lane whose predicate holds; a
bad index in any live lane gives status 0x49 (R345, R347, R348). -/
def Clus.lockstep (c : Clus) (op : LaneOp) : Clus :=
  if c.lstat != 0 then c
  else if c.lanes.toList.any (fun l => l.live && op.bad l) then { c with lstat := 0x49 }
  else
    let slot := c.slot c.lslot
    { c with lanes := c.lanes.map (fun l => if l.live && l.holds op.p then op.act slot l else l) }

/-- An illegal word in lockstep: status 0x48 where a lane is live (R346, R348). -/
def Clus.lockIllegal (c : Clus) : Clus :=
  if c.lstat = 0 && c.lanes.toList.any (fun l => l.live) then { c with lstat := 0x48 } else c

/-- A logit instruction in the cluster of the acting hart. -/
def State.logit (s : State) (op : LaneOp) : State := s.setClusAt s.clusNo ((s.clusAt s.clusNo).lockstep op)

/-- `ladd` (R347). -/
def execLadd (d : BitVec 4) (p : BitVec 2) (a b : BitVec 4) (s : State) : Out := .next (s.logit (opLadd d p a b))
/-- `lsub` (R347). -/
def execLsub (d : BitVec 4) (p : BitVec 2) (a b : BitVec 4) (s : State) : Out := .next (s.logit (opLsub d p a b))
/-- `lmul` (R347). -/
def execLmul (d : BitVec 4) (p : BitVec 2) (a b : BitVec 4) (s : State) : Out := .next (s.logit (opLmul d p a b))
/-- `lfma` (R347). -/
def execLfma (d : BitVec 4) (p : BitVec 2) (a b : BitVec 4) (s : State) : Out := .next (s.logit (opLfma d p a b))
/-- `lmin` (R347). -/
def execLmin (d : BitVec 4) (p : BitVec 2) (a b : BitVec 4) (s : State) : Out := .next (s.logit (opLmin d p a b))
/-- `lmax` (R347). -/
def execLmax (d : BitVec 4) (p : BitVec 2) (a b : BitVec 4) (s : State) : Out := .next (s.logit (opLmax d p a b))
/-- `lmov` (R347). -/
def execLmov (d : BitVec 4) (p : BitVec 2) (a : BitVec 4) (s : State) : Out := .next (s.logit (opLmov d p a))
/-- `lneg` (R347). -/
def execLneg (d : BitVec 4) (p : BitVec 2) (a : BitVec 4) (s : State) : Out := .next (s.logit (opLneg d p a))
/-- `lconst` (R347). -/
def execLconst (d : BitVec 4) (p : BitVec 2) (imm : BitVec 16) (s : State) : Out := .next (s.logit (opLconst d p imm))
/-- `lconstl` (R347). -/
def execLconstl (d : BitVec 4) (p : BitVec 2) (imm : BitVec 16) (s : State) : Out := .next (s.logit (opLconstl d p imm))
/-- `lcnt` (R347). -/
def execLcnt (d : BitVec 4) (p : BitVec 2) (s : State) : Out := .next (s.logit (opLcnt d p))
/-- `lbias` (R347). -/
def execLbias (d : BitVec 4) (p : BitVec 2) (a : BitVec 4) (s : State) : Out := .next (s.logit (opLbias d p a))
/-- `lcmplt` (R347). -/
def execLcmplt (p : BitVec 2) (a b : BitVec 4) (s : State) : Out := .next (s.logit (opLcmplt p a b))
/-- `lcmpeq` (R347). -/
def execLcmpeq (p : BitVec 2) (a b : BitVec 4) (s : State) : Out := .next (s.logit (opLcmpeq p a b))
/-- `lmask` (R347, R348). -/
def execLmask (p : BitVec 2) (s : State) : Out := .next (s.logit (opLmask p))
/-- `lret` (R347, R348). -/
def execLret (p : BitVec 2) (a : BitVec 4) (s : State) : Out := .next (s.logit (opLret p a))
/-- `lcnti` (R347, R348). -/
def execLcnti (d : BitVec 4) (p : BitVec 2) (a : BitVec 4) (s : State) : Out := .next (s.logit (opLcnti d p a))
/-- `lbiasi` (R347, R348). -/
def execLbiasi (d : BitVec 4) (p : BitVec 2) (a : BitVec 4) (s : State) : Out := .next (s.logit (opLbiasi d p a))
/-- `lcmple` (R347). -/
def execLcmple (p : BitVec 2) (a b : BitVec 4) (s : State) : Out := .next (s.logit (opLcmple p a b))

/-! ### Requests (R338 to R342) -/

/-- A request block of its 64 bytes (R338). -/
def blockOf (x : Nat) : ReqBlock :=
  { slot := BitVec.ofNat 16 x, mode := BitVec.ofNat 8 (bits x 16 8), lfmt := BitVec.ofNat 8 (bits x 24 8)
    v := BitVec.ofNat 32 (bits x 32 32), logits := BitVec.ofNat 64 (bits x 64 64), c := BitVec.ofNat 32 (bits x 128 32)
    maxcyc := BitVec.ofNat 32 (bits x 160 32), seed := BitVec.ofNat 64 (bits x 192 64)
    step := BitVec.ofNat 64 (bits x 256 64), wm := BitVec.ofNat 64 (bits x 320 64)
    res := BitVec.ofNat 64 (bits x 384 64), wmoff := BitVec.ofNat 64 (bits x 448 64) }
/-- Bytes of a logit. -/
def ReqBlock.elem (b : ReqBlock) : Nat := if b.lfmt = 0 then 4 else 2
/-- A malformed block (R338). -/
def ReqBlock.bad (b : ReqBlock) : Bool :=
  decide (1023 < b.slot.toNat) || decide (8 ≤ b.mode.toNat) || decide (1 < b.lfmt.toNat) || b.v == 0 ||
  decide (16777215 < b.v.toNat) || b.logits.toNat % b.elem != 0 ||
  b.c == 0 || decide (0x7F800000 ≤ b.c.toNat) ||
  decide (b.maxcyc.toNat < 64) || decide (1048576 < b.maxcyc.toNat) ||
  b.wm.toNat % 8 != 0 || b.res.toNat % 32 != 0 || decide (2 ^ 57 ≤ b.res.toNat)

/-- Strips of a request. -/
def Work.strips (w : Work) : Nat := cdiv w.blk.v.toNat 128
/-- Cycles of a strip (R343). -/
def Work.stripCyc (w : Work) : Nat := w.words.length + 6
/-- Cycles charged so far: 16 at the start and each strip's. -/
def Work.charged (w : Work) : Nat := 16 + w.strip * w.stripCyc
/-- Cycles accepted and not yet performed (R54). -/
def Work.left (w : Work) : Nat := if w.started then w.w - w.charged else w.w

/-- Words of program memory in use: the programs, older copies that started requests keep, and what accepted loads
have yet to place (R334). -/
def Clus.poolUsed (c : Clus) : Nat :=
  let now := c.progs.foldl (fun n p => n + p.2.words.length) 0
  let old := (c.works.filter (fun w =>
    w.started && w.op == 0 && !w.words.isEmpty && ((c.progs.find w.prog).getD {}).ver != w.ver)).map (fun w => (w.prog, w.ver, w.words.length))
  let coming := c.works.foldl (fun n w => n + (if w.op = 3 then w.n else 0)) 0
  now + old.eraseDups.foldl (fun n x => n + x.2.2) 0 + coming

/-- The deadline of sampler work of `units` cycles of the acting hart: paced behind the hart's own work in the cluster, and no
earlier than its last one (R55, R342). -/
def State.smpDeadline (s : State) (units : Nat) : Nat :=
  let r := s.hart.workResv
  let cl := s.clusNo
  let q := ((s.clusAt cl).works.filter (fun y => y.hid == s.cur)).foldl (fun m y => m + y.left) 0
  max s.hart.srcDl[2].toNat (pace s.now (units + q) (s.remaining r 6 cl) (s.budget r 6) 256)

/-- What a submission to the sampler reads through stream S: a request block, or the header of a program (R339, R341). -/
def State.smpRead (s : State) (op : Nat) (a : Word) : Except Stop (State × Nat) :=
  if op = 0 then (if a.toNat % 64 ≠ 0 then trapAt 0x10 a.toNat else s.shapeRecord a 8)
  else if op = 3 && a.toNat % 64 = 0 then
    match s.scalarPlace 0 a 4 .read with
    | .error e => .error e
    | .ok (s1, p) => .ok (s1, s1.getAt p 4)
  else .ok (s, 0)
/-- What the acting hart's submission has read already, where it waits for admission. -/
def Hart.smpRaw (h : Hart) : Option Nat := match h.wait with | some y => y.raw | none => none
/-- The admission of a sampler submission of the acting hart (R339 to R342): the common reasons first, 0x02 among them, with
the charge that the work's fields give, malformed or not (DEDUCED, log 70). One that waits was read at its dispatch. -/
def State.smpAdmit (s : State) (op : Nat) (w : Bool) (a b : Word) : Except Stop Adm :=
  let h := s.hart
  match (match h.smpRaw with | some x => .ok (s, x) | none => s.smpRead op a : Except Stop (State × Nat)) with
  | .error e => .error e
  | .ok (s1, x) =>
    let blk := if op = 0 then blockOf x else {}
    let n := if op = 3 then bits x 0 7 else 0
    let r := h.workResv
    let cl := s.clusNo
    let c := s.clusAt cl
    let k := s.core
    let why := s.commonReason s.who.fn r [6]
    let bad := match op with
      | 0 => blk.bad
      | 3 => a.toNat % 64 != 0 || decide (63 < b.toNat) || decide (128 ≤ x) || n == 0 || decide (96 < n)
      | _ => a.toNat % 64 != 0 || decide (1023 < b.toNat)
    let slot := if op = 0 then blk.slot.toNat else b.toNat
    let inWin := decide (k.smpBase.toNat ≤ slot) && decide (slot < k.smpBase.toNat + k.smpCnt.toNat)
    let units := if op = 0 then blk.maxcyc.toNat else if op = 3 then n + 16 else 32
    let d := s.smpDeadline units
    let cls := s.workCls h
    if why != 0 then .ok (.refused why false)
    else if cls != 0 && tooFar s.now d then .ok (.refused 2 (w && !hopelessPace s.now units (s.budget r 6) 256))
    else if bad then .ok (.refused 0x40 false)
    else if op != 3 && !inWin then .ok (.refused 0x42 false)
    else if 64 ≤ c.works.length || 16 ≤ s.worksOf s.cur then .ok (.refused 0x41 w)
    else if op = 3 && decide (2048 < c.poolUsed + n) then .ok (.refused 0x43 w)
    else
      let word := acceptWord cls d
      let work : Work := {
        seq := c.seq, hid := s.cur, core := s.coreNo, gang := h.gang, ghart := h.ghart, fn := BitVec.ofNat 5 s.who.fn
        resv := BitVec.ofNat 8 r, op := op, slot := slot, addr := a, n := n, blk := blk
        deadline := if cls = 0 then word else BitVec.ofNat 64 d, w := units, user := !h.sup, surr := h.surr.isSome
        hint := BitVec.ofNat 4 (match h.pfx with | some (p, _) => pfxHint p | none => 0) }
      let s2 := s1.setClusAt cl { c with works := c.works ++ [work], seq := c.seq + 1 }
      .ok (.accepted (if cls = 0 then s2 else s2.setHart { s2.hart with srcDl := s2.hart.srcDl.set 2 (BitVec.ofNat 64 d) }) word)

/-- The state after what a submission that is then refused has read. -/
def State.smpSeen (s : State) (op : Nat) (a : Word) : State := match s.smpRead op a with | .ok (t, _) => t | .error _ => s
/-- Sampler work submitted (R339, R341). One that comes to wait for admission keeps what it has read. -/
def State.smpSubmit (s : State) (op : Nat) (d a b : BitVec 5) (w : Bool) (fl : BitVec 3) : State :=
  let t := s.submission .s (.smp op d a b fl) w d [] (fun t => t.smpAdmit op w (t.reg a) (t.reg b))
    (fun u => if s.hart.smpRaw.isSome then u else u.smpSeen op (s.reg a))
  match t.hart.wait, t.hart.smpRaw, s.smpRead op (s.reg a) with
  | some y, none, .ok (s1, x) =>
    if y.kind = .admission (.smp op d a b fl) then s1.setHart { t.hart with wait := some { y with raw := some x } } else t
  | _, _, _ => t

/-- `smp.req` (R339). -/
def execSmpReq (d a : BitVec 5) (w : BitVec 1) (fl : BitVec 3) (s : State) : Out := .next (s.smpSubmit 0 d a 0 (w = 1) fl)

/-- `smp.tld` (R341). -/
def execSmpTld (d a b : BitVec 5) (w : BitVec 1) (s : State) : Out := .next (s.smpSubmit 1 d a b (w = 1) 0)

/-- `smp.tst` (R341). -/
def execSmpTst (d a b : BitVec 5) (w : BitVec 1) (s : State) : Out := .next (s.smpSubmit 2 d a b (w = 1) 0)

/-- `smp.pld` (R341). -/
def execSmpPld (d a b : BitVec 5) (w : BitVec 1) (s : State) : Out := .next (s.smpSubmit 3 d a b (w = 1) 0)

/-! ### Performing work (R341 to R343, R351 to R354) -/

/-- Whom a piece of work's accesses are made for (R314, R359). -/
def Work.who (w : Work) : Who :=
  { core := w.core, clus := w.core / 8, fn := w.fn.toNat, user := w.user, gang := w.gang }
/-- The hid an error record names for a piece of work (R366). -/
def Work.hidWord (w : Work) : Nat := if 4096 ≤ w.hid then 0xFFFF else w.hid
/-- A piece of work of a cluster, by its number. -/
def Clus.work (c : Clus) (seq : Nat) : Option Work := c.works.find? (fun w => w.seq == seq)
/-- A piece of work replaced. -/
def Clus.setWork (c : Clus) (w : Work) : Clus := { c with works := c.works.map (fun x => if x.seq == w.seq then w else x) }
/-- A piece of work may start: the first of its source, and of its slot (R55, R341, R343). -/
def Clus.mayStart (c : Clus) (w : Work) : Bool :=
  !w.started && !c.works.any (fun x => decide (x.seq < w.seq) &&
    (x.hid == w.hid || (x.op != 3 && w.op != 3 && x.slot == w.slot)))
/-- The device-virtual extents a piece of work reads or writes: addresses and sizes. -/
def Work.extents (w : Work) : List (Nat × Nat) :=
  match w.op with
  | 0 => (if bit w.blk.mode.toNat 1 then [] else [(w.blk.logits.toNat, w.blk.v.toNat * w.blk.elem)]) ++
      [(w.blk.res.toNat, 32)] ++ (if w.blk.wm = 0 then [] else [(w.blk.wm.toNat, 8)])
  | 3 => [(w.addr.toNat, 4 + 4 * w.n)]
  | _ => [(w.addr.toNat, 512)]
/-- A page of some extent of a piece of work lies in the host window. -/
def State.overPort (s : State) (w : Work) : Bool :=
  w.extents.any (fun x => (List.range (x.2 / 65536 + 2)).any (fun i =>
    let a := (x.1 / 65536 + i) * 65536
    decide (a < x.1 + x.2) && decide (a < 2 ^ 57) &&
      (match s.leafOf w.who a with | .ok (_, p) => inHost (leafPa p a) | .error _ => false)))
/-- Work held for a budget or for energy, which a surrender routine's never is (R46, R48, R324), or over a port whose DMA is shut
(R365; log 29). -/
def State.workHeld (s : State) (cl : Nat) (w : Work) : Bool :=
  let c := (s.rsvAt w.resv.toNat).cls
  (s.hostShut w.fn.toNat && s.overPort w) || !w.surr && ((c != 2 && s.dev.hold) ||
    (c != 0 && (s.remaining w.resv.toNat 7 0 == 0 || s.remaining w.resv.toNat 6 cl == 0)))
/-- Sampler cycles charged with their energy (R47, R342). -/
def State.chargeCycles (s : State) (cl : Nat) (w : Work) (n : Nat) : State :=
  (s.charge w.resv.toNat 6 cl n).chargeEnergy w.resv.toNat (4 * n)

/-- A piece of work is over: smpcnt counts it in its hart, or in the hart's member record while a frame holds the hart
(R335). `st` is a fault that no result record shows. -/
def State.workDone (s : State) (cl : Nat) (w : Work) (st : Option (BitVec 8 × Word)) : State :=
  let c := s.clusAt cl
  let s1 := s.setClusAt cl { c with
    works := c.works.filter (fun x => x.seq != w.seq)
    slotFn := if w.op = 3 then c.slotFn else c.slotFn.set w.slot w.fn }
  let op := BitVec.ofNat 4 w.op
  if 4096 ≤ w.hid then
    s1.setMember w.gang.toNat w.ghart (fun m => { m with
      away := m.away + 1, awaySt := match st with | some (k, a) => some (op, k, a) | none => m.awaySt })
  else
    let h := s1.hartAt w.hid
    let smp := match st with
      | some (k, a) => { h.smp with stOp := op, stCause := k, addr := a }
      | none => h.smp
    s1.setHartAt w.hid { h with smp := { smp with cnt := smp.cnt + 1 } }

/-- The touch a piece of work makes of a page (R64, R166). -/
def Work.touch (w : Work) : Nat := hintTouch w.hint.toNat
/-- The energy of the blocks of HBM and KiB of the Square that a piece of work moves (R47). -/
def State.chargeMoved (s : State) (w : Work) (l : List Span) : State :=
  s.chargeEnergy w.resv.toNat (2 * hbmBlocks l + cdiv (sqBytesOf l) 1024)
/-- The first of some spans in which an uncorrectable soft error stands (R366). -/
def State.spoiledSpan (s : State) (l : List Span) : Option Span := l.find? (fun x => s.spoiledAt x.place x.len)

/-- An access of a piece of work has stopped it: a soft error that it met is over (R354, R366). -/
def State.stopMet (s : State) (w : Work) (e : Stop) : State :=
  match e with | .trap t => if t.cause = 0x52 then s.errorMet w.fn.toNat w.hidWord t.addr else s | .wait _ => s

/-- The bytes of an extent of device memory, or the first address that faults or meets a soft error. -/
def State.readExtent (s : State) (w : Work) (a n : Nat) : Except Word (State × Mem) :=
  match s.dvSpans w.who a n 0 .read w.touch (n / 65536 + 2) with
  | .ok (s1, l) => match s1.spoiledSpan l with
    | some x => .error (BitVec.ofNat 64 (a + x.off))
    | none => .ok (s1.chargeMoved w l, s1.gather l)
  | .error (.trap t) => .error t.addr
  | .error _ => .error 0
/-- The state after such a read has failed: a soft error it met is over. -/
def State.readFailed (s : State) (w : Work) (a n : Nat) : State :=
  match s.dvSpans w.who a n 0 .read w.touch (n / 65536 + 2) with
  | .ok _ => s.errorMet w.fn.toNat w.hidWord (BitVec.ofNat 64 a)
  | .error e => s.stopMet w e

/-- `smp.tld` performed: the slot is replaced, or smpst says why not (R341). -/
def State.tableLoad (s : State) (cl : Nat) (w : Work) : State :=
  let s0 := s.chargeCycles cl w 32
  match s0.readExtent w w.addr.toNat 512 with
  | .error a => (s0.readFailed w w.addr.toNat 512).workDone cl w (some (0x4B, a))
  | .ok (s1, img) =>
    let c := s1.clusAt cl
    (s1.setClusAt cl { c with table := c.table.blit (512 * w.slot) 512 img }).workDone cl w none

/-- `smp.tst` performed: the whole extent is translated before a byte is written (R341). -/
def State.tableStore (s : State) (cl : Nat) (w : Work) : State :=
  let s0 := s.chargeCycles cl w 32
  match s0.dvSpans w.who w.addr.toNat 512 0 .write w.touch 3 with
  | .error (.trap t) => (s0.stopMet w (.trap t)).workDone cl w (some (0x4C, t.addr))
  | .error _ => s0
  | .ok (s1, l) => ((s1.chargeMoved w l).scatter l ((s1.clusAt cl).slot w.slot)).workDone cl w none

/-- `smp.pld` performed: the program is replaced, or smpst says why not (R334, R341). -/
def State.programLoad (s : State) (cl : Nat) (w : Work) : State :=
  let s0 := s.chargeCycles cl w (w.n + 16)
  match s0.readExtent w (w.addr.toNat + 4) (4 * w.n) with
  | .error a => (s0.readFailed w (w.addr.toNat + 4) (4 * w.n)).workDone cl w (some (0x4B, a))
  | .ok (s1, img) =>
    let words := (List.range w.n).map (fun i => BitVec.ofNat 32 (img.read (4 * i) 4))
    let c := s1.clusAt cl
    (s1.setClusAt cl { c with progs := c.progs.set w.slot { words := words, fn := w.fn, ver := w.seq + 1 } }).workDone cl w none

/-- The result record written (R352): whether it could be. The groups at 8, 16 and 24 come before that at 0. -/
def State.putRecord (s : State) (w : Work) (token m sum status cyc y : Nat) : Option State :=
  match s.dv w.who w.blk.res.toNat .write w.touch with
  | .error _ => none
  | .ok (s0, pa) =>
    let s1 := s0.chargeMoved w [⟨⟨.dv, 0, w.core, 0, pa⟩, 0, 32⟩]
    let m1 := ((s1.mem.write (pa + 8) 8 (sum + status * 2 ^ 32)).write (pa + 16) 8 (cyc + y * 2 ^ 32)).write (pa + 24) 8 w.blk.step.toNat
    some { s1 with mem := m1.write pa 8 (token + m * 2 ^ 32) }

/-- The record could not be written: a soft error that its write met is over. -/
def State.recordMet (s : State) (w : Work) : State :=
  match s.dv w.who w.blk.res.toNat .write w.touch with | .error e => s.stopMet w e | .ok _ => s

/-- A request ends without drawing, with a code and the cycles used (R354). -/
def State.reqEnd (s : State) (cl : Nat) (w : Work) (code cyc charged : Nat) : State :=
  let s1 := s.chargeCycles cl w (cyc - charged)
  match s1.putRecord w 0xFFFFFFFF 0 0 code cyc 0 with
  | some s2 => s2.workDone cl w none
  | none => (s1.recordMet w).workDone cl w (some (0x4C, w.blk.res))

/-- Cycles used so far, the present wait included (R343). -/
def Work.used (w : Work) (now : Nat) : Nat :=
  w.charged + w.waited + (match w.waitFrom with | some t => now - t.toNat | none => 0)

/-- The start of a piece of work that is a request (R332, R343): its program is bound; without one it ends with 0x4D. -/
def State.reqStart (s : State) (cl : Nat) (w : Work) : State :=
  let c := s.clusAt cl
  let attr := (biasEntry (c.slot w.slot) 0).2.1
  let k := attr % 64
  let s1 := s.chargeCycles cl w 16
  match (if bit attr 7 then c.progs.find k else none) with
  | some p =>
    s1.setClusAt cl (c.setWork { w with started := true, begin := s.time, words := p.words, prog := k, ver := p.ver })
  | none => s1.reqEnd cl { w with started := true } 0x4D 16 16

/-- Whether the strip at hand may run: its watermark is passed (R343). What it needs wraps modulo 2^64, as a signed value, of which
R343 says nothing (DESIGN CHOICE, log 90). -/
def State.stripPass (s : State) (w : Work) : Except Stop (State × Bool) :=
  if w.blk.wm = 0 then .ok (s, true)
  else match s.dv w.who w.blk.wm.toNat .read w.touch with
    | .error e => .error e
    | .ok (s1, pa) =>
      if s1.spoiled 3 0 pa 8 then trapAt 0x52 w.blk.wm.toNat
      else
      let need : Int := (min (128 * (w.strip + 1)) w.blk.v.toNat : Nat) + w.blk.wmoff.toInt
      .ok (s1.chargeMoved w [⟨⟨.dv, 0, w.core, 0, pa⟩, 0, 8⟩], decide (signed 64 (wrap 64 need) ≤ signed 64 (s1.mem.read pa 8)))

/-- The logits of the strip at hand, as FP32 patterns (R338, R351). -/
def State.stripLogits (s : State) (w : Work) : Except Stop (State × List Nat) :=
  let b := w.blk
  let n := min 128 (b.v.toNat - 128 * w.strip)
  let at_ := 128 * w.strip * b.elem
  let raw : Except Stop (State × List Span) :=
    if bit b.mode.toNat 1 then
      if 2 ^ 32 ≤ b.logits.toNat then trapAt 0x14 b.logits.toNat
      else match s.sqSpan w.who w.who.clus b.logits.toNat (at_ : Int) (n * b.elem) 0 with
        | .error e => .error e
        | .ok x => .ok (s, [x])
    else s.dvSpans w.who ((b.logits.toNat + at_) % 2 ^ 64) (n * b.elem) 0 .read w.touch 3
  match raw with
  | .error e => .error e
  | .ok (s1, l) =>
    let img := s1.gather l
    if (s1.spoiledSpan l).isSome then trapAt 0x52 b.logits.toNat
    else .ok (s1.chargeMoved w l, (List.range n).map (fun i =>
      if b.elem = 4 then img.read (4 * i) 4 else (bf16.toFmt f32 .rne (img.read (2 * i) 2)).1))

/-- The lanes of a strip at entry (R345). -/
def startLanes (t0 : Nat) (xs : List Nat) : Vector Lane 128 :=
  Vector.ofFn (fun i =>
    match xs.toArray[i.val]? with
    | none => {}
    | some x =>
      let t := t0 + i.val
      { l := ((Vector.replicate 16 (0 : BitVec 32)).set 0 (BitVec.ofNat 32 x)).set 1 (BitVec.ofNat 32 (f32OfNat t))
        tok := t, live := true })

/-- The words of a program in order (R348). -/
def Clus.runProgram (c : Clus) : List (BitVec 32) → Clus
  | [] => c.lockIllegal
  | w :: t =>
    match laneOpOf w with
    | some op => (c.lockstep op).runProgram t
    | none => c.lockIllegal.runProgram t

/-- y of a lane's output, with whether it was not finite (R349). -/
def yOf (c x : Nat) : Nat × Bool :=
  if x = 0xFF800000 then (x, false)
  else
    let y := (f32.mul .rne x c).1
    match f32.num y with
    | .nan _ => (0xFF800000, true)
    | .inf neg => if neg then (y, false) else (0x7F7FFFFF, true)
    | .fin .. => (y, false)

/-- The Gumbel term of a token (R350). -/
def gumbel (seed step : Word) (slot t : Nat) : Nat :=
  let u := philox seed.toNat (step.toNat * 2 ^ 64 + slot * 2 ^ 32 + t / 4) (t % 4) / 2 ^ 8
  match f32.num (log2F32 (2 * u + 1) (-25)) with
  | .fin _ m e => log2F32 m e
  | _ => f32.nan

/-- The key of a token (R349). -/
def keyOf (b : ReqBlock) (t y : Nat) : Nat :=
  if bit b.mode.toNat 0 && y != 0xFF800000 then (f32.sub .rne y (gumbel b.seed b.step b.slot.toNat t)).1 else y

/-- One level of the fixed pairwise tree, and its levels (R241, R351). -/
def pairLevel (f : Nat → Nat → Nat) : List Nat → List Nat
  | x :: y :: t => f x y :: pairLevel f t
  | l => l
def pairTree (f : Nat → Nat → Nat) : Nat → List Nat → List Nat
  | 0, l => l
  | n + 1, l => pairTree f n (pairLevel f l)

/-- The maximum of two patterns that are no NaN: +0 exceeds -0 (R94, R245). -/
def maxF32 (a b : Nat) : Nat := if cmpNum (f32.num a) (f32.num b) == .lt || (a = 0x80000000 && b = 0) then b else a

/-- m, S, the candidate and nf after a strip whose lanes gave ys (R349, R351). A key of +0 ties with one of −0, of which R349 says
nothing (DESIGN CHOICE, log 91). -/
def Work.fold (w : Work) (ys : List (Nat × Nat × Bool)) : Work :=
  let mj := ys.foldl (fun m y => maxF32 m y.2.1) 0xFF800000
  let mn := maxF32 w.m.toNat mj
  let add (a b : Nat) : Nat := (f32.add .rne a b).1
  let sum :=
    if mn = 0xFF800000 then w.s.toNat
    else
      let p := ys.map (fun y => exp2F32 (f32.sub .rne y.2.1 mn).1)
      add (f32.mul .rne w.s.toNat (exp2F32 (f32.sub .rne w.m.toNat mn).1)).1 ((pairTree add 7 p).headD 0)
  let best := ys.foldl (fun (b : Nat × Option Nat × Nat) y =>
    let k := keyOf w.blk y.1 y.2.1
    if cmpNum (f32.num b.1) (f32.num k) == .lt then (k, some y.1, y.2.1) else b) (w.key.toNat, w.tok, w.y.toNat)
  { w with
    m := BitVec.ofNat 32 mn, s := BitVec.ofNat 32 sum, key := BitVec.ofNat 32 best.1, tok := best.2.1
    y := BitVec.ofNat 32 best.2.2, nf := w.nf || ys.any (fun y => y.2.2), strip := w.strip + 1 }

/-- A started request waits, from now on or from before (R343). -/
def State.workWait (s : State) (cl : Nat) (w : Work) : State :=
  s.setClusAt cl ((s.clusAt cl).setWork { w with waitFrom := some (w.waitFrom.getD s.time), tried := s.now + 1 })
/-- One strip of a started request (R343, R348 to R351): it runs, waits, or ends the request. One that a fault ends has used the
cycles of the strips before it, and those it waited, which R343 and R356 say of the other codes alone (DESIGN CHOICE, log 39). -/
def State.stripRun (s : State) (cl : Nat) (w : Work) : State :=
  let wait (t : State) : State := t.workWait cl w
  let charged := w.charged
  if s.workHeld cl w then wait s
  else if w.blk.maxcyc.toNat < w.used s.now + w.stripCyc then s.reqEnd cl w 0x4A w.blk.maxcyc.toNat charged
  else match s.stripPass w with
    | .error (.wait _) => wait s
    | .error e => (s.stopMet w e).reqEnd cl w 0x4B (w.used s.now) charged
    | .ok (s1, false) => wait s1
    | .ok (s1, true) =>
      match s1.stripLogits w with
      | .error (.wait _) => wait s1
      | .error e => (s1.stopMet w e).reqEnd cl w 0x4B (w.used s.now) charged
      | .ok (s2, xs) =>
        let c := s2.clusAt cl
        let c1 := ({ c with lanes := startLanes (128 * w.strip) xs, lslot := w.slot, lstat := 0 } : Clus).runProgram w.words
        let s3 := (s2.setClusAt cl c1).chargeCycles cl w w.stripCyc
        if c1.lstat != 0 then s3.reqEnd cl w c1.lstat.toNat (w.used s.now + w.stripCyc) (charged + w.stripCyc)
        else
          let ys := (c1.lanes.toList.take xs.length).map (fun l => (l.tok, yOf w.blk.c.toNat l.out.toNat))
          s3.setClusAt cl ((s3.clusAt cl).setWork (w.fold ys))

/-- A waiting request looks again: it goes on where nothing holds it, its watermark is passed and its bay granted
(R314, R343). -/
def State.stripReread (s : State) (cl : Nat) (w : Work) : State :=
  match w.waitFrom with
  | none => s
  | some _ =>
    let go (t : State) (on : Bool) : State := t.setClusAt cl ((t.clusAt cl).setWork
      (if on then { w with waitFrom := none, waited := w.used s.now - w.charged, tried := s.now + 1 } else { w with tried := s.now + 1 }))
    if s.workHeld cl w then go s false
    else match s.stripPass w with
      | .error (.wait _) => go s false
      | .error e => (s.stopMet w e).reqEnd cl w 0x4B (w.used s.now) w.charged
      | .ok (s1, ok) =>
        let bay := match s1.stripLogits w with | .error (.wait _) => false | _ => true
        go s1 (ok && bay)

/-- A request whose count passes its budget ends there (R343). -/
def State.cycleOverrun (s : State) (cl : Nat) (w : Work) : State :=
  if w.started && decide (w.blk.maxcyc.toNat < w.used s.now) then s.reqEnd cl w 0x4A w.blk.maxcyc.toNat w.charged else s

/-- A bump of a token (R353): the entry's number and new value, or none where the table is full. -/
def bumpOf (slot : Mem) (t : Nat) : Option (Nat × Nat) :=
  match countOf slot t with
  | some i => some (i, t + min ((countEntry slot i).2 + 1) 255 * 2 ^ 24)
  | none =>
    match (List.range 96).find? (fun i => (countEntry slot i).2 == 0) with
    | some i => some (i, t + 2 ^ 24)
    | none => none

/-- The draw after the last strip: the record, then the bump it reports (R352, R353); it waits while the record lies behind a port
that is shut (R365). -/
def State.reqDraw (s : State) (cl : Nat) (w : Work) : State :=
  let c := s.clusAt cl
  let wants := bit w.blk.mode.toNat 2
  let b := match w.tok with | some t => if wants then bumpOf (c.slot w.slot) t else none | none => none
  let cyc := w.used s.now + (if b.isSome then 4 else 0)
  if w.blk.maxcyc.toNat < cyc then s.reqEnd cl w 0x4A w.blk.maxcyc.toNat w.charged
  else if (match s.dv w.who w.blk.res.toNat .write w.touch with | .error (.wait _) => true | _ => false) then s.workWait cl w
  else
    let full := wants && w.tok.isSome && b.isNone
    let status := b2n w.nf * 2 ^ 8 + b2n w.tok.isNone * 2 ^ 9 + b2n full * 2 ^ 10
    let s1 := s.chargeCycles cl w (cyc - w.charged)
    let record := match w.tok with
      | some t => s1.putRecord w t w.m.toNat w.s.toNat status cyc w.y.toNat
      | none => s1.putRecord w 0xFFFFFFFF 0xFF800000 0 status cyc 0
    match record with
    | none => (s1.recordMet w).workDone cl w (some (0x4C, w.blk.res))
    | some s2 =>
      let c2 := s2.clusAt cl
      let s3 := match b with
        | some (i, x) => s2.setClusAt cl { c2 with table := c2.table.write (512 * w.slot + 4 * i) 4 x }
        | none => s2
      s3.workDone cl w none

end Sys2Proof.Machine
end

