-- ==== Sys2Proof/Machine/System.lean ====
section
/-! DEFINITION. Gangs and harts (major 0x0B and the prefix word): glaunch and the hardware's writes to a launch block
(R113 to R118), gbar (R123, R124), hend (R125), hsusp (R135), tret (R138), pfx (R60, R85). -/

namespace Sys2Proof.Machine

/-! ### The launch block (R114) -/

/-- The fields of a launch block; `zero` says that its zero fields are zero. -/
structure Block where
  entry : Word
  args : Word
  stack : Nat
  harts : Nat
  lanes : Nat
  mshare : Nat
  arows : Nat
  resv : Nat
  place : Nat
  wm : Word
  wmv : Word
  zero : Bool
  deriving DecidableEq, Repr

/-- The block of its first 64 bytes. -/
def launchBlock (x : Nat) : Block :=
  { entry := BitVec.ofNat 64 x, args := BitVec.ofNat 64 (bits x 64 64), stack := bits x 128 32, harts := bits x 160 16
    lanes := bits x 176 8, mshare := bits x 184 8, arows := bits x 192 16, resv := bits x 208 8, place := bits x 216 8
    wm := BitVec.ofNat 64 (bits x 256 64), wmv := BitVec.ofNat 64 (bits x 320 64)
    zero := bits x 224 32 == 0 && bits x 384 128 == 0 }

/-- A field breaks a limit of R114, or two fields exclude each other (R115). -/
def Block.bad (b : Block) : Bool :=
  b.entry.toNat % 4 != 0 || decide (2 ^ 57 ≤ b.entry.toNat) || b.stack % 64 != 0 || b.harts == 0 || decide (1280 < b.harts) ||
  decide (64 < b.lanes) || b.lanes % 8 != 0 || decide (2 < b.mshare) ||
  (if b.mshare = 0 then b.arows != 0 else b.arows == 0 || decide (512 < b.arows)) ||
  decide (8 ≤ b.place) || b.wm.toNat % 8 != 0 || !b.zero || (bit b.place 2 && bits b.place 0 2 == 2 && decide (1 < b.harts))

/-! ### Placement (R116) -/

/-- What a core has left: its free slots, its taken lane groups and halves, its taken rows, and whether a hart of the
gang being placed is on it. -/
structure Room where
  core : Nat
  slots : List Nat
  groups : Nat
  halves : Nat
  rows : List (Nat × Nat)
  mine : Bool
  stkmax : Nat
  deriving DecidableEq, Repr

/-- The room of a core. Resources that a hart holds until the next frame boundary count as taken. -/
def State.roomOf (s : State) (k : Nat) : Room :=
  let hs := (List.range 8).map (fun i => s.hartAt (8 * k + i))
  let plans := (hs.filter (fun h => h.run != .free)).map (fun h => h.plan) ++ (s.coreAt k).freeing
  { core := k, slots := (List.range 8).filter (fun i => (s.hartAt (8 * k + i)).run == .free)
    groups := plans.foldl (fun n p => n ||| p.groups.toNat) 0
    halves := plans.foldl (fun n p => n ||| p.halves.toNat) 0
    rows := (plans.filter (fun p => p.rows != 0)).map (fun p => (p.rowBase, p.rows))
    mine := false, stkmax := (s.coreAt k).stkmax.toNat }

/-- The lowest base at which n rows are free. -/
def Room.rowFit (r : Room) (n : Nat) : Option Nat :=
  if n = 0 then some 0
  else (List.range (513 - n)).find? (fun b => r.rows.all (fun x => decide (x.1 + x.2 ≤ b) || decide (b + n ≤ x.1)))
/-- The lowest-numbered free lane groups, n of them, as a mask. -/
def Room.groupFit (r : Room) (n : Nat) : Option Nat :=
  let l := ((List.range 8).filter (fun i => !bit r.groups i)).take n
  if l.length = n then some (l.foldl (fun m i => m + 2 ^ i) 0) else none
/-- The halves that a share takes: both, or half A if free, else half B; none for none. -/
def Room.halfFit (r : Room) (mshare : Nat) : Option Nat :=
  if mshare = 0 then some 0
  else if mshare = 2 then (if r.halves = 0 then some 3 else none)
  else if !bit r.halves 0 then some 1 else if !bit r.halves 1 then some 2 else none

/-- What a room grants, and the room after it: lanes, a choice of halves, rows. -/
def Room.allot (r : Room) (lanes rows : Nat) (halves : Option Nat) : Option (Plan × Room) :=
  match r.groupFit (lanes / 8), halves, r.rowFit rows with
  | some g, some m, some base =>
    some ({ lanes := lanes, groups := BitVec.ofNat 8 g, halves := BitVec.ofNat 2 m, rowBase := base, rows := rows },
      { r with groups := r.groups + g, halves := r.halves ||| m, rows := if rows = 0 then r.rows else (base, rows) :: r.rows })
  | _, _, _ => none

/-- A core's offer for one hart of a block. -/
def Room.offer (r : Room) (b : Block) : Option (Nat × Plan × Room) :=
  match r.slots, r.allot b.lanes b.arows (r.halfFit b.mshare) with
  | i :: t, some (p, r1) =>
    if decide (b.stack ≤ r.stkmax) && !(bit b.place 2 && r.mine) then some (8 * r.core + i, p, { r1 with slots := t, mine := true })
    else none
  | _, _ => none

/-- Free lane groups of a room. -/
def Room.freeGroups (r : Room) : Nat := 8 - popcount r.groups 8

/-- The core for the next hart: of those that can take it in the lowest such cluster, the one with most free lane
groups. -/
def pickCore (b : Block) (rooms : List Room) : Option (Nat × Plan × Room) :=
  let c := rooms.filterMap (fun r => (r.offer b).map (fun o => (r.freeGroups, r.core, o)))
  match c with
  | [] => none
  | x :: t =>
    some ((t.foldl (fun m y => if y.2.1 / 8 = x.2.1 / 8 && decide (m.1 < y.1) then y else m) x).2.2)

/-- Harts placed one after another. -/
def placeHarts (b : Block) : Nat → List Room → Option (List (Nat × Plan))
  | 0, _ => some []
  | n + 1, rooms =>
    match pickCore b rooms with
    | none => none
    | some (hid, p, r) =>
      match placeHarts b n (rooms.map (fun x => if x.core == r.core then r else x)) with
      | none => none
      | some l => some ((hid, p) :: l)

/-- The cores of each unit of a scope, lowest unit first. -/
def scopeUnits (place : Nat) : List (List Nat) :=
  let unit (n k : Nat) : List Nat := (List.range n).map (fun i => n * k + i)
  match bits place 0 2 with
  | 0 => [List.range 160]
  | 1 => (List.range 20).map (unit 8)
  | 2 => (List.range 160).map (unit 1)
  | _ => (List.range 4).map (unit 40)

/-- A placement of a block, or the reason there is none: 0x51 for slots, 0x52 for the rest (R115, R116). -/
def State.placement (s : State) (b : Block) : Except Nat (List (Nat × Plan)) :=
  let units := (scopeUnits b.place).map (fun l => l.map s.roomOf)
  let slots (l : List Room) : Nat :=
    if bit b.place 2 then (l.filter (fun r => !r.slots.isEmpty)).length else l.foldl (fun n r => n + r.slots.length) 0
  if !units.any (fun l => decide (b.harts ≤ slots l)) then .error 0x51
  else match units.findSome? (placeHarts b b.harts) with
    | some l => .ok l
    | none => .error 0x52

/-! ### Writes to the launch block (R118) -/

/-- A group of hardware writes to the launch block of gang g, as one store, whose block of HBM is charged to the gang's reservation
(R44, R47). One that cannot be performed is dropped, and a notice record says so. -/
def State.blockWrite (s : State) (g : Nat) (fields : List (Nat × Nat × Nat)) : State :=
  match s.gangAt g with
  | none => s
  | some x =>
    let who : Who := { supWho x.core with fn := x.ctx }
    match s.dv who (x.block.toNat + 64) .write 2 with
    | .ok (s1, pa) =>
      let s2 := if inHbm pa then s1.chargeEnergy x.resv.toNat 2 else s1
      { s2 with mem := fields.foldl (fun m f => m.write (pa + f.1 - 64) f.2.1 f.2.2) s2.mem }
    | .error (.trap t) => (if t.cause = 0x52 then s.errorMet x.ctx 0xFFFF t.addr else s).postRecord x.core
        { cause := t.cause, engine := 7, flags := 8, hid := 0xFFFF, gang := BitVec.ofNat 16 g, addr := x.block, time := s.time }
    | .error _ => s

/-! ### Launching (R113 to R117) -/

/-- A gang number that no gang has, from n on. -/
def freeGang (gs : TMap Gang) (n : BitVec 16) : Nat → BitVec 16
  | 0 => n
  | k + 1 => if n = 0 || (gs.find n.toNat).isSome then freeGang gs (n + 1) k else n

/-- The start state of a hart (R75, R117), reserved until its frame boundary. vwtmo, which R75's table does not name, starts at
4096, the reset value of R285 (DESIGN CHOICE, log 71). -/
def Hart.launched (hid : Nat) (k : Core) (b : Block) (g : BitVec 16) (fn i : Nat) (p : Plan) : Hart :=
  let hi := k.stkpool + BitVec.ofNat 64 (hid % 8 + 1) * k.stkmax
  { run := .reserved, pc := b.entry, regs := ((Vector.replicate 32 (0 : Word)).set 2 hi).set 3 b.args
    stkhi := hi, stklo := hi - BitVec.ofNat 64 b.stack, rstrm := BitVec.ofNat 64 hid
    gang := g, ghart := i, gsize := b.harts, fn := BitVec.ofNat 5 fn, resv := BitVec.ofNat 8 b.resv, plan := p
    vec := { vgrant := 8 * popcount p.groups.toNat 8 } }

/-- Accepted launches of an issuer whose gangs have not started (R115). -/
def State.launchesOf (s : State) (src : Nat) : Nat := (s.dev.gangs.filter (fun g => g.2.src == src && !g.2.placed)).length

/-- A launch of block b at address a in context `ctx`, for function `fn`, by issuer `src` at a core: the reason of its
refusal (R115, R369), or the state with the gang accepted and its accept word. -/
def State.launch (s : State) (core src ctx fn : Nat) (a : Word) (b : Block) : Except Nat (State × Word) :=
  let why := s.commonReason fn b.resv [0]
  if why != 0 && why != 1 then .error why
  else if b.bad then .error 0x50
  else if why = 1 then .error 1
  else match s.placement b with
  | .error r => .error r
  | .ok l =>
    if 8 ≤ s.launchesOf src then .error 0x53
    else
      let g := freeGang s.dev.gangs s.dev.nextGang (s.dev.gangs.length + 2)
      let f := nextFrame s.now
      let word := acceptWord (s.rsvAt b.resv).cls (f + 64)
      let gang : Gang := {
        block := a, fn := BitVec.ofNat 5 fn, ctx := ctx, core := core, src := src, resv := BitVec.ofNat 8 b.resv
        entry := b.entry, args := b.args, stack := b.stack, lanes := b.lanes, wm := b.wm, wmv := b.wmv
        deadline := if (s.rsvAt b.resv).cls = 0 then word else BitVec.ofNat 64 (f + 64)
        members := l.map (fun x => { core := x.1 / 8 }) }
      let s1 := (l.zipIdx).foldl (fun t x =>
        t.setHartAt x.1.1 (Hart.launched x.1.1 (t.coreAt (x.1.1 / 8)) b g fn x.2 x.1.2)) s
      let s0 := s1.setGangAt g.toNat gang
      let s2 : State := { s0 with dev := { s0.dev with nextGang := g + 1 } }
      .ok (s2.blockWrite g.toNat [(64, 4, 1), (68, 2, g.toNat), (70, 2, 0), (72, 8, word.toNat)], word)

/-- An access looked at without being made: cause 0x14, 0x11, 0x18 or 0x12. -/
def State.permits (s : State) (who : Who) (a : Nat) (acc : Acc) : Except Stop Unit :=
  if 2 ^ 57 ≤ a then trapAt 0x14 a
  else match s.leafOf who a with
    | .error c => trapAt c a
    | .ok (_, p) => if pteAllows p who.user acc then .ok () else trapAt 0x12 a

/-- The read of a launch block at dispatch: all 128 bytes checked for read and for write (R113), and charged to the reservation that
the block names (R44, R47); a soft error in what is read is cause 0x52. -/
def State.blockRead (s : State) (who : Who) (a kind : Nat) : Except Stop (State × Nat) :=
  match s.dv who a .read kind with
  | .error e => .error e
  | .ok (s1, pa) =>
    match s1.permits who a .write with
    | .error e => .error e
    | .ok _ =>
      match s1.dv who (a + 64) .read kind with
      | .error e => .error e
      | .ok (s2, _) =>
        match s2.permits who (a + 64) .write with
        | .error e => .error e
        | .ok _ =>
          if s2.spoiled 3 0 pa 64 then trapAt 0x52 a
          else
            let raw := s2.mem.read pa 64
            .ok (s2.chargeEnergy (launchBlock raw).resv (if inHbm pa then 2 else 0), raw)
/-- The state after the acting hart's read of a launch block that is then refused. -/
def State.blockSeen (s : State) (x : Word) : State :=
  match s.blockRead s.who x.toNat s.hart.scalarTouch with | .ok (t, _) => t | .error _ => s

/-- The checks at dispatch and the admission of a glaunch of the acting hart, its block at x (R113, R115). -/
def State.launchAdmit (s : State) (x : Word) : Except Stop Adm :=
  match s.scalarGate 0 .read with
  | some w => .error (.wait w)
  | none =>
  if x.toNat % 64 ≠ 0 then trapAt 0x10 x.toNat
  else match s.blockRead s.who x.toNat s.hart.scalarTouch with
    | .error e => .error e
    | .ok (t1, raw) =>
      -- function 0's own reset refuses its supervisors (R364)
      if t1.fnClosed t1.who.fn then .ok (.refused 9 false)
      else match t1.launch t1.coreNo t1.cur 0 t1.hart.lfunc.toNat x (launchBlock raw) with
      | .error r => .ok (.refused r false)
      | .ok (t2, word) => .ok (.accepted t2 word)

/-- A glaunch submitted (R113). -/
def State.glaunch (s : State) (d a : BitVec 5) : State :=
  if !s.hart.sup then s.trapSeq ⟨0x05, 0⟩
  else s.submission .s (.launch d a) false d [] (fun t => t.launchAdmit (t.reg a)) (fun u => u.blockSeen (s.reg a))

/-- `glaunch` (R113). -/
def execGlaunch (d a : BitVec 5) (s : State) : Out := .next (s.glaunch d a)

/-! ### Barriers (R123, R124) -/

/-- The unit of a member's group for a scope: its core or cluster at launch, or 0. -/
def groupUnit (sc core : Nat) : Nat := if sc = 0 then core else if sc = 1 then core / 8 else 0
/-- A member belongs to a group: it has not ended. -/
def Member.inGroup (m : Member) (sc unit : Nat) : Bool := !m.ended && groupUnit sc m.core == unit
/-- The generation count of a group. -/
def Gang.genOf (x : Gang) (sc unit : Nat) : BitVec 16 := (x.gens.find (4096 * sc + unit)).getD 0
/-- A member has arrived at the generation under way. -/
def Member.arrivedAt (m : Member) (sc : Nat) (gen : BitVec 16) : Bool := bit m.arrived.toNat sc && m.gens.toList.getD sc 0 == gen
/-- Every member of a group has arrived. -/
def Gang.groupFull (x : Gang) (sc unit : Nat) : Bool :=
  x.members.any (fun m => m.inGroup sc unit) &&
    x.members.all (fun m => !m.inGroup sc unit || m.arrivedAt sc (x.genOf sc unit))

/-- A member's arrival made or cleared. -/
def Member.arrive (m : Member) (sc : Nat) (gen : BitVec 16) : Member :=
  { m with arrived := m.arrived ||| (1#3 <<< sc), gens := m.gens.setIfInBounds sc gen }
def Member.depart (m : Member) (sc : Nat) : Member := { m with arrived := m.arrived &&& ~~~(1#3 <<< sc) }

/-- `gbar` (R123): the hart drains, arrives and waits; where its arrival has been made before, it waits on, or departs
at once if that generation has completed. -/
def execGbar (g : BitVec 2) (s : State) : Out :=
  .next (s.frame none none (fun t =>
    let h := t.hart
    let sc := g.toNat
    if h.sup then trapAt 0x08 0
    else if h.surr.isSome then trapAt 0x44 0
    else match t.gangAt h.gang.toNat with
      | none => .ok (t, .park (.gbar g))
      | some x =>
        let m := x.members.getD h.ghart {}
        let gen := x.genOf sc (groupUnit sc m.core)
        if bit m.arrived.toNat sc && !m.arrivedAt sc gen then
          .ok (t.setMember h.gang.toNat h.ghart (fun y => y.depart sc), .retire)
        else if m.arrivedAt sc gen then .ok (t, .park (.gbar g))
        else if t.engineBusy t.cur then .error (.wait (.drain true))
        else .ok (t.setMember h.gang.toNat h.ghart (fun y => y.arrive sc gen), .park (.gbar g))))

/-- A completed barrier: the generation advances, and each member that waits there departs (R123, R124). -/
def State.gbarDepart (s : State) (g sc unit : Nat) : State :=
  match s.gangAt g with
  | none => s
  | some x =>
    if !x.groupFull sc unit then s
    else
      let s1 := s.setGangAt g { x with gens := x.gens.set (4096 * sc + unit) (x.genOf sc unit + 1) }
      s1.harts.foldl (fun t p =>
        let h := t.hartAt p.1
        let here : Bool := match h.wait with | some w => (match w.kind with | .gbar y => y.toNat == sc | _ => false) | none => false
        if h.run == .running && h.gang.toNat == g && here && (x.members.getD h.ghart {}).inGroup sc unit then
          (t.setMember g h.ghart (fun y => y.depart sc)).setHartAt p.1 ((h.deposit (pushOf h.pfx)).advance)
        else t) s1

/-! ### Ending (R125, R138) -/

/-- Everything outside its slot that a hart of a gang holds or awaits, put under another holder number: its hid while it
is in a slot, its `awayNo` while only a frame holds it. -/
def State.rehold (s : State) (g : BitVec 16) (old new : Nat) : State :=
  let hold (b : Bay) : Bay := if b.st != .free && b.gang = g && b.holder = old then { b with holder := new } else b
  let cl (c : Clus) : Clus := { c with
    bays := c.bays.map (fun kb => (kb.1, hold kb.2))
    recalls := c.recalls.map (fun r => if (c.bay r.victim).gang = g && r.holder = old then { r with holder := new } else r)
    works := c.works.map (fun w => if w.gang = g && w.hid = old then { w with hid := new } else w) }
  { s with
    clus := s.clus.map (fun kc => (kc.1, cl kc.2))
    dev := { s.dev with updates := s.dev.updates.map (fun u => if u.gang = g && u.hid = old then { u with hid := new } else u) } }

/-- The bays of a table that satisfy a condition. -/
def Clus.baysWith (c : Clus) (f : Bay → Bool) : List Nat := (c.bays.filter (fun kb => f kb.2)).map (fun kb => kb.1)
/-- Bays released at once where held, and at their grants where pending (R316, R323). -/
def State.dropBays (s : State) (f : Bay → Bool) : State :=
  s.clus.foldl (fun t kc =>
    (kc.2.baysWith f).foldl (fun u h =>
      let b := (u.clusAt kc.1).bay h
      match b.st with
      | .held => u.releaseBay kc.1 h
      | .pending => u.setClusAt kc.1 ((u.clusAt kc.1).setBay h { b with giveAtGrant := true })
      | .free => u) t) s

/-- A hart ends: its negotiated bays are released, it leaves its groups and is counted; its slot and its plan go at the
next frame boundary (R125, R138, R316). -/
def State.endHart (s : State) (hid : Nat) (kill : Bool) : State :=
  let h := s.hartAt hid
  let s1 := s.dropBays (fun b => b.st != .free && b.neg && b.gang = h.gang && b.holder = hid)
  let s2 := (s1.rehold h.gang hid (awayNo h.gang h.ghart)).setMember h.gang.toNat h.ghart (fun m => { m with ended := true, arrived := 0 })
  let s3 := match s2.gangAt h.gang.toNat with
    | none => s2
    | some x => s2.setGangAt h.gang.toNat
        (if kill then { x with nkill := x.nkill + 1 } else { x with nend := x.nend + 1 })
  s3.setHartAt hid { run := .ended, plan := h.plan }

/-- A lost update of the hart is reported: cause 0x52 at the instruction, once (R186). -/
def State.lostTrap (s : State) (a : Word) : State :=
  let s1 := s.beginSuspend s.cur ⟨0x52, a⟩ { engine := unitOf s.ir, ipc := s.hart.pc, word := s.ir } true
  s1.setHart { s1.hart with lostUpd := none }

/-- `hend` (R125): dispatch stops, and the hart ends when all its work is over. -/
def execHend (s : State) : Out :=
  .next (s.bare none none (fun t =>
    if t.hart.sup then trapAt 0x08 0
    else if t.hart.surr.isSome then trapAt 0x44 0
    else match t.hart.lostUpd with
      | some a => .ok (t.lostTrap a)
      | none => .ok (t.setHart { t.hart with wait := some { kind := .hend, since := t.time } })))

/-- The hart waits in hend, and all it had under way is over (R125). -/
def State.hendReady (s : State) (hid : Nat) : Bool :=
  let h := s.hartAt hid
  h.run == .running && (match h.wait with | some w => w.kind == .hend | none => false) &&
  h.vq.isEmpty && h.mq.isEmpty && h.cq.isEmpty && h.ss.isEmpty && !s.samplerBusy hid &&
  !s.dev.updates.any (fun u => u.hid == hid) &&
  !(s.clus.any (fun kc => kc.2.bays.any (fun kb => kb.2.st == .pending && kb.2.gang = h.gang && kb.2.holder == hid)))

/-- The hart ends, or its hend reports a lost update (R125, R186). -/
def State.hendDone (s : State) (hid : Nat) : State :=
  if !s.hendReady hid then s
  else
    let h := s.hartAt hid
    match h.lostUpd with
    | some a =>
      let s1 := s.beginSuspend hid ⟨0x52, a⟩ { ipc := h.pc, word := 0x2C008000 } true
      s1.setHartAt hid { s1.hartAt hid with lostUpd := none }
    | none => s.endHart hid false

/-- A gang is complete: every hart has ended, its sampler work is over and its updates are applied (R118, R138). -/
def State.gangOver (s : State) (g : Nat) (x : Gang) : Bool :=
  x.members.all (fun m => m.ended) && !s.dev.updates.any (fun u => u.gang.toNat == g) &&
  !s.clus.any (fun kc => kc.2.works.any (fun w => w.gang.toNat == g))

/-- The completion of a gang: its bays are released and its block's last group is written (R118, R316). -/
def State.gangDone (s : State) (g : Nat) : State :=
  match s.gangAt g with
  | none => s
  | some x =>
    if !s.gangOver g x then s
    else
      let s1 := s.dropBays (fun b => b.st != .free && b.gang.toNat == g)
      let s2 := s1.blockWrite g [(64, 4, 3), (88, 8, s.now), (96, 4, x.nend), (100, 4, x.nkill), (104, 24, 0)]
      { s2 with dev := { s2.dev with gangs := s2.dev.gangs.filter (fun p => p.1 != g) } }

/-! ### Suspending and resuming (R134, R135, R138) -/

/-- Pre-emption of a hart: at once, or in a surrender routine after its bay.ret (R134). -/
def State.preempt (s : State) (hid : Nat) : State :=
  let h := s.hartAt hid
  if h.surr.isSome then s.setHartAt hid { h with preempt := true }
  else s.beginSuspend hid ⟨0x50, 0⟩ { engine := 7 } false

/-- A supervisor-only instruction that takes no prefix (R69, R88). -/
def State.superBare (s : State) (body : State → Except Stop State) : State :=
  s.bare (if s.hart.sup then none else some 0x05) none body

/-- `hsusp` (R135). -/
def execHsusp (a : BitVec 5) (s : State) : Out :=
  .next (s.superBare (fun t =>
    let x := (t.reg a).toNat
    if x / 8 ≠ t.coreNo then trapAt 0x08 0
    else
      let h := t.hartAt x
      if h.sup then trapAt 0x08 0
      else match h.run with
        | .free | .reserved | .ended => trapAt 0x08 0
        | .suspended | .loaded => .ok (t.setHart t.hart.advance)
        | .suspending => .error (.wait (.hsusp x))
        | .running | .watermark => .ok ((t.preempt x).waitFor (.hsusp x))))

/-- A copy that has a base in the host window now, which its admission looks at (R192). -/
def State.copyHost (s : State) (hid : Nat) (en : Entry) : Bool :=
  match copyRunOf en.instr with
  | none => false
  | some c => s.hostBase hid c.ssp en.op1 || s.hostBase hid c.dsp en.op2
/-- The reservation's deadline for a copy admitted again, at the present state: all ones where R54 gives reason 0x02,
or for class B, or where a side lies in the host window (R137, R197). -/
def State.freshDeadline (s : State) (hid : Nat) (en : Entry) (q qh : Nat) : Word :=
  match copyRunOf en.instr with
  | none => 0
  | some _ =>
    let r := (s.hartAt hid).entryResv en
    let host := s.copyHost hid en
    let d := s.copyDeadline hid r ⟨en.left, en.leftH, host⟩ q qh
    if host || (s.rsvAt r).cls = 0 || tooFar s.now d then BitVec.allOnes 64 else BitVec.ofNat 64 d

/-- The entries of a copy queue that satisfy a condition admitted again, in queue order (R137, R138). -/
def State.readmit (s : State) (hid : Nat) (f : Entry → Bool) : List Entry → Nat → Nat → List Entry
  | [], _, _ => []
  | en :: t, q, qh =>
    let e1 := if f en && (copyRunOf en.instr).isSome then
        { en with deadline := s.freshDeadline hid en q qh, host := s.copyHost hid en, voided := false, late := false } else en
    e1 :: s.readmit hid f t (q + en.left) (qh + en.leftH)

/-- The last deadline of a hart's copies with those of a queue admitted again, all ones apart (R55, log 24). -/
def lastDeadline (d : Word) (cq : List Entry) : Word :=
  cq.foldl (fun m e =>
    if (copyRunOf e.instr).isSome && e.deadline != BitVec.allOnes 64 && decide (m.toNat < e.deadline.toNat) then e.deadline else m) d

/-- A hart resumed: the entries its suspension voided are admitted again, bays it holds elsewhere are lost, and it goes
on at its resume pc; one whose gang's start watermark is not reached waits for that (R117, R138, R328). -/
def State.resumeHart (s : State) (hid : Nat) : State :=
  let h := s.hartAt hid
  let cq := s.readmit hid (fun e => e.voided) h.cq 0 0
  let s1 := s.setHartAt hid { h with
    cq := cq, mq := h.mq.map (fun e => { e with voided := false }), srcDl := h.srcDl.set 0 (lastDeadline h.srcDl[0] cq) }
  let s2 := s1.clus.foldl (fun t kc =>
    if kc.1 = hid / 64 then t
    else (kc.2.baysWith (fun b => b.st != .free && b.neg && b.gang = h.gang && b.holder = hid)).foldl
      (fun u k => u.forceRelease kc.1 k) t) s1
  let h2 := (s2.hartAt hid).resume
  let waiting := match s2.gangAt h.gang.toNat with | some x => x.waiting | none => false
  s2.setHartAt hid { h2 with pc := h2.pc &&& pcMask, run := if waiting then .watermark else .running }

/-- `tret` (R138). -/
def execTret (s : State) : Out :=
  .next (s.superBare (fun t =>
    let hid := 8 * t.coreNo + t.core.trSlot.toNat
    let h := t.hartAt hid
    if h.sup || !(h.run == .suspended || h.run == .loaded) then trapAt 0x08 0
    else if t.core.trKill then
      let t1 := t.endHart hid true
      .ok (t1.setHart t1.hart.advance)
    else if h.hdr.rpc.toNat % 4 ≠ 0 then trapAt 0x04 h.hdr.rpc.toNat
    else
      let t1 := t.resumeHart hid
      .ok (t1.setHart t1.hart.advance)))

/-! ### The prefix word (R60, R64, R85) -/

/-- The prefix word of its fields. -/
def pfxWord (mask copy : BitVec 5) (pop push hint : BitVec 4) : BitVec 32 :=
  BitVec.ofNat 32 (0x40000000 + mask.toNat * 2 ^ 21 + copy.toNat * 2 ^ 16 + pop.toNat * 2 ^ 12 + push.toNat * 2 ^ 8 + hint.toNat)

/-- `pfx` (R60): its fields wait for the next word. -/
def execPfx (mask copy : BitVec 5) (pop push hint : BitVec 4) (s : State) : Out :=
  .next (s.bare none none (fun t =>
    let h := t.hart
    .ok (t.setHart { h.count 1 with
      pc := (h.pc + 4) &&& pcMask, wait := none, soon := hint.getLsbD 2, pfxOld := false
      pfx := some (pfxWord mask copy pop push hint, false) })))

end Sys2Proof.Machine
end

