-- ==== Sys2Proof/Machine/Frame.lean ====
section
/-! DEFINITION. The suspension frame (R130 to R133), `hsave` (R136) and `hload` (R137). The opaque area's contents are
the model's own (log 15): what the frame's other parts have no place for, behind an integrity word. -/

namespace Sys2Proof.Machine

/-! ### Sizes (R133) -/

/-- Tiles and tile mask that a plan's halves hold (R41). -/
def Plan.tileMask (p : Plan) : Nat := (if bit p.halves.toNat 0 then 3 else 0) + (if bit p.halves.toNat 1 then 12 else 0)
/-- The offset of the opaque area. -/
def opqOff (vgrant rows tiles : Nat) : Nat := (12288 + 8192 * vgrant + 1024 * rows + 65536 * tiles + 4095) / 4096 * 4096

/-! ### Entries -/

/-- The sequence numbers of a hart replaced by their ranks, which keep every comparison between them. -/
def Hart.ranked (h : Hart) : Hart :=
  let l := (h.vq ++ h.mq ++ h.cq).map (fun e => e.seq) ++ h.ss.map (fun x => x.seq)
  let rank (n : Nat) : Nat := (l.filter (fun x => decide (x < n))).length
  let f (e : Entry) : Entry := { e with seq := rank e.seq, after := rank e.after }
  { h with
    vq := h.vq.map f, mq := h.mq.map f, cq := h.cq.map f, seq := rank h.seq, holdS := rank h.holdS, holdV := rank h.holdV
    qHold := h.qHold.map rank, ss := h.ss.map (fun x => { x with seq := rank x.seq, hold := rank x.hold }) }

/-- An entry of the queue image (R132). -/
def Entry.image (e : Entry) : List (Nat × Nat × Nat) :=
  [(0, 8, e.pc.toNat), (8, 4, e.word.toNat), (12, 4, (e.pfx.getD 0).toNat), (16, 8, e.op1.toNat), (24, 8, e.op2.toNat),
    (32, 8, e.deadline.toNat), (40, 8, b2n e.started + 2 * b2n e.voided)]

/-- What the opaque area keeps of every entry, in one word. Bits 18 to 30 are a copy's multicast, or of another entry the stream S
accesses it comes after and whether it keeps a partial value, and whether it is a vwait that keeps flags. Bits 48 to 63 are a matrix
instruction's row, of which 65,535 stands for all that are in no share. -/
def Entry.keepsMet (e : Entry) : Bool := (match e.instr with | .vwait .. => true | _ => false) && !e.met.isEmpty
def Entry.misc (e : Entry) (q : Eng) : Nat :=
  e.seq % 256 + e.frm.toNat * 2 ^ 8 + b2n e.late * 2 ^ 10 + b2n e.span * 2 ^ 11 + b2n e.done * 2 ^ 12 + e.fl.toNat * 2 ^ 13
  + (if q = .c then e.mcf.toNat * 2 ^ 18 + e.mcc.toNat * 2 ^ 23 else e.after % 256 * 2 ^ 18 + b2n e.acc.isSome * 2 ^ 26 + b2n e.keepsMet * 2 ^ 27)
  + b2n e.host * 2 ^ 31 + (if q = .m then e.prog % 2 ^ 16 * 2 ^ 32 + min e.op3.toNat 0xFFFF * 2 ^ 48 else e.prog % 2 ^ 32 * 2 ^ 32)
/-- The entry with what its word keeps. -/
def Entry.ofMisc (e : Entry) (q : Eng) (x : Nat) : Entry :=
  { e with
    seq := bits x 0 8, frm := BitVec.ofNat 2 (bits x 8 2), late := bit x 10, span := bit x 11, done := bit x 12
    fl := BitVec.ofNat 5 (bits x 13 5), mcf := if q = .c then BitVec.ofNat 5 (bits x 18 5) else 0
    mcc := if q = .c then BitVec.ofNat 8 (bits x 23 8) else 0, after := if q = .c then 0 else bits x 18 8, host := bit x 31
    prog := if q = .m then bits x 32 16 else bits x 32 32
    op3 := if q = .m then BitVec.ofNat 64 (bits x 48 16) else 0 }

/-- The last element group that a started instruction's watch has let pass, in one word; groups pass in the order of the sweep
(R181). -/
def Entry.passWord (e : Entry) : Nat := match e.passed with | [] => 0 | g :: t => 1 + (t.foldl (fun m x => if sweepsBefore m x then x else m) g).1 * 2 ^ 32 + (t.foldl (fun m x => if sweepsBefore m x then x else m) g).2
/-- The groups that word says have passed: those of earlier rows, 24 to a register (R207), and those up to it. -/
def passedOf (x : Nat) : List (Nat × Nat) :=
  if x = 0 then []
  else (List.range (bits (x - 1) 32 32)).flatMap (fun r => (List.range 24).map (fun g => (r, g))) ++
    (List.range (bits (x - 1) 0 32 + 1)).map (fun g => (bits (x - 1) 32 32, g))

/-- A shape register as its 32 bytes (R189). -/
def Shape.words (x : Shape) : List Nat :=
  [x.count0.toNat + x.count1.toNat * 2 ^ 32 + x.count2.toNat * 2 ^ 48, x.s1.toNat, x.s2.toNat, x.d1.toNat]
/-- A shape register of its four words. -/
def Shape.ofWords (a b c d : Nat) : Shape :=
  { count0 := BitVec.ofNat 32 a, count1 := BitVec.ofNat 16 (bits a 32 16), count2 := BitVec.ofNat 16 (bits a 48 16)
    s1 := BitVec.ofNat 64 b, s2 := BitVec.ofNat 64 c, d1 := BitVec.ofNat 64 d }

/-- The bitmap of a sparse expand under way is kept (R200). -/
def Entry.hasMap (e : Entry) : Bool := (match e.instr with | .cpXpd .. => true | _ => false) && e.started && e.shape.count0 != 0
/-- Words of a bitmap: 65,536 elements at most. -/
def mapWords : Nat := 1024

/-- The flags that a vwait has found met as a bitmap, behind the number of its words. -/
def Entry.metWords (e : Entry) : List Nat :=
  let n := e.met.foldl max 0 / 64 + 1
  n :: (List.range n).map (fun i => (List.range 64).foldl (fun x j => x + b2n (e.met.contains (64 * i + j)) * 2 ^ j) 0)
/-- The flags of n words of such a bitmap. -/
def metOf (ws : List Nat) : List Nat :=
  ws.zipIdx.flatMap (fun x => ((List.range 64).filter (fun j => bit x.1 j)).map (fun j => 64 * x.2 + j))

/-- What the opaque area keeps of an entry, by the queue it stands in. -/
def Entry.savedWords (e : Entry) (q : Eng) : List Nat :=
  match q with
  | .m => [e.misc q]
  | .c =>
    e.misc q :: (if (match e.instr with | .cpShape .. => true | _ => false) then e.shape.words else if (copyRunOf e.instr).isSome then
      (e.left % 2 ^ 32 + e.leftH % 2 ^ 32 * 2 ^ 32) :: e.shape.words ++ (if e.mcf = 0 then [] else [e.mca.toNat]) ++
        (if e.hasMap then (List.range mapWords).map (fun i => bits e.bitmap (64 * i) 64) else [])
      else [])
  | _ => [e.misc q, e.rkey.toNat, e.rstrm.toNat, e.rctr.toNat] ++ (if e.started then [(e.acc.getD 0).toNat, e.passWord] else []) ++
    (if e.keepsMet then e.metWords else [])

/-- The entry with what the opaque area kept of it, and the words after it. -/
def Entry.ofSaved (e : Entry) (q : Eng) : List Nat → Option (Entry × List Nat)
  | [] => none
  | m :: t =>
    let e1 := e.ofMisc q m
    match q with
    | .m => some (e1, t)
    | .c =>
      if (match e.instr with | .cpShape .. => true | _ => false) then
        match t with
        | s0 :: s1 :: s2 :: s3 :: u => some ({ e1 with shape := Shape.ofWords s0 s1 s2 s3 }, u)
        | _ => none
      else if (copyRunOf e.instr).isSome then
        match t with
        | l :: s0 :: s1 :: s2 :: s3 :: u =>
          let n := if e1.mcf = 0 then 0 else 1
          let e2 := { e1 with
            left := bits l 0 32, leftH := bits l 32 32, mca := BitVec.ofNat 64 (if n = 0 then 0 else u.headD 0)
            shape := Shape.ofWords s0 s1 s2 s3 }
          let v := u.drop n
          if e2.hasMap then
            some ({ e2 with bitmap := (v.take mapWords).foldr (fun w n => w + n * 2 ^ 64) 0 }, v.drop mapWords)
          else some (e2, v)
        | _ => none
      else some (e1, t)
    | _ => match t with
      | a :: b :: c :: u =>
        let e2 := { e1 with rkey := BitVec.ofNat 64 a, rstrm := BitVec.ofNat 64 b, rctr := BitVec.ofNat 64 c }
        let go (e3 : Entry) (w : List Nat) : Option (Entry × List Nat) :=
          if !bit m 27 then some (e3, w)
          else match w with
            | n :: y => some ({ e3 with met := metOf (y.take n) }, y.drop n)
            | [] => none
        if e.started then
          match u with
          | v :: p :: w => go { e2 with acc := if bit m 26 then some (BitVec.ofNat 64 v) else none, passed := passedOf p } w
          | _ => none
        else go e2 u
      | _ => none

/-- The operand words of a move: a loaded descriptor, or its one or two operands. -/
def Entry.moveOps (e : Entry) : List Nat :=
  match e.instr with
  | .qld .. => [e.str.base.toNat, e.str.stride.toNat, e.str.bound.toNat]
  | .qwatch .. => [e.op1.toNat, e.op2.toNat]
  | .qrel _ | .qunwatch _ | .qget .. | .mfs .. => []
  | _ => [e.op1.toNat]

/-- The words of the moves of a queue: the word and prefix of each, then its place among all the queue's entries, its order, its
descriptor's cfg, its stream and its surrender count, then its operands; the queue image has no room for them (R150). -/
def moveWords : Nat → List Entry → List Nat
  | _, [] => []
  | i, e :: t =>
    (if e.isMove then
      (e.word.toNat + (e.pfx.getD 0).toNat * 2 ^ 32) ::
        (i % 256 + e.seq % 256 * 2 ^ 8 + b2n e.span * 2 ^ 16 + ((changeOf e.instr).getD 0).toNat * 2 ^ 17
          + e.str.cfg.toNat % 2 ^ 16 * 2 ^ 32) :: e.moveOps
    else []) ++ moveWords (i + 1) t

/-- A move of its word, its second word and its operands; one of no word is the advance of a cursor (R143). -/
def moveOf (i : Instr) (w x a b c : Nat) : Entry :=
  let e : Entry := {
    word := BitVec.ofNat 32 w, instr := i, pfx := if bits w 32 32 = 0 then none else some (BitVec.ofNat 32 (bits w 32 32))
    seq := bits x 8 8, span := bit x 16 }
  match i with
  | .qld .. => { e with str := {
      base := BitVec.ofNat 64 a, stride := BitVec.ofNat 64 b, bound := BitVec.ofNat 64 c, cfg := BitVec.ofNat 32 (bits x 32 16)
      loaded := true } }
  | .qcur .. => { e with op1 := BitVec.ofNat 64 a, op2 := if w % 2 ^ 32 = 0 then 1 else 0 }
  | _ => { e with op1 := BitVec.ofNat 64 a, op2 := BitVec.ofNat 64 b }

/-- The instruction of a move: that of its word, or where it has none the advance of a cursor that a routine has made. -/
def moveInstr (w x : Nat) : Option Instr :=
  if w % 2 ^ 32 = 0 then some (.qcur (BitVec.ofNat 4 (bits x 17 4)) 0)
  else match decodeLow (BitVec.ofNat 32 w) with | .ok i => some i | .error _ => none

/-- n moves read back and put in their places. The pc of a move, at which nothing can trap, is not kept. -/
def putMoves : Nat → List Entry → List Nat → Option (List Entry × List Nat)
  | 0, l, ws => some (l, ws)
  | n + 1, l, w :: x :: t =>
    match moveInstr w x with
    | none => none
    | some i =>
      let k := ({ instr := i } : Entry).moveOps.length
      let e := moveOf i w x (t.getD 0 0 * b2n (decide (0 < k))) (t.getD 1 0 * b2n (decide (1 < k))) (t.getD 2 0 * b2n (decide (2 < k)))
      let at_ := bits x 0 8
      putMoves n (l.take at_ ++ [e] ++ l.drop at_) (t.drop k)
  | _, _, _ => none

/-- The kind of a stream S access, with its type or op and its register. -/
def SKind.code : SKind → Nat
  | .load ty d => 0 + 8 * ty.toNat + 128 * d.toNat
  | .store => 1
  | .atomic op d => 2 + 8 * op.toNat + 128 * d.toNat
  | .publish => 3
  | .token id => 4 + 8 * id
/-- The kind of its code. -/
def SKind.ofCode (x : Nat) : SKind :=
  let d := BitVec.ofNat 5 (bits x 7 5)
  match bits x 0 3 with
  | 0 => .load (BitVec.ofNat 3 (bits x 3 4)) d
  | 1 => .store
  | 2 => .atomic (BitVec.ofNat 4 (bits x 3 4)) d
  | 3 => .publish
  | _ => .token (bits x 3 4)
/-- Log2 of an access size of 1, 2, 4 or 8 bytes. -/
def lgSize (n : Nat) : Nat := if n = 1 then 0 else if n = 2 then 1 else if n = 4 then 2 else 3
/-- The words of what an access goes back to, for a hart that has taken `pops` tokens: its registers, flags and prefix, the tokens
taken since, and the last deadline of its copies. -/
def Back.words (b : Back) (pops : Vector Nat 13) : List Nat :=
  (b.regs.toList.drop 1).map BitVec.toNat ++
    [b.fflags.toNat + (b.pfx.getD 0).toNat * 2 ^ 32,
     (List.range 12).foldl (fun n i => n + (pops.toList.getD (i + 1) 0 - b.pops.toList.getD (i + 1) 0) % 16 * 2 ^ (4 * i)) 0, b.dl.toNat]
/-- How many tokens of each FIFO a hart counts as taken when it is loaded. -/
def loadedPops : Vector Nat 13 := Vector.replicate 13 8
/-- What an access goes back to, of its 34 words, for a hart that is loaded. -/
def Back.ofWords (ws : List Nat) : Back :=
  let f := ws.getD 31 0
  { regs := Vector.ofFn (fun i => if i.val = 0 then 0 else BitVec.ofNat 64 (ws.getD (i.val - 1) 0))
    fflags := BitVec.ofNat 5 f, pfx := if bits f 32 32 = 0 then none else some (BitVec.ofNat 32 (bits f 32 32))
    pops := Vector.ofFn (fun i => loadedPops[i] - (if i.val = 0 then 0 else bits (ws.getD 32 0) (4 * (i.val - 1)) 4))
    dl := BitVec.ofNat 64 (ws.getD 33 0) }
/-- The words of an access that waits in stream S: five, and where it can trap those of what it goes back to. -/
def SAcc.words (pops : Vector Nat 13) (x : SAcc) : List Nat :=
  [x.kind.code + b2n x.sq * 2 ^ 12 + lgSize x.size * 2 ^ 13 + x.push * 2 ^ 15 + x.seq % 256 * 2 ^ 19 + x.touch * 2 ^ 27
     + x.word.toNat * 2 ^ 32,
   x.pc.toNat / 4 + x.hold % 256 * 2 ^ 55, x.addr.toNat, x.val.toNat, x.cmp.toNat] ++
    (match x.back with | some b => b.words pops | none => [])
/-- The first n accesses of stream S of their words. -/
def sOfWords : Nat → List Nat → Option (List SAcc × List Nat)
  | 0, ws => some ([], ws)
  | n + 1, m :: p :: a :: v :: c :: t =>
    let kind := SKind.ofCode m
    let k := match kind with | .token _ => 0 | _ => 34
    let x : SAcc := {
      kind := kind, sq := bit m 12, size := 2 ^ bits m 13 2, push := bits m 15 4, seq := bits m 19 8, touch := bits m 27 2
      word := BitVec.ofNat 32 (bits m 32 32), pc := BitVec.ofNat 64 (4 * bits p 0 55), hold := bits p 55 8
      addr := BitVec.ofNat 64 a, val := BitVec.ofNat 64 v, cmp := BitVec.ofNat 64 c
      back := if k = 0 then none else some (Back.ofWords (t.take k)) }
    match sOfWords n (t.drop k) with
    | some (l, u) => some (x :: l, u)
    | none => none
  | _, _ => none

/-! ### The opaque area -/

/-- Words of the area that come before those of the entries. -/
def areaHead : Nat := 10
/-- The words that the opaque area behind the integrity word is to hold. -/
def Hart.allWords (h : Hart) : List Nat :=
  let real (l : List Entry) : List Entry := l.filter (fun e => !e.isMove)
  [h.holdS % 256 + h.seq % 256 * 2 ^ 8 + h.holdV % 256 * 2 ^ 16 + b2n h.lostUpd.isSome * 2 ^ 24 + h.vec.convoy * 2 ^ 25
     + b2n h.vec.convoyMem * 2 ^ 29 + h.ss.length * 2 ^ 30 + moveEntries h.vq * 2 ^ 40 + moveEntries h.mq * 2 ^ 48
     + moveEntries h.cq * 2 ^ 56,
   h.stklo.toNat, h.stkhi.toNat, (h.lostUpd.getD 0).toNat, h.pfxPc.toNat,
   ((h.qHold.toList.take 8).foldr (fun n x => n % 256 + 256 * x) 0), ((h.qHold.toList.drop 8).foldr (fun n x => n % 256 + 256 * x) 0)]
  ++ h.srcDl.toList.map BitVec.toNat ++ h.ss.flatMap (SAcc.words h.pops)
  ++ (real h.vq).flatMap (fun e => e.savedWords .v) ++ (real h.mq).flatMap (fun e => e.savedWords .m)
  ++ (real h.cq).flatMap (fun e => e.savedWords .c) ++ moveWords 0 h.vq ++ moveWords 0 h.mq ++ moveWords 0 h.cq

/-- The words of the opaque area behind the integrity word; where they do not all fit, those of a vwait's met flags are left out
(log 15). -/
def Hart.areaWords (h : Hart) : List Nat :=
  if h.allWords.length < Config.frmopq / 8 then h.allWords
  else ({ h with vq := h.vq.map (fun e => { e with met := [] }) } : Hart).allWords

/-- The integrity word of the words behind it. -/
def integrity (ws : List Nat) : Nat := (ws.foldl (fun n w => n * 31 + w + 1) 0x7D0) % 2 ^ 64

/-! ### Writing a frame (R130 to R133, R136) -/

/-- The progress slots (R130): up to four started vector entries, the started matrix entry, up to four started copies. -/
def Hart.progress (h : Hart) : List (Nat × Nat × Nat) :=
  let trapped (n : Nat) (i : Nat) : Bool := bit h.hdr.flags.toNat 0 && h.hdr.engine.toNat == n && i == 0
  let slots (n base cnt : Nat) (void : Bool) (l : List Entry) (v : Entry → Nat) : List (Nat × Nat × Nat) :=
    (((((l.filter (fun e => !e.isMove)).zipIdx).filter (fun x => x.1.started)).take cnt).zipIdx).flatMap (fun y =>
      let o := base + 16 * y.2
      [(o, 1, n), (o + 1, 1, y.1.2), (o + 2, 1, if void && y.1.1.voided && !trapped n y.1.2 then 0x50 else 0), (o + 8, 8, v y.1.1)])
  slots 2 96 4 false h.vq (fun _ => h.vec.rowstart.toNat * 2 ^ 32 + h.vec.estart.toNat) ++
  slots 3 160 1 true h.mq (fun e => e.prog) ++
  slots 4 176 4 true h.cq (fun e => e.prog)

/-- The status registers of a frame, from offset 768 in order (R132). -/
def frameStatus : List Nat :=
  [0x100, 0x101, 0x200, 0x201, 0x202, 0x203, 0x204, 0x205, 0x206, 0x207, 0x208, 0x209, 0x20A, 0x20B, 0x300, 0x301, 0x302,
    0x380, 0x381, 0x400, 0x401, 0x402, 0x403, 0x480, 0x481, 0x482]

/-- The gbar state of a member (R131). -/
def State.gbarWord (s : State) (h : Hart) : Nat :=
  match s.gangAt h.gang.toNat with
  | none => 0
  | some x =>
    let m := x.members.getD h.ghart {}
    let gen (sc : Nat) : Nat :=
      (if bit m.arrived.toNat sc then m.gens.toList.getD sc 0 else x.genOf sc (groupUnit sc m.core)).toNat
    gen 0 + gen 1 * 2 ^ 16 + gen 2 * 2 ^ 32 + m.arrived.toNat * 2 ^ 48

/-- Bytes of a memory moved to other addresses. -/
def Mem.relocate (m : Mem) (f : Nat → Option Nat) : Mem :=
  m.foldl (fun acc c => match f c.1 with | some a => acc.set a c.2 | none => acc) []

/-- Where a byte of the v registers lies in the frame's slices of vg lanes (R133, R208), from the slices' start. -/
def laneByte (vg a : Nat) : Option Nat :=
  let r := a / Config.vregBytes
  let o := a % Config.vregBytes
  if vg = 0 || 192 * vg ≤ o then none else some (6144 * (o / 8 % vg) + 192 * r + 8 * (o / 8 / vg) + o % 8)
/-- The byte of the v registers that a byte of the slices is. -/
def byteOfLane (vg a : Nat) : Option Nat :=
  let o := a % 6144 % 192
  if 6144 * vg ≤ a then none
  else some (Config.vregBytes * (a % 6144 / 192) + 8 * (o / 8 * vg + a / 6144) + o % 8)

/-- The whole frame of a suspended hart, its bytes from 0, and its size. -/
def State.frameImage (s : State) (hid : Nat) : Mem × Nat :=
  let h := (s.hartAt hid).ranked
  let core := s.coreAt (hid / 8)
  let p := h.plan
  let mask := p.tileMask
  let tiles := (List.range 4).filter (fun t => bit mask t)
  let vg := h.vec.vgrant
  let off := opqOff vg p.rows tiles.length
  let real (l : List Entry) : List Entry := l.filter (fun e => !e.isMove)
  let st (n : Nat) : Nat :=
    if n = 0x301 then mtagWord core mask
    else if n = 0x302 then p.rows * 2 ^ 16 + mask
    else (s.readStatus hid n).toNat
  let head : List (Nat × Nat × Nat) :=
    [(0, 64, h.hdr.image), (48, 8, h.pfxsave.toWord.toNat), (64, 2, h.ghart), (66, 1, h.resv.toNat),
     (67, 1, (s.rsvAt h.resv.toNat).cls.toNat), (68, 4, off - 256), (72, 4, off), (76, 4, off + Config.frmopq),
     (80, 1, realEntries h.vq), (81, 1, realEntries h.mq), (82, 1, realEntries h.cq)] ++ h.progress
  let regs := (List.range 32).map (fun i => (256 + 8 * i, 8, (h.reg (BitVec.ofNat 5 i)).toNat))
  let fixed : List (Nat × Nat × Nat) :=
    [(512, 8, h.fflags.toNat), (520, 8, h.frm.toNat), (528, 8, h.rkey.toNat), (536, 8, h.rstrm.toNat), (544, 8, h.rctr.toNat),
     (552, 8, h.vec.vl), (560, 8, h.vec.rc), (568, 8, h.vec.typeWord), (576, 8, vg), (584, 8, tokWord h.tok.toList),
     (592, 8, tokWord h.tokres.toList), (600, 8, s.gbarWord h), (608, 8, (s.readStatus hid 0x500).toNat), (616, 8, h.cpcnt.toNat)]
  let status := frameStatus.zipIdx.map (fun x => (768 + 8 * x.2, 8, st x.1))
  let streams := h.q.toList.zipIdx.flatMap (fun x =>
    let o := 1792 + 64 * x.2
    [(o, 8, x.1.base.toNat), (o + 8, 8, x.1.stride.toNat), (o + 16, 8, x.1.bound.toNat), (o + 24, 4, x.1.cfg.toNat),
     (o + 32, 8, x.1.cursor.toNat), (o + 40, 8, x.1.waddr.toNat), (o + 48, 8, x.1.woff.toNat),
     (o + 56, 1, b2n x.1.loaded + 2 * b2n x.1.armed)])
  let shapes := h.c.toList.zipIdx.flatMap (fun x => x.1.words.zipIdx.map (fun y => (2880 + 32 * x.2 + 8 * y.2, 8, y.1)))
  let queue (base : Nat) (l : List Entry) : List (Nat × Nat × Nat) :=
    (real l).zipIdx.flatMap (fun x => x.1.image.map (fun f => (base + 64 * x.2 + f.1, f.2.1, f.2.2)))
  let ws := h.areaWords
  let opq := ((integrity ws :: ws).zipIdx).map (fun x => (off + 8 * x.2, 8, x.1))
  let m0 := Mem.ofFields (head ++ regs ++ fixed ++ status ++ streams ++ shapes ++ queue 3072 h.vq ++ queue 5120 h.mq ++
    queue 6144 h.cq ++ opq)
  let m1 := m0.blit 12288 (6144 * vg) (h.vec.regs.relocate (laneByte vg))
  let m2 := m1.blit (12288 + 6144 * vg) (2048 * vg) (h.vec.lp.slice 0 (2048 * vg))
  let a0 := 12288 + 8192 * vg
  let m3 := m2.blit a0 (1024 * p.rows) (core.acc.slice (1024 * p.rowBase) (1024 * p.rows))
  let m4 := tiles.zipIdx.foldl (fun m x =>
    m.blit (a0 + 1024 * p.rows + 65536 * x.2) 65536 (core.tiles.slice (65536 * x.1) 65536)) m3
  (m4, off + Config.frmopq)

/-- The HBM blocks that the acting hart moves for a frame charged (R47; log 64). -/
def State.moved (s : State) (l : List Span) : State := s.chargeEnergy s.hart.workResv (2 * hbmBlocks l)

/-- An uncorrectable soft error stands in what a frame takes from the core: registers, lane-private store, rows or tiles (R366). -/
def State.frameSpoiled (s : State) (hid : Nat) : Bool :=
  let h := s.hartAt hid
  let bad (a n : Nat) : Bool := s.spoiled 0 (hid / 8) a n
  (List.range 32).any (fun r => bad (vregSram (hid % 8) (Config.vregBytes * r)) (192 * h.vec.vgrant)) ||
  bad (lpSram (hid % 8) 0) (2048 * h.vec.vgrant) || bad (accSram (1024 * h.plan.rowBase)) (1024 * h.plan.rows) ||
  (List.range 4).any (fun t => bit h.plan.tileMask t && bad (tileSram (65536 * t)) 65536)

/-- `hsave` (R136): the whole frame is written, then the slot is free; its lanes, halves and rows go at the next frame
boundary. Of a hart that is not suspended and an address that is misaligned, 0x08 comes first, as R136 gives the two no order
(DESIGN CHOICE, log 72). A soft error in what it reads of the core is cause 0x52 (R366). -/
def execHsave (b a : BitVec 5) (s : State) : Out :=
  .next (s.superBare (fun t =>
    let hid := (t.reg a).toNat
    let at_ := (t.reg b).toNat
    if hid / 8 ≠ t.coreNo then trapAt 0x08 0
    else
      let h := t.hartAt hid
      if !(h.run == .suspended || h.run == .loaded) then trapAt 0x08 0
      else if at_ % 4096 ≠ 0 then trapAt 0x10 at_
      else
        let f := t.frameImage hid
        match t.dvSpans t.who at_ f.2 0 .write 2 (f.2 / 65536 + 2) with
        | .error e => .error e
        | .ok (t1, l) =>
          if t1.frameSpoiled hid then trapAt 0x52 0
          else
          let t2 := (t1.moved l).scatter l f.1 |>.rehold h.gang hid (awayNo h.gang h.ghart)
          let k := t2.coreAt (hid / 8)
          let t3 := (t2.setCoreAt (hid / 8) { k with freeing := h.plan :: k.freeing }).setHartAt hid {}
          .ok (t3.setHart t3.hart.advance)))

/-! ### Reading a frame (R137) -/

/-- A trap record of a frame header. -/
def recordOf (m : Mem) : Record :=
  let b8 (o : Nat) : BitVec 8 := BitVec.ofNat 8 (m.read o 1)
  let w (o : Nat) : Word := BitVec.ofNat 64 (m.read o 8)
  { cause := b8 4, engine := b8 5, ocause := b8 6, flags := b8 7, ipc := w 8, word := BitVec.ofNat 32 (m.read 16 4)
    hid := BitVec.ofNat 16 (m.read 20 2), gang := BitVec.ofNat 16 (m.read 22 2), rpc := w 24, addr := w 32
    estart := BitVec.ofNat 32 (m.read 40 4), rowstart := BitVec.ofNat 32 (m.read 44 4), pfx := w 48, time := w 56 }

/-- n entries of the queue image from an offset, each with its words of the opaque area. -/
def readQueue (m : Mem) (q : Eng) : Nat → Nat → List Nat → Option (List Entry × List Nat)
  | 0, _, ws => some ([], ws)
  | n + 1, o, ws =>
    let w := BitVec.ofNat 32 (m.read (o + 8) 4)
    let pf := BitVec.ofNat 32 (m.read (o + 12) 4)
    match decodeLow w with
    | .error _ => none
    | .ok i =>
      let e : Entry := {
        pc := BitVec.ofNat 64 (m.read o 8), word := w, instr := i, pfx := if pf = 0 then none else some pf
        op1 := BitVec.ofNat 64 (m.read (o + 16) 8), op2 := BitVec.ofNat 64 (m.read (o + 24) 8)
        deadline := BitVec.ofNat 64 (m.read (o + 32) 8), started := bit (m.read (o + 40) 1) 0, voided := bit (m.read (o + 40) 1) 1 }
      match e.ofSaved q ws with
      | none => none
      | some (e1, t) =>
        match readQueue m q n (o + 64) t with
        | none => none
        | some (l, u) => some (e1 :: l, u)

/-- Twelve 4-bit counts (R72). -/
def tokOf (x : Nat) : Vector Nat 13 := Vector.ofFn (fun i => if i.val = 0 then 0 else bits x (4 * (i.val - 1)) 4)

/-- The queues and stream S accesses of a frame and what the opaque area keeps of the hart: none where its integrity check fails. -/
def readArea (m : Mem) (off : Nat) : Option (List Nat × List SAcc × List Entry × List Entry × List Entry) :=
  let n := Config.frmopq / 8 - 1
  let all := (List.range n).map (fun i => m.read (off + 8 + 8 * i) 8)
  match all with
  | x :: t =>
    match sOfWords (bits x 30 8) (all.drop areaHead) with
    | none => none
    | some (ss, w0) =>
    match readQueue m .v (m.read 80 1) 3072 w0 with
    | none => none
    | some (v, w1) =>
      match readQueue m .m (m.read 81 1) 5120 w1 with
      | none => none
      | some (mt, w2) =>
        match readQueue m .c (m.read 82 1) 6144 w2 with
        | none => none
        | some (c, w3) =>
          match putMoves (bits x 40 8) v w3 with
          | none => none
          | some (v1, w4) =>
            match putMoves (bits x 48 8) mt w4 with
            | none => none
            | some (m1, w5) =>
              match putMoves (bits x 56 8) c w5 with
              | none => none
              | some (c1, w6) =>
                if m.read off 8 = integrity (all.take (all.length - w6.length)) then some (x :: t, ss, v1, m1, c1) else none
  | [] => none

/-- A hart of a frame for a slot and a plan, before its entries are admitted again. -/
def frameHart (m : Mem) (p : Plan) (x : Gang) (ws : List Nat) (ss : List SAcc) (v mt c : List Entry) : Hart :=
  let w (o : Nat) : Word := BitVec.ofNat 64 (m.read o 8)
  let st (o : Nat) : Nat := m.read o 8
  let k := ws.getD 0 0
  let vg := m.read 576 8
  let vt := st 800
  let hdr := recordOf m
  let ff := st 864
  { run := .loaded
    pc := hdr.rpc &&& pcMask
    regs := Vector.ofFn (fun i => w (256 + 8 * i.val))
    stklo := BitVec.ofNat 64 (ws.getD 1 0), stkhi := BitVec.ofNat 64 (ws.getD 2 0)
    pops := loadedPops, tok := tokOf (m.read 584 8), tokres := tokOf (m.read 592 8)
    fflags := BitVec.ofNat 5 (m.read 512 8), frm := BitVec.ofNat 2 (m.read 520 8)
    rkey := w 528, rstrm := w 536, rctr := w 544
    pfxsave := { pend := bit hdr.pfx.toNat 63, popd := bit hdr.pfx.toNat 62, word := BitVec.ofNat 32 hdr.pfx.toNat }
    gang := hdr.gang, ghart := m.read 64 2, gsize := x.members.length, fn := x.fn, resv := x.resv
    plan := p
    q := Vector.ofFn (fun i =>
      let o := 1792 + 64 * i.val
      { base := w o, stride := w (o + 8), bound := w (o + 16), cfg := BitVec.ofNat 32 (m.read (o + 24) 4), cursor := w (o + 32)
        waddr := w (o + 40), woff := w (o + 48), loaded := bit (m.read (o + 56) 1) 0, armed := bit (m.read (o + 56) 1) 1 })
    c := Vector.ofFn (fun i =>
      let o := 2880 + 32 * i.val
      Shape.ofWords (m.read o 8) (m.read (o + 8) 8) (m.read (o + 16) 8) (m.read (o + 24) 8))
    cpcnt := w 904, cpmcs := BitVec.ofNat 5 (st 912)
    vec := {
      vl := st 784, ill := bit vt 63, lmode := BitVec.ofNat 2 (bits vt 8 2), cls := BitVec.ofNat 4 (bits vt 4 4)
      sew := BitVec.ofNat 2 vt, estart := BitVec.ofNat 32 (st 808), rowstart := BitVec.ofNat 3 (st 816)
      vgrant := vg, strap := bit (st 848) 0, vsplit := w 856
      trim := bit ff 63, trimCause := BitVec.ofNat 8 (bits ff 32 8), trimElem := BitVec.ofNat 32 ff
      vwtmo := BitVec.ofNat 32 (st 872), convoy := bits k 25 4, convoyMem := bit k 29
      regs := (m.slice 12288 (6144 * vg)).relocate (byteOfLane vg)
      lp := m.slice (12288 + 6144 * vg) (2048 * vg) }
    mshape := { kcnt := BitVec.ofNat 10 (bits (st 880) 7 10), asc := bit (st 880) 6, afmt := bit (st 880) 0 }
    vq := v, mq := mt, cq := c
    seq := bits k 8 8, holdS := bits k 0 8, holdV := bits k 16 8
    qHold := Vector.ofFn (fun i => bits (ws.getD (5 + i.val / 8) 0) (8 * (i.val % 8)) 8)
    srcDl := Vector.ofFn (fun i => BitVec.ofNat 64 (ws.getD (7 + i.val) 0)), ss := ss
    pfxPc := BitVec.ofNat 64 (ws.getD 4 0)
    bay := { bayh := BitVec.ofNat 8 (bits (st 920) 24 8), lost := bit (st 944) 0, lostHandle := BitVec.ofNat 8 (bits (st 944) 8 8) }
    smp := { cnt := w 952, stOp := BitVec.ofNat 4 (bits (st 960) 8 4), stCause := BitVec.ofNat 8 (st 960), addr := w 968 }
    lostUpd := if bit k 24 then some (BitVec.ofNat 64 (ws.getD 3 0)) else none
    hdr := hdr }

/-- What befell the hart while its frame alone held it (R56, R328, R335). -/
def Hart.awake (h : Hart) (m : Member) : Hart :=
  let smp := match m.awaySt with | some (o, c, a) => { h.smp with stOp := o, stCause := c, addr := a } | none => h.smp
  { h with
    smp := { smp with cnt := smp.cnt + m.away }
    bay := match m.awayLost with | some k => { h.bay with lost := true, lostHandle := k } | none => h.bay
    lostUpd := match m.awayUpd with | some a => some a | none => h.lostUpd }

/-- The rows, tiles and tags of a frame put into a core (R292). -/
def Core.fromFrame (c : Core) (m : Mem) (p : Plan) (vg : Nat) : Core :=
  let a0 := 12288 + 8192 * vg
  let tiles := (List.range 4).filter (fun t => bit p.tileMask t)
  let tag (t : Nat) : Tag := let x := bits (m.read 888 8) (8 * t) 4; { fmt := BitVec.ofNat 3 x, sp := bit x 3 }
  { c with
    acc := c.acc.blit (1024 * p.rowBase) (1024 * p.rows) (m.slice a0 (1024 * p.rows))
    tiles := tiles.zipIdx.foldl (fun n x =>
      n.blit (65536 * x.1) 65536 (m.slice (a0 + 1024 * p.rows + 65536 * x.2) 65536)) c.tiles
    tags := tiles.foldl (fun g t => g.setIfInBounds t (tag t)) c.tags }

/-- A hart of the gang is in some slot already. -/
def State.resident (s : State) (g : BitVec 16) (i : Nat) : Bool :=
  s.harts.any (fun p => p.2.run != .free && p.2.run != .ended && p.2.gang = g && p.2.ghart == i)

/-- The last part of `hload`: the frame's hart placed in a slot, with its copy queue, or cause 0x07 or 0x08 (R137). -/
def State.loadFrame (s : State) (hid : Nat) (m : Mem) : Except Stop (State × List Entry) :=
  let vg := m.read 576 8
  let rows := bits (m.read 896 8) 16 10
  let mask := m.read 896 1
  let nt := popcount mask 8
  let off := opqOff vg rows nt
  let halves := (if bit mask 0 then 1 else 0) + (if bit mask 2 then 2 else 0)
  let okMask := mask == 0 || mask == 3 || mask == 12 || mask == 15
  if m.read 0 4 ≠ 0x00090001 || m.read 72 4 ≠ off || m.read 76 4 ≠ off + Config.frmopq || !okMask then trapAt 0x07 0
  else match readArea m off with
  | none => trapAt 0x07 0
  | some (ws, ss, v, mt, c) =>
    let g := (recordOf m).gang
    let i := m.read 64 2
    match s.gangAt g.toNat with
    | none => trapAt 0x07 0
    | some x =>
      if x.members.length ≤ i || (x.members.getD i {}).ended || s.resident g i then trapAt 0x07 0
      else match (s.roomOf (hid / 8)).allot vg rows
          (if (s.roomOf (hid / 8)).halves &&& halves = 0 then some halves else none) with
      | none => trapAt 0x08 0
      | some (p, _) =>
        let h := (frameHart m { p with lanes := x.lanes } x ws ss v mt c).awake (x.members.getD i {})
        let s1 := (s.setMember g.toNat i (fun y => { y with away := 0, awaySt := none, awayLost := none, awayUpd := none }))
        let s2 := (s1.rehold g (awayNo g i) hid).setCoreAt (hid / 8) ((s1.coreAt (hid / 8)).fromFrame m p vg)
        let s3 := s2.setHartAt hid h
        let cq := s3.readmit hid (fun e => e.deadline != 0) h.cq 0 0
        let s4 := s3.setHartAt hid { s3.hartAt hid with
          cq := cq, mq := h.mq.map (fun e => { e with voided := false }), srcDl := h.srcDl.set 0 (lastDeadline h.srcDl[0] cq) }
        .ok (s4, cq.filter (fun e => !e.isMove))

/-- The fresh deadlines written into a frame's queue image (R137). -/
def State.writeDeadlines (s : State) (at_ : Nat) (cq : List Entry) : Except Stop State :=
  if cq.isEmpty then .ok s
  else
    let n := 64 * cq.length
    match s.dvSpans s.who (at_ + 6144) n 0 .write 2 3 with
    | .error e => .error e
    | .ok (s1, l) =>
      let img := cq.zipIdx.foldl (fun (m : Mem) e => m.write (64 * e.2 + 32) 8 e.1.deadline.toNat) (s1.gather l)
      .ok ((s1.moved l).scatter l img)

/-- `hload` (R137): checks in order, then the hart is loaded and its fresh deadlines go into the frame. The alignment of S[b]
is checked before S[a] ≥ 8, which R137's order does not place (DESIGN CHOICE, log 72). -/
def execHload (b a : BitVec 5) (s : State) : Out :=
  .next (s.superBare (fun t =>
    let k := (t.reg a).toNat
    let at_ := (t.reg b).toNat
    let hid := 8 * t.coreNo + k
    if at_ % 4096 ≠ 0 then trapAt 0x10 at_
    else if 8 ≤ k || (t.hartAt hid).run != .free then trapAt 0x08 0
    else match t.dvSpans t.who at_ 12288 0 .read 2 3 with
    | .error e => .error e
    | .ok (t1, l0) =>
      if (t1.spoiledSpan l0).isSome then trapAt 0x52 at_
      else
      let m0 := t1.gather l0
      let size := opqOff (m0.read 576 8) (bits (m0.read 896 8) 16 10) (popcount (m0.read 896 1) 8) + Config.frmopq
      if m0.read 76 4 ≠ size || m0.read 576 8 % 8 ≠ 0 || decide (64 < m0.read 576 8) then trapAt 0x07 0
      else match t1.dvSpans t1.who at_ size 0 .read 2 (size / 65536 + 2) with
      | .error e => .error e
      | .ok (t2, l) =>
        if (t2.spoiledSpan l).isSome then trapAt 0x52 at_
        else match (t2.moved l).loadFrame hid (t2.gather l) with
        | .error e => .error e
        | .ok (t3, cq) =>
          match t3.writeDeadlines at_ cq with
          | .error e => .error e
          | .ok t4 => .ok (t4.setHart t4.hart.advance)))

end Sys2Proof.Machine
end

