-- ==== Sys2Proof/Machine/Events.lean ====
section
/-! DEFINITION. The events of the opcode table that hardware brings about by itself: status-register effects (R50, R71,
R128, R159), the frame boundary (R46, R48, R117), deadlines (R56), engines, waits, gangs, bays and the sampler. Each
event does nothing where what it is about is not the case. -/

namespace Sys2Proof.Machine

/-! ### Status-register effects of the acting hart -/

/-- XINV_PAGE_CORE (R159): the acting hart's core drops what it keeps of a page of a context. -/
def execXinvPageCore (va : BitVec 64) (ctx : BitVec 5) (s : State) : Out :=
  .next (s.dropTlb false s.coreNo ctx.toNat (some (bits va.toNat 16 41 * 65536)))
/-- XINV_CONTEXT_CORE (R159). -/
def execXinvContextCore (ctx : BitVec 5) (s : State) : Out := .next (s.dropTlb false s.coreNo ctx.toNat none)
/-- XINV_PAGE_ALL (R159): every core. -/
def execXinvPageAll (va : BitVec 64) (ctx : BitVec 5) (s : State) : Out :=
  .next (s.dropTlb true s.coreNo ctx.toNat (some (bits va.toNat 16 41 * 65536)))
/-- XINV_CONTEXT_ALL (R159). -/
def execXinvContextAll (ctx : BitVec 5) (s : State) : Out := .next (s.dropTlb true s.coreNo ctx.toNat none)
/-- RSVCFG_WRITE (R50): the write to rsvcfg, checked by admission. -/
def execRsvcfgWrite (v : BitVec 64) (s : State) : Out := .next (s.rsvcfgWrite v)
/-- RSVBUD_WRITE (R50): the write to a budget, checked by admission. -/
def execRsvbudWrite (k : BitVec 3) (v : BitVec 64) (s : State) : Out := .next (s.rsvbudWrite k.toNat v)
/-- TRAP_RING_REG_WRITE (R128): the write to tqbase, tqlen or tqhead, then the pending records again. -/
def execTrapRingRegWrite (k : BitVec 2) (v : BitVec 64) (s : State) : Out := .next (s.ringRegWrite s.coreNo k.toNat v)
/-- FFLAGS_WRITE (R71): the write of fflags, earlier work over. -/
def execFflagsWrite (v : BitVec 64) (s : State) : Out := .next (s.fflagsWrite s.cur v)

/-! ### The frame boundary (R46, R48, R50, R117) -/

/-- A reservation's accepted changes in effect; one that was created exists from now on (R50). -/
def Rsv.apply (x : Rsv) : Rsv :=
  { x with
    on := x.on || x.newCls.isSome
    cls := x.clsW
    bud := Vector.ofFn (fun i => BitVec.ofNat 32 (x.budW i.val))
    newCls := none, newBud := Vector.replicate 8 none }

/-- The management controller's request, applied if it lies in range and the admitted energy budgets fit it, else
refused (R370). -/
def State.applyCeiling (s : State) : State :=
  match s.dev.eceilReq with
  | none => s
  | some v =>
    let t := s.sums 0 (s.rsvAt 0) 7
    let ok := decide (1000 ≤ v) && decide (v ≤ s.img.eceil) && decide (t.1 ≤ v * 9 / 10) && decide (t.2 ≤ v * 15 / 16)
    { s with dev := { s.dev with eceil := if ok then v else s.dev.eceil, eceilReq := none, eceilRefused := !ok } }

/-- The slots, lanes, halves and rows that were to go at this boundary are free (R125, R136). -/
def State.freeSlots (s : State) : State :=
  let hs := s.harts.map (fun p => (p.1, if p.2.run == .ended then {} else p.2))
  { s with harts := hs, cores := s.cores.map (fun p => (p.1, { p.2 with freeing := [] })) }

/-- A core's tiles, tags and rows of a launched hart's share read zero (R292). -/
def Core.fresh (c : Core) (p : Plan) : Core :=
  let tiles := (List.range 4).filter (fun t => bit p.tileMask t)
  { c with
    tiles := tiles.foldl (fun m t => m.clear (65536 * t) (65536 * (t + 1))) c.tiles
    tags := tiles.foldl (fun g t => g.setIfInBounds t {}) c.tags
    acc := c.acc.clear (1024 * p.rowBase) (1024 * (p.rowBase + p.rows)) }

/-- Reserved harts of accepted gangs start, or wait for their start watermark; loaded harts' grants come into force
(R117, R137, R292). -/
def State.startHarts (s : State) : State :=
  s.harts.foldl (fun t p =>
    let h := t.hartAt p.1
    if h.run == .reserved then
      let wm := match t.gangAt h.gang.toNat with | some x => x.wm != 0 | none => false
      let k := p.1 / 8
      (t.setCoreAt k ((t.coreAt k).fresh h.plan)).setHartAt p.1
        { h with run := if wm then .watermark else .running, plan := { h.plan with on := true } }
    else if h.run != .free && h.run != .ended && !h.plan.on then t.setHartAt p.1 { h with plan := { h.plan with on := true } }
    else t) s

/-- The gangs whose harts have just started: state 2 and tstart in their blocks (R118). -/
def State.startGangs (s : State) : State :=
  s.dev.gangs.foldl (fun t p =>
    match t.gangAt p.1 with
    | some x =>
      if x.placed then t
      else (t.setGangAt p.1 { x with placed := true, waiting := x.wm != 0 }).blockWrite p.1 [(64, 4, 2), (80, 8, s.now)]
    | none => t) s

/-- The lowest-numbered n groups of a mask. -/
def lowGroups (m n : Nat) : Nat := (((List.range 8).filter (fun i => bit m i)).take n).foldl (fun x i => x + 2 ^ i) 0

/-- The lane grant of a class-B hart for the new frame, given the charge of the ended one and the ceiling (R48). -/
def State.regrant (s : State) (hid e ceil : Nat) : State :=
  let h := s.hartAt hid
  let m := h.plan.groups.toNat
  let n := popcount m 8
  let put (m1 : Nat) (thr : Bool) : State :=
    s.setHartAt hid { h with
      plan := { h.plan with groups := BitVec.ofNat 8 m1 }, throttle := thr, throttleCnt := if thr then h.throttleCnt else 0 }
  if ceil * 15 * 1024 < e * 16 then
    if n = 0 then put 0 true
    else
      let k := max 1 (n / 2)
      put (lowGroups m k) (h.throttle || decide (k < n))
  else if e * 4 < ceil * 3 * 1024 then
    let want := min (2 * n) (h.plan.lanes / 8) - n
    let free := 255 - (s.roomOf (hid / 8)).groups % 256
    let m1 := m + lowGroups free (min want (popcount free 8))
    put m1 (h.throttle && n != 0 && decide (8 * popcount m1 8 < h.vec.vgrant))
  else put m (h.throttle && n != 0)

/-- The class-B harts of every core served in slot order (R48). -/
def State.regrantAll (s : State) (e ceil : Nat) : State :=
  s.harts.foldl (fun t p =>
    let h := t.hartAt p.1
    if h.sup || h.run == .free || h.run == .ended || h.run == .reserved || (t.rsvAt h.resv.toNat).cls != 0 then t
    else t.regrant p.1 e ceil) s

/-- lpart of a core's plans in force (R38). -/
def State.lpartOf (s : State) (k : Nat) : Word :=
  BitVec.ofNat 64 ((List.range 8).foldl (fun n i =>
    let p := (s.hartAt (8 * k + i)).plan
    if p.on then n + (List.range 8).foldl (fun m g => m + (if bit p.groups.toNat g then (8 + i) * 2 ^ (4 * g) else 0)) 0 else n) 0)
/-- mpart of a core's plans in force (R41). -/
def State.mpartOf (s : State) (k : Nat) : Word :=
  BitVec.ofNat 64 ((List.range 8).foldl (fun n i =>
    let p := (s.hartAt (8 * k + i)).plan
    if !p.on then n
    else
      let a := bit p.halves.toNat 0
      let b := bit p.halves.toNat 1
      n + (if a then 2 ^ 62 + i * 2 ^ 59 + p.rows * 2 ^ 9 + p.rowBase else 0)
        + (if a && b then 2 ^ 63 else if b then 2 ^ 58 + i * 2 ^ 55 + p.rows * 2 ^ 28 + p.rowBase * 2 ^ 19 else 0)) 0)
/-- lpart and mpart of every core that has had a hart (R38, R41). -/
def State.partitions (s : State) : State :=
  let ks := (s.harts.map (fun p => p.1 / 8)).eraseDups
  ks.foldl (fun t k => t.setCoreAt k { t.coreAt k with lpart := s.lpartOf k, mpart := s.mpartOf k }) s

/-- The usable energy of every reservation in the new frame: equal shares of the cores on which it has harts, each
rounded down (R45). -/
def State.energyShares (s : State) : State :=
  let cores (r : Nat) : Nat :=
    ((s.harts.filter (fun (p : Nat × Hart) => p.2.run != .free && p.2.run != .ended && !p.2.sup && p.2.resv.toNat == r)).map
      (fun (p : Nat × Hart) => p.1 / 8)).eraseDups.length
  let share : TMap Nat := s.dev.rsv.map (fun (p : Nat × Rsv) =>
    let b := p.2.bud[7].toNat
    let n := cores p.1
    (p.1, if n = 0 then b else b / n * n))
  { s with dev := { s.dev with share := share } }

/-- The service cores of a function whose mailbox was reset are ready again from the next frame boundary on (R364, R367;
DESIGN CHOICE, log 30). -/
def State.wakeFns (s : State) : State :=
  { s with dev := { s.dev with fns := s.dev.fns.map (fun p =>
      (p.1, if p.2.waking && s.dieRuns ioDie then { p.2 with waking := false, ready := (Fn.boot s.img p.1).ready } else p.2)) } }

/-- FRAME_BOUNDARY (R46): budgets refill, and everything that waits for a boundary takes effect. -/
def execFrameBoundary (s : State) : Out :=
  let e := s.dev.energy
  let ceil := s.dev.eceil
  let s1 : State := { s with dev := { s.dev with
    energyLast := e, energy := 0, hold := false, used := [], frames := s.now / 4096
    rsv := s.dev.rsv.map (fun p => (p.1, p.2.apply)) } }
  let s2 := s1.applyCeiling.wakeFns.freeSlots.startHarts.startGangs
  let s3 := (s2.regrantAll e ceil).partitions.energyShares
  .next (s3.cores.foldl (fun t p => t.ringRetry p.1) s3)

/-- ENERGY_CEILING_REACHED (R48): engine work of class N and B is held to the frame's end. -/
def execEnergyCeilingReached (s : State) : Out := .next { s with dev := { s.dev with hold := true } }

/-! ### Late work (R56, R163) -/

/-- The notice of cause 0x51 of a hart's work, posted at a core, and its reservation broken (R56, R128). -/
def State.lateNotice (s : State) (core hid resv : Nat) (gang : BitVec 16) (rpc : Word) : State :=
  let x := s.rsvAt resv
  let s1 := if resv = 0 then s else s.setRsvAt resv { x with brk := true }
  s1.postRecord core
    { cause := 0x51, engine := 7, flags := 8, hid := BitVec.ofNat 16 (if 4096 ≤ hid then 0xFFFF else hid), gang := gang
      rpc := rpc, time := s.time }

/-- A deadline is finite and has come. -/
def isDue (now : Nat) (d : Word) : Bool := d != 0 && d != BitVec.allOnes 64 && decide (d.toNat ≤ now)
/-- A copy that is late and not reported. -/
def Entry.isLate (e : Entry) (now : Nat) : Bool := !e.late && !e.voided && !e.done && isDue now e.deadline
/-- A pending bay that is late and not reported. -/
def Bay.isLate (b : Bay) (now : Nat) : Bool := b.st == .pending && !b.late && isDue now b.deadline
/-- Sampler work that is late and not reported. -/
def Work.isLate (w : Work) (now : Nat) : Bool := !w.late && isDue now w.deadline
/-- A launch that is late and not reported. -/
def Gang.isLate (x : Gang) (now : Nat) : Bool := !x.placed && !x.late && isDue now x.deadline

/-- A holder's pc; 0 for one outside its slot. -/
def State.pcOf (s : State) (hid : Nat) : Word := if 4096 ≤ hid then 0 else (s.hartAt hid).pc
/-- The core that hears of a holder's work: its own, or its gang's launching core. -/
def State.noticeCore (s : State) (hid : Nat) (g : BitVec 16) : Nat :=
  if 4096 ≤ hid then (match s.gangAt g.toNat with | some x => x.core | none => 0) else hid / 8

/-- DEADLINE_REACHED (R56): the first piece of accepted work whose deadline has come and that isn't reported. `src` is 0
for the copy queue of hart n, 1 for the bays and 2 for the sampler work of cluster n, 3 for the launches of core n. -/
def execDeadlineReached (n : BitVec 11) (src : BitVec 3) (s : State) : Out :=
  let k := n.toNat
  match src.toNat with
  | 0 =>
    let h := s.hartAt k
    if h.cq.any (fun e => e.isLate s.now) then
      let mark := h.cq.foldl (fun (a : List Entry × Bool) e =>
        if !a.2 && e.isLate s.now then (a.1 ++ [{ e with late := true }], true) else (a.1 ++ [e], a.2)) ([], false)
      .next ((s.setHartAt k { h with cq := mark.1 }).lateNotice (k / 8) k
        (match h.cq.find? (fun e => e.isLate s.now) with | some e => h.entryResv e | none => h.ownResv) h.gang h.pc)
    else .next s
  | 1 =>
    let c := s.clusAt k
    match c.bays.find? (fun kb => kb.2.isLate s.now) with
    | some (i, b) => .next ((s.setClusAt k (c.setBay i { b with late := true })).lateNotice
        (s.noticeCore b.holder b.gang) b.holder b.resv.toNat b.gang (s.pcOf b.holder))
    | none => .next s
  | 2 =>
    let c := s.clusAt k
    match c.works.find? (fun w => w.isLate s.now) with
    | some w => .next ((s.setClusAt k (c.setWork { w with late := true })).lateNotice
        (s.noticeCore w.hid w.gang) w.hid w.resv.toNat w.gang (s.pcOf w.hid))
    | none => .next s
  | _ =>
    match s.dev.gangs.find? (fun g => g.2.core == k && g.2.isLate s.now) with
    | some (g, x) => .next ((s.setGangAt g { x with late := true }).lateNotice k x.src x.resv.toNat (BitVec.ofNat 16 g) (s.pcOf x.src))
    | none => .next s

/-- A physical address that the tables give in HBM, with no fault (R163). -/
def State.walksToHbm (s : State) (hid a : Nat) : Bool :=
  decide (a < 2 ^ 57) && (match s.leafOf (s.whoOf hid) a with | .ok (_, p) => inHbm (leafPa p a) | .error _ => false)
/-- The index register of an indexed vector memory instruction (R279). -/
def indexOperand : Instr → Option (BitVec 5)
  | .vldx _ a .. | .vstx _ a .. | .vstxu _ a .. | .vsadd _ a .. => some a
  | _ => none
/-- A request to HBM that a hart has under way with no walk fault, watch or sbar that holds it, and the reservation it is charged
to (R44, R163): that of the element at which the vector memory instruction at the head of its queue stands, else the first access in
stream S. -/
def State.hbmRequest (s : State) (hid : Nat) : Option Nat :=
  let h := s.hartAt hid
  let vec := match h.vq with
    | e :: _ => match streamOf e.instr, vecOpOf e.instr with
      | some _, some op =>
        let en := h.look e
        let v := h.vec
        let msk := maskOf op.m en
        let re := match en.instr with
          | .vcbld .. => some (0, 0)
          | _ => (v.elems op.rowwise).find? (fun re => v.active msk re.1 re.2)
        match re with
        | none => none
        | some re =>
          let i : Int := match indexOperand en.instr with | some a => signed v.n (v.opElem a.toNat v.n re.1 re.2) | none => 0
          let passes := (memWatch hid en msk { s := s, passed := en.passed } re).2.isNone
          if !en.done && en.str.space == Space.dv && passes && !h.ss.any (fun y => decide (y.seq < en.after)) &&
              s.walksToHbm hid (s.elemAddr hid en.str (v.position en.str re.1 re.2).1 i) then
            some (h.entryResv en) else none
      | _, _ => none
    | [] => none
  let scalar := match h.ss with
    | x :: _ =>
      if !x.sq && !h.vecBefore x.surr x.hold && s.walksToHbm hid x.addr.toNat &&
          (match x.kind with | .publish | .token _ => false | _ => true) then
        some (if x.surr then h.workResv else h.ownResv) else none
    | [] => none
  if h.run == .running then vec.or scalar else none
/-- The reservation of a hart's request that R163 covers: its class is G and it has HBM budget left. -/
def State.memCovered (s : State) (hid : Nat) : Option Nat :=
  (s.hbmRequest hid).filter (fun r => (s.rsvAt r).cls == 2 && s.remaining r 3 (hid / 8) != 0)
/-- MEM_LATENCY_MISS (R163): a covered request of a class-G hart that missed its bound. -/
def execMemLatencyMiss (hid : BitVec 11) (s : State) : Out :=
  let h := s.hartAt hid.toNat
  .next (match s.memCovered hid.toNat with
    | some r => s.lateNotice (hid.toNat / 8) hid.toNat r h.gang h.pc
    | none => s)

/-! ### Dispatch waits (R37, R52, R111, R154) -/

/-- The word at a hart's pc, looked at without an access; 0 where it can't be. -/
def State.peekWord (s : State) (hid : Nat) : BitVec 32 :=
  let a := (s.hartAt hid).pc.toNat
  match s.leafOf (s.whoOf hid) a with
  | .ok (_, p) => BitVec.ofNat 32 (s.mem.read (leafPa p a) 4)
  | .error _ => 0
/-- What a hart waits on. -/
def State.waitOf (s : State) (hid : Nat) : Option Waiting :=
  let h := s.hartAt hid
  if h.run == .running then h.wait else none
/-- Something done as the hart `hid`, whose word at its pc is the one at hand. -/
def State.asHart (s : State) (hid : Nat) (f : State → State) : State :=
  let t := f { s with cur := hid, ir := s.peekWord hid }
  { t with cur := s.cur, ir := s.ir }

/-- A pop that no reserved push can satisfy, or a push into a FIFO of 8 deposited tokens (R37). -/
def Hart.hopeless (h : Hart) : Wait → Bool
  | .pop id => h.tokens id == 0 && h.reserved id == 0
  | .push id => decide (Config.qdtok ≤ h.tokens id)
  | .pops id n => decide (h.tokens id + h.reserved id < n)
  | .pushes id n => decide (Config.qdtok < h.tokens id + n)
  | _ => false

/-- A hart that stands at a prefix word, whose successor waits with it (R122), moved on to the successor with the prefix live:
what the hart waits in is the successor (R37, R86). -/
def State.pastPfx (s : State) (hid : Nat) : State :=
  let h := s.hartAt hid
  let w := s.peekWord hid
  if bits w.toNat 26 6 = 0x10 && h.pfx.isNone then
    s.setHartAt hid { h.count 1 with pc := (h.pc + 4) &&& pcMask, pfx := some (w, false), pfxOld := false }
  else s
/-- TOKEN_DEADLOCK (R37): a hopeless wait of 4096 cycles traps with cause 0x0E at the waiting instruction. -/
def execTokenDeadlock (hid : BitVec 11) (s : State) : Out :=
  match s.waitOf hid.toNat with
  | some w =>
    if (s.hartAt hid.toNat).hopeless w.kind && decide (4096 ≤ (s.time - w.since).toNat) then
      let t := s.pastPfx hid.toNat
      .next (t.takeTrap hid.toNat ⟨0x0E, 0⟩ { engine := unitOf (t.peekWord hid.toNat), ipc := (t.hartAt hid.toNat).pc, word := t.peekWord hid.toNat })
    else .next s
  | none => .next s

/-- The submission of an instruction made again (R52). -/
def State.submit (s : State) (x : Submit) : State :=
  match x with
  | .cp o => s.cpGo o
  | .xpd o => s.cpXpd o
  | .take neg d a b => s.bayTake neg d a b true
  | .smp op d a b fl => s.smpSubmit op d a b true fl
  | .launch d a => s.glaunch d a

/-- WAITED_ADMISSION (R52): a waiting `.w` form tried again, and accepted where it can be. -/
def execWaitedAdmission (hid : BitVec 11) (s : State) : Out :=
  match s.waitOf hid.toNat with
  | some w => match w.kind with
    | .admission x => .next (s.asHart hid.toNat (fun t => t.submit x))
    | _ => .next s
  | none => .next s

/-- The register of a submission's accept word, its engine, and whether it is a bay.take. -/
def Submit.dest : Submit → BitVec 5 × Eng × Bool
  | .cp o => (o.d, .c, false)
  | .xpd o => (o.d, .c, false)
  | .take _ d _ _ => (d, .s, true)
  | .smp _ d _ _ _ => (d, .s, false)
  | .launch d _ => (d, .s, false)

/-- ADMISSION_WAIT_TIMEOUT (R52): a wait of 4096 cycles refuses with reason 0x08. -/
def execAdmissionWaitTimeout (hid : BitVec 11) (s : State) : Out :=
  let k := hid.toNat
  match s.waitOf k with
  | some w => match w.kind with
    | .admission x =>
      if 4096 ≤ (s.time - w.since).toNat then
        let h := s.hartAt k
        let (d, e, take) := x.dest
        let h1 := h.setReg d (refuse 8)
        let h2 := if take then { h1 with bay := { h1.bay with bayh := 0 } } else h1
        .next (s.setHartAt k (h2.past e))
      else .next s
    | _ => .next s
  | none => .next s

/-- WTIME_WAKE (R111): time has reached the target; S[d] receives it. -/
def execWtimeWake (hid : BitVec 11) (s : State) : Out :=
  let k := hid.toNat
  match s.waitOf k with
  | some w => match w.kind with
    | .wtime t d =>
      let h := s.hartAt k
      if t ≤ s.time then .next (s.setHartAt k (((h.setReg d s.time).deposit (pushOf h.pfx)).advance)) else .next s
    | _ => .next s
  | none => .next s

/-- QWAIT_WAKE (R154): the watch value meets the condition and goes to S[d]; a fault of the watch word is the qwait's. A read
that finds it unmet is charged too (R47). -/
def execQwaitWake (hid : BitVec 11) (s : State) : Out :=
  let k := hid.toNat
  match s.waitOf k with
  | some w => match w.kind with
    | .qwait q t d =>
      match s.watchValue k ((s.hartAt k).latestWatch q) with
      | .error (.trap c) => .next (s.takeTrap k c { engine := unitOf (s.peekWord k), ipc := (s.hartAt k).pc, word := s.peekWord k })
      | .error _ => .next s
      | .ok (s1, v) =>
        let h := s1.hartAt k
        if t ≤ v then .next (s1.setHartAt k (((h.setReg d v).deposit (pushOf h.pfx)).advance)) else .next s1
    | _ => .next s
  | none => .next s

/-! ### The engines -/

/-- The head of a hart's vector queue may run now. -/
def State.vecReady (s : State) (hid : Nat) : Bool :=
  match (s.hartAt hid).vq with
  | en :: _ => match vecOpOf en.instr with
    | some op => !en.done && !s.vecHeld hid op && !s.vecScore hid op en
    | none => false
  | [] => false
/-- The vector queue's head is a vwait. -/
def Hart.vwaits (h : Hart) : Bool := match h.vq with | en :: _ => (match en.instr with | .vwait .. => true | _ => false) | [] => false
/-- The vector queue's head has started and waits. -/
def Hart.vecStalled (h : Hart) : Bool := match h.vq with | en :: _ => en.started && en.tried != 0 | [] => false
/-- The vwait at the head has waited its limit (R288). -/
def State.vwaitOver (s : State) (hid : Nat) : Bool :=
  let h := s.hartAt hid
  match h.vq with
  | en :: _ => en.prog != 0 && decide (h.vec.vwtmo.toNat ≤ s.now - (en.prog - 1))
  | [] => false

/-- The head of a vector queue run if it may. -/
def State.vecGo (s : State) (hid : Nat) : State := if s.vecReady hid then s.vecHead hid else s
/-- The head of a vector queue, not begun, is held by the scoreboard, whatever else holds it, and not yet seen to be (R218; DESIGN
CHOICE, log 63). -/
def State.scoreHeld (s : State) (hid : Nat) : Bool :=
  match (s.hartAt hid).vq with
  | en :: _ => match vecOpOf en.instr with
    | some op => !en.done && !en.started && en.tried == 0 && (s.hartAt hid).run == .running && s.vecScore hid op en
    | none => false
  | [] => false
/-- Such a head is marked: a convoy is split before it (R218). -/
def State.markHeld (s : State) (hid : Nat) : State :=
  let h := s.hartAt hid
  match h.vq with
  | en :: _ => if s.scoreHeld hid then s.setHartAt hid (h.setHead .v { en with tried := s.now + 1 }) else s
  | [] => s

/-- VECTOR_START (R250): the head of the hart's vector queue starts, or after a pre-emption goes on; one that the scoreboard
holds there is marked so (R218). -/
def execVectorStart (hid : BitVec 11) (s : State) : Out :=
  .next (if s.vecReady hid.toNat then s.vecHead hid.toNat else s.markHeld hid.toNat)
/-- WATCH_REREAD (R153): the watch word is read again, and elements that wait for it proceed. -/
def execWatchReread (hid : BitVec 11) (s : State) : Out :=
  .next (if (s.hartAt hid.toNat).vecStalled then s.vecGo hid.toNat else s)
/-- VWAIT_REREAD (R288): the flags of a vwait that aren't met are read again. -/
def execVwaitReread (hid : BitVec 11) (s : State) : Out :=
  .next (if (s.hartAt hid.toNat).vwaits && (s.hartAt hid.toNat).vecStalled then s.vecGo hid.toNat else s)
/-- VWAIT_TIMEOUT (R288): a vwait that has waited its limit retires with the unmet mask and count. -/
def execVwaitTimeout (hid : BitVec 11) (s : State) : Out :=
  .next (if (s.hartAt hid.toNat).vwaits && s.vwaitOver hid.toNat then s.vecGo hid.toNat else s)

/-- The head of a hart's matrix queue may run now. -/
def State.matReady (s : State) (hid : Nat) : Bool :=
  match (s.hartAt hid).mq with
  | en :: _ => match matOpOf en.instr with
    | some op => !en.done && !s.matHeld hid op en
    | none => false
  | [] => false
/-- MATRIX_START (R307): the head of the hart's matrix queue starts, or goes on. -/
def execMatrixStart (hid : BitVec 11) (s : State) : Out := .next (if s.matReady hid.toNat then s.matHead hid.toNat else s)

/-- INSTRUCTION_RETIRE (R35): the head of a hart's queue that is done retires, then the moves behind it. `eng` is 0 for the
first access that waits in stream S, a wmpub among them, 1 vector, 2 matrix, 3 copy. -/
def execInstructionRetire (hid : BitVec 11) (eng : BitVec 3) (s : State) : Out :=
  let k := hid.toNat
  match eng.toNat with
  | 0 => .next (s.sPerform k)
  | 1 => .next ((s.vecRetire k).drainMoves k .v 8)
  | 2 => .next ((s.matRetire k).drainMoves k .m 8)
  | 3 => .next (s.copyRetire k)
  | _ => .next s

/-- COPY_CHUNK (R198): the next chunk of the command at the head of the hart's copy queue. -/
def execCopyChunk (hid : BitVec 11) (s : State) : Out := .next (s.copyChunk hid.toNat)
/-- COPY_COMPLETE (R194): a command whose last byte is written completes. -/
def execCopyComplete (hid : BitVec 11) (s : State) : Out := .next (s.copyComplete hid.toNat)
/-- The addresses whose pages a stream's lookahead translates: the one at the cursor, and the first position's behind it in
another page, where look × 4 KiB reach it; a look of 0 stands for 8 (R141, R160). -/
def Stream.ahead (x : Stream) (shift : Nat) : List Nat :=
  let look := let n := bits x.cfg.toNat 12 4; if n = 0 then 8 else n
  let d : Int := if x.mode = 0 then (x.sz : Int) else x.stride.toInt
  let a : Int := (x.base.toNat : Int) + x.off x.cursor.toNat 0
  let page : Int := a / (2 ^ shift : Nat) * (2 ^ shift : Nat)
  let b : Int :=
    if 0 < d then a + d * ((page + (2 ^ shift : Nat) - a + d - 1) / d)
    else if d < 0 then a + d * ((a - page - d) / (-d))
    else a
  if d != 0 && decide (-(4096 * look : Nat) ≤ b - a) && decide (b - a ≤ (4096 * look : Nat)) then [wrap 64 a, wrap 64 b] else [wrap 64 a]
/-- The translation a lookahead finds of an address, if there is one (R160). -/
def State.lookUp (s : State) (hid : Nat) (q : BitVec 4) (a : Nat) : Option Tlb :=
  let who := s.whoOf hid
  if 2 ^ 57 ≤ a then none
  else match s.walkOf who a with
    | .ok (at_, p) => some { ctx := who.fn, page := a - a % 2 ^ pteShift p, at_ := at_, pte := p, hid := hid, q := q }
    | .error _ => none
/-- LOOKAHEAD_TRANSLATE (R160): the core keeps the translations of the next two pages of a loaded unit or strided stream of
device-virtual memory, in place of those it kept for the stream, 2048 in all; it never faults and sets no bit. -/
def execLookaheadTranslate (hid : BitVec 11) (q : BitVec 4) (s : State) : Out :=
  let k := hid.toNat
  let x := (s.hartAt k).q[q.toNat]
  if !(x.loaded && x.space = .dv && decide (x.mode ≤ 1)) then .next s
  else
    let first := match (x.ahead 16).head? with | some a => s.lookUp k q a | none => none
    let found := (x.ahead (match first with | some e => pteShift e.pte | none => 16)).filterMap (s.lookUp k q)
    let c := s.coreAt (k / 8)
    .next (s.setCoreAt (k / 8) { c with tlb := (found ++ c.tlb.filter (fun e => !(e.hid == k && e.q == q))).take 2048 })

/-! ### Gangs and harts -/

/-- The start watermark of a gang, when it can be read (R117): in its function's context, through the root of its first member's
core and with user rights, of which the spec says nothing (DESIGN CHOICE, log 73). Its block is charged to the gang (R47). -/
def State.startMark (s : State) (x : Gang) : Except Stop (State × Word) :=
  match s.dv { supWho (match x.members with | m :: _ => m.core | [] => 0) with fn := x.fn.toNat, user := true } x.wm.toNat .read 2 with
  | .error e => .error e
  | .ok (s1, pa) =>
    if s1.spoiled 3 0 pa 8 then trapAt 0x52 x.wm.toNat
    else .ok (if inHbm pa then s1.chargeEnergy x.resv.toNat 2 else s1, BitVec.ofNat 64 (s1.mem.read pa 8))

/-- START_WATERMARK_POLL (R117): once the word is at least wmv, the gang's harts are ready. A read that can't be made
raises nothing, but that a soft error it met is over (R366). -/
def execStartWatermarkPoll (gang : BitVec 16) (s : State) : Out :=
  match s.gangAt gang.toNat with
  | none => .next s
  | some x =>
    if !x.waiting then .next s
    else match s.startMark x with
      | .error (.trap t) => .next (if t.cause = 0x52 then s.errorMet x.fn.toNat 0xFFFF t.addr else s)
      | .error (.wait _) => .next s
      | .ok (s1, v) =>
        if v < x.wmv then .next s1
        else .next (s1.harts.foldl (fun t p =>
          let h := t.hartAt p.1
          if h.run == .watermark && h.gang = gang then t.setHartAt p.1 { h with run := .running } else t)
          (s1.setGangAt gang.toNat { x with waiting := false }))

/-- GBAR_DEPART (R123). -/
def execGbarDepart (gang : BitVec 16) (g : BitVec 2) (unit : BitVec 8) (s : State) : Out :=
  .next (s.gbarDepart gang.toNat g.toNat unit.toNat)

/-- The accesses that wait in stream S performed, as many as can be (R127). -/
def State.sDrain (s : State) (hid : Nat) : Nat → State
  | 0 => s
  | n + 1 => match s.sHead hid with
    | some x => if s.sReady hid x then (s.sPerform hid).sDrain hid n else s
    | none => s
/-- What has been done at the heads of a suspending hart's queues retires (R127), a matrix instruction that it has begun when it
is over (R309). -/
def State.settle (s : State) (hid : Nat) : Nat → State
  | 0 => s
  | n + 1 =>
    let h := s.hartAt hid
    match h.vq with
    | en :: _ =>
      if en.over s.now then (((s.vecRetire hid).drainMoves hid .v 8)).settle hid n
      else (((s.matFinish hid).matRetire hid).drainMoves hid .m 8)
    | [] => (((s.matFinish hid).matRetire hid).drainMoves hid .m 8)

/-- What the head of a hart's vector or matrix queue has done is not through yet (R43). -/
def Hart.atWork (h : Hart) (now : Nat) : Bool :=
  (h.vq.head?.toList ++ h.mq.head?.toList).any (fun e => e.done && !e.over now)
/-- SUSPENSION_COMPLETE (R127): the hart's engines have stopped; what was dispatched of stream S is performed where it can be, and
once what the engines had to finish is through, the hart is suspended and its record posted. -/
def execSuspensionComplete (hid : BitVec 11) (s : State) : Out :=
  let k := hid.toNat
  let t := ((s.sDrain k sDepth).settle k 8).sDrain k sDepth
  .next (if (s.hartAt k).run != .suspending then s else if (t.hartAt k).atWork t.now then t else t.endSuspend k)

/-- HART_END (R125): a hart in hend, its work over, ends. -/
def execHartEnd (hid : BitVec 11) (s : State) : Out := .next (s.hendDone hid.toNat)

/-- GANG_COMPLETE (R118). -/
def execGangComplete (gang : BitVec 16) (s : State) : Out := .next (s.gangDone gang.toNat)

/-! ### Appliers, bays, sampler -/

/-- The value an application writes (R184). -/
def Update.value (u : Update) (old : Nat) : Nat :=
  if u.fp then ((if u.size = 8 then f64 else f32).add .rne old u.val).1 else (old + u.val) % 2 ^ (8 * u.size)

/-- The applier of an update: that of the base die under the stack which holds its bin (R23, R183). -/
def Update.applier (u : Update) : Nat := stackOf u.pa
/-- The update to an address that an applier loses (R186). Of two of a hart lost before it is told, it is told the later one's
address, of which the spec says nothing (DESIGN CHOICE, log 81). -/
def State.loseUpdate (s : State) (pa : Nat) : State :=
  match s.dev.updates.find? (fun u => u.pa == pa) with
  | none => s
  | some u =>
    let s1 := { s with dev := { s.dev with updates := s.dev.updates.erase u } }
    if 4096 ≤ u.hid then s1.setMember u.gang.toNat (awayIdx u.hid) (fun m => { m with awayUpd := some u.dva })
    else s1.setHartAt u.hid { s1.hartAt u.hid with lostUpd := some u.dva }

/-- The context of an update's hart: its gang's function. -/
def State.updateFn (s : State) (u : Update) : Nat := match s.gangAt u.gang.toNat with | some x => x.fn.toNat | none => 0
/-- The update that is applied next: the first of those whose applier's base die runs (R184, R370). -/
def State.appliable (s : State) : Option Update := s.dev.updates.find? (fun u => s.dieRuns (baseDie u.applier))
/-- UPDATE_APPLY (R183, R184): an applier applies the update that was sent first. The spec lets updates of distinct streams, harts
or bins arrive in any order; here all arrive in the order they were sent, and before any hart's next dispatch (DESIGN
CHOICE, log 74). One whose bytes hold a soft error is lost (R186, R366). -/
def execUpdateApply (s : State) : Out :=
  match s.appliable with
  | none => .next s
  | some u =>
    if s.spoiled 3 0 u.pa u.size then
      .next ((s.errorMet (s.updateFn u) (if u.hid < 1280 then u.hid else 0xFFFF) u.dva).loseUpdate u.pa)
    else .next { s with
      mem := s.mem.write u.pa u.size (u.value (s.mem.read u.pa u.size))
      dev := { s.dev with updates := s.dev.updates.erase u } }

/-- BAY_GRANT (R321). -/
def execBayGrant (cl : BitVec 5) (h : BitVec 8) (s : State) : Out := .next (s.bayGrant cl.toNat h.toNat)
/-- RECALL_DELIVERY (R324): `h` is the recalled bay. -/
def execRecallDelivery (cl : BitVec 5) (h : BitVec 8) (s : State) : Out := .next (s.recallDeliver cl.toNat h.toNat)
/-- SURRENDER_UNIT_OVERRUN (R326): more units than the bound. -/
def execSurrenderUnitOverrun (hid : BitVec 11) (s : State) : Out :=
  let b := (s.hartAt hid.toNat).bay
  .next (if b.isOpen && b.counting && decide (2 ^ b.lb.toNat < b.ucnt) then s.surrOverrun hid.toNat else s)
/-- SURRENDER_TIME_OVERRUN (R326): time has reached rcend. -/
def execSurrenderTimeOverrun (hid : BitVec 11) (s : State) : Out :=
  let b := (s.hartAt hid.toNat).bay
  .next (if b.isOpen && b.counting && decide (b.rcend ≤ s.time) then s.surrOverrun hid.toNat else s)

/-- Something done to a piece of sampler work that is there and satisfies a condition. -/
def State.onWork (s : State) (cl : BitVec 5) (seq : BitVec 64) (ok : Work → Bool) (f : Work → State) : State :=
  match (s.clusAt cl.toNat).work seq.toNat with
  | some w => if ok w then f w else s
  | none => s
/-- A piece of work of an op that may start (R341, R343, R55). -/
def State.startable (s : State) (cl : Nat) (op : Nat) (w : Work) : Bool :=
  w.op == op && !w.started && (s.clusAt cl).mayStart w && !s.workHeld cl w

/-- SAMPLER_START (R343): a request starts, and its program is bound. -/
def execSamplerStart (cl : BitVec 5) (seq : BitVec 64) (s : State) : Out :=
  .next (s.onWork cl seq (s.startable cl.toNat 0) (fun w => s.reqStart cl.toNat w))
/-- SAMPLER_WM_REREAD (R343): a waiting request looks again. -/
def execSamplerWmReread (cl : BitVec 5) (seq : BitVec 64) (s : State) : Out :=
  .next (s.onWork cl seq (fun w => w.started) (fun w => s.stripReread cl.toNat w))
/-- SAMPLER_STRIP (R351): the next strip of a started request. -/
def execSamplerStrip (cl : BitVec 5) (seq : BitVec 64) (s : State) : Out :=
  .next (s.onWork cl seq (fun w => w.started && w.waitFrom.isNone && decide (w.strip < w.strips)) (fun w => s.stripRun cl.toNat w))
/-- SAMPLER_CYCLE_OVERRUN (R343). -/
def execSamplerCycleOverrun (cl : BitVec 5) (seq : BitVec 64) (s : State) : Out :=
  .next (s.onWork cl seq (fun w => w.started) (fun w => s.cycleOverrun cl.toNat w))
/-- SAMPLER_DRAW (R352): after the last strip. -/
def execSamplerDraw (cl : BitVec 5) (seq : BitVec 64) (s : State) : Out :=
  .next (s.onWork cl seq (fun w => w.started && w.op == 0 && decide (w.strips ≤ w.strip)) (fun w => s.reqDraw cl.toNat w))
/-- TABLE_LOAD_PERFORM (R341). -/
def execTableLoadPerform (cl : BitVec 5) (seq : BitVec 64) (s : State) : Out :=
  .next (s.onWork cl seq (s.startable cl.toNat 1) (fun w => s.tableLoad cl.toNat w))
/-- TABLE_STORE_PERFORM (R341). -/
def execTableStorePerform (cl : BitVec 5) (seq : BitVec 64) (s : State) : Out :=
  .next (s.onWork cl seq (s.startable cl.toNat 2) (fun w => s.tableStore cl.toNat w))
/-- PROGRAM_LOAD_PERFORM (R341). -/
def execProgramLoadPerform (cl : BitVec 5) (seq : BitVec 64) (s : State) : Out :=
  .next (s.onWork cl seq (s.startable cl.toNat 3) (fun w => s.programLoad cl.toNat w))

/-! ### Words that are no instruction, and fetch faults -/

/-- WORD_NOT_AN_INSTRUCTION (R59): cause 0x01 for majors 0x00 and 0x3F, else 0x02; precise. -/
def execWordNotAnInstruction (w : BitVec 32) (s : State) : Out :=
  let major := bits w.toNat 26 6
  .next ({ s with ir := w }.trapSeq ⟨if major = 0 ∨ major = 63 then 0x01 else 0x02, 0⟩)

/-- FETCH_FAULT (R101): the cause with the hart's pc in the record. No word was fetched: the record's word is 0. -/
def execFetchFault (cause : BitVec 8) (s : State) : Out := .next ({ s with ir := 0 }.trapSeq ⟨cause, s.hart.pc⟩)

end Sys2Proof.Machine
end

