-- ==== Sys2Proof/Machine/HostLink.lean ====
section
/-! DEFINITION. The events that come from outside the cores: host and peer accesses (R176, R179, R358), the mailbox and
its commands (R360, R361), byte-stream rings (R362, R363), resets (R364, R367), security (R365), errors (R366), thermal
and management events (R370), page migration (R165). -/

namespace Sys2Proof.Machine

/-! ### Host accesses (R358, R359) -/

/-- Host accesses through a function: its context, with the rights of a supervisor. Core 0's roots translate
(log 21). -/
def hostWho (f : Nat) : Who := { core := 0, clus := 0, fn := f, user := false, gang := 0 }

/-- A function is there: function 0, and the VFs that a good image enables (R358, R367). -/
def State.hasFn (s : State) (f : Nat) : Bool := f == 0 || (s.img.ok && decide (f ≤ s.img.vfs))

/-- How the port answers for a function before an access: a function that is not there, or whose TDI does not run, is none;
a function in reset aborts (R364, R365, R367). -/
def State.port (s : State) (f : Nat) : Option HostStatus :=
  if !s.hasFn f then some .unsupportedRequest
  else if (s.fnAt f).inReset then some .completerAbort
  else if s.tdiShut f then some .unsupportedRequest
  else none

/-- A completion returned over the port. -/
def State.complete (s : State) (f : BitVec 5) (st : HostStatus) (data : Word) : State :=
  { s with dev := { s.dev with done := s.dev.done ++ [{ fn := f, status := st, data := data }] } }

/-- Bytes that an access of n bytes moves: 1 to 8. -/
def hostBytes (n : BitVec 4) : Nat := min 8 n.toNat

/-- A write of the host: every byte, or where it faults none. -/
def State.hostPut (s : State) (f a n x : Nat) : Option State :=
  match s.dvSpans (hostWho f) a n 0 .write 2 2 with
  | .ok (s1, l) => if a + n ≤ 2 ^ 57 then some (s1.scatter l (Mem.write [] 0 n x)) else none
  | .error _ => none
/-- A read of the host; none where it faults or meets a soft error. -/
def State.hostGet (s : State) (f a n : Nat) : Option (State × Nat) :=
  match s.dvSpans (hostWho f) a n 0 .read 2 2 with
  | .ok (s1, l) => if a + n ≤ 2 ^ 57 && (s1.spoiledSpan l).isNone then some (s1, (s1.gather l).read 0 n) else none
  | .error _ => none
/-- The state after a request of function f that could not be made: a soft error that its walk met is over, and its record
written (R366). -/
def State.hostFailed (s : State) (f : Nat) (e : Stop) : State :=
  match e with
  | .trap t => if t.cause = 0x52 then s.errorMet f 0xFFFF t.addr else s
  | .wait _ => s
/-- The state after an access of the host has failed: a soft error that it met, in what it reads or in the tables, is over, and
its record written (R366). -/
def State.hostMiss (s : State) (f a n : Nat) (acc : Acc) : State :=
  match s.dvSpans (hostWho f) a n 0 acc 2 2 with
  | .ok (s1, l) => if acc == .read && (s1.spoiledSpan l).isSome then s.errorMet f 0xFFFF (BitVec.ofNat 64 a) else s
  | .error e => s.hostFailed f e

/-- A write with what answers it: nothing where it succeeds, since it is posted; one that faults writes no byte (R358). -/
def State.hostWrite (s : State) (fn : BitVec 5) (a n x : Nat) : State :=
  match s.port fn.toNat with
  | some st => s.complete fn st 0
  | none => match s.hostPut fn.toNat a n x with
    | some s1 => s1
    | none => (s.hostMiss fn.toNat a n .write).complete fn .completerAbort 0

/-- A read with its completion. -/
def State.hostRead (s : State) (fn : BitVec 5) (a n : Nat) : State :=
  match s.port fn.toNat with
  | some st => s.complete fn st 0
  | none => match s.hostGet fn.toNat a n with
    | some (s1, x) => s1.complete fn .success (BitVec.ofNat 64 x)
    | none => (s.hostMiss fn.toNat a n .read).complete fn .completerAbort 0

/-- HOST_WRITE (R179). -/
def execHostWrite (fn : BitVec 5) (addr : BitVec 64) (n : BitVec 4) (data : BitVec 64) (s : State) : Out :=
  .next (s.hostWrite fn addr.toNat (hostBytes n) data.toNat)

/-- The value a host reads at a mailbox offset (R360). -/
def Fn.mailbox (x : Fn) (off : Nat) : Word :=
  match off with
  | 0x00 => 0x00090768
  | 0x08 => BitVec.ofNat 64 (b2n x.ready + 2 * b2n x.badImage + 4 * b2n x.inReset + 8 * b2n x.tdiErr)
  | 0x10 => x.cqbase
  | 0x18 => BitVec.ofNat 64 x.cqlen.toNat
  | 0x20 => x.cqtail
  | 0x28 => x.cqhead
  | 0x30 => x.erhead
  | 0x38 => x.ertail
  | _ => 0

/-- A read of a function's mailbox page, which is answered in every state of the function (R360). -/
def State.mailboxRead (s : State) (fn : BitVec 5) (off : Nat) : State :=
  if s.hasFn fn.toNat then s.complete fn .success ((s.fnAt fn.toNat).mailbox off) else s.complete fn .unsupportedRequest 0

/-- A CXL.mem read of host-managed device memory, by physical address (R357, R179). One past the end of HBM, of which no rule
speaks, completes with Unsupported Request, and such a write changes nothing (DESIGN CHOICE, log 87). -/
def State.cxlRead (s : State) (fn : BitVec 5) (pa n : Nat) : State :=
  if Config.hbmBytes < pa + n then s.complete fn .unsupportedRequest 0
  else if s.spoiled 3 0 pa n then (s.errorMet fn.toNat 0xFFFF 0).complete fn .completerAbort 0
  else s.complete fn .success (BitVec.ofNat 64 (s.mem.read pa n))

/-- HOST_READ (R179): `via` says how: 0 through the function's context, 1 its mailbox page, 2 CXL.mem. -/
def execHostRead (fn : BitVec 5) (addr : BitVec 64) (r : ReadForm) (s : State) : Out :=
  match r.via.toNat with
  | 1 => .next (s.mailboxRead fn addr.toNat)
  | 2 => .next (s.cxlRead fn addr.toNat (hostBytes r.n))
  | _ => .next (s.hostRead fn addr.toNat (hostBytes r.n))

/-- The new value of a PCIe AtomicOp: FetchAdd, Swap, CAS (compare x, swap y); 3 is none (R176). -/
def atomicOp (op old x y size : Nat) : Nat :=
  match op with
  | 0 => (old + x) % 2 ^ (8 * size)
  | 1 => x % 2 ^ (8 * size)
  | 2 => if old = x % 2 ^ (8 * size) then y % 2 ^ (8 * size) else old
  | _ => old

/-- HOST_ATOMICOP (R176, R358): an indivisible 4- or 8-byte atomic; its completion carries the old value. -/
def execHostAtomicop (fn : BitVec 5) (op : BitVec 2) (w : BitVec 1) (addr x y : BitVec 64) (s : State) : Out :=
  let size := 4 + 4 * w.toNat
  match s.port fn.toNat with
  | some st => .next (s.complete fn st 0)
  | none =>
    if op = 3 || addr.toNat % size ≠ 0 then .next (s.complete fn .unsupportedRequest 0)
    else match s.dv (hostWho fn.toNat) addr.toNat .rmw 2 with
      | .error e => .next ((s.hostFailed fn.toNat e).complete fn .completerAbort 0)
      | .ok (s1, pa) =>
        let old := s1.mem.read pa size
        if s1.spoiled 3 0 pa size then .next ((s.errorMet fn.toNat 0xFFFF addr).complete fn .completerAbort 0)
        else .next ({ s1 with mem := s1.mem.write pa size (atomicOp op.toNat old x.toNat y.toNat size) }.complete fn .success
          (BitVec.ofNat 64 old))

/-- HOST_CAS16 (R358): Unsupported Request, and no byte changes. -/
def execHostCas16 (fn : BitVec 5) (_addr : BitVec 64) (s : State) : Out := .next (s.complete fn .unsupportedRequest 0)

/-- CXL_MEM_WRITE (R179): a peer's write of host-managed device memory, by physical address. -/
def execCxlMemWrite (pa : BitVec 52) (n : BitVec 4) (data : BitVec 64) (s : State) : Out :=
  if pa.toNat + hostBytes n ≤ Config.hbmBytes then .next { s with mem := s.mem.write pa.toNat (hostBytes n) data.toNat } else .next s

/-- BAR2_ACCESS (R358): offset o is device-virtual address o of the function's context; a fault is a Completer Abort. -/
def execBar2Access (fn : BitVec 5) (wr : BitVec 1) (off : BitVec 40) (n : BitVec 4) (data : BitVec 64) (s : State) : Out :=
  .next (if wr = 0 then s.hostRead fn off.toNat (hostBytes n) else s.hostWrite fn off.toNat (hostBytes n) data.toNat)

/-- CXL_CACHE_HOST_ATOMIC (R176): performed in the host on a line it holds, one unit of the memory order; where the line's bytes
hold a soft error the host cannot take it, and nothing is written (R366). -/
def execCxlCacheHostAtomic (op : BitVec 2) (w : BitVec 1) (pa : BitVec 52) (x y : BitVec 64) (s : State) : Out :=
  let size := 4 + 4 * w.toNat
  if Config.hbmBytes < pa.toNat + size then .next s
  else if s.spoiled 3 0 pa.toNat size then .next (s.errorMet 0 0xFFFF 0)
  else
    .next { s with mem := s.mem.write pa.toNat size (atomicOp op.toNat (s.mem.read pa.toNat size) x.toNat y.toNat size) }

/-! ### The mailbox (R360) -/

/-- Writes to a function's mailbox take effect: it is there, and no TDI that is not running (R360, R365). -/
def State.bar0Open (s : State) (f : Nat) : Bool := s.hasFn f && !s.tdiShut f

/-- MAILBOX_WRITE (R360): cqbase, cqlen and erhead take what is written; other offsets ignore it. -/
def execMailboxWrite (fn : BitVec 5) (off : BitVec 12) (v : BitVec 64) (s : State) : Out :=
  let x := s.fnAt fn.toNat
  let put (y : Fn) : Out := .next (s.setFnAt fn.toNat y)
  if !s.bar0Open fn.toNat then .next s
  else match off.toNat with
    | 0x10 => put { x with cqbase := v &&& 0xFFFFFFFFFFFFF000 }
    | 0x18 => if 4 ≤ v.toNat % 16 && v.toNat % 16 ≤ 12 then put { x with cqlen := BitVec.ofNat 4 v.toNat } else .next s
    | 0x20 => put { x with cqtail := v }
    | 0x30 => put { x with erhead := v }
    | _ => .next s

/-- CQTAIL_DOORBELL (R360, R361): records up to cqtail are there for the service cores. -/
def execCqtailDoorbell (fn : BitVec 5) (v : BitVec 64) (s : State) : Out :=
  if s.bar0Open fn.toNat then .next (s.setFnAt fn.toNat { s.fnAt fn.toNat with cqtail := v }) else .next s

/-! ### Commands (R361) -/

/-- The address of the command record a function's service core takes next, if one is there. -/
def State.nextCommand (s : State) (f : Nat) : Option Nat :=
  let x := s.fnAt f
  if !s.hasFn f || !x.ready || x.inReset || x.cqhead = x.cqtail || x.cqlen.toNat < 4 then none
  else some (x.cqbase.toNat + 64 * (x.cqhead.toNat % 2 ^ x.cqlen.toNat))
/-- That record's code, if it can be read; where the tables hold a soft error, which the read then meets, 0 stands for it. -/
def State.commandCode (s : State) (f : Nat) : Option Nat :=
  match s.nextCommand f with
  | none => none
  | some a => match s.dv (hostWho f) a .rmw 2 with
    | .ok (s1, pa) => some (s1.mem.read pa 1)
    | .error (.trap t) => if t.cause = 0x52 then some 0 else none
    | .error (.wait _) => none

/-- A command taken: its operands read, its effect, its status written and cqhead advanced. The effect answers the status and
what goes to bytes 32 to 63 of the record. A read that meets a soft error fails (R366), and the record is read again, of which
the spec says nothing (DESIGN CHOICE, log 76). -/
def State.command (s : State) (fn : BitVec 5) (code : Option Nat) (act : State → Nat → State × Nat × Option Nat) : State :=
  let f := fn.toNat
  match s.nextCommand f with
  | none => s
  | some a =>
    match s.dv (hostWho f) a .rmw 2 with
    | .error e => s.hostFailed f e
    | .ok (s1, pa) =>
      let raw := s1.mem.read pa 64
      let known := [1, 2, 3, 4].contains (raw % 256)
      if s1.spoiled 3 0 pa 64 then s.errorMet f 0xFFFF (BitVec.ofNat 64 a)
      else if (match code with | some c => raw % 256 != c | none => known) then s
      else
        let (s2, st, out) := act s1 raw
        let m := match out with | some x => s2.mem.write (pa + 32) 32 x | none => s2.mem
        let s3 := { s2 with mem := m.write (pa + 1) 1 st }
        s3.setFnAt f { s3.fnAt f with cqhead := (s3.fnAt f).cqhead + 1 }

/-- The launch of command 0x01: block address in the function's context (R359, R361). -/
def State.hostLaunch (s : State) (f : Nat) (a : Word) : State × Nat :=
  if a.toNat % 64 ≠ 0 then (s, 0x10)
  else match s.blockRead (hostWho f) a.toNat 2 with
    | .error e => (s.hostFailed f e, 0x10)
    | .ok (s1, raw) =>
      match s1.launch 0 (4096 + f) f f a (launchBlock raw) with
      | .ok (s2, _) => (s2, 0)
      | .error r => match s1.dv (hostWho f) (a.toNat + 64) .write 2 with
        | .ok (s2, pa) => ({ s2 with mem := s2.mem.write (pa + 8) 8 r }, 0x10)
        | .error e => (s1.hostFailed f e, 0x10)

/-- LAUNCH (R361). -/
def execLaunch (fn : BitVec 5) (s : State) : Out :=
  .next (s.command fn (some 1) (fun t raw =>
    let r := t.hostLaunch fn.toNat (BitVec.ofNat 64 (bits raw 64 64))
    (r.1, r.2, none)))

/-- Connection numbers of a function. -/
def maxConns : Nat := 256
/-- OPEN_CONNECTION (R361, R363): port, peer and ring headers from bytes 8, 16, 24 and 32 (log 22); 0x12 once after a
connection was closed for its tail. -/
def execOpenConnection (fn : BitVec 5) (s : State) : Out :=
  .next (s.command fn (some 2) (fun t raw =>
    let x := t.fnAt fn.toNat
    let w (i : Nat) : Word := BitVec.ofNat 64 (bits raw (64 * i) 64)
    if x.closed then (t.setFnAt fn.toNat { x with closed := false }, 0x12, none)
    else match (List.range maxConns).find? (fun i => (x.conns.find i).isNone) with
      | some i =>
        if 7 < (w 1).toNat || (w 3).toNat % 64 ≠ 0 || (w 4).toNat % 64 ≠ 0 then (t, 0x11, none)
        else (t.setFnAt fn.toNat { x with conns := x.conns.set i ⟨(w 1).toNat, w 2, w 3, w 4⟩ }, 0, none)
      | none => (t, 0x11, none)))

/-- CLOSE_CONNECTION (R361). -/
def execCloseConnection (fn : BitVec 5) (s : State) : Out :=
  .next (s.command fn (some 3) (fun t raw =>
    let x := t.fnAt fn.toNat
    (t.setFnAt fn.toNat { x with conns := x.conns.filter (fun p => p.1 != bits raw 64 64) }, 0, none)))

/-- READ_ERROR_RECORD (R361, R366): record n is at place n mod 256 of the ring. -/
def execReadErrorRecord (fn : BitVec 5) (s : State) : Out :=
  .next (s.command fn (some 4) (fun t raw =>
    let r := ((t.fnAt fn.toNat).errs.find (bits raw 64 64 % 256)).getD (Vector.replicate 4 0)
    (t, 0, some (r[0].toNat + r[1].toNat * 2 ^ 64 + r[2].toNat * 2 ^ 128 + r[3].toNat * 2 ^ 192))))

/-- UNKNOWN_COMMAND (R361): status 0x01. -/
def execUnknownCommand (fn : BitVec 5) (s : State) : Out := .next (s.command fn none (fun t _ => (t, 1, none)))

/-! ### Byte-stream rings (R362, R363) -/

/-- n bytes of a ring's data area at stream position k, wrapping at its end. -/
def ringByte (base lg k i : Nat) : Nat := base + (k + i) % 2 ^ lg

/-- RING_TRANSFER (R363): the service cores take n bytes from a tx ring and advance head, or put n bytes into an rx ring
and advance tail; a tail beyond head + 2^lg closes the connection. A transfer that meets a soft error moves nothing (R366), and none is made while the clock of the I/O die is held (R370). -/
def execRingTransfer (fn : BitVec 5) (conn : BitVec 8) (rx : BitVec 1) (n : BitVec 4) (data : BitVec 64) (s : State) : Out :=
  let f := fn.toNat
  let x := s.fnAt f
  match (if s.dieRuns ioDie then x.conns.find conn.toNat else none) with
  | none => .next s
  | some c =>
    let at_ := (if rx = 1 then c.rx else c.tx).toNat
    match s.dv (hostWho f) at_ .rmw 2 with
    | .error e => .next (s.hostFailed f e)
    | .ok (s1, pa) =>
      let base := s1.mem.read pa 8
      let lg := s1.mem.read (pa + 8) 4
      let head := s1.mem.read (pa + 16) 8
      let tail := s1.mem.read (pa + 24) 8
      let used := (tail + 2 ^ 64 - head) % 2 ^ 64
      let k := hostBytes n
      if s1.spoiled 3 0 pa 32 then .next (s.errorMet f 0xFFFF (BitVec.ofNat 64 at_))
      else if lg < 12 || 24 < lg || base % 4096 ≠ 0 then .next s1
      else if 2 ^ lg < used then
        .next (s1.setFnAt f { x with conns := x.conns.filter (fun p => p.1 != conn.toNat), closed := true })
      else if rx = 0 then
        if used < k then .next s1
        else
          let got := (List.range k).foldl (fun (t : Option State) i =>
            match t with
            | none => none
            | some u => (u.hostGet f (ringByte base lg head i) 1).map (fun r => r.1)) (some s1)
          match got with
          | none => .next ((List.range k).foldl (fun t i => t.hostMiss f (ringByte base lg head i) 1 .read) s1)
          | some s2 => .next { s2 with mem := s2.mem.write (pa + 16) 8 (head + k) }
      else
        if 2 ^ lg < used + k then .next s1
        else
          let put := (List.range k).foldl (fun (t : Option State) i =>
            match t with
            | none => none
            | some u => u.hostPut f (ringByte base lg tail i) 1 (bits data.toNat (8 * i) 8)) (some s1)
          match put with
          | none => .next ((List.range k).foldl (fun t i => t.hostMiss f (ringByte base lg tail i) 1 .write) s1)
          | some s2 => .next { s2 with mem := s2.mem.write (pa + 24) 8 (tail + k) }

/-! ### Function-level reset and security (R364, R365) -/

/-- Every hart of a function's gangs ends and counts in nkill, those in frames too; the gangs then complete (R364). -/
def State.killFn (s : State) (f : Nat) : State :=
  let s1 := s.harts.foldl (fun t p =>
    let h := t.hartAt p.1
    if h.run != .free && h.run != .ended && !h.sup && h.fn.toNat == f then t.endHart p.1 true else t) s
  { s1 with dev := { s1.dev with gangs := s1.dev.gangs.map (fun p =>
      if p.2.fn.toNat = f then
        (p.1, { p.2 with
          members := p.2.members.map (fun m => { m with ended := true, arrived := 0 })
          nkill := p.2.nkill + (p.2.members.filter (fun m => !m.ended)).length, waiting := false })
      else p) } }

/-- A piece of sampler work ends in error: a request with 0x4B in its record, other work with 0x4B or 0x4C in smpst (R335, R354,
R364). -/
def State.failOne (s : State) (cl : Nat) (w : Work) : State :=
  match w.op with
  | 0 => s.reqEnd cl w 0x4B (if w.started then w.used s.now else 0) (if w.started then w.charged else 0)
  | 2 => s.workDone cl w (some (0x4C, w.addr))
  | _ => s.workDone cl w (some (0x4B, w.addr))

/-- Device work of a function in flight ends in error: its sampler work, and the copies of function 0's supervisors, with cause
0x53; those of other harts end with the harts (R56, R364). -/
def State.drainFn (s : State) (f : Nat) : State :=
  let s1 := s.clus.foldl (fun t kc => (kc.2.works.filter (fun w => w.fn.toNat == f)).foldl (fun u w => u.failOne kc.1 w) t) s
  if f = 0 then s1.harts.foldl (fun t p => if p.2.sup then t.cutCopies p.1 (fun _ => true) 0x53 else t) s1
  else s1

/-- A function's bays, its slots, the programs it placed, and what the cores keep of its translations go (R364). -/
def State.scrubFn (s : State) (f : Nat) : State :=
  let own (b : Bay) : Bool := b.st != .free && b.fn.toNat == f
  let s1 := s.clus.foldl (fun t kc => (kc.2.baysWith own).foldl (fun u h => u.releaseBay kc.1 h) t) s
  let cl (c : Clus) : Clus :=
    let slots := (c.slotFn.filter (fun p => p.2.toNat == f)).map (fun p => p.1)
    { c with
      works := c.works.filter (fun w => w.fn.toNat != f)
      table := slots.foldl (fun m i => m.clear (512 * i) (512 * (i + 1))) c.table
      slotFn := c.slotFn.filter (fun p => p.2.toNat != f)
      progs := c.progs.filter (fun p => p.2.fn.toNat != f) }
  { s1 with
    clus := s1.clus.map (fun kc => (kc.1, cl kc.2))
    cores := s1.cores.map (fun kc => (kc.1, kc.2.dropTlb f none)) }

/-- Steps 2 to 5 of R364 but for the mailbox: device work drained, harts ended, scratch state scrubbed. -/
def State.clearFn (s : State) (f : Nat) : State := ((s.drainFn f).killFn f).scrubFn f

/-- The mailbox of a function at its reset values (R360, R364): the TDI error stays until the TDI is locked again, and `ready`
is 0 until the service cores set it, as after a reset (log 30). -/
def State.resetMailbox (s : State) (f : Nat) : State :=
  let x := s.fnAt f
  s.setFnAt f { Fn.boot s.img f with ready := false, waking := true, tdi := x.tdi, tdiErr := x.tdiErr }

/-- FUNCTION_LEVEL_RESET (R364): steps 1 to 4; made again in reset, step 5, with which the reset ends. -/
def execFunctionLevelReset (fn : BitVec 5) (s : State) : Out :=
  let f := fn.toNat
  if !s.hasFn f then .next s
  else if (s.fnAt f).inReset then .next (s.resetMailbox f)
  else .next ((s.setFnAt f { s.fnAt f with inReset := true }).clearFn f)

/-- TDI_LOCK (R365): the TDI is CONFIG_LOCKED, and its error is clear. A TDI is a virtual function. -/
def execTdiLock (fn : BitVec 5) (s : State) : Out :=
  if fn = 0 || !s.hasFn fn.toNat then .next s
  else .next (s.setFnAt fn.toNat { s.fnAt fn.toNat with tdi := some .locked, tdiErr := false })

/-- TDI_RUN (R365): CONFIG_LOCKED to RUN. -/
def execTdiRun (fn : BitVec 5) (s : State) : Out :=
  let x := s.fnAt fn.toNat
  if x.tdi = some .locked then .next (s.setFnAt fn.toNat { x with tdi := some .running }) else .next s

/-- TDI_LEAVE_RUN (R365): RUN to ERROR, or to CONFIG_UNLOCKED: its transfers end in error, its harts end, its scratch state is
scrubbed, and TDI error is set. It is no reset: a `ready` that an error in a service core has put to 0 stays 0 (R366). -/
def execTdiLeaveRun (l : TdiLeave) (s : State) : Out :=
  let f := l.fn.toNat
  if (s.fnAt f).tdi != some .running then .next s
  else
    let x := s.fnAt f
    let s1 := ((s.setFnAt f { x with tdi := some (if l.unlocked = 1 then .unlocked else .error) }).clearFn f).resetMailbox f
    .next (s1.setFnAt f { s1.fnAt f with tdiErr := true, inReset := x.inReset, waking := x.ready || x.waking })

/-- SPDM_KEY_EXCHANGE (R365): the keys of an IDE stream are set. -/
def execSpdmKeyExchange (st : BitVec 3) (s : State) : Out :=
  .next { s with dev := { s.dev with ide := s.dev.ide.set st.toNat true } }

/-- The transfers of a function go over an IDE stream (log 75). -/
def onStream (f st : Nat) : Bool := Config.ideOf f % 8 == st
/-- SPDM_SESSION_EXPIRY (R365): the keys retire at once, and the transfers in flight over their stream end in error: copies with
cause 0x54, the sampler's requests with 0x4B (log 75). -/
def execSpdmSessionExpiry (st : BitVec 3) (s : State) : Out :=
  let n := st.toNat
  let s0 : State := { s with dev := { s.dev with ide := s.dev.ide.set n false } }
  if !s.dev.ide[st.toNat] then .next s0
  else
    let s1 := s0.clus.foldl (fun t kc =>
      (kc.2.works.filter (fun w => w.started && onStream w.fn.toNat n && s.overPort w)).foldl (fun u w => u.failOne kc.1 w) t) s0
    .next (s1.harts.foldl (fun t p =>
      if onStream (if p.2.sup then 0 else p.2.fn.toNat) n then t.cutCopies p.1 (fun e => e.started && e.host) 0x54 else t) s1)

/-! ### Soft errors (R366) -/

/-- CORRECTABLE_ERROR (R366): corrected and counted. -/
def execCorrectableError (_loc : BitVec 3) (s : State) : Out :=
  .next { s with dev := { s.dev with corrected := s.dev.corrected + 1 } }

/-- The sampler work that an error in a cluster's sampler fails: the request under way, or else the first work. -/
def Clus.failing (c : Clus) : Option Work := (c.works.find? (fun w => w.started)).or c.works.head?
/-- That work ends in error (R354, R366). -/
def State.failWork (s : State) (cl : Nat) : State :=
  match (s.clusAt cl).failing with
  | some w => s.failOne cl w
  | none => s

/-- The function whose request met an error: that of the hart, the sampler work or the update it hit, else `fn` (R366). -/
def State.errorFn (s : State) (loc unit hid fn pa : Nat) : Nat :=
  if hid < 1280 then (s.whoOf hid).fn
  else match loc with
    | 2 => match (s.clusAt (unit % 20)).failing with | some w => w.fn.toNat | none => fn
    | 4 => match s.dev.updates.find? (fun u => u.pa == pa) with
      | some u => (match s.gangAt u.gang.toNat with | some x => x.fn.toNat | none => fn)
      | none => fn
    | _ => fn

/-- An error in the data of a core's SRAM, a Square or HBM, which no hart has met: it stands there until a request meets it. -/
def standsInData (loc : BitVec 3) (hid : BitVec 16) : Bool := hid == 0xFFFF && (loc == 0 || loc == 1 || loc == 3)

/-- UNCORRECTABLE_ERROR (R366, R186): an error that stands in data waits there for the request that meets it. Of any other
the record is written, and what met it fails with cause 0x52: a hart traps, the sampler's work ends, an applier's
update is lost; in a service core's memory `ready` goes to 0. -/
def execUncorrectableError (loc : BitVec 3) (unit hid : BitVec 16) (fn : BitVec 5) (pa dva : BitVec 64) (s : State) : Out :=
  if standsInData loc hid then
    .next { s with dev := { s.dev with latent := some ⟨loc.toNat, unit.toNat, pa.toNat⟩ } }
  else
    let s1 := s.errorRecord (s.errorFn loc.toNat unit.toNat hid.toNat fn.toNat pa.toNat) loc.toNat unit.toNat hid.toNat pa dva
    match loc.toNat with
    | 4 => .next (s1.loseUpdate pa.toNat)
    | 5 => .next (s1.setFnAt fn.toNat { s1.fnAt fn.toNat with ready := false, waking := false })
    | 2 => .next (s1.failWork (unit.toNat % 20))
    | _ =>
      if hid.toNat < 1280 && (s1.hartAt hid.toNat).run == .running then
        .next (s1.beginSuspend hid.toNat ⟨0x52, dva⟩ { ipc := (s1.hartAt hid.toNat).pc, imprecise := true } true)
      else .next s1

/-! ### Reset, thermal and management events (R367, R370) -/

/-- RESET (R367): time and every SRAM zero, the configuration image read again; memory keeps its bytes. -/
def execReset (s : State) : Out := .next { State.boot s.img s.mem with agenda := s.agenda, fresh := s.fresh }

/-- THERMAL_HOLD (R370): a die's clock is held. -/
def execThermalHold (die : BitVec 5) (s : State) : Out :=
  .next { s with dev := { s.dev with held := s.dev.held ||| (1#32 <<< die.toNat) } }
/-- THERMAL_RELEASE (R370): the clock of a die runs again. -/
def execThermalRelease (die : BitVec 5) (s : State) : Out :=
  .next { s with dev := { s.dev with held := s.dev.held &&& ~~~(1#32 <<< die.toNat) } }
/-- THERMAL_STOP (R370): every die stops until reset. -/
def execThermalStop (s : State) : Out := .next { s with dev := { s.dev with stopped := true } }
/-- ECEIL_LOWER (R370): the request waits for the next frame boundary. -/
def execEceilLower (v : BitVec 32) (s : State) : Out := .next { s with dev := { s.dev with eceilReq := some v.toNat } }
/-- PLDM_MONITOR_READ (R370): the management controller reads temperatures and rail power, which are free values (log 94), and the
energy charge of the last frame. -/
def execPldmMonitorRead (s : State) : Out :=
  .next { s with
    fresh := s.fresh + 1
    dev := { s.dev with pldm := some {
      temps := Vector.ofFn (fun i => Config.temperature s.fresh i.val)
      power := Config.railPower s.fresh
      energy := s.dev.energyLast / 1024 } } }

/-- The addresses of the copies of a leaf entry (R157). -/
def leafCopies (pte p : Nat) : List Nat :=
  let n := pteCopies p
  (List.range n).map (fun i => pte - pte % (8 * n) + 8 * i)

/-- PAGE_MIGRATE (R165, R166): a page moves between HBM and the host window in two events. In the first its leaf entries become
invalid, and accesses raise 0x11; in the second its bytes move, and the entries name the new frame. No write is lost:
what is under way to the page follows it, and the use class of the new frames is clear (log 59). A move that meets a soft error
fails (R366): the entries name the page where it was, valid again. -/
def execPageMigrate (src dst : BitVec 36) (pte : BitVec 52) (s : State) : Out :=
  let a := src.toNat * 65536
  let b := dst.toNat * 65536
  let p := s.mem.read pte.toNat 8
  let size := 2 ^ pteShift p
  let copies := leafCopies pte.toNat p
  let put (m : Mem) (x : Nat) : Mem := copies.foldl (fun n at_ => n.write at_ 8 x) m
  if pteBase p ≠ a || b % size ≠ 0 then .next s
  else if bit p 0 then
    .next { s with
      mem := put s.mem (p - 1)
      cores := s.cores.map (fun k => (k.1, { k.2 with tlb := k.2.tlb.filter (fun e => !copies.contains e.at_) })) }
  else
    if s.spoiled 3 0 a size then .next { s.errorMet 0 0xFFFF 0 with mem := put s.mem (p + 1) }
    else
    let moved (x : Nat) : Nat := if a ≤ x ∧ x < a + size then x - a + b else x
    .next { s with
      mem := put (s.mem.blit b size (s.mem.slice a size)) (p - a + b + 1)
      dev := { s.dev with
        use := s.dev.use.filter (fun x => decide (x.1 < b / 65536) || decide ((b + size) / 65536 ≤ x.1))
        updates := s.dev.updates.map (fun u => { u with pa := moved u.pa }) } }

end Sys2Proof.Machine
end

