-- ==== Sys2Proof/Machine/Dispatch.lean ====
section
/-! DEFINITION. The dispatch: one arm for every instruction and event, each one call of its meaning. -/

namespace Sys2Proof.Machine

/-- What an instruction or event does to the machine. -/
def exec (i : Instr) (s : State) : Host.Outcome State Fault Refusal :=
  match i with
  | .add d a b => Sys2Proof.Machine.execAdd d a b s
  | .sub d a b => Sys2Proof.Machine.execSub d a b s
  | .and d a b => Sys2Proof.Machine.execAnd d a b s
  | .or d a b => Sys2Proof.Machine.execOr d a b s
  | .xor d a b => Sys2Proof.Machine.execXor d a b s
  | .sll d a b => Sys2Proof.Machine.execSll d a b s
  | .srl d a b => Sys2Proof.Machine.execSrl d a b s
  | .sra d a b => Sys2Proof.Machine.execSra d a b s
  | .mul d a b => Sys2Proof.Machine.execMul d a b s
  | .mulh d a b => Sys2Proof.Machine.execMulh d a b s
  | .mulhu d a b => Sys2Proof.Machine.execMulhu d a b s
  | .div d a b => Sys2Proof.Machine.execDiv d a b s
  | .divu d a b => Sys2Proof.Machine.execDivu d a b s
  | .rem d a b => Sys2Proof.Machine.execRem d a b s
  | .remu d a b => Sys2Proof.Machine.execRemu d a b s
  | .slt d a b => Sys2Proof.Machine.execSlt d a b s
  | .sltu d a b => Sys2Proof.Machine.execSltu d a b s
  | .seq d a b => Sys2Proof.Machine.execSeq d a b s
  | .sne d a b => Sys2Proof.Machine.execSne d a b s
  | .min d a b => Sys2Proof.Machine.execMin d a b s
  | .max d a b => Sys2Proof.Machine.execMax d a b s
  | .minu d a b => Sys2Proof.Machine.execMinu d a b s
  | .maxu d a b => Sys2Proof.Machine.execMaxu d a b s
  | .slli d a sh => Sys2Proof.Machine.execSlli d a sh s
  | .srli d a sh => Sys2Proof.Machine.execSrli d a sh s
  | .srai d a sh => Sys2Proof.Machine.execSrai d a sh s
  | .andi d a imm => Sys2Proof.Machine.execAndi d a imm s
  | .ori d a imm => Sys2Proof.Machine.execOri d a imm s
  | .xori d a imm => Sys2Proof.Machine.execXori d a imm s
  | .slti d a imm => Sys2Proof.Machine.execSlti d a imm s
  | .sltiu d a imm => Sys2Proof.Machine.execSltiu d a imm s
  | .addi d a imm => Sys2Proof.Machine.execAddi d a imm s
  | .lui d imm => Sys2Proof.Machine.execLui d imm s
  | .aupc d imm => Sys2Proof.Machine.execAupc d imm s
  | .fadd d a b t rm => Sys2Proof.Machine.execFadd d a b t rm s
  | .fsub d a b t rm => Sys2Proof.Machine.execFsub d a b t rm s
  | .fmul d a b t rm => Sys2Proof.Machine.execFmul d a b t rm s
  | .fma d a b t rm => Sys2Proof.Machine.execFma d a b t rm s
  | .fmin d a b t => Sys2Proof.Machine.execFmin d a b t s
  | .fmax d a b t => Sys2Proof.Machine.execFmax d a b t s
  | .feq d a b t => Sys2Proof.Machine.execFeq d a b t s
  | .flt d a b t => Sys2Proof.Machine.execFlt d a b t s
  | .fle d a b t => Sys2Proof.Machine.execFle d a b t s
  | .fcvtFpFp d a t rm => Sys2Proof.Machine.execFcvtFpFp d a t rm s
  | .fcvtToI64 d a t rm => Sys2Proof.Machine.execFcvtToI64 d a t rm s
  | .fcvtToN64 d a t rm => Sys2Proof.Machine.execFcvtToN64 d a t rm s
  | .fcvtFromI64 d a t rm => Sys2Proof.Machine.execFcvtFromI64 d a t rm s
  | .fcvtFromN64 d a t rm => Sys2Proof.Machine.execFcvtFromN64 d a t rm s
  | .ld d a off ordsc sp ty => Sys2Proof.Machine.execLd d a off ordsc sp ty s
  | .st v a off ordsc sp ty => Sys2Proof.Machine.execSt v a off ordsc sp ty s
  | .beq a b off => Sys2Proof.Machine.execBeq a b off s
  | .bne a b off => Sys2Proof.Machine.execBne a b off s
  | .blt a b off => Sys2Proof.Machine.execBlt a b off s
  | .bge a b off => Sys2Proof.Machine.execBge a b off s
  | .bltu a b off => Sys2Proof.Machine.execBltu a b off s
  | .bgeu a b off => Sys2Proof.Machine.execBgeu a b off s
  | .j imm => Sys2Proof.Machine.execJ imm s
  | .call imm => Sys2Proof.Machine.execCall imm s
  | .jr a => Sys2Proof.Machine.execJr a s
  | .callr a => Sys2Proof.Machine.execCallr a s
  | .aadd o => Sys2Proof.Machine.execAadd o s
  | .aswap o => Sys2Proof.Machine.execAswap o s
  | .aand o => Sys2Proof.Machine.execAand o s
  | .aor o => Sys2Proof.Machine.execAor o s
  | .aminI o => Sys2Proof.Machine.execAminI o s
  | .amaxI o => Sys2Proof.Machine.execAmaxI o s
  | .aminN o => Sys2Proof.Machine.execAminN o s
  | .amaxN o => Sys2Proof.Machine.execAmaxN o s
  | .acas o => Sys2Proof.Machine.execAcas o s
  | .fenceSv sc => Sys2Proof.Machine.execFenceSv sc s
  | .fenceVs sc => Sys2Proof.Machine.execFenceVs sc s
  | .fenceVv sc => Sys2Proof.Machine.execFenceVv sc s
  | .fenceAll sc => Sys2Proof.Machine.execFenceAll sc s
  | .fenceBinsRel sc => Sys2Proof.Machine.execFenceBinsRel sc s
  | .tkpush id => Sys2Proof.Machine.execTkpush id s
  | .tkpop id => Sys2Proof.Machine.execTkpop id s
  | .wtime d a => Sys2Proof.Machine.execWtime d a s
  | .mfs d n => Sys2Proof.Machine.execMfs d n s
  | .mts a n => Sys2Proof.Machine.execMts a n s
  | .glaunch d a => Sys2Proof.Machine.execGlaunch d a s
  | .gbar g => Sys2Proof.Machine.execGbar g s
  | .hsusp a => Sys2Proof.Machine.execHsusp a s
  | .hsave b a => Sys2Proof.Machine.execHsave b a s
  | .hload b a => Sys2Proof.Machine.execHload b a s
  | .tret => Sys2Proof.Machine.execTret s
  | .hend => Sys2Proof.Machine.execHend s
  | .pfx mask copy pop push hint => Sys2Proof.Machine.execPfx mask copy pop push hint s
  | .qld q a sp imm => Sys2Proof.Machine.execQld q a sp imm s
  | .qbase q a => Sys2Proof.Machine.execQbase q a s
  | .qstride q a => Sys2Proof.Machine.execQstride q a s
  | .qbound q a => Sys2Proof.Machine.execQbound q a s
  | .qcur q a => Sys2Proof.Machine.execQcur q a s
  | .qcfg q a => Sys2Proof.Machine.execQcfg q a s
  | .qget d q sel => Sys2Proof.Machine.execQget d q sel s
  | .qrel q => Sys2Proof.Machine.execQrel q s
  | .qprobe d a => Sys2Proof.Machine.execQprobe d a s
  | .sbar qs sc qmask => Sys2Proof.Machine.execSbar qs sc qmask s
  | .qwatch a b q => Sys2Proof.Machine.execQwatch a b q s
  | .qunwatch q => Sys2Proof.Machine.execQunwatch q s
  | .qwait a d q => Sys2Proof.Machine.execQwait a d q s
  | .wmpub a b sc => Sys2Proof.Machine.execWmpub a b sc s
  | .vsetl d a c => Sys2Proof.Machine.execVsetl d a c s
  | .vsettype d cls sew lmode c => Sys2Proof.Machine.execVsettype d cls sew lmode c s
  | .vadd o => Sys2Proof.Machine.execVadd o s
  | .vsub o => Sys2Proof.Machine.execVsub o s
  | .vmul o => Sys2Proof.Machine.execVmul o s
  | .vmulhI o => Sys2Proof.Machine.execVmulhI o s
  | .vmulhN o => Sys2Proof.Machine.execVmulhN o s
  | .vdivI o => Sys2Proof.Machine.execVdivI o s
  | .vdivN o => Sys2Proof.Machine.execVdivN o s
  | .vremI o => Sys2Proof.Machine.execVremI o s
  | .vremN o => Sys2Proof.Machine.execVremN o s
  | .vminI o => Sys2Proof.Machine.execVminI o s
  | .vmaxI o => Sys2Proof.Machine.execVmaxI o s
  | .vminN o => Sys2Proof.Machine.execVminN o s
  | .vmaxN o => Sys2Proof.Machine.execVmaxN o s
  | .vand o => Sys2Proof.Machine.execVand o s
  | .vor o => Sys2Proof.Machine.execVor o s
  | .vxor o => Sys2Proof.Machine.execVxor o s
  | .vsll o => Sys2Proof.Machine.execVsll o s
  | .vsrl o => Sys2Proof.Machine.execVsrl o s
  | .vsra o => Sys2Proof.Machine.execVsra o s
  | .vaddSatI o => Sys2Proof.Machine.execVaddSatI o s
  | .vaddSatN o => Sys2Proof.Machine.execVaddSatN o s
  | .vsubSatI o => Sys2Proof.Machine.execVsubSatI o s
  | .vsubSatN o => Sys2Proof.Machine.execVsubSatN o s
  | .vmacc o => Sys2Proof.Machine.execVmacc o s
  | .vmeq o => Sys2Proof.Machine.execVmeq o s
  | .vmne o => Sys2Proof.Machine.execVmne o s
  | .vmltI o => Sys2Proof.Machine.execVmltI o s
  | .vmleI o => Sys2Proof.Machine.execVmleI o s
  | .vmltN o => Sys2Proof.Machine.execVmltN o s
  | .vmleN o => Sys2Proof.Machine.execVmleN o s
  | .vmov o => Sys2Proof.Machine.execVmov o s
  | .vbcast o => Sys2Proof.Machine.execVbcast o s
  | .vid d m c x => Sys2Proof.Machine.execVid d m c x s
  | .vaddFp o => Sys2Proof.Machine.execVaddFp o s
  | .vsubFp o => Sys2Proof.Machine.execVsubFp o s
  | .vmulFp o => Sys2Proof.Machine.execVmulFp o s
  | .vdivFp o => Sys2Proof.Machine.execVdivFp o s
  | .vfma o => Sys2Proof.Machine.execVfma o s
  | .vfms o => Sys2Proof.Machine.execVfms o s
  | .vfnma o => Sys2Proof.Machine.execVfnma o s
  | .vsqrt o => Sys2Proof.Machine.execVsqrt o s
  | .vminFp o => Sys2Proof.Machine.execVminFp o s
  | .vmaxFp o => Sys2Proof.Machine.execVmaxFp o s
  | .vabs o => Sys2Proof.Machine.execVabs o s
  | .vneg o => Sys2Proof.Machine.execVneg o s
  | .vmfeq o => Sys2Proof.Machine.execVmfeq o s
  | .vmfne o => Sys2Proof.Machine.execVmfne o s
  | .vmflt o => Sys2Proof.Machine.execVmflt o s
  | .vmfle o => Sys2Proof.Machine.execVmfle o s
  | .vcvtFpToIeee o => Sys2Proof.Machine.execVcvtFpToIeee o s
  | .vcvtFpToBf16 o => Sys2Proof.Machine.execVcvtFpToBf16 o s
  | .vcvtFpToE4m3 o => Sys2Proof.Machine.execVcvtFpToE4m3 o s
  | .vcvtFpToE5m2 o => Sys2Proof.Machine.execVcvtFpToE5m2 o s
  | .vcvtFpToI o => Sys2Proof.Machine.execVcvtFpToI o s
  | .vcvtFpToN o => Sys2Proof.Machine.execVcvtFpToN o s
  | .vcvtIToIeee o => Sys2Proof.Machine.execVcvtIToIeee o s
  | .vcvtIToBf16 o => Sys2Proof.Machine.execVcvtIToBf16 o s
  | .vcvtIToE4m3 o => Sys2Proof.Machine.execVcvtIToE4m3 o s
  | .vcvtIToE5m2 o => Sys2Proof.Machine.execVcvtIToE5m2 o s
  | .vcvtNToIeee o => Sys2Proof.Machine.execVcvtNToIeee o s
  | .vcvtNToBf16 o => Sys2Proof.Machine.execVcvtNToBf16 o s
  | .vcvtNToE4m3 o => Sys2Proof.Machine.execVcvtNToE4m3 o s
  | .vcvtNToE5m2 o => Sys2Proof.Machine.execVcvtNToE5m2 o s
  | .vcvtIntToI o => Sys2Proof.Machine.execVcvtIntToI o s
  | .vcvtIntToN o => Sys2Proof.Machine.execVcvtIntToN o s
  | .vwmulI o => Sys2Proof.Machine.execVwmulI o s
  | .vwmulN o => Sys2Proof.Machine.execVwmulN o s
  | .vwmaccI o => Sys2Proof.Machine.execVwmaccI o s
  | .vwmaccN o => Sys2Proof.Machine.execVwmaccN o s
  | .vwmulFp o => Sys2Proof.Machine.execVwmulFp o s
  | .vwmaccFp o => Sys2Proof.Machine.execVwmaccFp o s
  | .vdot4I8 d a b m c => Sys2Proof.Machine.execVdot4I8 d a b m c s
  | .vdot4N8 d a b m c => Sys2Proof.Machine.execVdot4N8 d a b m c s
  | .vsmul o => Sys2Proof.Machine.execVsmul o s
  | .vsmacc o => Sys2Proof.Machine.execVsmacc o s
  | .vredsum o => Sys2Proof.Machine.execVredsum o s
  | .vredosum o => Sys2Proof.Machine.execVredosum o s
  | .vredmax o => Sys2Proof.Machine.execVredmax o s
  | .vredmin o => Sys2Proof.Machine.execVredmin o s
  | .vredmaxN o => Sys2Proof.Machine.execVredmaxN o s
  | .vredminN o => Sys2Proof.Machine.execVredminN o s
  | .vredand o => Sys2Proof.Machine.execVredand o s
  | .vredor o => Sys2Proof.Machine.execVredor o s
  | .vredxor o => Sys2Proof.Machine.execVredxor o s
  | .vscan o => Sys2Proof.Machine.execVscan o s
  | .vscano o => Sys2Proof.Machine.execVscano o s
  | .vscanmax o => Sys2Proof.Machine.execVscanmax o s
  | .vscanmin o => Sys2Proof.Machine.execVscanmin o s
  | .vscanmaxN o => Sys2Proof.Machine.execVscanmaxN o s
  | .vscanminN o => Sys2Proof.Machine.execVscanminN o s
  | .vrgath o => Sys2Proof.Machine.execVrgath o s
  | .vslideup o => Sys2Proof.Machine.execVslideup o s
  | .vslidedn o => Sys2Proof.Machine.execVslidedn o s
  | .vslide1up o => Sys2Proof.Machine.execVslide1up o s
  | .vslide1dn o => Sys2Proof.Machine.execVslide1dn o s
  | .vcomp o => Sys2Proof.Machine.execVcomp o s
  | .vexpand o => Sys2Proof.Machine.execVexpand o s
  | .vmvS d a c x => Sys2Proof.Machine.execVmvS d a c x s
  | .vmvV d a c x => Sys2Proof.Machine.execVmvV d a c x s
  | .vmvX d a b c x => Sys2Proof.Machine.execVmvX d a b c x s
  | .vmand d a b c => Sys2Proof.Machine.execVmand d a b c s
  | .vmor d a b c => Sys2Proof.Machine.execVmor d a b c s
  | .vmxor d a b c => Sys2Proof.Machine.execVmxor d a b c s
  | .vmandn d a b c => Sys2Proof.Machine.execVmandn d a b c s
  | .vmnot d a c => Sys2Proof.Machine.execVmnot d a c s
  | .vpop d a m c => Sys2Proof.Machine.execVpop d a m c s
  | .vfirst d a m c => Sys2Proof.Machine.execVfirst d a m c s
  | .vmsbf d a m c => Sys2Proof.Machine.execVmsbf d a m c s
  | .vmsif d a m c => Sys2Proof.Machine.execVmsif d a m c s
  | .vmsof d a m c => Sys2Proof.Machine.execVmsof d a m c s
  | .vconf o => Sys2Proof.Machine.execVconf o s
  | .vconfm o => Sys2Proof.Machine.execVconfm o s
  | .vpart d a m c => Sys2Proof.Machine.execVpart d a m c s
  | .vrun d a m c => Sys2Proof.Machine.execVrun d a m c s
  | .vmset d c => Sys2Proof.Machine.execVmset d c s
  | .vmclr d c => Sys2Proof.Machine.execVmclr d c s
  | .vld d q m c => Sys2Proof.Machine.execVld d q m c s
  | .vldff d q m c => Sys2Proof.Machine.execVldff d q m c s
  | .vst v q m c => Sys2Proof.Machine.execVst v q m c s
  | .vldx d a q m c => Sys2Proof.Machine.execVldx d a q m c s
  | .vstx v a q m c => Sys2Proof.Machine.execVstx v a q m c s
  | .vstxu v a q m c => Sys2Proof.Machine.execVstxu v a q m c s
  | .vsadd v a q m c => Sys2Proof.Machine.execVsadd v a q m c s
  | .vwait d q c => Sys2Proof.Machine.execVwait d q c s
  | .vcbld q c => Sys2Proof.Machine.execVcbld q c s
  | .mmr d a fmt ix r t => Sys2Proof.Machine.execMmr d a fmt ix r t s
  | .mms d a fmt ix r t => Sys2Proof.Machine.execMms d a fmt ix r t s
  | .mmqSq d a b fmt ix r t => Sys2Proof.Machine.execMmqSq d a b fmt ix r t s
  | .mmqAb d a b fmt ix r t => Sys2Proof.Machine.execMmqAb d a b fmt ix r t s
  | .mmsp d a b fmt ix r t => Sys2Proof.Machine.execMmsp d a b fmt ix r t s
  | .mldWb a fmt r t => Sys2Proof.Machine.execMldWb a fmt r t s
  | .mldSq a fmt r t => Sys2Proof.Machine.execMldSq a fmt r t s
  | .mldsWb a r t => Sys2Proof.Machine.execMldsWb a r t s
  | .mldsSq a r t => Sys2Proof.Machine.execMldsSq a r t s
  | .mclr d b ix r => Sys2Proof.Machine.execMclr d b ix r s
  | .mrd d a ix r => Sys2Proof.Machine.execMrd d a ix r s
  | .mmov d a b ix r => Sys2Proof.Machine.execMmov d a b ix r s
  | .cpGo o => Sys2Proof.Machine.execCpGo o s
  | .cpXpd o => Sys2Proof.Machine.execCpXpd o s
  | .cpShape ck a b => Sys2Proof.Machine.execCpShape ck a b s
  | .cpCnt d => Sys2Proof.Machine.execCpCnt d s
  | .bayTakeFix d a w => Sys2Proof.Machine.execBayTakeFix d a w s
  | .bayTakeNeg d a b w => Sys2Proof.Machine.execBayTakeNeg d a b w s
  | .bayGive a => Sys2Proof.Machine.execBayGive a s
  | .bayRetFin => Sys2Proof.Machine.execBayRetFin s
  | .bayRetSum => Sys2Proof.Machine.execBayRetSum s
  | .bayRetRef => Sys2Proof.Machine.execBayRetRef s
  | .smpReq d a w fl => Sys2Proof.Machine.execSmpReq d a w fl s
  | .smpTld d a b w => Sys2Proof.Machine.execSmpTld d a b w s
  | .smpTst d a b w => Sys2Proof.Machine.execSmpTst d a b w s
  | .smpPld d a b w => Sys2Proof.Machine.execSmpPld d a b w s
  | .ladd d p a b => Sys2Proof.Machine.execLadd d p a b s
  | .lsub d p a b => Sys2Proof.Machine.execLsub d p a b s
  | .lmul d p a b => Sys2Proof.Machine.execLmul d p a b s
  | .lfma d p a b => Sys2Proof.Machine.execLfma d p a b s
  | .lmin d p a b => Sys2Proof.Machine.execLmin d p a b s
  | .lmax d p a b => Sys2Proof.Machine.execLmax d p a b s
  | .lmov d p a => Sys2Proof.Machine.execLmov d p a s
  | .lneg d p a => Sys2Proof.Machine.execLneg d p a s
  | .lconst d p imm => Sys2Proof.Machine.execLconst d p imm s
  | .lconstl d p imm => Sys2Proof.Machine.execLconstl d p imm s
  | .lcnt d p => Sys2Proof.Machine.execLcnt d p s
  | .lbias d p a => Sys2Proof.Machine.execLbias d p a s
  | .lcmplt p a b => Sys2Proof.Machine.execLcmplt p a b s
  | .lcmpeq p a b => Sys2Proof.Machine.execLcmpeq p a b s
  | .lmask p => Sys2Proof.Machine.execLmask p s
  | .lret p a => Sys2Proof.Machine.execLret p a s
  | .lcnti d p a => Sys2Proof.Machine.execLcnti d p a s
  | .lbiasi d p a => Sys2Proof.Machine.execLbiasi d p a s
  | .lcmple p a b => Sys2Proof.Machine.execLcmple p a b s
  | .xinvPageCore va ctx => Sys2Proof.Machine.execXinvPageCore va ctx s
  | .xinvContextCore ctx => Sys2Proof.Machine.execXinvContextCore ctx s
  | .xinvPageAll va ctx => Sys2Proof.Machine.execXinvPageAll va ctx s
  | .xinvContextAll ctx => Sys2Proof.Machine.execXinvContextAll ctx s
  | .rsvcfgWrite v => Sys2Proof.Machine.execRsvcfgWrite v s
  | .rsvbudWrite k v => Sys2Proof.Machine.execRsvbudWrite k v s
  | .trapRingRegWrite k v => Sys2Proof.Machine.execTrapRingRegWrite k v s
  | .fflagsWrite v => Sys2Proof.Machine.execFflagsWrite v s
  | .frameBoundary => Sys2Proof.Machine.execFrameBoundary s
  | .energyCeilingReached => Sys2Proof.Machine.execEnergyCeilingReached s
  | .deadlineReached hid src => Sys2Proof.Machine.execDeadlineReached hid src s
  | .memLatencyMiss hid => Sys2Proof.Machine.execMemLatencyMiss hid s
  | .tokenDeadlock hid => Sys2Proof.Machine.execTokenDeadlock hid s
  | .waitedAdmission hid => Sys2Proof.Machine.execWaitedAdmission hid s
  | .admissionWaitTimeout hid => Sys2Proof.Machine.execAdmissionWaitTimeout hid s
  | .vectorStart hid => Sys2Proof.Machine.execVectorStart hid s
  | .matrixStart hid => Sys2Proof.Machine.execMatrixStart hid s
  | .instructionRetire hid eng => Sys2Proof.Machine.execInstructionRetire hid eng s
  | .copyChunk hid => Sys2Proof.Machine.execCopyChunk hid s
  | .copyComplete hid => Sys2Proof.Machine.execCopyComplete hid s
  | .lookaheadTranslate hid q => Sys2Proof.Machine.execLookaheadTranslate hid q s
  | .watchReread hid => Sys2Proof.Machine.execWatchReread hid s
  | .qwaitWake hid => Sys2Proof.Machine.execQwaitWake hid s
  | .vwaitReread hid => Sys2Proof.Machine.execVwaitReread hid s
  | .vwaitTimeout hid => Sys2Proof.Machine.execVwaitTimeout hid s
  | .wtimeWake hid => Sys2Proof.Machine.execWtimeWake hid s
  | .startWatermarkPoll gang => Sys2Proof.Machine.execStartWatermarkPoll gang s
  | .gbarDepart gang g unit => Sys2Proof.Machine.execGbarDepart gang g unit s
  | .suspensionComplete hid => Sys2Proof.Machine.execSuspensionComplete hid s
  | .hartEnd hid => Sys2Proof.Machine.execHartEnd hid s
  | .gangComplete gang => Sys2Proof.Machine.execGangComplete gang s
  | .updateApply => Sys2Proof.Machine.execUpdateApply s
  | .bayGrant cl h => Sys2Proof.Machine.execBayGrant cl h s
  | .recallDelivery cl h => Sys2Proof.Machine.execRecallDelivery cl h s
  | .surrenderUnitOverrun hid => Sys2Proof.Machine.execSurrenderUnitOverrun hid s
  | .surrenderTimeOverrun hid => Sys2Proof.Machine.execSurrenderTimeOverrun hid s
  | .samplerStart cl seq => Sys2Proof.Machine.execSamplerStart cl seq s
  | .samplerWmReread cl seq => Sys2Proof.Machine.execSamplerWmReread cl seq s
  | .samplerStrip cl seq => Sys2Proof.Machine.execSamplerStrip cl seq s
  | .samplerCycleOverrun cl seq => Sys2Proof.Machine.execSamplerCycleOverrun cl seq s
  | .samplerDraw cl seq => Sys2Proof.Machine.execSamplerDraw cl seq s
  | .tableLoadPerform cl seq => Sys2Proof.Machine.execTableLoadPerform cl seq s
  | .tableStorePerform cl seq => Sys2Proof.Machine.execTableStorePerform cl seq s
  | .programLoadPerform cl seq => Sys2Proof.Machine.execProgramLoadPerform cl seq s
  | .hostWrite fn addr n data => Sys2Proof.Machine.execHostWrite fn addr n data s
  | .hostRead fn addr n => Sys2Proof.Machine.execHostRead fn addr n s
  | .hostAtomicop fn op w addr x y => Sys2Proof.Machine.execHostAtomicop fn op w addr x y s
  | .hostCas16 fn addr => Sys2Proof.Machine.execHostCas16 fn addr s
  | .cxlMemWrite pa n data => Sys2Proof.Machine.execCxlMemWrite pa n data s
  | .bar2Access fn wr off n data => Sys2Proof.Machine.execBar2Access fn wr off n data s
  | .mailboxWrite fn off v => Sys2Proof.Machine.execMailboxWrite fn off v s
  | .cqtailDoorbell fn v => Sys2Proof.Machine.execCqtailDoorbell fn v s
  | .launch fn => Sys2Proof.Machine.execLaunch fn s
  | .openConnection fn => Sys2Proof.Machine.execOpenConnection fn s
  | .closeConnection fn => Sys2Proof.Machine.execCloseConnection fn s
  | .readErrorRecord fn => Sys2Proof.Machine.execReadErrorRecord fn s
  | .unknownCommand fn => Sys2Proof.Machine.execUnknownCommand fn s
  | .ringTransfer fn conn rx n data => Sys2Proof.Machine.execRingTransfer fn conn rx n data s
  | .functionLevelReset fn => Sys2Proof.Machine.execFunctionLevelReset fn s
  | .tdiRun fn => Sys2Proof.Machine.execTdiRun fn s
  | .tdiLeaveRun fn => Sys2Proof.Machine.execTdiLeaveRun fn s
  | .spdmKeyExchange st => Sys2Proof.Machine.execSpdmKeyExchange st s
  | .spdmSessionExpiry st => Sys2Proof.Machine.execSpdmSessionExpiry st s
  | .correctableError loc => Sys2Proof.Machine.execCorrectableError loc s
  | .uncorrectableError loc unit hid fn pa dva => Sys2Proof.Machine.execUncorrectableError loc unit hid fn pa dva s
  | .reset => Sys2Proof.Machine.execReset s
  | .thermalHold die => Sys2Proof.Machine.execThermalHold die s
  | .thermalRelease die => Sys2Proof.Machine.execThermalRelease die s
  | .thermalStop => Sys2Proof.Machine.execThermalStop s
  | .eceilLower v => Sys2Proof.Machine.execEceilLower v s
  | .pldmMonitorRead => Sys2Proof.Machine.execPldmMonitorRead s
  | .pageMigrate src dst pte => Sys2Proof.Machine.execPageMigrate src dst pte s
  | .wordNotAnInstruction w => Sys2Proof.Machine.execWordNotAnInstruction w s
  | .fetchFault cause => Sys2Proof.Machine.execFetchFault cause s
  | .tdiLock fn => Sys2Proof.Machine.execTdiLock fn s
  | .cxlCacheHostAtomic op w pa x y => Sys2Proof.Machine.execCxlCacheHostAtomic op w pa x y s

end Sys2Proof.Machine
end

