-- ==== Sys2Proof/Machine/Schedule.lean ====
section
/-! DEFINITION. What acts next (R33, R34, R120 to R122): the events that are due, the hart a core chooses, the
instruction it fetches, and the accounting of its choice. Events take no time; each core chooses once per cycle, in
core order, and `time` passes when no core has a choice left (log 1). -/

namespace Sys2Proof.Machine

/-! ### The word at a pc (R57, R101) -/

/-- The word at the acting hart's pc and the instruction it stands for: a fetch fault or a word that is no instruction
are events of their own (R57, R158). A fetch that meets a soft error faults with cause 0x52 (R366). -/
noncomputable def State.fetch (s : State) : State × Instr :=
  match s.dv s.who s.hart.pc.toNat .exec 2 with
  | .error (.trap t) => ({ s with ir := 0 }, .fetchFault t.cause)
  | .error (.wait _) => ({ s with ir := 0 }, .fetchFault 0x11) -- not met: `State.attempt` waits instead
  | .ok (s1, pa) =>
    if s1.spoiled 3 0 pa 4 then ({ s with ir := 0 }, .fetchFault 0x52)
    else
      let w := BitVec.ofNat 32 (s1.mem.read pa 4)
      ({ s1 with ir := w }, match decode w with | .ok i => i | .error _ => .wordNotAnInstruction w)

/-- What a fetch waits for: the acting hart's pc lies in the host window, and the DMA of its function is shut (R365). -/
def State.fetchWait (s : State) : Option Wait :=
  match s.dv s.who s.hart.pc.toNat .exec 2 with | .error (.wait w) => some w | _ => none

/-- The scalar registers a sequencer word reads or writes (R34). -/
def seqUses (w : BitVec 32) : List (BitVec 5) :=
  let d : BitVec 5 := fld w 21 5
  let a : BitVec 5 := fld w 16 5
  let b : BitVec 5 := fld w 11 5
  match code w 26 6 with
  | 0x01 => if code w 6 5 < 24 then [d, a, b] else [d, a]
  | 0x03 => [d]
  | 0x04 => if code w 5 6 < 9 then [d, a, b] else [d, a]
  | 0x02 | 0x05 | 0x06 | 0x07 => [d, a]
  | 0x08 => match d.toNat with | 0 => [] | 1 => [1] | 2 => if code w 15 1 = 1 then [a, 1] else [a] | _ => [d]
  | 0x09 => [d, a, b]
  | 0x0A => if code w 6 5 = 7 then [d, a] else []
  | 0x0B => match code w 12 4 with | 0 => [d] | 1 | 4 => [a] | 2 | 5 | 6 => [d, a] | _ => []
  | 0x11 => match code w 6 5 with | 6 => [d] | 7 => [] | 8 => [d, a] | _ => [a]
  | 0x12 => match d.toNat with | 1 | 3 | 4 => [a, b] | _ => []
  | 0x26 => match code w 7 4 with | 0 => [d, a, b] | 1 => [a] | _ => []
  | 0x27 => [d, a, b]
  | _ => []

/-- The scalar registers that a word of another engine reads or writes (R34). -/
def engUses (w : BitVec 32) : List (BitVec 5) :=
  let d : BitVec 5 := fld w 21 5
  let a : BitVec 5 := fld w 16 5
  let b : BitVec 5 := fld w 11 5
  let fn := code w 4 7
  match code w 26 6 with
  | 0x14 => if fn = 0 then [d, a] else [d]
  | 0x15 => if code w 10 1 = 1 then (if code w 4 6 = 1 then [a] else []) else if code w 9 1 = 1 then [b] else []
  | 0x16 => if code w 9 1 = 1 then [b] else []
  | 0x18 => if fn < 9 then [d, b] else []
  | 0x19 => match fn with | 1 | 2 | 3 | 4 => [b] | 7 => [d] | 8 => [a] | 9 => [d, b] | _ => []
  | 0x1A => match fn with | 5 | 6 | 13 => [d] | _ => []
  | 0x1B => if fn = 7 then [d] else []
  | 0x20 => (if code w 3 1 = 0 then [d] else []) ++ (match code w 7 4 with | 2 | 3 => [a, b] | _ => [])
  | 0x21 => [a]
  | 0x22 => (if code w 3 1 = 0 then [d] else []) ++ (match code w 7 4 with | 0 => [b] | 2 => [a, b] | _ => [])
  | 0x24 => if code w 0 3 = 7 ∧ code w 5 2 = 3 ∧ code w 7 4 = 0 then [a, b] else [d, a, b]
  | 0x25 => [d, a, b]
  | _ => []

/-- The registers a word needs that engine instructions of the hart have yet to write (R33, R34). -/
def Hart.blocked (h : Hart) (w : BitVec 32) : List (BitVec 5) :=
  (seqUses w ++ engUses w).filter (fun r => r != 0 && h.pendingRegs.contains r)

/-- A word that may be dispatched behind an access in stream S which can still trap (R99): all but submissions to the bays and the
sampler, launches, barriers, ends, suspensions, qwait, and writes of status registers that no engine's order holds, whose effects
the hart could not go back over (log 26). -/
def runsAhead (w : BitVec 32) : Bool :=
  match code w 26 6 with
  | 0x26 | 0x27 => false
  | 0x0B => code w 12 4 == 0 || (code w 12 4 == 1 && statusEng (code w 0 12) != .s)
  | 0x12 => code w 21 5 != 3
  | _ => true

/-! ### Ready harts and their choice (R120, R121) -/

/-- What a hart waits for before it can be dispatched is there (R33). A wait that an event ends is never over here. -/
def State.waitOver (s : State) (hid : Nat) : Wait → Bool
  | .pop id => (s.hartAt hid).tokens id != 0
  | .push id => !(s.hartAt hid).fullTok id
  | .pops id n => decide (n ≤ (s.hartAt hid).tokens id)
  | .pushes id n => decide ((s.hartAt hid).slotsTaken id + n ≤ Config.qdtok)
  | .room e => (s.hartAt hid).hasRoom e
  | .changes q => decide ((s.hartAt hid).changes q < 4)
  | .reg rs => !rs.any (fun r => (s.hartAt hid).pendingRegs.contains r)
  | .flags => !(s.hartAt hid).flagsBusy
  | .drain all => if all then !s.engineBusy hid else !(s.hartAt hid).vecMemPending
  | .bins => !((s.hartAt hid).vq.any (fun e => match e.instr with | .vsadd .. => !e.done | _ => false)) &&
      !s.dev.updates.any (fun u => u.hid == hid)
  | .hsusp t => (s.hartAt t).run != .suspending && !(s.hartAt t).preempt
  | .publish => (s.hartAt hid).ss.isEmpty
  | .xinv v => !s.xinvBusy (hid / 8) v
  | .accesses => !s.accessBusy hid
  | .routine => !(((s.hartAt hid).vq ++ (s.hartAt hid).mq ++ (s.hartAt hid).cq).any (fun e => e.surr) || (s.hartAt hid).ss.any (fun x => x.surr))
  | .bay cl h => ((s.clusAt cl).bay h).st != .pending
  | .settled => !(s.hartAt hid).unsettled
  | .port => !s.hostShut (s.whoOf hid).fn
  | .admission _ | .wtime .. | .gbar _ | .qwait .. | .vwait | .watch | .hend => false

/-- A hart is ready as far as its recorded wait tells, but for the throttle (R120, R288): one found to wait in this cycle is
not. -/
def State.readyAt (s : State) (hid : Nat) : Bool :=
  let h := s.hartAt hid
  h.run == .running &&
    !h.vq.any (fun e => !e.done && (match e.instr with | .vwait .. => true | _ => false)) &&
    (match h.wait with | none => true | some w => h.tested != s.time && s.waitOver hid w.kind)

/-- A prefix has just been dispatched, and its successor goes with it (R122). -/
def State.pairOpen (s : State) : Bool := s.hart.pfx.isSome && !s.hart.pfxOld && s.hart.wait.isNone && s.readyAt s.cur
/-- A hart has been found to wait in this cycle, its next instruction not dispatched (R33). -/
def State.heldBack (s : State) (hid : Nat) : Bool :=
  let h := s.hartAt hid
  h.run == .running && (match h.wait with | some w => w.kind.holds && h.tested == s.time | none => false)

/-- A throttled hart has had its turn in the 16 ready cycles that run, the first of which it can take it in (R48, R121), in a
surrender routine too, of which the spec says nothing (DESIGN CHOICE, log 85). -/
def Hart.throttledOut (h : Hart) : Bool := h.throttle && !h.sup && decide (16 ≤ h.throttleCnt)
/-- A throttled hart after a cycle in which it was ready, and chosen or not: `throttleCnt` counts the cycles of its 16, and
stands 16 higher once it has been chosen in them (R48). -/
def Hart.throttled (h : Hart) (chosen : Bool) : Hart :=
  let n := if chosen && decide (h.throttleCnt < 16) then h.throttleCnt + 16 else h.throttleCnt
  { h with throttleCnt := if !h.throttle || h.sup || n % 16 = 15 then 0 else n + 1 }

/-- The class a hart competes at (R120). -/
def State.issueCls (s : State) (hid : Nat) : Nat :=
  let h := s.hartAt hid
  let c := s.workCls h
  if h.surr.isSome || c = 0 then c.toNat
  else if s.remaining h.workResv 0 (hid / 8) = 0 then 0 else c.toNat

/-- The first hart of a list with the largest key. -/
def bestBy (key : Nat → Nat) : List Nat → Option Nat
  | [] => none
  | x :: t => match bestBy key t with
    | none => some x
    | some y => if key x < key y then some y else some x

/-- The hart a core chooses (R120, R121): a throttled hart with its turn to take, an aged hart, one with the soon hint within
the highest class, then round-robin within that class. -/
def State.pick (s : State) (k : Nat) : Option Nat :=
  let l := (coreHarts k).filter (fun x => s.readyAt x && !(s.hartAt x).throttledOut)
  match l.find? (fun x => (s.hartAt x).throttle && !(s.hartAt x).sup) with
  | some x => some x
  | none =>
    match bestBy (fun x => (s.hartAt x).age) (l.filter (fun x => decide (8 ≤ (s.hartAt x).age))) with
    | some x => some x
    | none =>
      let top := l.foldl (fun m x => max m (s.issueCls x)) 0
      let ring := ((List.range 8).map (fun i => 8 * k + ((s.coreAt k).last + 1 + i) % 8)).filter
        (fun x => l.contains x && s.issueCls x == top)
      match ring.find? (fun x => (s.hartAt x).soon) with
      | some x => some x
      | none => ring.head?

/-- The next core in this cycle with a ready hart, on a die whose clock runs (R22, R370). -/
def State.nextCore (s : State) : Option Nat :=
  ((List.range Config.cores).drop s.turn).find? (fun k =>
    s.dieRuns (k / 40) && (coreHarts k).any (fun x => s.readyAt x))

/-- Harts of cores lo to hi − 1, where none is ready, have no age. -/
def State.unready (s : State) (lo hi : Nat) : State :=
  { s with harts := s.harts.map (fun p =>
    if lo ≤ p.1 / 8 ∧ p.1 / 8 < hi then (p.1, { p.2 with age := 0 }) else p) }

/-- The harts of core k that were ready in `s` and not chosen are a cycle older, and a throttled one is a ready cycle
further in its 16; the others have no age (R120, R121). `goes` says whether a hart's next instruction can be
dispatched (R33). -/
def State.ageCore (s t : State) (k : Nat) (chosen : Option Nat) (goes : Nat → Bool) : State :=
  (coreHarts k).foldl (fun u x =>
    let h := u.hartAt x
    if chosen = some x then u
    else if s.readyAt x && goes x then
      u.setHartAt x (if h.throttle && !h.sup then h.throttled false else { h with age := h.age + 1 })
    else if h.age = 0 then u else u.setHartAt x { h with age := 0 }) t

/-- The choice of hart `hid` accounted for: `s` before its instruction, `t` after it. A prefix alone, and a hart that
turned out to wait, make no choice; else an issue unit is charged, ages go on, and the next core has its turn (R120). -/
def State.issued (s t : State) (hid : Nat) (goes : Nat → Bool) : State :=
  let k := hid / 8
  let h0 := s.hartAt hid
  let h := t.hartAt hid
  if t.heldBack hid then { t.setHartAt hid { h with age := 0 } with turn := k }
  else if h.run == .running && h.pfx.isSome && !h.pfxOld && h.wait.isNone then { t with turn := k }
  else
    let soon := match h0.pfx with | some (w, _) => bit (pfxHint w) 2 | none => false
    let t1 := t.setHartAt hid { h.throttled true with age := 0, soon := soon }
    let t2 := s.ageCore t1 k (some hid) goes
    let t3 := t2.setCoreAt k { t2.coreAt k with last := hid % 8 }
    let r := h0.workResv
    let t4 := if s.workCls h0 != 0 && decide (0 < s.remaining r 0 k) then t3.charge r 0 k 1 else t3
    { t4 with turn := k + 1 }

/-- A cycle passes: a token wait that is not hopeless in it starts its count again (R37). After 2^64 − 1 cycles `time` is 0 again,
of which the spec says nothing (DESIGN CHOICE, log 79). -/
def State.tick (s : State) : State :=
  let u := s.unready s.turn Config.cores
  { u with
    time := s.time + 1, turn := 0
    harts := u.harts.map (fun p =>
      match p.2.wait with
      | some w => match w.kind with
        | .pop _ | .push _ | .pops .. | .pushes .. => if p.2.hopeless w.kind then p else (p.1, { p.2 with wait := some { w with since := s.time + 1 } })
        | _ => p
      | none => p) }

/-! ### Events that are due -/

/-- An event that is due, by what it is about. -/
inductive Due where
  | frame | ceiling | update
  | late (n src : Nat)
  | deadlock (hid : Nat) | admission (hid : Nat) | admissionOver (hid : Nat) | wtime (hid : Nat) | qwait (hid : Nat)
  | vector (hid : Nat) | watch (hid : Nat) | vwait (hid : Nat) | vwaitOver (hid : Nat) | matrix (hid : Nat)
  | retire (hid eng : Nat) | chunk (hid : Nat) | copied (hid : Nat)
  | suspended (hid : Nat) | ended (hid : Nat) | unitOverrun (hid : Nat) | timeOverrun (hid : Nat)
  | startMark (g : Nat) | depart (g sc unit : Nat) | gangOver (g : Nat)
  | grant (cl h : Nat) | recall (cl h : Nat)
  | smpStart (cl seq : Nat) | smpReread (cl seq : Nat) | smpStrip (cl seq : Nat) | smpOverrun (cl seq : Nat)
  | smpDraw (cl seq : Nat) | tableLoad (cl seq : Nat) | tableStore (cl seq : Nat) | programLoad (cl seq : Nat)
  | command (fn code : Nat) | resetDone (fn : Nat)
  deriving DecidableEq, Repr

/-- The row of the table that stands for a due event. -/
noncomputable def Due.instr : Due → Instr
  | .frame => .frameBoundary
  | .ceiling => .energyCeilingReached
  | .update => .updateApply
  | .late n src => .deadlineReached (BitVec.ofNat 11 n) (BitVec.ofNat 3 src)
  | .deadlock h => .tokenDeadlock (BitVec.ofNat 11 h)
  | .admission h => .waitedAdmission (BitVec.ofNat 11 h)
  | .admissionOver h => .admissionWaitTimeout (BitVec.ofNat 11 h)
  | .wtime h => .wtimeWake (BitVec.ofNat 11 h)
  | .qwait h => .qwaitWake (BitVec.ofNat 11 h)
  | .vector h => .vectorStart (BitVec.ofNat 11 h)
  | .watch h => .watchReread (BitVec.ofNat 11 h)
  | .vwait h => .vwaitReread (BitVec.ofNat 11 h)
  | .vwaitOver h => .vwaitTimeout (BitVec.ofNat 11 h)
  | .matrix h => .matrixStart (BitVec.ofNat 11 h)
  | .retire h e => .instructionRetire (BitVec.ofNat 11 h) (BitVec.ofNat 3 e)
  | .chunk h => .copyChunk (BitVec.ofNat 11 h)
  | .copied h => .copyComplete (BitVec.ofNat 11 h)
  | .suspended h => .suspensionComplete (BitVec.ofNat 11 h)
  | .ended h => .hartEnd (BitVec.ofNat 11 h)
  | .unitOverrun h => .surrenderUnitOverrun (BitVec.ofNat 11 h)
  | .timeOverrun h => .surrenderTimeOverrun (BitVec.ofNat 11 h)
  | .startMark g => .startWatermarkPoll (BitVec.ofNat 16 g)
  | .depart g sc u => .gbarDepart (BitVec.ofNat 16 g) (BitVec.ofNat 2 sc) (BitVec.ofNat 8 u)
  | .gangOver g => .gangComplete (BitVec.ofNat 16 g)
  | .grant c h => .bayGrant (BitVec.ofNat 5 c) (BitVec.ofNat 8 h)
  | .recall c h => .recallDelivery (BitVec.ofNat 5 c) (BitVec.ofNat 8 h)
  | .smpStart c q => .samplerStart (BitVec.ofNat 5 c) (BitVec.ofNat 64 q)
  | .smpReread c q => .samplerWmReread (BitVec.ofNat 5 c) (BitVec.ofNat 64 q)
  | .smpStrip c q => .samplerStrip (BitVec.ofNat 5 c) (BitVec.ofNat 64 q)
  | .smpOverrun c q => .samplerCycleOverrun (BitVec.ofNat 5 c) (BitVec.ofNat 64 q)
  | .smpDraw c q => .samplerDraw (BitVec.ofNat 5 c) (BitVec.ofNat 64 q)
  | .tableLoad c q => .tableLoadPerform (BitVec.ofNat 5 c) (BitVec.ofNat 64 q)
  | .tableStore c q => .tableStorePerform (BitVec.ofNat 5 c) (BitVec.ofNat 64 q)
  | .programLoad c q => .programLoadPerform (BitVec.ofNat 5 c) (BitVec.ofNat 64 q)
  | .command f 1 => .launch (BitVec.ofNat 5 f)
  | .command f 2 => .openConnection (BitVec.ofNat 5 f)
  | .command f 3 => .closeConnection (BitVec.ofNat 5 f)
  | .command f 4 => .readErrorRecord (BitVec.ofNat 5 f)
  | .command f _ => .unknownCommand (BitVec.ofNat 5 f)
  | .resetDone f => .functionLevelReset (BitVec.ofNat 5 f)

/-- A waiting `.w` form would be answered now (R52). -/
def State.answered (s : State) (hid : Nat) (w : Waiting) (x : Submit) : Bool :=
  ((s.asHart hid (fun t => t.submit x)).hartAt hid).wait != some w
/-- A submission is one of a bay, whose waiting requests are tried again in the order of their arrival (R321). -/
def Submit.isTake : Submit → Bool
  | .take .. => true
  | _ => false

/-- What is due of a running hart's dispatch wait. -/
def State.waitDue (s : State) (hid : Nat) (w : Waiting) : Option Due :=
  let old := decide (4096 ≤ (s.time - w.since).toNat)
  match w.kind with
  | .pop _ | .push _ | .pops .. | .pushes .. => if old && (s.hartAt hid).hopeless w.kind then some (.deadlock hid) else none
  | .admission x =>
    if s.answered hid w x then (if x.isTake then none else some (.admission hid))
    else if old then some (.admissionOver hid) else none
  | .wtime t _ => if t ≤ s.time then some (.wtime hid) else none
  | .qwait q t _ => match s.watchValue hid ((s.hartAt hid).latestWatch q) with
    | .ok (_, v) => if t ≤ v then some (.qwait hid) else none
    | .error (.trap _) => some (.qwait hid)
    | .error _ => none
  | .hend => if s.hendReady hid then some (.ended hid) else none
  | _ => none

/-- The bay request that waits, can be answered now and arrived first: by time, then core and slot (R321). -/
def State.takeDue (s : State) : Option Due :=
  (s.harts.foldl (fun (b : Option (Nat × Nat)) p =>
    match p.2.run, p.2.wait with
    | .running, some w => match w.kind with
      | .admission x =>
        if x.isTake && s.dieRuns (p.1 / 320) && s.answered p.1 w x &&
            (match b with | some y => decide (w.since.toNat < y.1) | none => true) then some (w.since.toNat, p.1) else b
      | _ => b
    | _, _ => b) none).map (fun y => .admission y.2)

/-- What is due at the head of a hart's vector queue. -/
def State.vecDue (s : State) (hid : Nat) : Option Due :=
  let h := s.hartAt hid
  match h.vq with
  | [] => none
  | en :: _ =>
    if en.done then (if en.over s.now then some (.retire hid 1) else none)
    else if en.isMove then (if h.behind en then none else some (.retire hid 1))
    else if s.scoreHeld hid then some (.vector hid)
    else if !s.vecReady hid then none
    else if h.vwaits && s.vwaitOver hid then some (.vwaitOver hid)
    else if en.started && decide (s.now < en.tried) then none
    else if !h.vecStalled then some (.vector hid)
    else if h.vwaits then some (.vwait hid)
    else match streamOf en.instr with
      | some q => if h.q[q.toNat].armed then some (.watch hid) else some (.vector hid)
      | none => some (.vector hid)

/-- What is due at the head of a hart's matrix queue. -/
def State.matDue (s : State) (hid : Nat) : Option Due :=
  match (s.hartAt hid).mq with
  | [] => none
  | en :: _ =>
    if en.done then (if en.over s.now then some (.retire hid 2) else none)
    else if en.isMove then (if (s.hartAt hid).behind en then none else some (.retire hid 2))
    else if s.matReady hid && decide (en.tried ≤ s.now) then some (.matrix hid) else none

/-- What is due at the head of a hart's copy queue: a chunk, or a completion once the engine is through with it (R43). -/
def State.copyDue (s : State) (hid : Nat) : Option Due :=
  match (s.hartAt hid).cq with
  | [] => none
  | en :: _ =>
    match copyRunOf en.instr with
    | none => if s.shapeHeld hid || (s.hartAt hid).behind en then none else some (.retire hid 3)
    | some c =>
      if en.shape.count0 != 0 && decide (en.shape.total ≤ en.prog) then
        (if en.tried ≤ s.now then some (.copied hid) else none)
      else if !s.copyHeld hid c && decide (en.tried ≤ s.now) then some (.chunk hid) else none

/-- What is due of the accesses that wait in stream S: the first that can be performed. -/
def State.accDue (s : State) (hid : Nat) : Option Due :=
  match s.sHead hid with | some x => if s.sReady hid x then some (.retire hid 0) else none | none => none

/-- Whose work an event is, of those that share a core's ports (R31): the vector, matrix or copy engine, or stream S. -/
def Due.engine : Due → Option (Fin 4)
  | .vector _ | .watch _ | .vwait _ | .vwaitOver _ => some 0
  | .matrix _ => some 1
  | .chunk _ => some 2
  | .retire _ 0 => some 3
  | _ => none
/-- What is due of a hart at an engine. -/
def State.queueDue (s : State) (hid : Nat) (e : Fin 4) : Option Due :=
  match e.val with | 0 => s.vecDue hid | 1 => s.matDue hid | 2 => s.copyDue hid | _ => s.accDue hid

/-- What is due of a hart, but for work of the engines. Work whose deadline is this cycle is late, though it could be done in it too:
R56 leaves open which of the two comes first (DESIGN CHOICE, log 86). -/
def State.hartDue (s : State) (hid : Nat) (h : Hart) : Option Due :=
  if h.cq.any (fun e => e.isLate s.now) then some (.late hid 0)
  else if !s.dieRuns (hid / 320) then none
  else if h.run == .suspending then (if h.atWork s.now then none else some (.suspended hid))
  else if h.run != .running then none
  else if h.bay.isOpen && h.bay.counting && decide (2 ^ h.bay.lb.toNat < h.bay.ucnt) then some (.unitOverrun hid)
  else if h.bay.isOpen && h.bay.counting && decide (h.bay.rcend ≤ s.time) then some (.timeOverrun hid)
  else
    let own := ([0, 1, 2] : List (Fin 4)).findSome? (fun e => (s.queueDue hid e).filter (fun d => d.engine.isNone))
    own.or (match h.wait with | some w => s.waitDue hid w | none => none)

/-- The class of the work at the head of a hart's queue for an engine, or of its first access in stream S: that of a copy to or from
the host window is B (R192). -/
def State.headCls (s : State) (hid : Nat) (e : Fin 4) : Nat :=
  let h := s.hartAt hid
  let cls (surr : Bool) : Nat :=
    if surr then (match h.surr with | some x => x.cls.toNat | none => 0) else (s.rsvAt h.ownResv).cls.toNat
  if e.val = 3 then (match s.sHead hid with | some x => cls x.surr | none => 0)
  else match (match e.val with | 0 => h.vq | 1 => h.mq | _ => h.cq) with
  | en :: _ => if e.val = 2 && en.host then 0 else cls en.surr
  | [] => 0
/-- The first of the highest class of some work, each with its class. -/
def topOf (l : List (Nat × Due)) : Option (Nat × Due) :=
  l.foldl (fun b x => match b with | some y => if y.1 < x.1 then some x else b | none => some x) none
/-- The work an engine of a core does next, with its class: of the highest class, then round-robin behind the slot served last (R42,
R46). -/
def State.engineDue (s : State) (k : Nat) (e : Fin 4) : Option (Nat × Due) :=
  topOf (((List.range 8).map (fun i => 8 * k + ((s.coreAt k).served[e] + 1 + i) % 8)).filterMap (fun x =>
    if (s.hartAt x).run != .running || !s.dieRuns (x / 320) then none
    else ((s.queueDue x e).filter (fun d => d.engine == some e)).map (fun d => (s.headCls x e, d))))
/-- The work that a core's engines and stream S do next at the ports they share: of the highest class, then round-robin behind the one
that was there last (R31). -/
def State.coreDue (s : State) (k : Nat) : Option Due :=
  (topOf ((List.range 4).filterMap (fun i => s.engineDue k (Fin.ofNat 4 ((s.coreAt k).lastEng + 1 + i))))).map (fun y => y.2)
/-- The work of the engines that is due first, core by core. -/
def State.enginesDue (s : State) : Option Due :=
  ((s.harts.map (fun p => p.1 / 8)).eraseDups).findSome? s.coreDue
/-- The engine of an event's work has served the hart it is for, and has been at the core's ports (R31, R42). -/
def State.serve (s : State) (d : Due) : State :=
  let mark (hid : Nat) (e : Fin 4) : State :=
    let c := s.coreAt (hid / 8)
    s.setCoreAt (hid / 8) { c with served := c.served.set e (hid % 8), lastEng := e.val }
  match d, d.engine with
  | .vector h, some e | .watch h, some e | .vwait h, some e | .vwaitOver h, some e | .matrix h, some e | .chunk h, some e
  | .retire h _, some e => mark h e
  | _, _ => s

/-- What is due of a gang. -/
def State.gangDue (s : State) (g : Nat) (x : Gang) : Option Due :=
  if x.isLate s.now then some (.late x.core 3)
  else if s.gangOver g x then some (.gangOver g)
  else if x.waiting then
    match s.startMark x with
    | .ok (_, v) => if v < x.wmv then none else some (.startMark g)
    | .error (.trap t) => if t.cause = 0x52 then some (.startMark g) else none
    | .error (.wait _) => none
  else x.members.findSome? (fun m =>
    [0, 1, 2].findSome? (fun sc =>
      if !m.ended && x.groupFull sc (groupUnit sc m.core) then some (.depart g sc (groupUnit sc m.core)) else none))

/-- What a piece of sampler work can do now (R343). -/
def State.workDue (s : State) (cl : Nat) (w : Work) : Option Due :=
  if w.started then
    match w.waitFrom with
    | some _ =>
      if w.blk.maxcyc.toNat < w.used s.now then some (.smpOverrun cl w.seq)
      else if w.tried ≤ s.now then some (.smpReread cl w.seq) else none
    | none => if w.strip < w.strips then some (.smpStrip cl w.seq) else some (.smpDraw cl w.seq)
  else if s.startable cl w.op w then
    match w.op with
    | 0 => some (.smpStart cl w.seq)
    | 1 => some (.tableLoad cl w.seq)
    | 2 => some (.tableStore cl w.seq)
    | _ => some (.programLoad cl w.seq)
  else none

/-- The work a sampler does next: of the earliest deadline, then of the earliest acceptance (R343). -/
def State.smpDue (s : State) (cl : Nat) (works : List Work) : Option Due :=
  (works.foldl (fun (b : Option (Nat × Due)) w =>
    match s.workDue cl w with
    | none => b
    | some d => match b with
      | some (n, _) => if w.deadline.toNat < n then some (w.deadline.toNat, d) else b
      | none => some (w.deadline.toNat, d)) none).map (fun p => p.2)

/-- What is due in a cluster. -/
def State.clusDue (s : State) (cl : Nat) (c : Clus) : Option Due :=
  if c.bays.any (fun kb => kb.2.isLate s.now) then some (.late cl 1)
  else if c.works.any (fun w => w.isLate s.now) then some (.late cl 2)
  else if !s.dieRuns (cl / 5) then none
  else match c.bays.find? (fun kb => kb.2.st == .pending && decide (kb.2.units ≤ kb.2.got) &&
      -- a hart's bays are granted in the order of their acceptance (R55)
      !c.bays.any (fun y => y.2.st == .pending && y.2.holder == kb.2.holder && decide (y.2.order < kb.2.order))) with
    | some (h, _) => some (.grant cl h)
    | none => match c.recalls.find? (fun r => s.recallReady r) with
      | some r => some (.recall cl r.victim)
      | none => s.smpDue cl c.works

/-- What is due of a function, which the service cores on the I/O die do (R24, R370). -/
def State.fnDue (s : State) (f : Nat) (x : Fn) : Option Due :=
  if !s.dieRuns ioDie then none
  else if x.inReset then (if s.dev.gangs.any (fun g => g.2.fn.toNat == f) then none else some (.resetDone f))
  else (s.commandCode f).map (fun c => .command f c)

/-- The event that happens next, if one is due. A frame boundary is one when the frame that `time` lies in is not that of the last
(log 79). -/
def State.due (s : State) : Option Due :=
  if s.dev.frames != s.now / 4096 then some .frame
  else if !s.dev.hold && decide (s.dev.eceil * 1024 ≤ s.dev.energy) then some .ceiling
  else if s.appliable.isSome then some .update
  else (s.harts.findSome? (fun p => s.hartDue p.1 p.2)).or
    (s.enginesDue.or (s.takeDue.or
      ((s.clus.findSome? (fun p => s.clusDue p.1 p.2)).or
        ((s.dev.gangs.findSome? (fun p => s.gangDue p.1 p.2)).or
          (s.dev.fns.findSome? (fun p => s.fnDue p.1 p.2))))))

/-- An event that comes from outside the cores, or that the model leaves to the outside: what an agenda may hold. -/
def isOutside : Instr → Bool
  | .hostWrite .. | .hostRead .. | .hostAtomicop .. | .hostCas16 .. | .cxlMemWrite .. | .cxlCacheHostAtomic ..
  | .bar2Access .. | .mailboxWrite .. | .cqtailDoorbell .. | .ringTransfer .. | .functionLevelReset _ | .tdiLock _
  | .tdiRun _ | .tdiLeaveRun .. | .spdmKeyExchange _ | .spdmSessionExpiry _ | .correctableError _ | .uncorrectableError ..
  | .reset | .thermalHold _ | .thermalRelease _ | .thermalStop | .eceilLower _ | .pldmMonitorRead | .pageMigrate ..
  | .memLatencyMiss _ | .lookaheadTranslate .. => true
  | _ => false

/-! ### Placing a program's first word -/

/-- A page-table entry that leads to a table at a physical address (R157). -/
def tableEntry (pa : Nat) : Nat := pa + 1
/-- A page-table entry for a 64 KiB page that may be read and executed, by user harts too (R157). -/
def codeEntry (pa : Nat) : Nat := pa + 107

/-- A word where the acting hart fetches: four tables and a page of HBM, the root of the hart's context on its core, which keeps
no translation, the word at the hart's pc, the hart running with nothing to wait for, its core's turn, and no
outside event before it. -/
def State.placeWord (s : State) (w : BitVec 32) : State :=
  let pc := s.hart.pc.toNat
  let t (i : Nat) : Nat := 0x10000 * (i + 1)
  let m := ((s.mem.write (t 3 + 8 * vaIndex pc 3) 8 (tableEntry (t 2))).write
    (t 2 + 8 * vaIndex pc 2) 8 (tableEntry (t 1))).write (t 1 + 8 * vaIndex pc 1) 8 (tableEntry (t 0))
  let m1 := (m.write (t 0 + 8 * vaIndex pc 0) 8 (codeEntry (t 4))).write (t 4 + pc % 0x10000) 4 w.toNat
  let c := s.core
  let s1 := { s with mem := m1, turn := s.coreNo, agenda := [] }
  let s2 := s1.setCore { c with tlb := [], ptroot := c.ptroot.setIfInBounds s.who.fn (BitVec.ofNat 64 (tableEntry (t 3))) }
  s2.setHart { s2.hart with run := .running, wait := none }

end Sys2Proof.Machine
end

