-- ==== Sys2Proof/Machine/Step.lean ====
section
/-! DEFINITION. One step of the machine: an outside event, an event that is due, a hart's instruction, or a cycle in which
nothing else can happen (log 1). -/

namespace Sys2Proof.Machine

/-- An instruction executed behind an access in stream S that can still trap: it waits for that where it is none that may be
dispatched behind it, or would trap or end the hart's run (R99; log 26). -/
noncomputable def State.execBehind (s : State) (i : Instr) : Host.Outcome State Fault Refusal :=
  if !runsAhead s.ir then .next (s.waitFor .settled)
  else match exec i s with
    | .next t => .next (if t.hart.run == .running then t else s.waitFor .settled)
    | r => r
/-- A hart fetches and its word is tried: one that needs a scalar register which an instruction dispatched before has yet to
write waits (R33, R34), as does one whose fetch must (R365); any other is executed. -/
noncomputable def State.attempt (s : State) (hid : Nat) : Host.Outcome State Fault Refusal :=
  let s0 : State := { s with cur := hid, turn := hid / 8 }
  let s1 := s0.fetch
  match s0.fetchWait with
  | some w => .next (s0.waitFor w)
  | none =>
  if !(s1.1.hart.blocked s1.1.ir).isEmpty then .next (s1.1.waitFor (.reg (s1.1.hart.blocked s1.1.ir)))
  else if s1.1.hart.unsettled then s1.1.execBehind s1.2
  else exec s1.2 s1.1

/-- A hart's next instruction, or its next prefix and what follows it, can be dispatched (R33, R120, R122). -/
noncomputable def State.goes (s : State) (hid : Nat) : Bool :=
  match s.attempt hid with
  | .next t =>
    if t.pairOpen then (match t.attempt hid with | .next u => !u.heldBack hid | _ => true) else !t.heldBack hid
  | _ => true

/-- The chosen hart tries its next word, and the choice is accounted for (R120). -/
noncomputable def State.dispatch (s : State) (hid : Nat) : Host.Outcome State Fault Refusal :=
  match s.attempt hid with
  | .next t => .next (s.issued t hid s.goes)
  | .fault e => .fault e
  | .refused e => .refused e

/-- What happens in a machine with no outside event ahead: the successor of a prefix, which goes with it (R122), a due event,
a dispatch, or a cycle passes. -/
noncomputable def State.go (s : State) : Host.Outcome State Fault Refusal :=
  if s.pairOpen then s.dispatch s.cur
  else match s.due with
  | some d => exec d.instr (s.serve d)
  | none =>
    match s.nextCore with
    | none => .next s.tick
    | some k =>
      let s1 := s.unready s.turn k
      match s1.pick k with
      | some hid => s1.dispatch hid
      | none => .next { s1.ageCore s1 k none s1.goes with turn := k + 1 }

/-- One step. Outside events come first; above 115 °C only a reset does anything (R370). -/
noncomputable def step (s : State) : Host.Outcome State Fault Refusal :=
  match s.agenda with
  | i :: rest =>
    if isOutside i && (!s.dev.stopped || i == .reset) then exec i { s with agenda := rest }
    else .next { s with agenda := rest }
  | [] => if s.dev.stopped then .fault .thermalStop else s.go

/-- The machine with an instruction of the opcode table where its acting hart fetches next (R57). -/
def State.withFetchWord (s : State) (nbits w : Nat) : State := s.placeWord (BitVec.ofNat 32 (w % 2 ^ nbits))

end Sys2Proof.Machine
end

