-- ==== Sys2Proof/Safety.lean ====
section
/-! DEFINITION. The terms claims are made in: when a prefix fits, the state an instruction's effect starts from and the
state it ends in, what an instruction may change, when an engine takes its instruction at once, the results of the
spec's tables, and the invariant that steps keep. -/

namespace Sys2Proof.Machine

/-! ### Before and after the effect of a sequencer instruction (R35, R60 to R62) -/

/-- The prefix before an instruction of engine `e`, if there is one, fits it, its pop finds a token and its push a slot
(R35, R62). Without a prefix this holds. -/
def Hart.prefixFits (h : Hart) (e : Eng) (maskable vecResult : Bool) : Bool :=
  (match h.pfx with | some (w, _) => !pfxMisuse w e maskable vecResult | none => true) &&
    (popOf h.pfx == 0 || h.tokens (popOf h.pfx) != 0) && (pushOf h.pfx == 0 || !h.fullTok (pushOf h.pfx))

/-- The state with the prefix's pop taken and the prefix counted as dispatched; a trap of the instruction's effect leaves it so
(R35, R86). Without a prefix it is the state itself. -/
def State.popped (s : State) : State := s.afterPop

/-- The state in which a sequencer instruction has its effect: the prefix's pop is taken and its push reserved (R35).
Without a prefix it is the state itself. -/
def State.begun (s : State) : State :=
  if pushOf s.hart.pfx = 0 then s.popped else s.popped.setHart (s.popped.hart.reserveTok (pushOf s.hart.pfx))

/-- The state after a sequencer instruction's effect: its push is deposited, the prefix and any wait are over, a
surrender unit is counted where a recall counts, and the pc is the next word's (R35, R67, R326). -/
def State.retired (s : State) (push : Nat) : State := s.setHart (s.hart.deposit push).advance

/-- The same with the pc at `p`, as a branch or a jump leaves it. -/
def State.jumped (s : State) (p : Word) : State := s.setHart (s.hart.retireTo p)

/-! ### What an instruction leaves alone -/

/-- Nothing of the machine differs but the acting hart and perhaps memory. -/
def State.sameBut (s t : State) : Prop :=
  t.time = s.time ∧ t.cur = s.cur ∧ t.ir = s.ir ∧ t.turn = s.turn ∧ t.agenda = s.agenda ∧ t.img = s.img ∧
  t.cores = s.cores ∧ t.clus = s.clus ∧ (∀ j, j ≠ s.cur → t.hartAt j = s.hartAt j)

/-- The same, but that a core's lanes, engines and ports may have taken on work (R43). -/
def State.sameButBusy (s t : State) : Prop :=
  t.time = s.time ∧ t.cur = s.cur ∧ t.ir = s.ir ∧ t.turn = s.turn ∧ t.agenda = s.agenda ∧ t.img = s.img ∧
  (∀ k, t.coreAt k = { s.coreAt k with busy := (t.coreAt k).busy }) ∧ t.clus = s.clus ∧
  (∀ j, j ≠ s.cur → t.hartAt j = s.hartAt j)

/-- Every byte of memory reads as before. -/
def State.sameMem (s t : State) : Prop := ∀ a, t.mem.byte a = s.mem.byte a

/-- Every byte of memory outside [a, a + n) reads as before. -/
def State.sameMemBut (s t : State) (a n : Nat) : Prop := ∀ b, (b < a ∨ a + n ≤ b) → t.mem.byte b = s.mem.byte b

/-- Of the acting hart nothing differs but its scalar registers, flags, pc, prefix, wait, tokens and the surrender units
that a running count adds. -/
def Hart.sameBut (h k : Hart) : Prop :=
  ∃ u, k = { h with regs := k.regs, fflags := k.fflags, pc := k.pc, pfx := k.pfx, wait := k.wait, tok := k.tok,
                    tokres := k.tokres, pops := k.pops, bay := { h.bay with ucnt := u } }

/-! ### Results of the scalar instructions, from the spec's tables -/

/-- S[d] of the integer instructions, from the tables of R89 to R92. -/
def intResult (s : State) : Instr → Option (BitVec 5 × Word)
  | .add d a b => some (d, s.reg a + s.reg b)
  | .sub d a b => some (d, s.reg a - s.reg b)
  | .and d a b => some (d, s.reg a &&& s.reg b)
  | .or d a b => some (d, s.reg a ||| s.reg b)
  | .xor d a b => some (d, s.reg a ^^^ s.reg b)
  | .sll d a b => some (d, BitVec.ofNat 64 ((s.reg a).toNat * 2 ^ ((s.reg b).toNat % 64)))
  | .srl d a b => some (d, BitVec.ofNat 64 ((s.reg a).toNat / 2 ^ ((s.reg b).toNat % 64)))
  | .sra d a b => some (d, BitVec.ofInt 64 ((s.reg a).toInt / 2 ^ ((s.reg b).toNat % 64)))
  | .mul d a b => some (d, BitVec.ofNat 64 ((s.reg a).toNat * (s.reg b).toNat))
  | .mulh d a b => some (d, BitVec.ofInt 64 ((s.reg a).toInt * (s.reg b).toInt / 2 ^ 64))
  | .mulhu d a b => some (d, BitVec.ofNat 64 ((s.reg a).toNat * (s.reg b).toNat / 2 ^ 64))
  | .div d a b => some (d, if s.reg b = 0 then BitVec.allOnes 64 else BitVec.ofInt 64 ((s.reg a).toInt.tdiv (s.reg b).toInt))
  | .divu d a b => some (d, if s.reg b = 0 then BitVec.allOnes 64 else BitVec.ofNat 64 ((s.reg a).toNat / (s.reg b).toNat))
  | .rem d a b => some (d, if s.reg b = 0 then s.reg a else BitVec.ofInt 64 ((s.reg a).toInt.tmod (s.reg b).toInt))
  | .remu d a b => some (d, if s.reg b = 0 then s.reg a else BitVec.ofNat 64 ((s.reg a).toNat % (s.reg b).toNat))
  | .slt d a b => some (d, if (s.reg a).toInt < (s.reg b).toInt then 1 else 0)
  | .sltu d a b => some (d, if (s.reg a).toNat < (s.reg b).toNat then 1 else 0)
  | .seq d a b => some (d, if s.reg a = s.reg b then 1 else 0)
  | .sne d a b => some (d, if s.reg a = s.reg b then 0 else 1)
  | .min d a b => some (d, if (s.reg a).toInt ≤ (s.reg b).toInt then s.reg a else s.reg b)
  | .max d a b => some (d, if (s.reg a).toInt ≤ (s.reg b).toInt then s.reg b else s.reg a)
  | .minu d a b => some (d, if (s.reg a).toNat ≤ (s.reg b).toNat then s.reg a else s.reg b)
  | .maxu d a b => some (d, if (s.reg a).toNat ≤ (s.reg b).toNat then s.reg b else s.reg a)
  | .slli d a sh => some (d, BitVec.ofNat 64 ((s.reg a).toNat * 2 ^ sh.toNat))
  | .srli d a sh => some (d, BitVec.ofNat 64 ((s.reg a).toNat / 2 ^ sh.toNat))
  | .srai d a sh => some (d, BitVec.ofInt 64 ((s.reg a).toInt / 2 ^ sh.toNat))
  | .andi d a imm => some (d, s.reg a &&& BitVec.ofInt 64 imm.toInt)
  | .ori d a imm => some (d, s.reg a ||| BitVec.ofInt 64 imm.toInt)
  | .xori d a imm => some (d, s.reg a ^^^ BitVec.ofInt 64 imm.toInt)
  | .slti d a imm => some (d, if (s.reg a).toInt < imm.toInt then 1 else 0)
  | .sltiu d a imm => some (d, if (s.reg a).toNat < (BitVec.ofInt 64 imm.toInt).toNat then 1 else 0)
  | .addi d a imm => some (d, s.reg a + BitVec.ofInt 64 imm.toInt)
  | .lui d imm => some (d, BitVec.ofInt 64 (imm.toInt * 65536))
  | .aupc d imm => some (d, s.hart.pc + BitVec.ofInt 64 (imm.toInt * 65536))
  | _ => none

/-- S[d] and the flags of the scalar floating-point instructions, from the tables of R94 and R95, by the arithmetic of
the number formats. Type code 0 is f32, 1 is f64; a conversion between them reads the other one. -/
def fpResult (s : State) : Instr → Option (BitVec 5 × Nat × Flags)
  | .fadd d a b t rm => let k := if t = 1 then f64 else f32
    some (d, k.add (rmMode rm.toNat s.hart.frm) (s.fpReg k a) (s.fpReg k b))
  | .fsub d a b t rm => let k := if t = 1 then f64 else f32
    some (d, k.sub (rmMode rm.toNat s.hart.frm) (s.fpReg k a) (s.fpReg k b))
  | .fmul d a b t rm => let k := if t = 1 then f64 else f32
    some (d, k.mul (rmMode rm.toNat s.hart.frm) (s.fpReg k a) (s.fpReg k b))
  | .fma d a b t rm => let k := if t = 1 then f64 else f32
    some (d, k.fma (rmMode rm.toNat s.hart.frm) (s.fpReg k a) (s.fpReg k b) (s.fpReg k d))
  | .fmin d a b t => let k := if t = 1 then f64 else f32
    some (d, k.minMax false (s.fpReg k a) (s.fpReg k b))
  | .fmax d a b t => let k := if t = 1 then f64 else f32
    some (d, k.minMax true (s.fpReg k a) (s.fpReg k b))
  | .feq d a b t => let k := if t = 1 then f64 else f32
    let r := k.eq (s.fpReg k a) (s.fpReg k b)
    some (d, if r.1 then 1 else 0, r.2)
  | .flt d a b t => let k := if t = 1 then f64 else f32
    let r := k.lt (s.fpReg k a) (s.fpReg k b)
    some (d, if r.1 then 1 else 0, r.2)
  | .fle d a b t => let k := if t = 1 then f64 else f32
    let r := k.le (s.fpReg k a) (s.fpReg k b)
    some (d, if r.1 then 1 else 0, r.2)
  | .fcvtFpFp d a t rm => let k := if t = 1 then f32 else f64
    some (d, k.toFmt (if t = 1 then f64 else f32) (rmMode rm.toNat s.hart.frm) (s.fpReg k a))
  | .fcvtToI64 d a t rm => let k := if t = 1 then f64 else f32
    some (d, k.toInt (rmMode rm.toNat s.hart.frm) true 64 (s.fpReg k a))
  | .fcvtToN64 d a t rm => let k := if t = 1 then f64 else f32
    some (d, k.toInt (rmMode rm.toNat s.hart.frm) false 64 (s.fpReg k a))
  | .fcvtFromI64 d a t rm => some (d, (if t = 1 then f64 else f32).round (rmMode rm.toNat s.hart.frm) (intNum (s.reg a).toInt))
  | .fcvtFromN64 d a t rm =>
    some (d, (if t = 1 then f64 else f32).round (rmMode rm.toNat s.hart.frm) (intNum ((s.reg a).toNat : Int)))
  | _ => none

/-- Where a branch goes: whether it is taken, and its offset in words (R100). -/
def branchOf (s : State) : Instr → Option (Bool × BitVec 13)
  | .beq a b off => some (decide (s.reg a = s.reg b), off)
  | .bne a b off => some (decide (s.reg a ≠ s.reg b), off)
  | .blt a b off => some (decide ((s.reg a).toInt < (s.reg b).toInt), off)
  | .bge a b off => some (decide ((s.reg b).toInt ≤ (s.reg a).toInt), off)
  | .bltu a b off => some (decide ((s.reg a).toNat < (s.reg b).toNat), off)
  | .bgeu a b off => some (decide ((s.reg b).toNat ≤ (s.reg a).toNat), off)
  | _ => none

/-- What an atomic writes back, given the bytes n, the old value and operand B; none where it writes nothing (R103). -/
def atomicNew (s : State) : Instr → Option (Atom × (Nat → Nat → Nat → Option Nat))
  | .aadd o => some (o, fun n old b => some ((old + b) % 2 ^ (8 * n)))
  | .aswap o => some (o, fun _ _ b => some b)
  | .aand o => some (o, fun _ old b => some (old &&& b))
  | .aor o => some (o, fun _ old b => some (old ||| b))
  | .aminI o => some (o, fun n old b => some (if signed (8 * n) old ≤ signed (8 * n) b then old else b))
  | .amaxI o => some (o, fun n old b => some (if signed (8 * n) b ≤ signed (8 * n) old then old else b))
  | .aminN o => some (o, fun _ old b => some (if old ≤ b then old else b))
  | .amaxN o => some (o, fun _ old b => some (if old ≤ b then b else old))
  | .acas o => some (o, fun n old b => if old = (s.reg o.d).toNat % 2 ^ (8 * n) then some b else none)
  | _ => none
/-- The old value in S[d]: zero-extended by the unsigned minimum and maximum, else sign-extended (R103). -/
def atomicOld (i : Instr) (n old : Nat) : Word :=
  match i with
  | .aminN _ | .amaxN _ => BitVec.ofNat 64 old
  | _ => BitVec.ofInt 64 (signed (8 * n) old)

/-- What a change of a stream register makes of it (R148, R150, R153), its operands read from the scalar registers. -/
def streamChange (s : State) : Instr → Option (BitVec 4 × (Stream → Stream))
  | .qbase q a => some (q, fun x =>
      { x with base := s.reg a, cursor := 0, loaded := true, armed := false, waddr := 0, woff := 0 })
  | .qstride q a => some (q, fun x => { x with stride := s.reg a, loaded := true })
  | .qbound q a => some (q, fun x => { x with bound := s.reg a, loaded := true })
  | .qcur q a => some (q, fun x => { x with cursor := s.reg a, loaded := true })
  | .qcfg q a =>
    if (s.reg a).toNat < 2 ^ 32 ∧ cfgBad (BitVec.ofNat 32 (s.reg a).toNat) = false then
      some (q, fun x => { x with cfg := BitVec.ofNat 32 (s.reg a).toNat, loaded := true })
    else none
  | .qrel q => some (q, fun _ => {})
  | .qwatch a b q =>
    if (s.reg a).toNat % 8 = 0 then some (q, fun x => { x with armed := true, waddr := s.reg a, woff := s.reg b }) else none
  | .qunwatch q => some (q, fun x => { x with armed := false, waddr := 0, woff := 0 })
  | _ => none

/-- What qget reads of a stream register (R148). -/
def streamField (x : Stream) (sel : BitVec 6) : Word :=
  match sel.toNat with
  | 0 => x.base | 1 => x.stride | 2 => x.bound | 3 => x.cursor | 4 => BitVec.ofNat 64 x.cfg.toNat | 5 => x.waddr | _ => x.woff

/-! ### When an engine takes its instruction at once -/

/-- An mmq, which alone of the matrix instructions can stop between its rows (R309). -/
def isMmq : Instr → Bool
  | .mmqSq .. | .mmqAb .. => true
  | _ => false

/-- The scalar that a vector instruction captures at dispatch (R213, R249, R255, R263, R266, R268, R288), or the counter
of a stochastically rounding conversion (R233). -/
def State.vecScalar (s : State) : Instr → Word
  | .vadd o | .vsub o | .vmul o | .vmulhI o | .vmulhN o | .vdivI o | .vdivN o | .vremI o | .vremN o | .vminI o | .vmaxI o
  | .vminN o | .vmaxN o | .vand o | .vor o | .vxor o | .vsll o | .vsrl o | .vsra o | .vaddSatI o | .vaddSatN o
  | .vsubSatI o | .vsubSatN o | .vmacc o | .vmeq o | .vmne o | .vmltI o | .vmleI o | .vmltN o | .vmleN o
  | .vaddFp o | .vsubFp o | .vmulFp o | .vdivFp o | .vfma o | .vfms o | .vfnma o | .vminFp o | .vmaxFp o
  | .vmfeq o | .vmfne o | .vmflt o | .vmfle o => if o.k = 1 then s.reg o.b else 0
  | .vbcast o => s.reg o.a
  | .vcvtFpToIeee o | .vcvtFpToBf16 o | .vcvtFpToE4m3 o | .vcvtFpToE5m2 o | .vcvtFpToI o | .vcvtFpToN o | .vcvtIToIeee o
  | .vcvtIToBf16 o | .vcvtIToE4m3 o | .vcvtIToE5m2 o | .vcvtNToIeee o | .vcvtNToBf16 o | .vcvtNToE4m3 o | .vcvtNToE5m2 o
  | .vcvtIntToI o | .vcvtIntToN o => if o.rnd = 5 then s.hart.rctr else 0
  | .vredsum o | .vredosum o | .vredmax o | .vredmin o | .vredmaxN o | .vredminN o | .vredand o | .vredor o
  | .vredxor o | .vslideup o | .vslidedn o | .vslide1up o | .vslide1dn o => s.reg o.b
  | .vmvV _ a _ _ => s.reg a
  | .vmvX _ _ b _ _ => s.reg b
  | .vsetl _ a _ => s.reg a
  | .vwait d _ _ => s.reg d
  | _ => 0

/-- rctr after the dispatch of a vector instruction: a stochastically rounding conversion advances it by 2^21 (R233). -/
def State.rctrPast (s : State) : Instr → Word
  | .vcvtFpToIeee o | .vcvtFpToBf16 o | .vcvtFpToE4m3 o | .vcvtFpToE5m2 o | .vcvtFpToI o | .vcvtFpToN o | .vcvtIToIeee o
  | .vcvtIToBf16 o | .vcvtIToE4m3 o | .vcvtIToE5m2 o | .vcvtNToIeee o | .vcvtNToBf16 o | .vcvtNToE4m3 o | .vcvtNToE5m2 o
  | .vcvtIntToI o | .vcvtIntToN o => if o.rnd = 5 then s.hart.rctr + 0x200000 else s.hart.rctr
  | _ => s.hart.rctr

/-- The queue entry that dispatch makes of a vector instruction (R33, R71, R249). -/
def State.vecEntry (s : State) (i : Instr) : Entry := s.mkEntry i (s.vecScalar i) 0

/-- The state in which a vector instruction has its effect, where the queue was empty: it is dispatched (R33, R35), and
the convoy before it is split where hardware splits it (R218). Its run ends where its sweep does (R248). -/
def State.vecSent (s : State) (i : Instr) (op : VecOp) : State :=
  let h := s.hart.dispatched .v (s.vecEntry i)
  let v := if h.vec.splits op false then h.vec.cut else h.vec
  s.setHart { h with rctr := s.rctrPast i, vec := { v with ends := none } }

/-- The vector unit takes the instruction as soon as it is dispatched: its prefix fits, the vector queue is empty and, beside
what a surrender routine has set aside, has room, no
register that a matrix instruction uses and no grant, engine, budget, energy or access of stream S holds it (R33, R34, R39,
R43, R46, R48, R107), a split does not trap (R218), no soft error stands in data (R366), and the checks of R250 pass. -/
def State.vecFree (s : State) (i : Instr) (op : VecOp) : Prop :=
  s.hart.prefixFits .v op.maskable op.vecResult = true ∧ s.hart.vq = [] ∧ s.hart.hasRoom .v = true ∧
  s.vecScore s.cur op (s.vecEntry i) = false ∧ (s.vecSent i op).vecHeld s.cur op = false ∧
  ¬ (s.hart.vec.splits op false = true ∧ s.hart.vec.strap = true) ∧ s.dev.latent = none ∧
  (s.vecSent i op).hart.vec.startCheck op (s.hart.look (s.vecEntry i)) = none

/-- The hart once the instruction at the head of an engine's queue has retired, which it does, when it is done, as soon as what it did
is through (R35, R43). -/
def Hart.through (h : Hart) (e : Eng) : Hart :=
  match h.queue e with
  | en :: _ => if en.done then h.retireHead e else h
  | [] => h

/-- What a vector instruction leaves in its hart when it retires, at once or when its element groups are through: the vector state `v` with its convoy chained on and with
estart and rowstart zero (R212, R217), flags ORed in, a scalar result, an empty queue, the next pc. -/
def State.vecLeaves (s t : State) (op : VecOp) (v : VecState) (fl : Flags) (res : Option (BitVec 5 × Word)) : Prop :=
  let k := (t.hartAt s.cur).through .v
  k.vec = { v.chain op with estart := 0, rowstart := 0, ends := none } ∧ k.fflags = s.hart.fflags ||| fl ∧
  (∀ r, k.reg r = match res with | some (d, x) => if r = d ∧ d ≠ 0 then x else s.hart.reg r | none => s.hart.reg r) ∧
  k.vq = [] ∧ k.pc = (s.hart.pc + 4) &&& pcMask ∧ k.pfx = none

/-- Nothing differs but the acting hart's vector state, registers, flags, pc, prefix, wait, vector queue, tokens, rctr,
sequence number and surrender units, what waiting scalar accesses go back to, and what counts work: budgets, energy and the
time the engine is at work. -/
def State.vecSame (s t : State) : Prop :=
  (∀ j, j ≠ s.cur → t.hartAt j = s.hartAt j) ∧ t.mem = s.mem ∧ t.clus = s.clus ∧
  (∀ k, t.coreAt k = { s.coreAt k with busy := (t.coreAt k).busy }) ∧
  t.dev = { s.dev with used := t.dev.used, energy := t.dev.energy } ∧ t.time = s.time ∧ t.agenda = s.agenda ∧
  (t.hartAt s.cur).ss.map (fun x => { x with back := none }) = s.hart.ss.map (fun x => { x with back := none }) ∧
  ∃ u, let k := t.hartAt s.cur
    k = { s.hart with vec := k.vec, ss := k.ss, regs := k.regs, fflags := k.fflags, pc := k.pc, pfx := k.pfx, wait := k.wait, vq := k.vq
                      tok := k.tok, tokres := k.tokres, pops := k.pops, rctr := k.rctr, seq := k.seq, bay := { s.hart.bay with ucnt := u } }

/-! ### Results of the vector instructions, from the spec's tables -/

/-- An integer result of a two-source cell at width n, from the elements a, b and the old destination d (R252, R253). -/
def vecIntTable : Instr → Option (VBin × (Nat → Nat → Nat → Nat → Int))
  | .vadd o => some (o, fun _ a b _ => (a : Int) + b)
  | .vsub o => some (o, fun _ a b _ => (a : Int) - b)
  | .vmul o => some (o, fun _ a b _ => (a : Int) * b)
  | .vmulhI o => some (o, fun n a b _ => signed n a * signed n b / 2 ^ n)
  | .vmulhN o => some (o, fun n a b _ => (a : Int) * b / 2 ^ n)
  | .vdivI o => some (o, fun n a b _ => if b % 2 ^ n = 0 then -1 else (signed n a).tdiv (signed n b))
  | .vdivN o => some (o, fun n a b _ => if b % 2 ^ n = 0 then -1 else ((a / b : Nat) : Int))
  | .vremI o => some (o, fun n a b _ => if b % 2 ^ n = 0 then (a : Int) else (signed n a).tmod (signed n b))
  | .vremN o => some (o, fun n a b _ => if b % 2 ^ n = 0 then (a : Int) else ((a % b : Nat) : Int))
  | .vminI o => some (o, fun n a b _ => min (signed n a) (signed n b))
  | .vmaxI o => some (o, fun n a b _ => max (signed n a) (signed n b))
  | .vminN o => some (o, fun _ a b _ => ((min a b : Nat) : Int))
  | .vmaxN o => some (o, fun _ a b _ => ((max a b : Nat) : Int))
  | .vand o => some (o, fun _ a b _ => ((a &&& b : Nat) : Int))
  | .vor o => some (o, fun _ a b _ => ((a ||| b : Nat) : Int))
  | .vxor o => some (o, fun _ a b _ => ((a ^^^ b : Nat) : Int))
  | .vsll o => some (o, fun n a b _ => (a : Int) * 2 ^ (b % n))
  | .vsrl o => some (o, fun n a b _ => (a : Int) / 2 ^ (b % n))
  | .vsra o => some (o, fun n a b _ => signed n a / 2 ^ (b % n))
  | .vaddSatI o => some (o, fun n a b _ => max (-(2 ^ (n - 1))) (min (2 ^ (n - 1) - 1) (signed n a + signed n b)))
  | .vaddSatN o => some (o, fun n a b _ => max 0 (min (2 ^ n - 1) ((a : Int) + b)))
  | .vsubSatI o => some (o, fun n a b _ => max (-(2 ^ (n - 1))) (min (2 ^ (n - 1) - 1) (signed n a - signed n b)))
  | .vsubSatN o => some (o, fun n a b _ => max 0 (min (2 ^ n - 1) ((a : Int) - b)))
  | .vmacc o => some (o, fun _ a b d => (d : Int) + (a : Int) * b)
  | _ => none

/-- A floating-point result of a two-source cell in a format under a mode, with its flags (R256, R257). -/
def vecFpTable : Instr → Option (VBin × (Fmt → Rnd → Nat → Nat → Nat → Nat × Flags))
  | .vaddFp o => some (o, fun k m a b _ => k.add m a b)
  | .vsubFp o => some (o, fun k m a b _ => k.sub m a b)
  | .vmulFp o => some (o, fun k m a b _ => k.mul m a b)
  | .vdivFp o => some (o, fun k m a b _ => k.div m a b)
  | .vfma o => some (o, fun k m a b d => k.fma m a b d)
  | .vfms o => some (o, fun k m a b d => k.fmaV m (k.num a) (k.num b) (k.num d).neg)
  | .vfnma o => some (o, fun k m a b d => k.fmaV m (k.num a).neg (k.num b) (k.num d))
  | .vminFp o => some (o, fun k _ a b _ => k.minMax false a b)
  | .vmaxFp o => some (o, fun k _ a b _ => k.minMax true a b)
  | _ => none

/-- A conversion's result of element a at row, e, the source's class and width those of vtype (R235 to R238, R258). -/
def vecCvtTable (v : VecState) (en : Entry) : Instr → Option (VCvt × (Nat → Nat → Nat → Nat × Flags)) :=
  let dr (row e : Nat) : Nat := srDraw en.rkey en.rstrm en.op1 row e
  let ff (o : VCvt) (k : Fmt) := some (o, fun a row e =>
    if o.rnd = 5 then v.fmt.toFmtSr k (dr row e) a else v.fmt.toFmt k (cvtMode o en) a)
  let fi (o : VCvt) (sg : Bool) := some (o, fun a (_ _ : Nat) => v.fmt.toInt (cvtMode o en) sg (codeBits o.x.toNat) a)
  let xf (o : VCvt) (sg : Bool) (k : Fmt) := some (o, fun a row e =>
    let x := intNum (if sg then signed v.n a else (a : Int))
    if o.rnd = 5 then k.roundSr (dr row e) x else k.round (cvtMode o en) x)
  let xx (o : VCvt) (sg : Bool) := some (o, fun a (_ _ : Nat) =>
    let w := codeBits o.x.toNat
    let x : Int := if v.cls = 1 then signed v.n a else (a : Int)
    let y : Int := if o.rnd = 6 then
      (if sg then max (-(2 ^ (w - 1))) (min (2 ^ (w - 1) - 1) x) else max 0 (min (2 ^ w - 1) x)) else x
    (wrap w y, 0))
  fun
  | .vcvtFpToIeee o => ff o (fmtOf 2 (codeBits o.x.toNat))
  | .vcvtFpToBf16 o => ff o bf16
  | .vcvtFpToE4m3 o => ff o e4m3
  | .vcvtFpToE5m2 o => ff o e5m2
  | .vcvtFpToI o => fi o true
  | .vcvtFpToN o => fi o false
  | .vcvtIToIeee o => xf o true (fmtOf 2 (codeBits o.x.toNat))
  | .vcvtIToBf16 o => xf o true bf16
  | .vcvtIToE4m3 o => xf o true e4m3
  | .vcvtIToE5m2 o => xf o true e5m2
  | .vcvtNToIeee o => xf o false (fmtOf 2 (codeBits o.x.toNat))
  | .vcvtNToBf16 o => xf o false bf16
  | .vcvtNToE4m3 o => xf o false e4m3
  | .vcvtNToE5m2 o => xf o false e5m2
  | .vcvtIntToI o => xx o true
  | .vcvtIntToN o => xx o false
  | _ => none

/-- A mixed-width result (R259, R260, R262): the destination's width for widths n of va and w of vb, and the result of
elements a, b, the old destination d and the scale byte that v1 gives. -/
def vecMixTable (v : VecState) (en : Entry) :
    Instr → Option (VTri × (Nat → Nat → Nat) × (Nat → Nat → Nat → Nat → Nat → Nat × Flags)) :=
  let wide (n w : Nat) : Nat := 2 * max n w
  let ints (o : VTri) (sg acc : Bool) := some (o, wide, fun (w a b d _e : Nat) =>
    let x : Int := if sg then signed v.n a * signed w b else (a : Int) * b
    (wrap (wide v.n w) (if acc then (d : Int) + x else x), (0 : Flags)))
  let fps (o : VTri) (acc : Bool) := some (o, wide, fun (w a b d _e : Nat) =>
    let k := wideFmt (wide v.n w)
    if acc then k.fmaV en.mode (v.fmt.num a) ((secondFmt v.cls.toNat w).num b) (k.num d)
    else k.mulV en.mode (v.fmt.num a) ((secondFmt v.cls.toNat w).num b))
  let scaled (o : VTri) (acc : Bool) := some (o, fun (n _ : Nat) => n, fun (w a b d e8 : Nat) =>
    let y := (secondFmt v.cls.toNat w).num b
    let r := if acc then v.fmt.fmaV en.mode (v.fmt.num a) (scaleNum y e8) (v.fmt.num d)
      else v.fmt.mulV en.mode (v.fmt.num a) (scaleNum y e8)
    (r.1, r.2 ||| nvIf y.snan))
  fun
  | .vwmulI o => ints o true false
  | .vwmulN o => ints o false false
  | .vwmaccI o => ints o true true
  | .vwmaccN o => ints o false true
  | .vwmulFp o => fps o false
  | .vwmaccFp o => fps o true
  | .vsmul o => scaled o false
  | .vsmacc o => scaled o true
  | _ => none

/-- What each active element of an element-wise instruction takes: the mask bit, the destination, its width, and the
value and flags by row and element (R252 to R262). -/
def vecElems (v : VecState) (en : Entry) (i : Instr) : Option (BitVec 1 × BitVec 5 × Nat × (Nat → Nat → Nat × Flags)) :=
  let at_ (r : BitVec 5) (w row e : Nat) : Nat := v.opElem r.toNat w row e
  let second (o : VBin) (row e : Nat) : Nat := if o.k = 1 then en.op1.toNat % 2 ^ v.n else at_ o.b v.n row e
  let byte (sg : Bool) (x j : Nat) : Int := if sg then signed 8 (bits x (8 * j) 8) else (bits x (8 * j) 8 : Nat)
  let dot (sg : Bool) (d a b : BitVec 5) (row e : Nat) : Nat × Flags :=
    let x := at_ a v.n row e
    let y := at_ b v.n row e
    (wrap 32 ((at_ d v.n row e : Int) + byte sg x 0 * byte sg y 0 + byte sg x 1 * byte sg y 1 + byte sg x 2 * byte sg y 2
      + byte sg x 3 * byte sg y 3), 0)
  match vecIntTable i, vecFpTable i, vecCvtTable v en i, vecMixTable v en i with
  | some (o, f), _, _, _ => some (o.m, o.d, v.n, fun row e =>
      (wrap v.n (f v.n (at_ o.a v.n row e) (second o row e) (at_ o.d v.n row e)), 0))
  | _, some (o, f), _, _ => some (o.m, o.d, v.n, fun row e =>
      f v.fmt en.mode (at_ o.a v.n row e) (second o row e) (at_ o.d v.n row e))
  | _, _, some (o, f), _ => some (o.m, o.d, codeBits o.x.toNat, fun row e => f (at_ o.a v.n row e) row e)
  | _, _, _, some (o, wd, f) =>
    let wb := codeBits o.x.toNat
    some (o.m, o.d, wd v.n wb, fun row e =>
      f wb (at_ o.a v.n row e) (at_ o.b wb row e) (at_ o.d (wd v.n wb) row e) (v.elem 1 8 (row * (v.vlmax / 32) + e / 32)))
  | none, none, none, none =>
    match i with
    | .vmov o => some (o.m, o.d, v.n, fun row e => (at_ o.a v.n row e, 0))
    | .vbcast o => some (o.m, o.d, v.n, fun _ _ => (en.op1.toNat % 2 ^ v.n, 0))
    | .vid d m _ _ => some (m, d, v.n, fun _ e => (e % 2 ^ v.n, 0))
    | .vsqrt o => some (o.m, o.d, v.n, fun row e => v.fmt.sqrt en.mode (at_ o.a v.n row e))
    | .vabs o => some (o.m, o.d, v.n, fun row e => signOp v.fmt (at_ o.a v.n row e) false)
    | .vneg o => some (o.m, o.d, v.n, fun row e => signOp v.fmt (at_ o.a v.n row e) true)
    | .vdot4I8 d a b m _ => some (m, d, v.n, dot true d a b)
    | .vdot4N8 d a b m _ => some (m, d, v.n, dot false d a b)
    | _ => none

/-- What an instruction with a mask result gives each element: whether it goes over whole rows, the mask, the
destination, and the bit and flags by row and element (R254, R257, R269, R274, R275). -/
def vecBits (v : VecState) (en : Entry) (i : Instr) :
    Option (Bool × Option Nat × BitVec 5 × (Nat → Nat → Bool × Flags)) :=
  let cmp (o : VBin) (f : Nat → Nat → Bool × Flags) : Option (Bool × Option Nat × BitVec 5 × (Nat → Nat → Bool × Flags)) :=
    some (false, maskOf o.m en, o.d, fun row e =>
      f (v.opElem o.a.toNat v.n row e) (if o.k = 1 then en.op1.toNat % 2 ^ v.n else v.opElem o.b.toNat v.n row e))
  let set (r : BitVec 5) (row e : Nat) : Bool := v.maskBit r.toNat row e
  let logic (d : BitVec 5) (f : Nat → Nat → Bool) : Option (Bool × Option Nat × BitVec 5 × (Nat → Nat → Bool × Flags)) :=
    some (false, none, d, fun row e => (f row e, 0))
  let first (m : BitVec 1) (a : BitVec 5) : Nat := match v.setBits (maskOf m en) a.toNat with | [] => v.rc * v.vl | re :: _ => v.flat re
  let near (d : BitVec 5) (m : BitVec 1) (f : Nat → Bool) : Option (Bool × Option Nat × BitVec 5 × (Nat → Nat → Bool × Flags)) :=
    some (true, maskOf m en, d, fun row e => (f (row * v.vl + e), 0))
  match i with
  | .vmeq o => cmp o (fun a b => (decide (a = b), 0))
  | .vmne o => cmp o (fun a b => (decide (a ≠ b), 0))
  | .vmltI o => cmp o (fun a b => (decide (signed v.n a < signed v.n b), 0))
  | .vmleI o => cmp o (fun a b => (decide (signed v.n a ≤ signed v.n b), 0))
  | .vmltN o => cmp o (fun a b => (decide (a < b), 0))
  | .vmleN o => cmp o (fun a b => (decide (a ≤ b), 0))
  | .vmfeq o => cmp o (fun a b => v.fmt.eq a b)
  | .vmfne o => cmp o (fun a b => (!(v.fmt.eq a b).1, (v.fmt.eq a b).2))
  | .vmflt o => cmp o (fun a b => v.fmt.lt a b)
  | .vmfle o => cmp o (fun a b => v.fmt.le a b)
  | .vmand d a b _ => logic d (fun row e => set a row e && set b row e)
  | .vmor d a b _ => logic d (fun row e => set a row e || set b row e)
  | .vmxor d a b _ => logic d (fun row e => set a row e != set b row e)
  | .vmandn d a b _ => logic d (fun row e => set a row e && !set b row e)
  | .vmnot d a _ => logic d (fun row e => !set a row e)
  | .vmset d _ => logic d (fun _ _ => true)
  | .vmclr d _ => logic d (fun _ _ => false)
  | .vmsbf d a m _ => near d m (fun f => decide (f < first m a))
  | .vmsif d a m _ => near d m (fun f => decide (f ≤ first m a))
  | .vmsof d a m _ => near d m (fun f => decide (f = first m a))
  | .vpart d a m _ =>
    let r := v.runOf a.toNat (maskOf m en)
    some (true, none, d, fun row e =>
      (decide (r.1 ≤ row * v.vl + e) && decide (row * v.vl + e < r.2) && v.active (maskOf m en) row e, 0))
  | _ => none

/-- The reduction of R241 to R243: z combined with the rows in order, each row one element after another, or for an
unordered FP sum as the tree of R241. -/
def VecState.reduced (v : VecState) (en : Entry) (o : VTri) (tree_ : Bool) (f : Nat → Nat → Nat × Flags) : Part :=
  v.rowsLeft.foldl (fun acc row =>
    let xs := v.activeRow (maskOf o.m en) o.a.toNat row
    if tree_ then Part.cat f acc (tree f (v.groupOf v.n) xs) else inOrder f acc xs) (some (en.op1.toNat % 2 ^ v.n), 0)

/-- The scalar result and flags of an instruction that writes S[d] (R263, R268, R270, R274). -/
def vecScalars (v : VecState) (en : Entry) (i : Instr) : Option (BitVec 5 × Word × Flags) :=
  let ext (sg : Bool) (x : Nat) : Word := if sg then BitVec.ofInt 64 (signed v.n x) else BitVec.ofNat 64 (x % 2 ^ v.n)
  let red (o : VTri) (tree_ sg : Bool) (f : Nat → Nat → Nat × Flags) : Option (BitVec 5 × Word × Flags) :=
    let r := v.reduced en o tree_ f
    some (o.d, ext sg (r.1.getD 0), r.2)
  let sum (a b : Nat) : Nat × Flags := if v.isFp then v.fmt.add (frmMode en.frm) a b else ((a + b) % 2 ^ v.n, 0)
  let pick (greater : Bool) (a b : Nat) : Nat × Flags :=
    if v.isFp then v.fmt.minMax greater a b else (if decide (signed v.n a < signed v.n b) != greater then a else b, 0)
  match i with
  | .vredsum o => red o v.isFp (v.cls == 1) sum
  | .vredosum o => red o false (v.cls == 1) sum
  | .vredmax o => red o false (!v.isFp) (pick true)
  | .vredmin o => red o false (!v.isFp) (pick false)
  | .vredmaxN o => red o false false (fun a b => (if a < b then b else a, 0))
  | .vredminN o => red o false false (fun a b => (if a < b then a else b, 0))
  | .vredand o => red o false (v.cls == 1) (fun a b => (a &&& b, 0))
  | .vredor o => red o false (v.cls == 1) (fun a b => (a ||| b, 0))
  | .vredxor o => red o false (v.cls == 1) (fun a b => (a ^^^ b, 0))
  | .vmvS d a _ _ => some (d, ext (v.cls == 1) (v.opElem a.toNat v.n 0 0), 0)
  | .vmvX d a _ _ _ =>
    let j := en.op1.toNat
    some (d, if j / v.vlmax < v.rc then ext (v.cls == 1) (v.opElem a.toNat v.n (j / v.vlmax) (j % v.vlmax)) else 0, 0)
  | .vpop d a m _ => some (d, BitVec.ofNat 64 (v.setBits (maskOf m en) a.toNat).length, 0)
  | .vfirst d a m _ =>
    some (d, match v.setBits (maskOf m en) a.toNat with | [] => BitVec.allOnes 64 | re :: _ => BitVec.ofNat 64 (re.1 * v.vl + re.2), 0)
  | .vrun d a m _ => some (d, BitVec.ofNat 64 ((v.runOf a.toNat (maskOf m en)).2 - (v.runOf a.toNat (maskOf m en)).1), 0)
  | _ => none

/-- Elements written in turn at width sew, in the destination and the copy group. -/
def VecState.writeAll (v : VecState) (d : Nat) (copy : Option Nat) (l : List ((Nat × Nat) × Nat)) : VecState :=
  l.foldl (fun u p =>
    let u1 := u.setOpElem d v.n p.1.1 p.1.2 p.2
    match copy with | some c => u1.setOpElem c v.n p.1.1 p.1.2 p.2 | none => u1) v

/-- The elements that scans, permutations, moves and conflicts write, in order, with their values and flags (R244, R264
to R268, R273). -/
def vecRows (v : VecState) (en : Entry) (i : Instr) : Option (BitVec 5 × List ((Nat × Nat) × Nat) × Flags) :=
  let mode := frmMode en.frm
  let sum (a b : Nat) : Nat × Flags := if v.isFp then v.fmt.add mode a b else ((a + b) % 2 ^ v.n, 0)
  let pick (greater : Bool) (a b : Nat) : Nat × Flags :=
    if v.isFp then v.fmt.minMax greater a b else (if decide (signed v.n a < signed v.n b) != greater then a else b, 0)
  let first (greater : Bool) (x : Nat) : Nat × Flags := if v.isFp then v.fmt.minMax greater x x else (x, 0)
  let scan (o : VUn) (tree_ : Bool) (g : Nat → Nat × Flags) (f : Nat → Nat → Nat × Flags) :
      Option (BitVec 5 × List ((Nat × Nat) × Nat) × Flags) :=
    let all := v.rowsLeft.flatMap (fun row =>
      let xs := v.activeRow (maskOf o.m en) o.a.toNat row
      ((if tree_ then prefixTrees f (v.groupOf v.n) [] xs else runningRow f g xs).map (fun y => ((row, y.1), y.2))))
    some (o.d, all.map (fun y => (y.1, y.2.1.getD 0)), all.foldl (fun fl y => fl ||| y.2.2) 0)
  let perm (o : VTri) (f : Nat → Nat → Option Nat) : Option (BitVec 5 × List ((Nat × Nat) × Nat) × Flags) :=
    some (o.d, ((v.elems false).filter (fun re => v.active (maskOf o.m en) re.1 re.2)).filterMap
      (fun re => (f re.1 re.2).map (fun x => (re, x))), 0)
  let a_ (r : BitVec 5) (row e : Nat) : Nat := v.opElem r.toNat v.n row e
  let k := en.op1.toNat
  let pack (o : VUn) (back : Bool) : Option (BitVec 5 × List ((Nat × Nat) × Nat) × Flags) :=
    some (o.d, v.rowsLeft.flatMap (fun row =>
      let act := (List.range v.vl).filter (fun e => v.active (maskOf o.m en) row e)
      act.zipIdx.map (fun p => if back then ((row, p.1), a_ o.a row p.2) else ((row, p.2), a_ o.a row p.1))), 0)
  let conf (d a : BitVec 5) (m : BitVec 1) (counts : Nat × Nat → Bool) : Option (BitVec 5 × List ((Nat × Nat) × Nat) × Flags) :=
    let act := (v.elems true).filter (fun re => v.active (maskOf m en) re.1 re.2)
    some (d, conflicts (fun re => a_ a re.1 re.2) counts v.flat (2 ^ v.n - 1) [] act, 0)
  match i with
  | .vscan o => scan o v.isFp (fun x => (x, 0)) sum
  | .vscano o => scan o false (fun x => (x, 0)) sum
  | .vscanmax o => scan o false (first true) (pick true)
  | .vscanmin o => scan o false (first false) (pick false)
  | .vscanmaxN o => scan o false (fun x => (x, 0)) (fun a b => (if a < b then b else a, 0))
  | .vscanminN o => scan o false (fun x => (x, 0)) (fun a b => (if a < b then a else b, 0))
  | .vrgath o => perm o (fun row e => let j := a_ o.b row e; some (if j < v.vlmax then a_ o.a row j else 0))
  | .vslideup o => perm o (fun row e => if k ≤ e then some (a_ o.a row (e - k)) else none)
  | .vslidedn o => perm o (fun row e => some (if e + k < v.vlmax then a_ o.a row (e + k) else 0))
  | .vslide1up o => perm o (fun row e => some (if e = 0 then k % 2 ^ v.n else a_ o.a row (e - 1)))
  | .vslide1dn o => perm o (fun row e => some (if e + 1 = v.vl then k % 2 ^ v.n else a_ o.a row (e + 1)))
  | .vcomp o => pack o false
  | .vexpand o => pack o true
  | .vmvV d _ _ _ => some (d, if 1 ≤ v.vl then [((0, 0), k % 2 ^ v.n)] else [], 0)
  | .vconf o => conf o.d o.a o.m (fun _ => true)
  | .vconfm o => conf o.d o.a o.m (fun re => v.maskBit o.b.toNat re.1 re.2)
  | _ => none

/-- What a vector memory instruction of fn 0 to 6 names and does: its stream, its mask bit, its index register, its
spaces, its access, and its effect on an element that passes its checks (R276 to R286). -/
structure VecMemOp where
  q : BitVec 4
  m : BitVec 1
  idx : Option Nat
  spaces : Space → Bool := fun _ => true
  acc : Acc
  act : MemRun → ElemOk → Nat × Nat → Except Stop MemRun

/-- The vector memory instructions of fn 0 to 6 (R276 to R286). -/
def vecMem (hid : Nat) (en : Entry) : Instr → Option VecMemOp
  | .vld d q m _ => some { q := q, m := m, idx := none, acc := .read, act := loadElem hid en d }
  | .vldff d q m _ => some { q := q, m := m, idx := none, acc := .read, act := loadElem hid en d }
  | .vst v q m _ => some { q := q, m := m, idx := none, acc := .write, act := storeElem hid en v }
  | .vldx d a q m _ => some { q := q, m := m, idx := some a.toNat, acc := .read, act := loadElem hid en d }
  | .vstx v a q m _ => some { q := q, m := m, idx := some a.toNat, acc := .write, act := storeElem hid en v }
  | .vstxu v a q m _ => some { q := q, m := m, idx := some a.toNat, acc := .write, act := scatterElem hid en v }
  | .vsadd v a q m _ =>
    some { q := q, m := m, idx := some a.toNat, spaces := fun sp => sp == .dv, acc := .write, act := sendElem hid en v }
  | _ => none

/-- The state a vector memory instruction begins its elements in: a first-fault load clears vffst first (R285). -/
def State.memSent (s : State) (i : Instr) (op : VecOp) : State :=
  let u := s.vecSent i op
  match i with
  | .vldff .. => u.setHart { u.hart with vec := { u.hart.vec with trim := false, trimCause := 0, trimElem := 0 } }
  | _ => u

/-- The active elements of a vector memory instruction, in order. -/
def State.memElems (s : State) (i : Instr) (op : VecOp) (en : Entry) (m : BitVec 1) : List (Nat × Nat) :=
  let v := (s.memSent i op).hart.vec
  (v.elems false).filter (fun re => v.active (maskOf m en) re.1 re.2)

/-! ### The matrix engine -/

/-- The operands S[d], S[a] and S[b] that a matrix instruction captures at dispatch (R71, R294). -/
def State.matScalars (s : State) : Instr → Word × Word × Word
  | .mmr d _ _ _ _ _ | .mms d _ _ _ _ _ | .mmsp d _ _ _ _ _ _ | .mrd d _ _ _ => (s.reg d, 0, 0)
  | .mmqSq d a b _ _ _ _ | .mmqAb d a b _ _ _ _ | .mmov d a b _ _ => (s.reg d, s.reg a, s.reg b)
  | .mldWb a _ _ _ | .mldSq a _ _ _ | .mldsWb a _ _ | .mldsSq a _ _ => (0, s.reg a, 0)
  | .mclr d b _ _ => (s.reg d, 0, s.reg b)
  | _ => (0, 0, 0)

/-- The queue entry that dispatch makes of a matrix instruction. -/
def State.matEntry (s : State) (i : Instr) : Entry :=
  let x := s.matScalars i
  { s.mkEntry i x.2.1 x.2.2 with op3 := x.1 }

/-- The state in which a matrix instruction has its effect, where the queue was empty. -/
def State.matSent (s : State) (i : Instr) : State := s.setHart (s.hart.dispatched .m (s.matEntry i))

/-- The matrix engine takes the instruction as soon as it is dispatched: its prefix fits, the matrix queue is empty, no other
hart of the core runs (R42), nothing holds it (R34, R43, R46, R48, R298), no soft error stands in data (R366), and the checks
of R307 pass. -/
def State.matFree (s : State) (i : Instr) (op : MatOp) : Prop :=
  s.hart.prefixFits .m false op.vecResult = true ∧ s.hart.mq = [] ∧ s.shared s.cur = false ∧ s.dev.latent = none ∧
  (s.matSent i).matHeld s.cur op (s.matEntry i) = false ∧ (s.matSent i).matCheck s.cur op (s.matEntry i) = none

/-- What a matrix instruction leaves in its hart when it retires, at once or when its rows are through, beside a vector register it
writes. -/
def State.matLeaves (s t : State) (fl : Flags) : Prop :=
  let k := (t.hartAt s.cur).through .m
  k.fflags = s.hart.fflags ||| fl ∧ k.regs = s.hart.regs ∧ k.mq = [] ∧ k.pc = (s.hart.pc + 4) &&& pcMask ∧ k.pfx = none ∧
  t.mem = s.mem ∧ t.clus = s.clus ∧ (∀ j, j ≠ s.cur → t.hartAt j = s.hartAt j) ∧ (∀ j, j ≠ s.coreNo → t.coreAt j = s.coreAt j)

/-- The rows that mmr, mms and mmsp multiply by a tile, with the accumulator row each is added to; none where an index
of mmsp is past kc (R299, R300, R302). -/
def matRowsOf (h : Hart) (en : Entry) : Instr → Option (Nat × Nat × List (Nat × List RowTerm))
  | .mmr d a fmt i _ t => some (t.toNat, fmt.toNat, [(matRow d i en, vTerms h fmt.toNat a.toNat 0)])
  | .mms d a fmt i _ t =>
    some (t.toNat, fmt.toNat, (List.range h.vec.rc).map (fun r => (matRow d i en + r, vTerms h fmt.toNat a.toNat r)))
  | .mmsp d a b fmt i _ t =>
    let v := h.vec
    let idx := (List.range v.vl).map (fun e => v.packed b.toNat 16 e)
    let terms := idx.zipIdx.map (fun p => ({
      k := p.1, x := v.packed a.toNat (rowWidth fmt.toNat) p.2
      e8 := if h.mshape.asc then some (v.elem 1 8 (p.1 / 32)) else none } : RowTerm))
    if idx.any (fun k => decide (h.mshape.kc fmt.toNat ≤ k)) then none
    else some (t.toNat, fmt.toNat, if v.vl = 0 then [] else [(matRow d i en, terms)])
  | _ => none

/-- Rows added one after another. -/
def State.rowsAdd (s : State) (hid t fmt : Nat) (l : List (Nat × List RowTerm)) : State × Flags :=
  l.foldl (fun acc r => let x := acc.1.rowAdd hid t fmt r.1 r.2; (x.1, acc.2 ||| x.2)) (s, 0)

/-- The source bytes of a tile load or a scale-plane load, its tile, the bytes it loads and where in the tile, whether
the rest of the tile is cleared, and the tile's tag after it (R303 to R305). -/
def matLoadOf (s : State) (x : Nat) : Instr → Option (Mem × Nat × Nat × Nat × Nat × Bool × (Tag → Tag))
  | .mldWb _ fmt _ t =>
    let n := if fmt = 7 then 32768 else 65536
    if x % 256 = 0 ∧ x + n ≤ Config.wbBytes then
      some ((s.coreAt s.coreNo).wb, x, t.toNat, n, 0, true, fun _ => { fmt := fmt, sp := false }) else none
  | .mldSq _ fmt _ t =>
    let n := if fmt = 7 then 32768 else 65536
    match s.sq s.who x n with
    | .ok p => if x % 256 = 0 then
        some ((s.clusAt s.clusNo).square, p, t.toNat, n, 0, true, fun _ => { fmt := fmt, sp := false }) else none
    | .error _ => none
  | .mldsWb _ _ t =>
    if x % 256 = 0 ∧ x + 4096 ≤ Config.wbBytes then
      some ((s.coreAt s.coreNo).wb, x, t.toNat, 4096, 32768, false, fun g => { g with sp := true }) else none
  | .mldsSq _ _ t =>
    match s.sq s.who x 4096 with
    | .ok p => if x % 256 = 0 then
        some ((s.clusAt s.clusNo).square, p, t.toNat, 4096, 32768, false, fun g => { g with sp := true }) else none
    | .error _ => none
  | _ => none

/-- What an engine's trap leaves: the hart suspended with the cause, the engine, the pc and the word of the instruction
in the header, no register and no byte of memory changed (R127, R130). -/
def State.engineStops (s t : State) (c engine : BitVec 8) : Prop :=
  let k := t.hartAt s.cur
  k.run = .suspending ∧ k.post = true ∧ k.hdr.cause = c ∧ k.hdr.engine = engine ∧ k.hdr.ipc = s.hart.pc ∧ k.hdr.word = s.ir ∧
  k.regs = s.hart.regs ∧ k.fflags = s.hart.fflags ∧ k.vec.regs = s.hart.vec.regs ∧ t.mem = s.mem ∧
  (∀ j, (t.coreAt j).acc = (s.coreAt j).acc ∧ (t.coreAt j).tiles = (s.coreAt j).tiles)

/-! ### Submissions (R35, R51, R52) -/

/-- A submission of asynchronous work: its engine, what it submits, whether it may wait, the register of its accept word
the token FIFO of its completion, its admission, and whether it is a bay.take. -/
structure Submission where
  e : Eng
  x : Submit
  w : Bool
  d : BitVec 5
  tok : Nat := 0
  ask : State → Except Stop Adm
  take : Bool := false

/-- The instructions that submit work (R113, R187, R188, R319, R339, R341). -/
def submissionOf : Instr → Option Submission
  | .cpGo o => some {
      e := .c, x := .cp o, w := o.w = 1, d := o.d, tok := compTok o.comp
      ask := fun t => t.copyAdmit (.cpGo o) (o.w = 1) false (srcSpace o.ssp) (dstSpace o.dsp) (t.reg o.a) (t.reg o.b) t.hart.c[o.ck.toNat] }
  | .cpXpd o => some {
      e := .c, x := .xpd o, w := o.w = 1, d := o.d, tok := compTok o.comp
      ask := fun t => t.copyAdmit (.cpXpd o) (o.w = 1) true (srcSpace o.ssp) (dstSpace o.dsp) (t.reg o.a) (t.reg o.b) {} }
  | .bayTakeFix d a w => some {
      e := .s, x := .take false d a 0, w := w = 1, d := d, take := true
      ask := fun t => t.takeAdmit false (w = 1) (t.reg a) 0 }
  | .bayTakeNeg d a b w => some {
      e := .s, x := .take true d a b, w := w = 1, d := d, take := true
      ask := fun t => t.takeAdmit true (w = 1) (t.reg a) (t.reg b) }
  | .smpReq d a w fl => some {
      e := .s, x := .smp 0 d a 0 fl, w := w = 1, d := d
      ask := fun t => t.smpAdmit 0 (w = 1) (t.reg a) 0 }
  | .smpTld d a b w => some {
      e := .s, x := .smp 1 d a b 0, w := w = 1, d := d
      ask := fun t => t.smpAdmit 1 (w = 1) (t.reg a) (t.reg b) }
  | .smpTst d a b w => some {
      e := .s, x := .smp 2 d a b 0, w := w = 1, d := d
      ask := fun t => t.smpAdmit 2 (w = 1) (t.reg a) (t.reg b) }
  | .smpPld d a b w => some {
      e := .s, x := .smp 3 d a b 0, w := w = 1, d := d
      ask := fun t => t.smpAdmit 3 (w = 1) (t.reg a) (t.reg b) }
  | .glaunch d a => some {
      e := .s, x := .launch d a, w := false, d := d
      ask := fun t => t.launchAdmit (t.reg a) }
  | _ => none

/-- The pushes it reserves: its prefix's and its completion's. -/
def Submission.pushes (x : Submission) (push : Nat) : List Nat :=
  (if push = 0 then [] else [push]) ++ (if x.tok = 0 then [] else [x.tok])

/-- The prefix of a submission fits, its pop finds a token, and every push it reserves a slot (R35, R62). -/
def Hart.canSubmit (h : Hart) (x : Submission) : Prop :=
  h.prefixFits x.e false false = true ∧ (h.reserveAll (x.pushes (pushOf h.pfx))).isSome = true

/-- The state after what a submission reads before it is answered: a request block, a program's header, a launch block. What one
that waits for admission has read, it doesn't read again (R339, R341). -/
def Submission.seen (x : Submission) (s : State) : State :=
  match x.x with
  | .smp op _ a _ _ => if s.hart.smpRaw.isSome then s else s.smpSeen op (s.reg a)
  | .launch _ a => s.blockSeen (s.reg a)
  | _ => s

/-- What a submission that is turned away leaves: the reason in S[d], bayh zero for a bay.take, the next pc, and nothing
else changed: no token moves and no work is accepted (R51, R52). -/
def State.turnedAway (s u : State) (x : Submission) (reason : Nat) : Prop :=
  s.sameBut u ∧ u.mem = s.mem ∧ u.dev = s.dev ∧ u.hart.reg x.d = (if x.d = 0 then 0 else BitVec.ofNat 64 reason) ∧
  (∀ q, q ≠ x.d → u.hart.reg q = s.hart.reg q) ∧
  u.hart = { s.hart with
    regs := u.hart.regs, pc := (s.hart.pc + 4) &&& pcMask, pfx := none, wait := none
    bay := { s.hart.bay with bayh := if x.take then 0 else s.hart.bay.bayh, ucnt := u.hart.bay.ucnt } }

/-- What a submission that is accepted leaves beside `t`, the state its admission gives: the accept word in S[d], the
pop taken, the completion's push reserved, the prefix's push reserved or, of the sequencer, deposited, the next pc. -/
def State.taken (s t u : State) (x : Submission) (word : Word) : Prop :=
  u.mem = t.mem ∧ u.clus = t.clus ∧ u.dev = t.dev ∧ u.cores = t.cores ∧ (∀ j, j ≠ s.cur → u.hartAt j = t.hartAt j) ∧
  u.hart.reg x.d = (if x.d = 0 then 0 else word) ∧ (∀ q, q ≠ x.d → u.hart.reg q = t.hart.reg q) ∧
  (let k0 := if popOf s.hart.pfx = 0 then t.hart else t.hart.takeTok (popOf s.hart.pfx)
   let k1 := (k0.reserveAll (x.pushes (pushOf s.hart.pfx))).getD k0
   let k := if x.e = .s then k1.deposit (pushOf s.hart.pfx) else k1
   u.hart = { t.hart with
     regs := u.hart.regs, pc := (t.hart.pc + 4) &&& pcMask, pfx := none, wait := none, tok := k.tok, tokres := k.tokres, pops := k.pops
     bay := { t.hart.bay with ucnt := u.hart.bay.ucnt } })

/-! ### Copies (R187 to R201) -/

/-- The operands of a copy command: spaces, bases, shape, whether it is a sparse expand, its submission. -/
structure CopyCmd where
  ssp : Space
  dsp : Space
  a : Word
  b : Word
  shape : Shape
  xpd : Bool

/-- The command of cp.go and of cp.xpd (R187, R188). -/
def copyCmd (s : State) : Instr → Option CopyCmd
  | .cpGo o => some ⟨srcSpace o.ssp, dstSpace o.dsp, s.reg o.a, s.reg o.b, s.hart.c[o.ck.toNat], false⟩
  | .cpXpd o => some ⟨srcSpace o.ssp, dstSpace o.dsp, s.reg o.a, s.reg o.b, {}, true⟩
  | _ => none

/-! ### The sampler's lanes (R344 to R348) -/

/-- A logit instruction's predicate, the index it finds bad in a lane, and what it leaves in a lane, from the bytes of
the request's slot (R347). -/
def logitTable : Instr → Option (BitVec 2 × (Lane → Bool) × (Mem → Lane → Lane)) :=
  let plain (p : BitVec 2) (f : Mem → Lane → Lane) := some (p, fun (_ : Lane) => false, f)
  let two (d : BitVec 4) (p : BitVec 2) (a b : BitVec 4) (f : Nat → Nat → Nat × Flags) :=
    plain p (fun _ l => l.setReg d (f (l.reg a) (l.reg b)).1)
  let cmp (p : BitVec 2) (a b : BitVec 4) (f : Nat → Nat → Bool × Flags) :=
    plain p (fun _ l => { l with cf := (f (l.reg a) (l.reg b)).1 })
  fun
  | .ladd d p a b => two d p a b (f32.add .rne)
  | .lsub d p a b => two d p a b (f32.sub .rne)
  | .lmul d p a b => two d p a b (f32.mul .rne)
  | .lfma d p a b => plain p (fun _ l => l.setReg d (f32.fma .rne (l.reg a) (l.reg b) (l.reg d)).1)
  | .lmin d p a b => two d p a b (f32.minMax false)
  | .lmax d p a b => two d p a b (f32.minMax true)
  | .lmov d p a => plain p (fun _ l => l.setReg d (l.reg a))
  | .lneg d p a => plain p (fun _ l => l.setReg d (l.reg a ^^^ 0x80000000))
  | .lconst d p imm => plain p (fun _ l => l.setReg d (65536 * imm.toNat))
  | .lconstl d p imm => plain p (fun _ l => l.setReg d (l.reg d / 65536 % 65536 * 65536 + imm.toNat))
  | .lcnt d p => plain p (fun slot l => l.setReg d (match countOf slot l.tok with | some i => f32OfNat (countEntry slot i).2 | none => 0))
  | .lbias d p a => plain p (fun slot l => l.setReg d (f32.add .rne (l.reg a) (biasOf slot l.tok)).1)
  | .lcmplt p a b => cmp p a b f32.lt
  | .lcmpeq p a b => cmp p a b f32.eq
  | .lcmple p a b => cmp p a b f32.le
  | .lmask p => plain p (fun _ l => { l with live := false, out := 0xFF800000 })
  | .lret p a => plain p (fun _ l => { l with live := false, out := BitVec.ofNat 32 (l.reg a) })
  | .lcnti d p a => some (p, fun l => (indexOf (l.reg a) 96).isNone, fun slot l =>
      l.setReg d (f32OfNat (countEntry slot ((indexOf (l.reg a) 96).getD 0)).2))
  | .lbiasi d p a => some (p, fun l => (indexOf (l.reg a) 16).isNone, fun slot l =>
      l.setReg d (biasEntry slot ((indexOf (l.reg a) 16).getD 0)).2.2)
  | _ => none

/-! ### Sampler work -/

/-- The op of R337 and the registers of the address and of the slot that a sampler submission names. -/
def samplerOf : Instr → Option (Nat × BitVec 5 × BitVec 5)
  | .smpReq _ a _ _ => some (0, a, 0)
  | .smpTld _ a b _ => some (1, a, b)
  | .smpTst _ a b _ => some (2, a, b)
  | .smpPld _ a b _ => some (3, a, b)
  | _ => none

/-- A piece of work of a hart in a slot is over, and smpcnt counts it (R335). -/
def State.workOver (s t : State) (cl : Nat) (w : Work) : Prop :=
  (t.hartAt w.hid).smp.cnt = (s.hartAt w.hid).smp.cnt + 1 ∧ (∀ v ∈ (t.clusAt cl).works, v.seq ≠ w.seq)

/-- The fault that no result record shows (R335, R341). -/
def State.workFault (t : State) (w : Work) (code : BitVec 8) (a : Word) : Prop :=
  (t.hartAt w.hid).smp.stOp = BitVec.ofNat 4 w.op ∧ (t.hartAt w.hid).smp.stCause = code ∧ (t.hartAt w.hid).smp.addr = a

/-- A request ends without drawing (R352, R354): its result record holds the token 0xFFFFFFFF, the code, the cycles used
and the step, and no other byte changes; where the record can't be written, smpst and smpaddr say so. `b` is the state the record
is written in. -/
def State.requestEnds (s b t : State) (cl : Nat) (w : Work) (code cyc : Nat) : Prop :=
  s.workOver t cl w ∧
  (∀ u pa, b.dv w.who w.blk.res.toNat .write w.touch = .ok (u, pa) →
    t.mem.read pa 4 = 0xFFFFFFFF ∧ t.mem.read (pa + 12) 4 = code ∧ t.mem.read (pa + 16) 4 = cyc % 2 ^ 32 ∧
    t.mem.read (pa + 24) 8 = w.blk.step.toNat ∧ ∀ y, (y < pa ∨ pa + 32 ≤ y) → t.mem.byte y = u.mem.byte y) ∧
  (∀ e, b.dv w.who w.blk.res.toNat .write w.touch = .error e → t.mem = b.mem ∧ t.workFault w 0x4C w.blk.res)

/-! ### Gangs -/

/-- The launch block's group from byte 64 as hardware writes it, where it can be written: fields at their offsets, in the
block of gang x (R118). -/
def State.blockSays (s t : State) (x : Gang) (fields : List (Nat × Nat × Nat)) : Prop :=
  ∀ u pa, s.dv { supWho x.core with fn := x.ctx } (x.block.toNat + 64) .write 2 = .ok (u, pa) →
    ∀ f ∈ fields, t.mem.read (pa + f.1 - 64) f.2.1 = f.2.2 % 256 ^ f.2.1

/-! ### Notices, waits and the host -/

/-- Late work is reported (R56, R128): the reservation is broken, unless it is reservation 0, and the notice of cause 0x51 is
posted at the core: where that has no trap ring it stands last in its pending records. -/
def State.notices (s t : State) (core hid resv : Nat) (gang : BitVec 16) (rpc : Word) : Prop :=
  let r : Record := {
    cause := 0x51, engine := 7, flags := 8, hid := BitVec.ofNat 16 (if 4096 ≤ hid then 0xFFFF else hid), gang := gang
    rpc := rpc, time := s.time }
  (resv ≠ 0 → (t.rsvAt resv).brk = true) ∧
  ((s.coreAt core).tqbase = 0 → (t.coreAt core).pend = (s.coreAt core).pend ++ [r]) ∧
  ∃ u : State, u.mem = s.mem ∧ u.cores = s.cores ∧ u.dev.latent = s.dev.latent ∧ t.mem = (u.postRecord core r).mem ∧
    t.coreAt core = (u.postRecord core r).coreAt core

/-- A hart that waits for `kind` goes on at the next word with a register written; its prefix is over (R35). -/
def State.wakes (s t : State) (hid : Nat) (d : BitVec 5) (v : Word) : Prop :=
  let h := s.hartAt hid
  let k := t.hartAt hid
  k.wait = none ∧ k.pfx = none ∧ k.pc = (h.pc + 4) &&& pcMask ∧ k.reg d = (if d = 0 then 0 else v) ∧
  (∀ q, q ≠ d → k.reg q = h.reg q) ∧ k.run = .running ∧ ∀ j, j ≠ hid → t.hartAt j = s.hartAt j

/-- A completion returned to the host after those before (R358). -/
def State.answers (s t : State) (fn : BitVec 5) (st : HostStatus) (data : Word) : Prop :=
  t.dev.done = s.dev.done ++ [⟨fn, st, data⟩]

/-- A command record that a function's service cores take next, with its code (R361): where its bytes lie, in which no soft error
stands, and the state after the access to them. -/
def State.commandAt (s : State) (f : Nat) (code : Nat) (u : State) (pa : Nat) : Prop :=
  ∃ a, s.nextCommand f = some a ∧ s.dv (hostWho f) a .rmw 2 = .ok (u, pa) ∧ u.spoiled 3 0 pa 64 = false ∧ u.mem.read pa 1 = code

/-- A command was done (R361): its status is in its record, and cqhead has advanced. -/
def State.commandDone (s t : State) (f : Nat) (pa st : Nat) : Prop :=
  t.mem.read (pa + 1) 1 = st ∧ (t.fnAt f).cqhead = (s.fnAt f).cqhead + 1

/-! ### Whose turn it is -/

/-- A step has nothing to do before hart `hid`'s next word, from the state `r`: the hart has just dispatched a prefix, or
nothing is due and the next core with a ready hart chooses it (R120, R122). -/
def State.chooses (s r : State) (hid : Nat) : Prop :=
  (s.pairOpen = true ∧ r = s ∧ hid = s.cur) ∨
  (s.pairOpen = false ∧ s.due = none ∧ ∃ k, s.nextCore = some k ∧ r = s.unready s.turn k ∧ r.pick k = some hid)

/-! ### The invariant -/

/-- Every memory of the machine is in canonical form: main memory, and the SRAM of cores, clusters and harts (log 2). -/
def State.memsWf (s : State) : Prop :=
  s.mem.wf = true ∧
  (∀ k, (s.coreAt k).ab.wf = true ∧ (s.coreAt k).wb.wf = true ∧ (s.coreAt k).acc.wf = true ∧ (s.coreAt k).tiles.wf = true ∧
    (s.coreAt k).cb.wf = true) ∧
  (∀ c, (s.clusAt c).square.wf = true ∧ (s.clusAt c).table.wf = true) ∧
  (∀ h, (s.hartAt h).vec.regs.wf = true ∧ (s.hartAt h).vec.lp.wf = true)

end Sys2Proof.Machine
end

