-- ==== Sys2Proof/Certificates/Slice0/Obligations.lean ====
section
/-! DEFINITION. The statements for the provers, from the rules of the spec. A function of the model's own that a statement
uses says where a meaning acts; the tables of results are those of Sys2Proof/Safety.lean. -/

open Sys2Proof Sys2Proof.Machine

/-! ### Scalar instructions -/

/-- The integer instructions of R89 to R92, after any prefix that fits: S[d] takes the table's value and the pc moves on;
nothing else changes (a write to s0 is discarded, R67). The scalar floating-point instructions of R94 and R95: S[d]
takes the rounded result, its flags are ORed into fflags. -/
def Obligations.ScalarResults : Prop :=
  (∀ (i : Instr) (s : State) (d : BitVec 5) (v : Word), intResult s i = some (d, v) →
     s.hart.prefixFits .s false false = true →
     exec i s = .next ((s.begun.setReg d v).retired (pushOf s.hart.pfx))) ∧
  (∀ (i : Instr) (s : State) (d : BitVec 5) (x : Nat) (fl : Flags), fpResult s i = some (d, x, fl) →
     s.hart.prefixFits .s false false = true →
     let t := s.begun.setReg d (BitVec.ofNat 64 x)
     exec i s = .next ((t.setHart { t.hart with fflags := t.hart.fflags ||| fl }).retired (pushOf s.hart.pfx)))

/-- The frame of the integer and floating-point instructions: every scalar register but S[d] keeps its value, every byte
of memory reads as before, nothing of the hart changes beside registers, flags, pc, prefix, tokens and the running
count of surrender units, and nothing else of the machine. -/
def Obligations.ScalarFrame : Prop :=
  ∀ (i : Instr) (s t : State) (d : BitVec 5),
    ((∃ v, intResult s i = some (d, v)) ∨ (∃ r, fpResult s i = some (d, r))) →
    s.hart.prefixFits .s false false = true → exec i s = .next t →
    s.sameBut t ∧ t.dev = s.dev ∧ s.sameMem t ∧ s.hart.sameBut t.hart ∧
    (∀ q, q ≠ d → t.hart.reg q = s.hart.reg q) ∧ t.hart.pc = (s.hart.pc + 4) &&& pcMask ∧
    ((∃ v, intResult s i = some (d, v)) → t.hart.fflags = s.hart.fflags)

/-- Loads: S[d] takes the bytes at the address, extended as the type says (R96), where the checks of R97 let the access
through. Stores: the low bytes of S[v] go to the address (R96), where the checks of R97 let the access through. The
checks of a scalar access to device-virtual memory in the order of R97: a misaligned address is cause 0x10, then one
at or past 2^57 cause 0x14, then what the walk meets, then cause 0x12 where the entry does not allow the access; each
with the address. A load or a store then traps with that cause, precisely. Those of a scalar access to the Square (R97,
R303, R314): a misaligned address is cause 0x10, then one past bit 31 cause 0x14, then the cause that its bay's handle
meets, 0x40 or 0x43, then 0x17 where the access passes the bay's size. An access that has to wait for stream S or for its port
(R31, R99, R152) does none of this yet. -/
def Obligations.LoadsAndStores : Prop :=
  (∀ (d a : BitVec 5) (off : BitVec 8) (ordsc : BitVec 4) (sp : BitVec 1) (ty : BitVec 3) (s t : State) (p : Place),
     s.hart.prefixFits .s false false = true → badScope sp (ordscScope ordsc) = none →
     s.begun.scalarPlace sp (scalarAddr (s.reg a) off (tySize ty)) (tySize ty) .read = .ok (t, p) →
     exec (.ld d a off ordsc sp ty) s =
       .next ((t.setReg d (loadExt ty (t.getAt p (tySize ty)))).retired (pushOf s.hart.pfx))) ∧
  (∀ (v a : BitVec 5) (off : BitVec 8) (ordsc : BitVec 4) (sp : BitVec 1) (ty : BitVec 3) (s t : State) (p : Place),
     s.hart.prefixFits .s false false = true → badScope sp (ordscScope ordsc) = none →
     s.begun.scalarPlace sp (scalarAddr (s.reg a) off (tySize ty)) (tySize ty) .write = .ok (t, p) →
     exec (.st v a off ordsc sp ty) s = .next ((t.putAt p (tySize ty) (s.reg v).toNat).retired (pushOf s.hart.pfx))) ∧
  (∀ (r a : BitVec 5) (off : BitVec 8) (ordsc : BitVec 4) (ty : BitVec 3) (s : State) (c : BitVec 8),
     s.hart.prefixFits .s false false = true →
     let x := (scalarAddr (s.reg a) off (tySize ty)).toNat
     let why (acc : Acc) : Prop :=
       (x % tySize ty ≠ 0 ∧ c = 0x10) ∨ (x % tySize ty = 0 ∧ 2 ^ 57 ≤ x ∧ c = 0x14) ∨
       (x % tySize ty = 0 ∧ x < 2 ^ 57 ∧ s.leafOf s.who x = .error c) ∨
       (x % tySize ty = 0 ∧ x < 2 ^ 57 ∧ c = 0x12 ∧ ∃ l, s.leafOf s.who x = .ok l ∧ pteAllows l.2 s.who.user acc = false)
     (s.scalarGate 0 .read = none → why .read → exec (.ld r a off ordsc 0 ty) s = .next (s.popped.trapSeq ⟨c, BitVec.ofNat 64 x⟩)) ∧
     (s.scalarGate 0 .write = none → why .write → exec (.st r a off ordsc 0 ty) s = .next (s.popped.trapSeq ⟨c, BitVec.ofNat 64 x⟩))) ∧
  (∀ (r a : BitVec 5) (off : BitVec 8) (ordsc : BitVec 4) (ty : BitVec 3) (s : State) (c : BitVec 8),
     s.hart.prefixFits .s false false = true → badScope 1 (ordscScope ordsc) = none →
     let x := (scalarAddr (s.reg a) off (tySize ty)).toNat
     let bay := s.reach s.who s.who.clus (x / 2 ^ 24)
     (x % tySize ty ≠ 0 ∧ c = 0x10) ∨ (x % tySize ty = 0 ∧ 2 ^ 32 ≤ x ∧ c = 0x14) ∨
       (x % tySize ty = 0 ∧ x < 2 ^ 32 ∧ ∃ e, bay = .error (.trap e) ∧ e.cause = c) ∨
       (x % tySize ty = 0 ∧ x < 2 ^ 32 ∧ c = 0x17 ∧ ∃ size, bay = .ok size ∧ size < x % 2 ^ 24 + tySize ty) →
     (s.scalarGate 1 .read = none → exec (.ld r a off ordsc 1 ty) s = .next (s.popped.trapSeq ⟨c, BitVec.ofNat 64 x⟩)) ∧
     (s.scalarGate 1 .write = none → exec (.st r a off ordsc 1 ty) s = .next (s.popped.trapSeq ⟨c, BitVec.ofNat 64 x⟩)))

/-- The frame of a load and a store to device-virtual memory that meet no fault: beside the stored bytes, only the eight
bytes of the leaf entry they translate through may change, for its accessed and dirty bits (R158), and the core's port is at
work (R43). -/
def Obligations.LoadStoreFrame : Prop :=
  ∀ (r a : BitVec 5) (off : BitVec 8) (ordsc : BitVec 4) (ty : BitVec 3) (s t u : State) (p : Place) (at_ pte : Nat),
    s.hart.prefixFits .s false false = true →
    s.begun.leafOf s.begun.who (scalarAddr (s.reg a) off (tySize ty)).toNat = .ok (at_, pte) →
    (∀ i, i = Instr.ld r a off ordsc 0 ty →
      s.begun.scalarPlace 0 (scalarAddr (s.reg a) off (tySize ty)) (tySize ty) .read = .ok (u, p) → exec i s = .next t →
      s.sameMemBut t at_ 8 ∧ s.hart.sameBut t.hart ∧ t.hart.fflags = s.hart.fflags ∧ s.sameButBusy t ∧
      ∀ q, q ≠ r → t.hart.reg q = s.hart.reg q) ∧
    (∀ i, i = Instr.st r a off ordsc 0 ty →
      s.begun.scalarPlace 0 (scalarAddr (s.reg a) off (tySize ty)) (tySize ty) .write = .ok (u, p) → exec i s = .next t →
      p.at_ = leafPa pte (scalarAddr (s.reg a) off (tySize ty)).toNat ∧
      (∀ b, (b < at_ ∨ at_ + 8 ≤ b) → (b < p.at_ ∨ p.at_ + tySize ty ≤ b) → t.mem.byte b = s.mem.byte b) ∧
      s.hart.sameBut t.hart ∧ t.hart.fflags = s.hart.fflags ∧ s.sameButBusy t ∧ ∀ q, t.hart.reg q = s.hart.reg q)

/-- A load or a store to device-virtual memory that must wait in stream S, behind an access that waits there, behind the
vector memory that an sbar puts before it, or for its port (R31, R99, R152, R155), is dispatched: it stands last there, a load's
register pending, and dispatch goes on with registers as they were; it keeps what a trap of its own goes back to. Where three
wait already, no request slot is free, or its check fails, dispatch waits. When its turn comes its check is made anew: a load
writes its register, in what later accesses go back to as well, and a store its bytes, and it leaves stream S. One that its
check does not let through then traps precisely, at its own pc with the registers, flags and prefix it was dispatched with, and
nothing behind it is left in stream S. That three wait at most, that accesses are performed in events of their own, and how a
trap finds them are the model's choice (log 26, log 18). -/
def Obligations.StreamSWaits : Prop :=
  (∀ (r a : BitVec 5) (off : BitVec 8) (ordsc : BitVec 4) (ty : BitVec 3) (s t : State) (p : Place) (w : Wait),
     s.hart.prefixFits .s false false = true →
     let x := scalarAddr (s.reg a) off (tySize ty)
     let b := s.begun
     let queued (i : Instr) (k : SKind) (v : Word) : Prop := ∃ u y z, exec i s = .next u ∧ u.hart.ss = s.hart.ss ++ [y] ∧
       y.kind = k ∧ y.sq = false ∧ y.size = tySize ty ∧ y.addr = x ∧ y.val = v ∧ y.pc = s.hart.pc ∧ y.back = some z ∧
       z.regs = s.hart.regs ∧ z.fflags = s.hart.fflags ∧ z.pfx = s.hart.pfx.map (fun f => f.1) ∧ z.pops = b.hart.pops ∧
       u.hart.regs = s.hart.regs ∧ u.mem = t.mem ∧ u.hart.pc = (s.hart.pc + 4) &&& pcMask ∧
       (∀ ty d, k = .load ty d → d ∈ u.hart.pendingRegs)
     let room := s.hart.ss.length < 3 ∧ s.slotFree s.cur = true
     let waits (i : Instr) : Prop := exec i s = .next (s.waitFor w)
     let look (acc : Acc) : Except Stop (State × Place) := b.scalarLook s.cur b.hart.scalarTouch 0 x (tySize ty) acc
     (s.scalarGate 0 .read = some w →
       (look .read = .ok (t, p) → room → queued (.ld r a off ordsc 0 ty) (.load ty r) 0) ∧
       (¬ room → waits (.ld r a off ordsc 0 ty)) ∧ (∀ e, look .read = .error e → waits (.ld r a off ordsc 0 ty))) ∧
     (s.scalarGate 0 .write = some w →
       (look .write = .ok (t, p) → room → queued (.st r a off ordsc 0 ty) .store (s.reg r)) ∧
       (¬ room → waits (.st r a off ordsc 0 ty)) ∧ (∀ e, look .write = .error e → waits (.st r a off ordsc 0 ty)))) ∧
  (∀ (s u : State) (hid : BitVec 11) (x : SAcc) (rest : List SAcc) (p : Place),
     let h := s.hartAt hid.toNat
     let plain (l : List SAcc) : List SAcc := l.map (fun y => { y with back := none })
     let look : Except Stop (State × Place) := s.scalarLook hid.toNat x.touch 0 x.addr x.size x.kind.acc
     h.ss = x :: rest → x.sq = false → s.sReady hid.toNat x = true → h.run = .running →
     (look = .ok (u, p) →
       (∀ ty d, x.kind = .load ty d → ∃ t, exec (.instructionRetire hid 0) s = .next t ∧
         plain (t.hartAt hid.toNat).ss = plain rest ∧
         (d ≠ 0 → (t.hartAt hid.toNat).reg d = loadExt ty (u.mem.read p.at_ x.size) ∧
           ∀ y ∈ (t.hartAt hid.toNat).ss, ∀ b, y.back = some b → b.regs[d.toNat] = loadExt ty (u.mem.read p.at_ x.size)) ∧
         (∀ q, q ≠ d → (t.hartAt hid.toNat).reg q = h.reg q) ∧ t.mem = u.mem) ∧
       (x.kind = .store → ∃ t, exec (.instructionRetire hid 0) s = .next t ∧ plain (t.hartAt hid.toNat).ss = plain rest ∧
         t.mem = u.mem.write p.at_ x.size x.val.toNat ∧ (t.hartAt hid.toNat).regs = h.regs)) ∧
     (∀ tr b, look = .error (.trap tr) → x.back = some b → h.surr = none → h.bay.isOpen = false → (∀ id, x.kind ≠ .token id) →
       ∃ t, exec (.instructionRetire hid 0) s = .next t ∧ t.mem = s.mem ∧
         let k := t.hartAt hid.toNat
         k.run = .suspending ∧ k.hdr.cause = tr.cause ∧ k.hdr.addr = tr.addr ∧ k.hdr.ipc = x.pc ∧ k.hdr.word = x.word ∧
         k.hdr.rpc = x.pc ∧ k.hdr.flags.toNat % 2 = 0 ∧ k.regs = b.regs ∧ k.fflags = b.fflags ∧ k.ss = [] ∧
         (∀ w, b.pfx = some w → k.pfxsave = { pend := true, popd := true, word := w }) ∧
         (b.pfx = none → k.pfxsave.pend = false)))

/-- Branches: the pc goes to the target when the condition holds, else to the next word (R100). Jumps and calls (R81,
R101): the pc goes to the target, and a call writes the next word's address to s1 after its target is read. A register
target that is not a multiple of 4 raises cause 0x04, one at or past 2^57 cause 0x14. A branch or a jump after a
prefix word raises cause 0x03 (R62). That one which is both raises 0x04, and that a relative target past 2^57 or below 0
wraps, are the model's choices, not the rules' (log 65, log 80). -/
def Obligations.BranchesAndJumps : Prop :=
  (∀ (i : Instr) (s : State) (taken : Bool) (off : BitVec 13), branchOf s i = some (taken, off) → s.hart.pfx = none →
     exec i s = .next (s.jumped ((s.hart.pc + if taken then 4 * BitVec.ofInt 64 off.toInt else 4) &&& pcMask))) ∧
  (∀ (s : State) (imm : BitVec 21) (a : BitVec 5), s.hart.pfx = none →
     let target := (s.hart.pc + 4 * BitVec.ofInt 64 imm.toInt) &&& pcMask
     let link := s.setReg 1 ((s.hart.pc + 4) &&& pcMask)
     let x := s.reg a
     exec (.j imm) s = .next (s.jumped target) ∧ exec (.call imm) s = .next (link.jumped target) ∧
     (x.toNat % 4 ≠ 0 → exec (.jr a) s = .next (s.trapSeq ⟨0x04, x⟩) ∧ exec (.callr a) s = .next (s.trapSeq ⟨0x04, x⟩)) ∧
     (x.toNat % 4 = 0 → 2 ^ 57 ≤ x.toNat →
       exec (.jr a) s = .next (s.trapSeq ⟨0x14, x⟩) ∧ exec (.callr a) s = .next (s.trapSeq ⟨0x14, x⟩)) ∧
     (x.toNat % 4 = 0 → x.toNat < 2 ^ 57 → exec (.jr a) s = .next (s.jumped x) ∧ exec (.callr a) s = .next (link.jumped x))) ∧
  (∀ (i : Instr) (s : State), ((∃ x, branchOf s i = some x) ∨ (∃ m, i = .j m) ∨ (∃ m, i = .call m) ∨ (∃ a, i = .jr a) ∨
       (∃ a, i = .callr a) ∨ (∃ m c p q h, i = .pfx m c p q h)) →
     s.hart.pfx.isSome = true → exec i s = .next (s.trapSeq ⟨0x03, 0⟩))

/-- Atomics (R102, R103): the place takes the new value, S[d] the old one; where acas finds another value nothing is
written to the place. Fences complete, changing nothing but the pc, when what they order is performed; fence.sv does not
stop dispatch, and the vector memory instructions behind it wait for what stands in stream S (R106 to R108). -/
def Obligations.AtomicsAndFences : Prop :=
  (∀ (i : Instr) (s t : State) (o : Atom) (f : Nat → Nat → Nat → Option Nat) (p : Place), atomicNew s i = some (o, f) →
     s.hart.prefixFits .s false false = true → badScope o.sp o.sc.toNat = none →
     let n := 4 + 4 * o.w.toNat
     let b := (s.reg o.b).toNat % 2 ^ (8 * n)
     (∀ x, s.begun.scalarPlace o.sp (s.reg o.a) n .rmw = .ok (t, p) → f n (t.getAt p n) b = some x →
       exec i s = .next (((t.putAt p n x).setReg o.d (atomicOld i n (t.getAt p n))).retired (pushOf s.hart.pfx))) ∧
     (∀ u q, s.begun.scalarPlace o.sp (s.reg o.a) n .rmw = .ok (u, q) → f n (u.getAt q n) b = none →
       s.begun.scalarPlace o.sp (s.reg o.a) n .read = .ok (t, p) →
       exec i s = .next ((t.setReg o.d (atomicOld i n (t.getAt p n))).retired (pushOf s.hart.pfx)))) ∧
  (∀ (s : State) (sc : BitVec 3), s.hart.prefixFits .s false false = true →
     let done : Host.Outcome State Fault Refusal := .next (s.begun.retired (pushOf s.hart.pfx))
     (s.hart.ss = [] → exec (.fenceSv sc) s = done) ∧
     (s.hart.ss ≠ [] → ∃ t, exec (.fenceSv sc) s = .next t ∧ t.hart.holdV = s.hart.seq ∧ t.hart.ss = s.hart.ss ∧
       t.hart.pc = (s.hart.pc + 4) &&& pcMask ∧ t.hart.regs = s.hart.regs ∧ t.mem = s.mem ∧ s.sameBut t) ∧
     (s.hart.vecMemPending = false → exec (.fenceVs sc) s = done) ∧
     exec (.fenceVv sc) s = done ∧
     (s.hart.queuesBusy = false → s.samplerBusy s.cur = false → exec (.fenceAll sc) s = done) ∧
     ((∀ e ∈ s.hart.vq, ∀ v a q m c, e.instr = .vsadd v a q m c → e.done = true) →
       (∀ u ∈ s.dev.updates, u.hid ≠ s.cur) → s.hart.lostUpd = none → exec (.fenceBinsRel sc) s = done))

/-- Token moves (R109): tkpush deposits a token in a FIFO of the sequencer, tkpop takes one; one of another engine raises
cause 0x03. A tkpush behind accesses in stream S or behind moves that wait in an engine's order reserves its slot and
stands in stream S, and its token comes when those are over. On a full FIFO tkpush waits, on an empty one tkpop, for two
where the prefix moves a token of the same FIFO (R35). A token taken behind an access that can still trap keeps its slot till that
is over, which is the model's choice (log 26). wtime (R111): where time has reached the target it writes time and
goes on, else the hart waits; the wait's end writes the time then. In a surrender routine it raises cause 0x44 (R325). -/
def Obligations.TokensAndTime : Prop :=
  (∀ (s : State) (id : BitVec 5), 1 ≤ id.toNat → id.toNat ≤ 12 →
     let n := id.toNat
     let now := s.hart.ss = [] ∧ s.hart.movesBefore s.hart.seq = false
     (tokProducer n ≠ .s → exec (.tkpush id) s = .next (s.trapSeq ⟨0x03, 0⟩)) ∧
     (tokConsumer n ≠ .s → exec (.tkpop id) s = .next (s.trapSeq ⟨0x03, 0⟩)) ∧
     (tokProducer n = .s → s.hart.prefixFits .s false false = true →
       (8 ≤ s.begun.hart.slotsTaken n →
         exec (.tkpush id) s = .next (s.waitFor (if pushOf s.hart.pfx = n then .pushes n 2 else .push n))) ∧
       (s.begun.hart.slotsTaken n < 8 →
         (now → exec (.tkpush id) s =
           .next ((s.begun.setHart ((s.begun.hart.reserveTok n).depositTok n)).retired (pushOf s.hart.pfx))) ∧
         (¬ now → s.hart.ss.length < 3 → ∃ u y, exec (.tkpush id) s = .next u ∧ u.hart.ss = s.hart.ss ++ [y] ∧
           y.kind = .token n ∧ y.seq = s.hart.seq ∧ u.hart.tokens n = s.begun.hart.tokens n ∧
           u.hart.reserved n = s.begun.hart.reserved n + 1 ∧ u.hart.regs = s.hart.regs ∧
           u.hart.pc = (s.hart.pc + 4) &&& pcMask ∧ s.sameMem u) ∧
         (¬ now → 3 ≤ s.hart.ss.length → exec (.tkpush id) s = .next (s.waitFor .publish)))) ∧
     (tokConsumer n = .s → s.hart.prefixFits .s false false = true →
       (s.begun.hart.tokens n = 0 →
         exec (.tkpop id) s = .next (s.waitFor (if popOf s.hart.pfx = n then .pops n 2 else .pop n))) ∧
       (s.begun.hart.tokens n ≠ 0 →
         exec (.tkpop id) s = .next ((s.begun.setHart (s.begun.hart.takeTok n)).retired (pushOf s.hart.pfx)))) ∧
     (tokProducer n = .s → s.hart.pfx = none → now → s.hart.tokens n + s.hart.reserved n < 8 →
       ∃ t, exec (.tkpush id) s = .next t ∧ t.hart.tokens n = s.hart.tokens n + 1 ∧
         t.hart.reserved n = s.hart.reserved n ∧ t.hart.pc = (s.hart.pc + 4) &&& pcMask ∧
         s.sameBut t ∧ s.sameMem t ∧ (∀ j, j ≠ n → t.hart.tokens j = s.hart.tokens j) ∧ s.hart.sameBut t.hart ∧
         t.hart.regs = s.hart.regs) ∧
     (tokConsumer n = .s → s.hart.pfx = none → s.hart.tokens n ≠ 0 →
       ∃ t, exec (.tkpop id) s = .next t ∧ t.hart.tokens n + 1 = s.hart.tokens n ∧
         t.hart.pc = (s.hart.pc + 4) &&& pcMask ∧ s.sameBut t ∧ s.sameMem t ∧
         (∀ j, j ≠ n → t.hart.tokens j = s.hart.tokens j) ∧ s.hart.sameBut t.hart ∧ t.hart.regs = s.hart.regs)) ∧
  (∀ (s : State) (d a : BitVec 5), s.hart.prefixFits .s false false = true →
     (s.hart.surr = none → s.reg a ≤ s.time →
       exec (.wtime d a) s = .next ((s.begun.setReg d s.time).retired (pushOf s.hart.pfx))) ∧
     (s.hart.surr = none → s.time < s.reg a →
       exec (.wtime d a) s =
         .next (s.begun.setHart { s.begun.hart with wait := some { kind := .wtime (s.reg a) d, since := s.time } })) ∧
     (s.hart.surr.isSome = true → exec (.wtime d a) s = .next (s.popped.trapSeq ⟨0x44, 0⟩)))

/-! ### The prefix word, status registers and streams -/

/-- The prefix word (R60): its fields wait for the next word, and the pc moves on. A second prefix in a row raises cause
0x03 (R62). What a prefix does to an integer or floating-point instruction (R35, R62): a mask or copy field, a pop the
sequencer does not consume or a push it does not produce raises cause 0x03; else the instruction waits while its pop
finds no token, and then while its push finds no slot. -/
def Obligations.Prefixes : Prop :=
  (∀ (m c : BitVec 5) (pop push hint : BitVec 4) (s : State),
     (s.hart.pfx = none →
       ∃ t, exec (.pfx m c pop push hint) s = .next t ∧
         t.hart.pfx = some (pfxWord m c pop push hint, false) ∧ t.hart.pc = (s.hart.pc + 4) &&& pcMask ∧
         t.hart.regs = s.hart.regs ∧ t.hart.tok = s.hart.tok ∧ t.hart.tokres = s.hart.tokres ∧
         pfxMask (pfxWord m c pop push hint) = m.toNat ∧ pfxCopy (pfxWord m c pop push hint) = c.toNat ∧
         pfxPop (pfxWord m c pop push hint) = pop.toNat ∧ pfxPush (pfxWord m c pop push hint) = push.toNat ∧
         pfxHint (pfxWord m c pop push hint) = hint.toNat ∧ s.sameBut t ∧ t.mem = s.mem ∧ t.dev = s.dev) ∧
     (s.hart.pfx.isSome = true → exec (.pfx m c pop push hint) s = .next (s.trapSeq ⟨0x03, 0⟩))) ∧
  (∀ (i : Instr) (s : State) (w : BitVec 32) (took : Bool),
     ((∃ r, intResult s i = some r) ∨ (∃ r, fpResult s i = some r)) → s.hart.pfx = some (w, took) →
     let fits := pfxMask w = 0 ∧ pfxCopy w = 0 ∧ (pfxPop w = 0 ∨ tokConsumer (pfxPop w) = .s) ∧
       (pfxPush w = 0 ∨ tokProducer (pfxPush w) = .s)
     (¬ fits → exec i s = .next (s.trapSeq ⟨0x03, 0⟩)) ∧
     (fits → took = false → pfxPop w ≠ 0 → s.hart.tokens (pfxPop w) = 0 →
       exec i s = .next (s.waitFor (.pop (pfxPop w)))) ∧
     (fits → (took = true ∨ pfxPop w = 0 ∨ s.hart.tokens (pfxPop w) ≠ 0) → pfxPush w ≠ 0 →
       8 ≤ s.hart.tokens (pfxPush w) + s.hart.reserved (pfxPush w) →
       exec i s = .next (s.waitFor (.push (pfxPush w)))))

/-- mfs (R70, R71, R110): S[d] takes the register's value, where the hart may read it and nothing of its engine's
order is ahead; a move of fflags has waited for earlier vector and matrix instructions. mts (R70, R71, R110): the
register takes S[a], under the same conditions, where it is not read-only; one of xinv has waited for the requests
that are translated already (R159). Behind an access in stream S that can still trap, a mts of an engine's order is queued there
(R99; log 26). What a move finds of a status register (R69, R70, R88): a number no table lists
raises cause 0x02; a supervisor register, to a user hart, 0x05, both before the prefix is looked at; a write to a
read-only one 0x06. The supervisor's instructions raise cause 0x05 in a user hart (R69). -/
def Obligations.StatusMoves : Prop :=
  (∀ (d : BitVec 5) (n : BitVec 12) (s : State), s.hart.prefixFits .s false false = true →
     statusEarly s.hart.sup n.toNat = none → (n = 0x010 → s.hart.flagsBusy = false) →
     s.hart.queue (statusEng n.toNat) = [] →
     exec (.mfs d n) s =
       .next ((s.begun.setHartAt s.cur (s.begun.hart.setReg d (s.begun.readStatus s.cur n.toNat))).retired (pushOf s.hart.pfx))) ∧
  (∀ (a : BitVec 5) (n : BitVec 12) (s : State), s.hart.prefixFits .s false false = true →
     statusEarly s.hart.sup n.toNat = none → statusLate n.toNat = none → (n = 0x010 → s.hart.flagsBusy = false) →
     (n = 0x722 → s.xinvBusy s.coreNo (s.reg a) = false) →
     s.hart.queue (statusEng n.toNat) = [] →
     (statusEng n.toNat = .s ∨ s.hart.unsettled = false →
       exec (.mts a n) s = .next ((s.begun.writeStatus s.cur n.toNat (s.reg a)).retired (pushOf s.hart.pfx))) ∧
     (statusEng n.toNat ≠ .s → s.hart.unsettled = true → s.hart.moveWait (statusEng n.toNat) (.mts a n) = none →
       ∃ t en, exec (.mts a n) s = .next t ∧ t.hart.queue (statusEng n.toNat) = [en] ∧ en.instr = .mts a n ∧
         en.op1 = s.reg a ∧ t.hart.regs = s.hart.regs ∧ t.mem = s.mem ∧ t.hart.pc = (s.hart.pc + 4) &&& pcMask)) ∧
  (∀ (r : BitVec 5) (n : BitVec 12) (s : State),
     (statusAccess n.toNat = none →
       exec (.mfs r n) s = .next (s.trapSeq ⟨0x02, 0⟩) ∧ exec (.mts r n) s = .next (s.trapSeq ⟨0x02, 0⟩)) ∧
     ((statusAccess n.toNat = some .suRo ∨ statusAccess n.toNat = some .suRw ∨
         (statusAccess n.toNat ≠ none ∧ 0x700 ≤ n.toNat ∧ n.toNat ≤ 0x7FF)) → s.hart.sup = false →
       exec (.mfs r n) s = .next (s.trapSeq ⟨0x05, 0⟩) ∧ exec (.mts r n) s = .next (s.trapSeq ⟨0x05, 0⟩)) ∧
     ((statusAccess n.toNat = some .ro ∨ (statusAccess n.toNat = some .suRo ∧ s.hart.sup = true)) →
       (∀ w took, s.hart.pfx = some (w, took) → pfxMisuse w .s false false = false) →
       exec (.mts r n) s = .next (s.trapSeq ⟨0x06, 0⟩))) ∧
  (∀ (i : Instr) (s : State), ((∃ d a, i = .glaunch d a) ∨ (∃ a, i = .hsusp a) ∨ (∃ b a, i = .hsave b a) ∨
       (∃ b a, i = .hload b a) ∨ i = .tret) →
     s.hart.sup = false → exec i s = .next (s.trapSeq ⟨0x05, 0⟩))

/-- A read-write register of the hart reads as it was written: frm, rkey, rstrm, rctr, estart, rowstart, vstrap, vwtmo,
mshape, cpcnt and smpcnt, each in its own bits (R71, R72, R203, R293). -/
def Obligations.StatusReadBack : Prop :=
  ∀ (s : State) (v : Word),
    (s.writeStatus s.cur 0x011 v).readStatus s.cur 0x011 = v &&& 3 ∧
    (s.writeStatus s.cur 0x012 v).readStatus s.cur 0x012 = v ∧
    (s.writeStatus s.cur 0x013 v).readStatus s.cur 0x013 = v ∧
    (s.writeStatus s.cur 0x014 v).readStatus s.cur 0x014 = v ∧
    (s.writeStatus s.cur 0x203 v).readStatus s.cur 0x203 = v &&& 0xFFFFFFFF ∧
    (s.writeStatus s.cur 0x204 v).readStatus s.cur 0x204 = v &&& 7 ∧
    (s.writeStatus s.cur 0x208 v).readStatus s.cur 0x208 = v &&& 1 ∧
    (s.writeStatus s.cur 0x20B v).readStatus s.cur 0x20B = v &&& 0xFFFFFFFF ∧
    (s.writeStatus s.cur 0x300 v).readStatus s.cur 0x300 = v &&& 0x1FFC1 ∧
    (s.writeStatus s.cur 0x380 v).readStatus s.cur 0x380 = v ∧
    (s.writeStatus s.cur 0x480 v).readStatus s.cur 0x480 = v

/-- The changes of a stream register (R148, R150, R153): at once where the vector queue is empty, else queued behind the
vector instructions dispatched before, four for each register; a fifth waits. Behind an access in stream S that can still trap
they are queued too (R99; log 26). qrel drops the translations that the core
keeps for the stream too. In a surrender routine a change made at once is remembered, for the streams behind what the
routine has set aside. qcfg of a reserved value raises cause 0x16, qwatch of an address that is not a multiple of 8 cause
0x10. That qbase and qunwatch clear the address and offset of the watch they disarm is the model's choice (log 62), and
what a routine's changes become is too (log 32). -/
def Obligations.StreamChanges : Prop :=
  (∀ (i : Instr) (s : State) (q : BitVec 4) (f : Stream → Stream), streamChange s i = some (q, f) →
    s.hart.prefixFits .s false false = true →
    let v := s.begun.setStream s.cur q (f s.hart.q[q.toNat])
    (s.hart.vq = [] → s.hart.unsettled = false → s.hart.surr = none → i ≠ .qrel q → exec i s = .next (v.retired (pushOf s.hart.pfx))) ∧
    (s.hart.vq = [] → s.hart.unsettled = false → s.hart.surr = none → i = .qrel q →
      exec i s = .next (((s.begun.dropAhead s.cur q).setStream s.cur q {}).retired (pushOf s.hart.pfx))) ∧
    (∀ x, s.hart.vq = [] → s.hart.unsettled = false → s.hart.surr = some x →
      ∃ t en, exec i s = .next t ∧ en.instr = i ∧ en.surr = true ∧ t.hart.q = v.hart.q ∧
        t.hart.surr = some { x with chg := addChange x.chg en } ∧ t.hart.vq = [] ∧ t.hart.regs = s.hart.regs ∧
        t.hart.pc = (s.hart.pc + 4) &&& pcMask ∧ s.sameMem t) ∧
    (s.hart.vq ≠ [] ∨ s.hart.unsettled = true → s.hart.changes q < 4 →
      ∃ t en, exec i s = .next t ∧ en.instr = i ∧ t.hart.vq = s.hart.vq ++ [en] ∧ t.hart.q = s.hart.q ∧
        t.hart.pc = (s.hart.pc + 4) &&& pcMask) ∧
    (s.hart.vq ≠ [] ∨ s.hart.unsettled = true → 4 ≤ s.hart.changes q → exec i s = .next (s.waitFor (.changes q)))) ∧
  (∀ (s : State) (q : BitVec 4) (a b : BitVec 5), s.hart.prefixFits .s false false = true →
    (2 ^ 32 ≤ (s.reg a).toNat ∨ cfgBad (BitVec.ofNat 32 (s.reg a).toNat) = true →
      exec (.qcfg q a) s = .next (s.popped.trapSeq ⟨0x16, 0⟩)) ∧
    ((s.reg a).toNat % 8 ≠ 0 → exec (.qwatch a b q) s = .next (s.popped.trapSeq ⟨0x10, s.reg a⟩)))

/-- qld loads a descriptor of 32 bytes (R141, R148); qget reads a field of the stream (R148); both where the vector queue
is empty. qld raises cause 0x16 where the descriptor has a reserved part set. qprobe writes the probe word, with no
fault and no bit set (R149); sbar naming stream S holds later accesses of stream S behind the vector memory
instructions queued before it, later vector memory through the streams it names waits for what stands in stream S, and
otherwise it only moves on (R152). qwait (R154): where the watch word is at least
S[a], or in a surrender routine, S[d] takes the word, else the hart waits; without a watch it raises cause 0x16. wmpub
(R155): the word becomes the greater of itself and S[b], at once where the hart's queues are empty and no sampler work
holds it. In a surrender routine qld is remembered as other changes are (log 32). That cause 0x16 has address 0, and which
sampler work holds a wmpub, are the model's choices (log 47, log 14). -/
def Obligations.StreamReads : Prop :=
  (∀ (s : State), s.hart.prefixFits .s false false = true → s.hart.vq = [] →
     (∀ (q : BitVec 4) (a : BitVec 5) (sp : BitVec 1) (imm : BitVec 6) (t : State) (p : Place) (x : Stream),
       s.begun.scalarPlace sp (s.reg a + 32 * BitVec.ofInt 64 imm.toInt) 32 .read = .ok (t, p) →
       descOf (t.getAt p 32) = some x →
       (s.hart.surr = none → exec (.qld q a sp imm) s = .next ((t.setStream t.cur q x).retired (pushOf s.hart.pfx))) ∧
       (∀ y, s.hart.surr = some y → ∃ u en, exec (.qld q a sp imm) s = .next u ∧ en.instr = .qld q a sp imm ∧ en.str = x ∧
         u.hart.q = s.hart.q.set q.toNat x ∧ u.hart.surr = some { y with chg := addChange y.chg en } ∧
         u.hart.pc = (s.hart.pc + 4) &&& pcMask ∧ u.mem = t.mem)) ∧
     (∀ (q : BitVec 4) (a : BitVec 5) (sp : BitVec 1) (imm : BitVec 6) (t : State) (p : Place),
       s.begun.scalarPlace sp (s.reg a + 32 * BitVec.ofInt 64 imm.toInt) 32 .read = .ok (t, p) → descOf (t.getAt p 32) = none →
       exec (.qld q a sp imm) s = .next (s.popped.trapSeq ⟨0x16, 0⟩)) ∧
     (∀ (d : BitVec 5) (q : BitVec 4) (sel : BitVec 6), exec (.qget d q sel) s =
       .next ((s.begun.setHartAt s.cur (s.begun.hart.setReg d (streamField s.hart.q[q.toNat] sel))).retired (pushOf s.hart.pfx)))) ∧
  (∀ (s : State), s.hart.prefixFits .s false false = true →
     (∀ (d a : BitVec 5),
       exec (.qprobe d a) s = .next ((s.begun.setReg d (s.begun.probe (s.reg a).toNat)).retired (pushOf s.hart.pfx))) ∧
     (∀ (qs : BitVec 1) (sc : BitVec 3) (mask : BitVec 16),
       (qs = 0 ∨ s.hart.vecMemPending = false → s.hart.ss = [] →
         exec (.sbar qs sc mask) s = .next (s.begun.retired (pushOf s.hart.pfx))) ∧
       (s.hart.ss ≠ [] →
         ∃ t, exec (.sbar qs sc mask) s = .next t ∧ t.hart.ss = s.hart.ss ∧ t.hart.pc = (s.hart.pc + 4) &&& pcMask ∧
           t.hart.regs = s.hart.regs ∧ t.mem = s.mem ∧ s.sameBut t ∧
           ∀ j : Fin 16, t.hart.qHold[j] = if mask.getLsbD j.val then s.hart.seq else s.hart.qHold[j]) ∧
       (qs = 1 → s.hart.vecMemPending = true →
         ∃ t, exec (.sbar qs sc mask) s = .next t ∧ t.hart.holdS = s.hart.seq ∧ t.hart.pc = (s.hart.pc + 4) &&& pcMask ∧
           t.hart.regs = s.hart.regs ∧ t.mem = s.mem ∧ s.sameBut t))) ∧
  (∀ (s : State), s.hart.prefixFits .s false false = true →
     (∀ (a d : BitVec 5) (q : BitVec 4) (t : State) (w : Word), (s.begun.hart.latestWatch q).armed = true →
       s.begun.watchValue s.cur (s.begun.hart.latestWatch q) = .ok (t, w) →
       (s.reg a ≤ w ∨ s.hart.surr.isSome = true →
         exec (.qwait a d q) s = .next ((t.setReg d w).retired (pushOf s.hart.pfx))) ∧
       (w < s.reg a → s.hart.surr = none →
         exec (.qwait a d q) s = .next (t.setHart { t.hart with wait := some { kind := .qwait q (s.reg a) d, since := s.time } }))) ∧
     (∀ (a d : BitVec 5) (q : BitVec 4), (s.hart.latestWatch q).armed = false →
       exec (.qwait a d q) s = .next (s.popped.trapSeq ⟨0x16, 0⟩)) ∧
     (∀ (a b : BitVec 5) (sc : BitVec 3) (t : State) (p : Place),
       s.begun.scalarPlace 0 (s.reg a) 8 .rmw = .ok (t, p) → s.hart.queuesBusy = false → s.pubHeld s.cur (s.reg a) = false →
       exec (.wmpub a b sc) s = .next ((t.putAt p 8 (max (t.getAt p 8) (s.reg b).toNat)).retired (pushOf s.hart.pfx))))

/-! ### Traps, and the return from one -/

/-- Taking a trap outside a surrender routine (R127, R130): dispatch stops, and the header holds the cause, the engine,
the pc and word of the instruction, the hart, its gang, the resume pc (the hart's own pc), the faulting address, the
prefix it was under and the time. A live prefix is saved. No scalar register and no byte of memory changes, and what waits in
stream S stays there. The access in stream S that traps takes the hart back to its own dispatch first: registers, flags, prefix
and pc are those of then, and what was dispatched behind it has left the queues and stream S (R99; log 26). The end of
a suspension (R127, R129): where nothing at the heads of the hart's queues is done and not retired, and nothing in
stream S can be performed, the hart is suspended with its queues as they are, but that its started matrix work and its
accepted copies are voided; a matrix instruction other than mmq that it has begun completes first (R309), and what was done at a
head is through first (R43). The record of a
user hart goes to its core's pending records, that of a supervisor to the
service cores. A record posted at a core with none pending is written at the ring's tail, whose new value is stored behind
the ring, where the ring has room; a full ring leaves it pending (R128). -/
def Obligations.TrapsTaken : Prop :=
  (∀ (s : State) (hid : Nat) (tr : Trap) (site : TrapSite), (s.hartAt hid).surr = none → (s.hartAt hid).bay.isOpen = false →
     let h := s.hartAt hid
     let t := s.takeTrap hid tr site
     let k := t.hartAt hid
     k.run = .suspending ∧ k.post = true ∧ k.wait = none ∧ k.pfx = none ∧
     k.regs = h.regs ∧ k.fflags = h.fflags ∧ k.pc = h.pc ∧ k.ss = h.ss ∧
     (∀ w took, h.pfx = some (w, took) → k.pfxsave = { pend := true, popd := took, word := w }) ∧
     (h.pfx = none → k.pfxsave.pend = false) ∧
     k.hdr.cause = tr.cause ∧ k.hdr.engine = site.engine ∧ k.hdr.ocause = 0 ∧ k.hdr.ipc = site.ipc ∧
     k.hdr.word = site.word ∧ k.hdr.hid = BitVec.ofNat 16 hid ∧ k.hdr.gang = h.gang ∧ k.hdr.rpc = k.pc ∧
     k.hdr.addr = tr.addr ∧ k.hdr.time = s.time ∧ k.hdr.pfx = k.pfxsave.toWord ∧
     t.mem = s.mem ∧ t.time = s.time ∧ ∀ j, j ≠ hid → t.hartAt j = s.hartAt j) ∧
  (∀ (h : Hart) (l : List SAcc) (x : SAcc) (r : List SAcc) (b : Back),
     h.ss = l ++ x :: r → (∀ y ∈ l, y.risky = false) → x.back = some b →
     let k := h.rollBack
     let before (q : List Entry) : List Entry := q.filter (fun e => decide (e.seq ≤ x.seq))
     k.regs = b.regs ∧ k.fflags = b.fflags ∧ k.pc = x.pc ∧ k.pfx = b.pfx.map (fun w => (w, true)) ∧ k.wait = none ∧ k.ss = l ∧
     k.vq = before h.vq ∧ k.mq = before h.mq ∧ k.cq = before h.cq ∧ k.pops = b.pops ∧ k.vec = h.vec ∧ k.q = h.q) ∧
  (∀ (s : State) (hid : BitVec 11),
     let h := s.hartAt hid.toNat
     let k := (s.endSuspend hid.toNat).hartAt hid.toNat
     h.run = .suspending → (∀ e, h.vq.head? = some e → e.done = false) →
     (∀ e, h.mq.head? = some e → e.done = false ∧ e.isMove = false ∧ (e.prog = 0 ∨ isMmq e.instr = true)) →
     (∀ x ∈ h.ss, s.sReady hid.toNat x = false) →
     exec (.suspensionComplete hid) s = .next (s.endSuspend hid.toNat) ∧
     k.run = .suspended ∧ k.post = false ∧ k.regs = h.regs ∧ k.hdr = h.hdr ∧ k.ss = h.ss ∧
     k.vq.map (fun e => (e.instr, e.pc, e.voided)) = h.vq.map (fun e => (e.instr, e.pc, e.voided)) ∧
     k.mq.map (fun e => (e.instr, e.pc, if e.isVec then 0 else e.prog)) =
       h.mq.map (fun e => (e.instr, e.pc, if e.isVec then 0 else e.prog)) ∧
     k.cq.map (fun e => (e.instr, e.pc, if e.isVec then 0 else e.prog)) =
       h.cq.map (fun e => (e.instr, e.pc, if e.isVec then 0 else e.prog)) ∧
     (∀ e ∈ k.mq, e.started = true → e.done = false → e.isMove = false → e.voided = true) ∧
     (∀ e ∈ k.cq, e.deadline ≠ 0 → e.done = false → e.isMove = false → e.voided = true) ∧
     (h.post = true → h.sup = true → (s.endSuspend hid.toNat).dev.svc = s.dev.svc ++ [h.hdr]) ∧
     (h.post = true → h.sup = false → (s.coreAt (hid.toNat / 8)).tqbase = 0 →
       ((s.endSuspend hid.toNat).coreAt (hid.toNat / 8)).pend = (s.coreAt (hid.toNat / 8)).pend ++ [h.hdr]) ∧
     (h.post = true → h.sup = false → ∃ u : State, s.endSuspend hid.toNat = u.postRecord (hid.toNat / 8) h.hdr ∧
       u.cores = s.cores ∧ u.mem = s.mem ∧ u.dev = s.dev ∧ ∀ j, j ≠ hid.toNat → u.hartAt j = s.hartAt j)) ∧
  (∀ (s s1 : State) (hid : BitVec 11) (e : Entry) (l : List Entry) (op : MatOp) (fl : Flags),
     let x := hid.toNat
     let h := s.hartAt x
     h.run = .suspending → h.ss = [] → (∀ v, h.vq.head? = some v → v.done = false) → h.mq = e :: l → e.done = false →
     e.prog ≠ 0 → isMmq e.instr = false → matOpOf e.instr = some op → op.run s x e = .ok (s1, fl) →
     let u := ((((s1.matDone x op e fl).matRetire x).drainMoves x .m 8).sDrain x 3)
     exec (.suspensionComplete hid) s = .next (if (u.hartAt x).atWork u.now then u else u.endSuspend x)) ∧
  (∀ (s : State) (k : Nat) (r : Record),
     let c := s.coreAt k
     let u := s.setCoreAt k { c with pend := [r] }
     let t := s.postRecord k r
     c.pend = [] → c.tqbase ≠ 0 →
     ((c.tqtail - c.tqhead).toNat = 2 ^ c.tqlen.toNat → t.mem = s.mem ∧ (t.coreAt k).pend = [r]) ∧
     (∀ u1 u2 pa pb, (c.tqtail - c.tqhead).toNat ≠ 2 ^ c.tqlen.toNat →
       u.dv (supWho k) (c.tqbase.toNat + 64 * (c.tqtail.toNat % 2 ^ c.tqlen.toNat)) .write 2 = .ok (u1, pa) →
       u1.dv (supWho k) (c.tqbase.toNat + 64 * 2 ^ c.tqlen.toNat) .write 2 = .ok (u2, pb) →
       t.mem = (u2.mem.write pa 64 r.image).write pb 8 (c.tqtail + 1).toNat ∧
       (t.coreAt k).tqtail = c.tqtail + 1 ∧ (t.coreAt k).pend = [] ∧ t.harts = s.harts))

/-- tret (R138): the suspended or loaded hart of the slot that trethart names goes on at its resume pc, with the prefix that
was saved there (R61, R86), its copies that the suspension voided admitted again (R137); one whose gang still waits for
its start watermark waits for that (R117). A resume pc that is not a multiple of 4 raises cause 0x04, a slot with no such
hart 0x08. With kill the hart ends: its negotiated bays are free, it has left its gang, and nkill counts it. -/
def Obligations.TretResumes : Prop :=
  ∀ (s : State), s.hart.sup = true → s.hart.pfx = none →
    let x := 8 * s.coreNo + s.core.trSlot.toNat
    let h := s.hartAt x
    let there := h.sup = false ∧ (h.run = .suspended ∨ h.run = .loaded)
    (h.sup = true ∨ (h.run ≠ .suspended ∧ h.run ≠ .loaded) → exec .tret s = .next (s.trapSeq ⟨0x08, 0⟩)) ∧
    (there → s.core.trKill = false → h.hdr.rpc.toNat % 4 ≠ 0 → exec .tret s = .next (s.trapSeq ⟨0x04, h.hdr.rpc⟩)) ∧
    (there → s.core.trKill = false → h.hdr.rpc.toNat % 4 = 0 →
      ∃ t, exec .tret s = .next t ∧ let k := t.hartAt x
        (k.run = if (match s.gangAt h.gang.toNat with | some g => g.waiting | none => false) then .watermark else .running) ∧
        k.pc = h.hdr.rpc &&& pcMask ∧ k.regs = h.regs ∧ k.wait = none ∧ k.vq = h.vq ∧
        (h.pfxsave.pend = true → h.hdr.rpc = h.pfxPc → k.pfx = some (h.pfxsave.word, h.pfxsave.popd)) ∧
        (h.pfxsave.pend = false ∨ h.hdr.rpc ≠ h.pfxPc → k.pfx = none) ∧ k.pfxsave.pend = false ∧
        k.mq = h.mq.map (fun e => { e with voided := false }) ∧
        (∀ e l, h.cq = e :: l → (copyRunOf e.instr).isSome = true → e.voided = true → ∃ e1 l1, k.cq = e1 :: l1 ∧
          e1 = { e with deadline := s.freshDeadline x e 0 0, host := s.copyHost x e, voided := false, late := false }) ∧
        (∀ e ∈ k.cq, (copyRunOf e.instr).isSome = true → e.voided = false) ∧
        k.cq.map (fun e => (e.instr, e.prog, e.left)) = h.cq.map (fun e => (e.instr, e.prog, e.left)) ∧
        t.mem = s.mem ∧ t.hart.pc = (s.hart.pc + 4) &&& pcMask) ∧
    (there → s.core.trKill = true →
      ∃ t, exec .tret s = .next t ∧ t.hartAt x = { run := .ended, plan := h.plan } ∧ t.mem = s.mem ∧
        (∀ g, s.gangAt h.gang.toNat = some g → ∃ g1, t.gangAt h.gang.toNat = some g1 ∧ g1.nkill = g.nkill + 1 ∧
          g1.nend = g.nend ∧ (h.ghart < g.members.length → (g1.members.getD h.ghart {}).ended = true)) ∧
        (∀ cl hd, let b := (s.clusAt cl).bay hd
          b.st = .held → b.neg = true → b.gang = h.gang → b.holder = x → ((t.clusAt cl).bay hd).st = .free) ∧
        t.hart.pc = (s.hart.pc + 4) &&& pcMask)

/-! ### Steps -/

/-- A step runs the decoded instruction: with no outside event ahead, the hart whose turn it is fetches the word at its pc,
and where no queued instruction has yet to write a register it uses, the instruction decoded from it is executed and
the choice accounted for (R33, R34, R57, R120). The turn is that of the hart behind whose prefix it comes, which goes
with it (R122), or with nothing due, of the hart that the next core chooses. Behind an access in stream S that can still
trap it is executed only where it is one that may run ahead and does not end the hart's run, and waits otherwise (R99; log
26). What comes before a dispatch in a step is the model's choice (log 1). -/
def Obligations.StepRunsDecoded : Prop :=
  ∀ (s r u : State) (hid pa : Nat) (i : Instr), s.agenda = [] → s.dev.stopped = false → s.chooses r hid →
    let a : State := { r with cur := hid, turn := hid / 8 }
    a.dv a.who a.hart.pc.toNat .exec 2 = .ok (u, pa) → decode (BitVec.ofNat 32 (u.mem.read pa 4)) = .ok i →
    let x : State := { u with ir := BitVec.ofNat 32 (u.mem.read pa 4) }
    u.spoiled 3 0 pa 4 = false → x.hart.blocked x.ir = [] →
    ∀ t, exec i x = .next t →
      let goesOn := x.hart.unsettled = false ∨ (runsAhead x.ir = true ∧ t.hart.run = .running)
      (goesOn → step s = .next (r.issued t hid r.goes)) ∧
      (¬ goesOn → step s = .next (r.issued (x.waitFor .settled) hid r.goes))

/-- A step on a word that is no instruction traps the hart with cause 0x01 for majors 0x00 and 0x3F and 0x02 for the rest
(R59), and one on a pc it can't fetch from with the cause of the fetch (R101), 0x52 where its bytes hold a soft error (R366);
but behind an access in stream S that can still trap it waits (R99; log 26). One whose pc lies where the hart's DMA is shut waits
(R365). As rows of the table they take that trap of
the acting hart, outside a surrender routine: the record holds its pc and the word; no register and no byte of memory changes. What comes before a
dispatch in a step, that such a word waits as others do, and the word 0 of a fetch fault are the model's choices (logs 1
and 55). -/
def Obligations.StepTraps : Prop :=
  (∀ (s r : State) (hid : Nat), s.agenda = [] → s.dev.stopped = false → s.chooses r hid →
    let a : State := { r with cur := hid, turn := hid / 8 }
    let z : State := { a with ir := 0 }
    let ends (x : State) (tr : Trap) : Prop :=
      (x.hart.unsettled = false → step s = .next (r.issued (x.trapSeq tr) hid r.goes)) ∧
      (x.hart.unsettled = true → step s = .next (r.issued (x.waitFor .settled) hid r.goes))
    (∀ u pa e, a.dv a.who a.hart.pc.toNat .exec 2 = .ok (u, pa) → decode (BitVec.ofNat 32 (u.mem.read pa 4)) = .error e →
      u.spoiled 3 0 pa 4 = false →
      let w := BitVec.ofNat 32 (u.mem.read pa 4)
      let x : State := { u with ir := w }
      x.hart.blocked w = [] → ends x ⟨if code w 26 6 = 0 ∨ code w 26 6 = 63 then 0x01 else 0x02, 0⟩) ∧
    (∀ u pa, a.dv a.who a.hart.pc.toNat .exec 2 = .ok (u, pa) → u.spoiled 3 0 pa 4 = true → ends z ⟨0x52, a.hart.pc⟩) ∧
    (∀ c, a.dv a.who a.hart.pc.toNat .exec 2 = .error (.trap ⟨c, a.hart.pc⟩) → ends z ⟨c, a.hart.pc⟩) ∧
    (∀ w, a.dv a.who a.hart.pc.toNat .exec 2 = .error (.wait w) → step s = .next (r.issued (a.waitFor w) hid r.goes))) ∧
  (∀ (s : State) (w : BitVec 32) (c : BitVec 8), s.hart.surr = none → s.hart.bay.isOpen = false →
    let takes (t : State) (cause : BitVec 8) (word : BitVec 32) (addr : Word) : Prop :=
      t.hart.run = .suspending ∧ t.hart.hdr.cause = cause ∧ t.hart.hdr.word = word ∧ t.hart.hdr.addr = addr ∧
      t.hart.hdr.ipc = s.hart.pc ∧ t.hart.hdr.rpc = s.hart.pc ∧ t.hart.regs = s.hart.regs ∧ t.mem = s.mem ∧
      ∀ j, j ≠ s.cur → t.hartAt j = s.hartAt j
    (∃ t, exec (.wordNotAnInstruction w) s = .next t ∧
      takes t (if code w 26 6 = 0 ∨ code w 26 6 = 63 then 0x01 else 0x02) w 0) ∧
    (∃ t, exec (.fetchFault c) s = .next t ∧ takes t c 0 s.hart.pc))

/-! ### Words and instructions -/

/-- Words written out from the encodings of R58 and the chapters' examples decode to the instructions they stand for. -/
def Obligations.DecodeExamples : Prop :=
  decode 0x04853000 = .ok (.add 4 5 6) ∧ decode 0x048532C0 = .ok (.div 4 5 6) ∧ decode 0x08000000 = .ok (.addi 0 0 0) ∧
  decode 0x996C0040 = .ok (.bayTakeFix 11 12 1) ∧ decode 0x996C6860 = .ok (.bayTakeNeg 11 12 13 1) ∧
  decode 0x980D0080 = .ok (.bayGive 13) ∧ decode 0x98000120 = .ok .bayRetSum ∧
  decode 0x24862864 = .ok (.aadd ⟨4, 6, 5, 1, 2, 2, 0⟩) ∧ decode 0 = .error .illegalWord ∧
  decode 0xFFFFFFFF = .error .illegalWord ∧ decodeLogit 0x30400000 = some (.lbias 1 0 0) ∧
  decodeLogit 0x40010000 = some (.lret 0 1) ∧ decodeLogit 0 = none

/-- Decoding the word of any well-formed hart instruction gives the instruction back. Decoding the word of a well-formed
logit instruction, in the sampler's own map, gives it back. -/
def Obligations.RoundTrip : Prop :=
  (∀ (i : Instr) (w : BitVec 32), i.wellFormed = true → encode i = some w → decode w = .ok i) ∧
  (∀ (i : Instr) (w : BitVec 32), i.wellFormed = true → encodeLogit i = some w → decodeLogit w = some i)

/-- Only well-formed instructions are decoded: a word with a field the encoding does not admit is no instruction (R59). -/
def Obligations.DecodedIsWellFormed : Prop :=
  (∀ (w : BitVec 32) (i : Instr), decode w = .ok i → i.wellFormed = true) ∧
  (∀ (w : BitVec 32) (i : Instr), decodeLogit w = some i → i.wellFormed = true)

/-! ### Reset, registers and memory -/

/-- What reset leaves, as the spec states it (R367): time 0, the ceiling of the default image, one supervisor hart in slot
0 of every core, no other hart, every function ready, every word of SRAM zero: of the cores' buffers, tiles, accumulators
and codebooks, the harts' scalar, vector and lane-private storage, the Squares, and the samplers' tables and programs. -/
def Obligations.ResetState : Prop :=
  State.reset.time = 0 ∧ State.reset.dev.eceil = 13072 ∧
  (∀ k, k < 160 → (State.reset.hartAt (8 * k)).run = .running ∧ (State.reset.hartAt (8 * k)).sup = true) ∧
  (∀ k j, k < 160 → 0 < j → j < 8 → (State.reset.hartAt (8 * k + j)).run = .free) ∧
  (∀ hid r, (State.reset.hartAt hid).reg r = 0) ∧
  (∀ hid, (State.reset.hartAt hid).vec.regs = [] ∧ (State.reset.hartAt hid).vec.lp = []) ∧
  (∀ f, f ≤ 16 → (State.reset.fnAt f).ready = true) ∧
  (∀ k, (State.reset.coreAt k).ab = [] ∧ (State.reset.coreAt k).wb = [] ∧ (State.reset.coreAt k).acc = [] ∧
    (State.reset.coreAt k).tiles = [] ∧ (State.reset.coreAt k).cb = [] ∧ (State.reset.coreAt k).tlb = [] ∧ (State.reset.coreAt k).smpBase.toNat = 128 * (k % 8) ∧
    (State.reset.coreAt k).smpCnt = 128) ∧
  (∀ c, (State.reset.clusAt c).square = [] ∧ (State.reset.clusAt c).table = [] ∧ (State.reset.clusAt c).progs = [] ∧
    (State.reset.clusAt c).free = 192)

/-- s0 reads as zero and writes to it are discarded; any other register reads as it was last written, and a write to one
leaves the rest (R67). n bytes read back as they were written, little-endian (R6), whatever memory they are written
to; other bytes keep their values, and the canonical form stays. -/
def Obligations.RegistersAndMemory : Prop :=
  ((∀ (h : Hart), h.reg 0 = 0) ∧ (∀ (h : Hart) (v : Word), h.setReg 0 v = h) ∧
   (∀ (h : Hart) (r : BitVec 5) (v : Word), r ≠ 0 → (h.setReg r v).reg r = v) ∧
   (∀ (h : Hart) (r q : BitVec 5) (v : Word), q ≠ r → (h.setReg r v).reg q = h.reg q)) ∧
  (∀ (m : Mem) (a n v : Nat), (m.write a n v).read a n = v % 256 ^ n ∧
     (∀ b, (b < a ∨ a + n ≤ b) → (m.write a n v).byte b = m.byte b) ∧ (m.wf = true → (m.write a n v).wf = true))

/-- Every memory is in canonical form at reset. The canonical form of a memory is the model's (log 2). -/
def Obligations.ResetMemory : Prop := State.reset.memsWf

/-- Every step keeps every memory of the machine in canonical form: main memory, and the SRAM of the cores, clusters and
harts. The canonical form of a memory is the model's (log 2). -/
def Obligations.StepKeepsMemory : Prop :=
  ∀ (s t : State), s.memsWf → step s = .next t → t.memsWf

/-! ### Vector instructions -/

/-- Element-wise instructions (R252 to R262): each active element of the sweep, of the destination and of the copy group,
takes the table's value of the elements as they were; flags are ORed in. -/
def Obligations.VectorElements : Prop :=
  ∀ (i : Instr) (s : State) (op : VecOp) (m : BitVec 1) (d : BitVec 5) (w : Nat) (f : Nat → Nat → Nat × Flags),
    vecOpOf i = some op → s.vecFree i op →
    let v := (s.vecSent i op).hart.vec
    let en := s.vecEntry i
    vecElems v en i = some (m, d, w, f) →
    let r := v.mapElems (maskOf m en) d.toNat w (copyOf en) f
    ∃ t, exec i s = .next t ∧ s.vecLeaves t op r.1 r.2 none

/-- Instructions with a mask result (R254, R257, R269, R274, R275): each active element's bit, of the destination and of
the copy register, takes the table's value. Instructions with a scalar result (R241 to R243, R263, R268, R270, R274):
S[d] takes the table's value. Scans, permutations, vmv into element 0, and conflicts (R244, R264 to R268, R273): the
elements of the table's list are written, in the destination and the copy group. That the first active element of vscanmax
and vscanmin is made canonical as a maximum with itself would be is the model's choice (log 45). -/
def Obligations.VectorResults : Prop :=
  (∀ (i : Instr) (s : State) (op : VecOp) (rowwise : Bool) (m : Option Nat) (d : BitVec 5) (f : Nat → Nat → Bool × Flags),
     vecOpOf i = some op → s.vecFree i op →
     let v := (s.vecSent i op).hart.vec
     let en := s.vecEntry i
     vecBits v en i = some (rowwise, m, d, f) →
     let r := v.mapBits rowwise m d.toNat (copyOf en) f
     ∃ t, exec i s = .next t ∧ s.vecLeaves t op r.1 r.2 none) ∧
  (∀ (i : Instr) (s : State) (op : VecOp) (d : BitVec 5) (x : Word) (fl : Flags), vecOpOf i = some op → s.vecFree i op →
     let v := (s.vecSent i op).hart.vec
     vecScalars v (s.vecEntry i) i = some (d, x, fl) →
     ∃ t, exec i s = .next t ∧ s.vecLeaves t op v fl (some (d, x))) ∧
  (∀ (i : Instr) (s : State) (op : VecOp) (d : BitVec 5) (l : List ((Nat × Nat) × Nat)) (fl : Flags),
     vecOpOf i = some op → s.vecFree i op →
     let v := (s.vecSent i op).hart.vec
     let en := s.vecEntry i
     vecRows v en i = some (d, l, fl) →
     ∃ t, exec i s = .next t ∧ s.vecLeaves t op (v.writeAll d.toNat (copyOf en) l) fl none)

/-- vsetl (R39, R213): a grant made at a frame boundary comes in force, vl becomes the lesser of S[a] and VLMAX, or 0
under an illegal vtype, and S[d] takes it. vsettype (R215): the type is set, illegal where R205 gives no such pair, vl
is 0, and S[d] takes VLMAX or 0. Both leave vl at most VLMAX. -/
def Obligations.VectorConfig : Prop :=
  ∀ (s : State) (d a : BitVec 5) (c : BitVec 1) (cls : BitVec 4) (sew lmode : BitVec 2),
    (let i := Instr.vsetl d a c
     let op := opVsetl d a c
     s.vecFree i op →
     let h := (s.vecSent i op).hart
     let v := if h.plan.on = true ∧ h.grantLanes ≠ h.vec.vgrant then h.vec.regrant h.grantLanes else h.vec
     let vl := if v.ill then 0 else min (s.reg a).toNat v.vlmax
     ∃ t, exec i s = .next t ∧ s.vecLeaves t op { v with vl := vl } 0 (some (d, BitVec.ofNat 64 vl)) ∧
       (t.hartAt s.cur).vec.vl ≤ (t.hartAt s.cur).vec.vlmax ∧ t.mem = s.mem) ∧
    (let i := Instr.vsettype d cls sew lmode c
     let op := opVsettype d cls sew lmode c
     s.vecFree i op →
     let v := (s.vecSent i op).hart.vec
     let ok := typeOk cls.toNat sew.toNat
     let w := { v with cls := cls, sew := sew, lmode := lmode, ill := !ok, vl := 0 }
     ∃ t, exec i s = .next t ∧
       s.vecLeaves t op w 0 (some (d, if ok then BitVec.ofNat 64 (v.vgrant * 192 * 8 / codeBits sew.toNat) else 0)) ∧
       t.mem = s.mem)

/-- The frame of the vector instructions that access no memory: no byte of memory, no other hart, and no state of the
core, the cluster or the device changes beside what counts work; of the hart, only what a vector instruction writes. -/
def Obligations.VectorFrame : Prop :=
  ∀ (i : Instr) (s t : State) (op : VecOp), vecOpOf i = some op → (∃ f, op.run = pureRun f) → s.vecFree i op →
    exec i s = .next t → s.vecSame t

/-- What an element-wise effect does to the registers, where vl is at most VLMAX (R213), the groups are aligned and the
copy group is apart (R250): active elements read as their values, in the destination and in the copy group; every byte
of the registers outside the two groups is as before, and so is every inactive element of the destination. -/
def Obligations.ElementsMapped : Prop :=
  ∀ (v : VecState) (m : Option Nat) (d w : Nat) (c : Option Nat) (f : Nat → Nat → Nat × Flags),
    v.vl ≤ v.vlmax → 0 < v.vgrant → v.vgrant ≤ 64 → (∃ k : BitVec 2, w = codeBits k.toNat) → v.misaligned d w = false →
    (∀ r, c = some r → v.misaligned r w = false ∧ share (v.group d w) (v.group r w) = false) →
    (∀ row e, (f row e).1 < 2 ^ w) →
    let u := (v.mapElems m d w c f).1
    (∀ row e, (row, e) ∈ v.elems false → v.active m row e = true →
      u.opElem d w row e = (f row e).1 ∧ ∀ r, c = some r → u.opElem r w row e = (f row e).1) ∧
    (∀ row e, row < v.rc → e < v.vlmax → ((row, e) ∉ v.elems false ∨ v.active m row e = false) →
      u.opElem d w row e = v.opElem d w row e) ∧
    (∀ b, (b < Config.vregBytes * d ∨ Config.vregBytes * (d + v.groupRegs w) ≤ b) →
      (∀ r, c = some r → (b < Config.vregBytes * r ∨ Config.vregBytes * (r + v.groupRegs w) ≤ b)) →
      u.regs.byte b = v.regs.byte b)

/-- Loads, stores, scatters and scatter-add updates (R276 to R286): where the stream is one the instruction takes and
every active element in turn passes its checks, the elements are accessed, the stream's cursor advances past the
instruction's elements as it retires, and no flag or scalar register changes. -/
def Obligations.VectorMemory : Prop :=
  ∀ (i : Instr) (s : State) (op : VecOp) (o : VecMemOp) (m : MemRun), vecOpOf i = some op →
    let en := s.hart.look (s.vecEntry i)
    vecMem s.cur en i = some o → s.vecFree i op →
    let els := s.memElems i op en o.m
    (els = [] ∨ streamOk en.str o.idx.isSome o.spaces = true) →
    memGo (memElem s.cur en (maskOf o.m en) o.idx o.acc o.act) { s := s.memSent i op } els = (m, none) →
    ∃ t, exec i s = .next t ∧ t.mem = m.s.mem ∧ t.clus = m.s.clus ∧ t.dev.updates = m.s.dev.updates ∧
      (∀ k, t.coreAt k = { m.s.coreAt k with busy := (t.coreAt k).busy }) ∧
      (let k := (t.hartAt s.cur).through .v
       let v := (m.s.hartAt s.cur).vec
       k.vec = { v.chain op with estart := 0, rowstart := 0 } ∧ k.regs = s.hart.regs ∧ k.fflags = s.hart.fflags ∧
       k.q[o.q.toNat] = { s.hart.q[o.q.toNat] with cursor := (en.str.advance v v.rc v.vl).cursor } ∧
       (∀ j : BitVec 4, j ≠ o.q → k.q[j.toNat] = s.hart.q[j.toNat]) ∧ k.vq = [] ∧ k.pc = (s.hart.pc + 4) &&& pcMask) ∧
      (∀ j, j ≠ s.cur → t.hartAt j = m.s.hartAt j)

/-- One element of a vector memory instruction whose stream has no watch, once it passes the checks of R280 and its
request finds a budget: a load puts the bytes at its place in its register element (R278), a store puts the element
there (R278), and a scatter-add sends the update to HBM, or raises cause 0x17 (R286). One that a check stops does nothing. An
address in the host window waits while the DMA of its function is shut (R365) or the clock of the I/O die is held (R370; log 29,
log 53). -/
def Obligations.ElementAccess : Prop :=
  (∀ (hid : Nat) (en : Entry) (msk idx : Option Nat) (acc : Acc) (r : BitVec 5) (m : MemRun) (row e : Nat),
    let v := (m.s.hartAt hid).vec
    let i : Int := match idx with | some a => signed v.n (v.opElem a v.n row e) | none => 0
    let hint := match en.pfx with | some w => pfxHint w | none => 0
    let check := m.s.elemCheck hid en.str (v.position en.str row e).1 (v.position en.str row e).2 i acc (en.str.touchKind hint)
    en.str.armed = false →
    (∀ st act, check = .error st → memElem hid en msk idx acc act m (row, e) = (m, some st)) ∧
    (∀ x : ElemOk, check = .ok x →
      let n := { m with s := x.s }.note x.place en.str.sz
      let w := (x.s.hartAt hid).vec
      m.short n hid = false →
      (∃ k, memElem hid en msk idx acc (loadElem hid en r) m (row, e) = (k, none) ∧ k.s.mem = x.s.mem ∧
        (copyOf en = none → (k.s.hartAt hid).vec = w.setOpElem r.toNat en.str.width row e (x.s.getAt x.place en.str.sz))) ∧
      (∃ k, memElem hid en msk idx acc (storeElem hid en r) m (row, e) = (k, none) ∧
        k.s = x.s.putAt x.place en.str.sz (w.opElem r.toNat en.str.width row e)) ∧
      (inHbm x.place.at_ = true → ∃ k u, memElem hid en msk idx acc (sendElem hid en r) m (row, e) = (k, none) ∧
        k.s.dev.updates = x.s.dev.updates ++ [u] ∧ k.s.mem = x.s.mem ∧ u.hid = hid ∧ u.pa = x.place.at_ ∧
        u.size = en.str.sz ∧ u.val = w.opElem r.toNat en.str.width row e) ∧
      (inHbm x.place.at_ = false →
        memElem hid en msk idx acc (sendElem hid en r) m (row, e) = (m, some (.trap ⟨0x17, BitVec.ofNat 64 x.addr⟩))))) ∧
  (∀ (s t : State) (who : Who) (a kind pa : Nat) (acc : Acc), a < 2 ^ 57 → s.xlate who a acc kind = .ok (t, pa) →
    s.dv who a acc kind =
      if inHost pa = true ∧ (s.tdiShut who.fn = true ∨ s.dieRuns ioDie = false) then .error (.wait .port) else .ok (t, pa))

/-- An element that faults (R281, R284, R285): a load or an ordered store traps at it, with the elements before it done
and estart and rowstart at the element; a first-fault load does so at its first element only, and else sets vl to the
element, with the cause and the element in vffst. -/
def Obligations.VectorFaults : Prop :=
  ∀ (i : Instr) (s : State) (op : VecOp) (o : VecMemOp) (m : MemRun) (x : Trap) (row e : Nat) (rest : List (Nat × Nat)),
    vecOpOf i = some op →
    let en := s.hart.look (s.vecEntry i)
    vecMem s.cur en i = some o → (∀ v a q m c, i ≠ .vstxu v a q m c) → s.vecFree i op →
    let els := s.memElems i op en o.m
    streamOk en.str o.idx.isSome o.spaces = true →
    memGo (memElem s.cur en (maskOf o.m en) o.idx o.acc o.act) { s := s.memSent i op } els = (m, some (.trap x, (row, e), rest)) →
    (((∀ d q m c, i ≠ .vldff d q m c) ∨ els.head? = some (row, e) ∨ x.cause = 0x52) →
      ∃ t, exec i s = .next t ∧ (t.hartAt s.cur).run = .suspending ∧ t.mem = m.s.mem ∧
        (t.hartAt s.cur).vec.estart = BitVec.ofNat 32 e ∧ (t.hartAt s.cur).vec.rowstart = BitVec.ofNat 3 row ∧
        (t.hartAt s.cur).vec.regs = (m.s.hartAt s.cur).vec.regs ∧
        (s.hart.surr = none → (t.hartAt s.cur).hdr.cause = x.cause ∧ (t.hartAt s.cur).hdr.addr = x.addr ∧
          (t.hartAt s.cur).hdr.ipc = s.hart.pc ∧ (t.hartAt s.cur).hdr.engine = 2)) ∧
    ((∃ d q m c, i = .vldff d q m c) → els.head? ≠ some (row, e) → x.cause ≠ 0x52 →
      ∃ t, exec i s = .next t ∧ (t.hartAt s.cur).vec.vl = e ∧ (t.hartAt s.cur).vec.trim = true ∧
        (t.hartAt s.cur).vec.trimCause = x.cause ∧ (t.hartAt s.cur).vec.trimElem = BitVec.ofNat 32 e ∧
        (t.hartAt s.cur).run = s.hart.run ∧ t.mem = m.s.mem)

/-- vwait (R288): once it has read the flags below its target, it writes the number still unmet to S[d] and v0's mask, if
none is unmet, a surrender routine dispatched it or its time-out has passed, and else waits in the queue; past the time-out a
flag that its watch holds counts as unmet (log 93). vcbld (R289): the codebook takes 1024
bytes of the stream, here one over ab without a watch or a bound, and the cursor advances past them. -/
def Obligations.FlagWaitAndCodebook : Prop :=
  ∀ (s : State) (d : BitVec 5) (q : BitVec 4) (c : BitVec 1),
    (let i := Instr.vwait d q c
     let op := opVwait d q c
     s.vecFree i op →
     let u := s.vecSent i op
     let v := u.hart.vec
     let en := s.hart.look (s.vecEntry i)
     let els := v.elems true
     let look (m : MemRun) (r : ElemOk) (re : Nat × Nat) : Except Stop MemRun :=
       .ok (if (s.reg d).toNat % 2 ^ en.str.width ≤ m.s.getAt r.place en.str.sz
         then { m with wrote := (re.1 * v.vl + re.2) :: m.wrote } else m)
     streamOk en.str false (fun sp => sp == .dv || sp == .sq) = true → 32 ≤ en.str.width →
     ∀ m r, memGo (memElem s.cur en none none .read look) { s := u } els = (m, r) →
     (∀ x re rest, r ≠ some (.trap x, re, rest)) →
     let unmet := els.filter (fun re => !m.wrote.contains (re.1 * v.vl + re.2))
     let ends := (r = none ∧ (unmet = [] ∨ s.hart.surr.isSome = true)) ∨ v.vwtmo = 0
     (ends →
       ∃ t, exec i s = .next t ∧ t.mem = m.s.mem ∧
         s.vecLeaves t op (els.foldl (fun (x : VecState) re =>
           x.setMaskBit 0 re.1 re.2 (!m.wrote.contains (re.1 * v.vl + re.2))) (m.s.hartAt s.cur).vec) 0
           (some (d, BitVec.ofNat 64 unmet.length))) ∧
     (¬ ends →
       ∃ t en1, exec i s = .next t ∧ (t.hartAt s.cur).vq = [en1] ∧ en1.instr = i ∧ en1.started = true ∧
         en1.done = false ∧ en1.met = m.wrote ∧ (t.hartAt s.cur).pc = (s.hart.pc + 4) &&& pcMask)) ∧
    (let i := Instr.vcbld q c
     let op := opVcbld q c
     s.vecFree i op →
     let x := s.hart.q[q.toNat]
     let at_ := x.base.toNat + x.cursor.toNat * x.sz
     x.loaded = true → x.mode = 0 → x.space = .ab → x.armed = false → x.bound = 0 →
     at_ % x.sz = 0 → at_ + 1024 ≤ Config.abBytes →
     ∃ t, exec i s = .next t ∧ (∀ j, j < 1024 → (t.coreAt s.coreNo).cb.byte j = (s.core).ab.byte (at_ + j)) ∧
       ((t.hartAt s.cur).through .v).q[q.toNat] = { x with cursor := x.cursor + BitVec.ofNat 64 (1024 / x.sz) } ∧
       t.mem = s.mem ∧ ((t.hartAt s.cur).through .v).vq = [] ∧ (t.hartAt s.cur).pc = (s.hart.pc + 4) &&& pcMask)

/-! ### The matrix engine -/

/-- mmr, mms and mmsp (R297, R299, R300, R302): the rows are multiplied by the tile and added into their accumulator rows
one after another, their flags ORed in. mmq from the Square and from ab (R301, R308): where the rows of its shape can
all be read and no budget stops it, they are multiplied by the tile and added one after another; a shape of one row
reads L bytes at S[a], rotated by none, and its scales behind them. -/
def Obligations.MatrixRows : Prop :=
  (∀ (i : Instr) (s : State) (op : MatOp) (t fmt : Nat) (l : List (Nat × List RowTerm)), matOpOf i = some op → s.matFree i op →
     matRowsOf (s.matSent i).hart (s.matEntry i) i = some (t, fmt, l) →
     let r := (s.matSent i).rowsAdd s.cur t fmt l
     ∃ u, exec i s = .next u ∧ s.matLeaves u r.2 ∧ (u.coreAt s.coreNo).acc = (r.1.coreAt s.coreNo).acc ∧
       (u.coreAt s.coreNo).tiles = s.core.tiles ∧ (u.hartAt s.cur).vec = s.hart.vec) ∧
  (∀ (d a b : BitVec 5) (fmt : BitVec 3) (i r : BitVec 1) (t : BitVec 2) (s : State) (sq : Bool),
     let ins := if sq then Instr.mmqSq d a b fmt i r t else Instr.mmqAb d a b fmt i r t
     let op := qOp sq d fmt i t
     s.matFree ins op →
     let x := s.matSent ins
     let en := s.matEntry ins
     let ar := matRow d i en
     (∀ u fl, qGo fmt.toNat t.toNat ar sq s.cur en 513 0 x 0 = .ok (u, fl) →
       ∃ w, exec ins s = .next w ∧ s.matLeaves w fl ∧ (w.coreAt s.coreNo).acc = (u.coreAt s.coreNo).acc ∧
         (w.coreAt s.coreNo).tiles = s.core.tiles) ∧
     (∀ row, qRows (s.reg b) = 1 →
       x.qRow s.cur sq (s.reg a).toNat 0 (rowBytes fmt.toNat + if s.hart.mshape.asc then tileK fmt.toNat / 32 else 0) = .ok row →
       let wb := rowWidth fmt.toNat / 8
       let terms := (List.range (s.hart.mshape.kc fmt.toNat)).map (fun k => ({
         k := k, x := row.read (k * wb % rowBytes fmt.toNat) wb
         e8 := if s.hart.mshape.asc then some (row.byte (rowBytes fmt.toNat + k / 32)).toNat else none } : RowTerm))
       let y := x.rowAdd s.cur t.toNat fmt.toNat ar terms
       ∃ w, exec ins s = .next w ∧ s.matLeaves w y.2 ∧ (w.coreAt s.coreNo).acc = (y.1.coreAt s.coreNo).acc))

/-- A row added into an accumulator row (R246, R297): each of its 256 elements takes the sum of its old value and the
products of the row's elements with the tile's column; every other byte of the accumulator store is as before. In an
INT8 tile the sum is taken modulo 2^32. -/
def Obligations.RowAdded : Prop :=
  ∀ (s : State) (hid t fmt ar : Nat) (terms : List RowTerm),
    let h := s.hartAt hid
    let c := s.coreAt (hid / 8)
    let at_ := 1024 * (h.plan.rowBase + ar)
    let u := (s.rowAdd hid t fmt ar terms).1.coreAt (hid / 8)
    (∀ n, n < 256 → u.acc.read (at_ + 4 * n) 4 =
      (c.rowElem t fmt h.mshape.afmt terms n (c.acc.read (at_ + 4 * n) 4)).1 % 2 ^ 32) ∧
    (∀ b, (b < at_ ∨ at_ + 1024 ≤ b) → u.acc.byte b = c.acc.byte b) ∧
    (∀ n k x, fmt = 5 → h.mshape.afmt = false → terms = [⟨k, x, none⟩] →
      (c.rowElem t fmt h.mshape.afmt terms n (c.acc.read (at_ + 4 * n) 4)).1 =
        wrap 32 ((c.acc.read (at_ + 4 * n) 4 : Int) + signed 8 x * signed 8 (c.tiles.read (65536 * t + 256 * k + n) 1)))

/-- mld and mlds (R303 to R305): the tile takes the bytes of wb or of the Square, a tile load clearing the rest of the
tile, and its tag is set; no other byte of the tiles changes. -/
def Obligations.MatrixLoads : Prop :=
  ∀ (i : Instr) (s : State) (op : MatOp) (m : Mem) (p t n o : Nat) (clear : Bool) (g : Tag → Tag), matOpOf i = some op →
    s.matFree i op → matLoadOf (s.matSent i) (s.matEntry i).op1.toNat i = some (m, p, t, n, o, clear, g) →
    ∃ u, exec i s = .next u ∧ s.matLeaves u 0 ∧ (u.hartAt s.cur).vec = s.hart.vec ∧
      (∀ j, j < n → (u.coreAt s.coreNo).tiles.byte (65536 * t + o + j) = m.byte (p + j)) ∧
      (∀ b, (b < 65536 * t + o ∨ 65536 * t + o + n ≤ b) → (u.coreAt s.coreNo).tiles.byte b =
        if clear = true ∧ 65536 * t ≤ b ∧ b < 65536 * (t + 1) then 0 else s.core.tiles.byte b) ∧
      (u.coreAt s.coreNo).tags.toList.getD t {} = g (s.core.tags.toList.getD t {}) ∧
      (u.coreAt s.coreNo).acc = s.core.acc

/-- mclr, mrd and mmov (R306): S[b] rows clear; rc rows go to the v registers va on, and to the copy group, and to no other
byte of the v registers; S[b] rows are copied as they were before the instruction. Rows count from the hart's share. -/
def Obligations.AccumulatorMoves : Prop :=
  ∀ (s : State) (d a b : BitVec 5) (i r : BitVec 1),
    let base := s.hart.plan.rowBase
    let row := if i = 1 then d.toNat else (s.reg d).toNat
    let n := (s.reg b).toNat
    (s.matFree (.mclr d b i r) (opMclr d i) →
      ∃ u, exec (.mclr d b i r) s = .next u ∧ s.matLeaves u 0 ∧ (u.hartAt s.cur).vec = s.hart.vec ∧
        ∀ x, (u.coreAt s.coreNo).acc.byte x =
          if 1024 * (base + row) ≤ x ∧ x < 1024 * (base + row + n) then 0 else s.core.acc.byte x) ∧
    (s.matFree (.mmov d a b i r) (opMmov d i) →
      ∃ u, exec (.mmov d a b i r) s = .next u ∧ s.matLeaves u 0 ∧ (u.hartAt s.cur).vec = s.hart.vec ∧
        ∀ x, (u.coreAt s.coreNo).acc.byte x =
          if 1024 * (base + row) ≤ x ∧ x < 1024 * (base + row + n)
          then s.core.acc.byte (x - 1024 * (base + row) + 1024 * (base + (s.reg a).toNat)) else s.core.acc.byte x) ∧
    (s.matFree (.mrd d a i r) (opMrd d a i) →
      ∃ u, exec (.mrd d a i r) s = .next u ∧ s.matLeaves u 0 ∧ (u.coreAt s.coreNo).acc = s.core.acc ∧
        (u.hartAt s.cur).vec = { s.hart.vec with regs := (u.hartAt s.cur).vec.regs } ∧
        let into (v : Nat) : Prop := v = a.toNat ∨ copyOf (s.matEntry (.mrd d a i r)) = some v
        (∀ v j x, into v → j < s.hart.vec.rc → x < 1024 →
          (u.hartAt s.cur).vec.regs.byte (Config.vregBytes * (v + j) + x) = s.core.acc.byte (1024 * (base + row + j) + x)) ∧
        (∀ y, (∀ v j x, into v → j < s.hart.vec.rc → x < 1024 → y ≠ Config.vregBytes * (v + j) + x) →
          (u.hartAt s.cur).vec.regs.byte y = s.hart.vec.regs.byte y))

/-- The checks at the start of a vector instruction in the order of R250: no lane grant is cause 0x22; then an illegal
type, another width code, an unfit class or a shape the instruction forbids 0x21; then a misaligned group 0x24; then a
forbidden overlap 0x23. A split of a convoy under vstrap is 0x25, before them all (R218). The checks at the start of a
matrix instruction in the order of R307: a tile or a row outside the hart's share is cause 0x30; then a v register
without a lane grant 0x22; then a tile, a tag or a shape that does not fit 0x31; then a misaligned group 0x24; then a
copy group that overlaps 0x23. Where another hart of the core runs, a matrix instruction stands in its queue instead, and is
checked when the engine takes it in its turn (R42). -/
def Obligations.EngineTraps : Prop :=
  (∀ (i : Instr) (s : State) (op : VecOp) (c : BitVec 8), vecOpOf i = some op → s.hart.prefixFits .v op.maskable op.vecResult = true → s.hart.vq = [] →
     s.hart.surr = none → s.hart.bay.isOpen = false →
     s.vecScore s.cur op (s.vecEntry i) = false → (s.vecSent i op).vecHeld s.cur op = false →
     let v := (s.vecSent i op).hart.vec
     let en := s.hart.look (s.vecEntry i)
     let o := op.ops v en
     let split := s.hart.vec.splits op false = true ∧ s.hart.vec.strap = true
     let typeBad := op.typed = true ∧ (v.ill = true ∨ (∃ x, op.code = some x ∧ x ≠ v.sew) ∨ v.clsOk op.cls = false ∨ op.bad v en = true)
     let groupBad := v.badGroups o (copyOf en) = true
     ((split ∧ c = 0x25) ∨
       (¬ split ∧ v.vgrant = 0 ∧ c = 0x22) ∨
       (¬ split ∧ v.vgrant ≠ 0 ∧ typeBad ∧ c = 0x21) ∨
       (¬ split ∧ v.vgrant ≠ 0 ∧ ¬ typeBad ∧ groupBad ∧ c = 0x24) ∨
       (¬ split ∧ v.vgrant ≠ 0 ∧ ¬ typeBad ∧ ¬ groupBad ∧ v.badOverlap o (maskOf op.m en) (copyOf en) = true ∧ c = 0x23)) →
     ∃ t, exec i s = .next t ∧ s.engineStops t c 2) ∧
  (∀ (i : Instr) (s : State) (op : MatOp) (c : BitVec 8), matOpOf i = some op → s.hart.prefixFits .m false op.vecResult = true → s.hart.mq = [] →
     s.hart.surr = none → s.hart.bay.isOpen = false → s.shared s.cur = false →
     (s.matSent i).matHeld s.cur op (s.matEntry i) = false →
     let h := (s.matSent i).hart
     let en := s.matEntry i
     let g : Tag := match op.tile with | some t => s.core.tags.toList.getD t {} | none => {}
     let outside := h.plan.tiles = 0 ∨ (∃ t, op.tile = some t ∧ bit h.plan.tiles t = false) ∨
       (∃ r ∈ op.rows h.vec en, r.2 ≠ 0 ∧ h.plan.rowsOn < r.1 + r.2)
     let noLanes := op.usesV = true ∧ h.vec.vgrant = 0
     ((outside ∧ c = 0x30) ∨
       (¬ outside ∧ noLanes ∧ c = 0x22) ∨
       (¬ outside ∧ ¬ noLanes ∧ op.bad h en g = true ∧ c = 0x31) ∨
       (¬ outside ∧ ¬ noLanes ∧ op.bad h en g = false ∧ op.badGroup h.vec en = true ∧ c = 0x24) ∨
       (¬ outside ∧ ¬ noLanes ∧ op.bad h en g = false ∧ op.badGroup h.vec en = false ∧ op.badCopy h.vec en = true ∧ c = 0x23)) →
     ∃ t, exec i s = .next t ∧ s.engineStops t c 3) ∧
  (∀ (i : Instr) (s : State) (op : MatOp), matOpOf i = some op → s.hart.prefixFits .m false op.vecResult = true → s.hart.mq = [] →
     s.hart.hasRoom .m = true → s.shared s.cur = true →
     ∃ t, exec i s = .next t ∧ t.hart.mq = [s.matEntry i] ∧ t.hart.regs = s.hart.regs ∧ t.hart.fflags = s.hart.fflags ∧
       t.hart.pc = (s.hart.pc + 4) &&& pcMask ∧ t.mem = s.mem ∧ t.cores = s.cores)

/-! ### Submissions and copies -/

/-- Submissions of copies, bays, sampler work and gangs (R35, R51, R52): an accepted one writes its accept word; a refused
one writes the reason, unless its `.w` form may wait, which it does for 4096 cycles before it is refused with 0x08. -/
def Obligations.Submissions : Prop :=
  ∀ (i : Instr) (s : State) (x : Submission), submissionOf i = some x → s.hart.canSubmit x →
    (∀ d a, i = .glaunch d a → s.hart.sup = true) →
    let since : Word := match s.hart.wait with | some y => if y.kind = .admission x.x then y.since else s.time | none => s.time
    let long := 4096 ≤ (s.time - since).toNat
    (∀ t word, x.ask s = .ok (.accepted t word) → ∃ u, exec i s = .next u ∧ s.taken t u x word) ∧
    (∀ r waits, x.ask s = .ok (.refused r waits) →
      (x.w = true → waits = true → ¬ long → exec i s = .next (s.waitFor (.admission x.x))) ∧
      (x.w = true → waits = true → long → ∃ u, exec i s = .next u ∧ s.turnedAway u x 8) ∧
      ((x.w = false ∨ waits = false) → ∃ u, exec i s = .next u ∧ s.turnedAway u x r)) ∧
    (∀ c, x.ask s = .error (.trap c) → exec i s = .next (s.trapSeq c))

/-- What cp.go and cp.xpd check at dispatch and how they are admitted (R191, R193, R196, R197): a shape of no bytes or of
more than 2^30 is cause 0x38, a Square destination with bits past its mask 0x39; then the common reasons; then a full
queue is reason 0x20; then, where the work is of class G or N and on the part itself, a deadline more than 256 frames
away reason 0x02. What is accepted stands last in the copy queue with its operands, its shape, its deadline and its
charges; memory is as it was. That the full queue is looked at before the deadline, and the pace at which HBM is thought to
work off a copy, are the model's choices (log 20, log 37). -/
def Obligations.CopyAdmission : Prop :=
  ∀ (i : Instr) (s : State) (x : Submission) (c : CopyCmd), submissionOf i = some x → copyCmd s i = some c → s.hart.canSubmit x →
    let n := c.shape.total
    let noBytes := c.xpd = false ∧ (c.shape.count0 = 0 ∨ 2 ^ 30 < n)
    let badDest := c.dsp = .sq ∧ 2 ^ 37 ≤ c.b.toNat
    let r := s.hart.workResv
    let k := s.copyAsk s.cur c.ssp c.dsp c.a c.b c.xpd n (c.shape.rows * c.shape.planes)
    let why := s.commonReason s.who.fn r (5 :: (if k.wh = 0 then [] else [3]))
    let q := queuedCopy s.hart.cq
    let d := s.copyDeadline s.cur r k q.1 q.2
    let free := s.workCls s.hart = 0 ∨ k.host = true
    (noBytes → exec i s = .next (s.trapSeq ⟨0x38, 0⟩)) ∧
    (¬ noBytes → badDest → exec i s = .next (s.trapSeq ⟨0x39, c.b⟩)) ∧
    (¬ noBytes → ¬ badDest → why ≠ 0 → ∃ u, exec i s = .next u ∧ s.turnedAway u x why) ∧
    (¬ noBytes → ¬ badDest → why = 0 → s.hart.hasRoom .c = false → x.w = false →
      ∃ u, exec i s = .next u ∧ s.turnedAway u x 0x20) ∧
    (¬ noBytes → ¬ badDest → why = 0 → s.hart.hasRoom .c = true → ¬ free → 256 * 4096 < d - s.now → x.w = false →
      ∃ u, exec i s = .next u ∧ s.turnedAway u x 2) ∧
    (¬ noBytes → ¬ badDest → why = 0 → s.hart.hasRoom .c = true → (free ∨ d - s.now ≤ 256 * 4096) →
      ∃ u en, exec i s = .next u ∧ u.hart.cq = s.hart.cq ++ [en] ∧ en.instr = i ∧ en.op1 = c.a ∧ en.op2 = c.b ∧
        en.shape = c.shape ∧ en.left = k.wc ∧ en.leftH = k.wh ∧ en.started = false ∧ en.prog = 0 ∧
        (free → en.deadline = BitVec.allOnes 64 ∧ (x.d ≠ 0 → u.hart.reg x.d = BitVec.allOnes 64)) ∧
        (¬ free → en.deadline = BitVec.ofNat 64 d ∧ (x.d ≠ 0 → u.hart.reg x.d = BitVec.ofNat 64 (2 ^ 63 + d))) ∧
        u.mem = s.mem ∧ u.clus = s.clus ∧ u.dev = s.dev ∧ u.hart.pc = (s.hart.pc + 4) &&& pcMask)

/-- cp.shape (R190): S[a] is count0, and the rest comes from the record at S[b], or is zero where b is s0; a count0 of
more than 32 bits is cause 0x38, and it is not dispatched. cp.cnt (R195) stands in the copy queue, and when it retires S[d] takes
cpcnt; neither retires while the hart does not run, a stream S access before it can still trap, or the energy of its reservation is
held (R46, R48, R99). A chunk
of a copy between the local buffers (R198): up to 4096 bytes of one row go from the source's offset to the
destination's, the rest of the destination keeps its bytes, and the entry's progress moves on. The completion of a
command whose bytes are all written takes it from its queue and counts it in cpcnt, or deposits its token (R194). That
a copy moves a chunk at a time is the model's choice (log 18). -/
def Obligations.CopyWork : Prop :=
  (∀ (s : State) (ck : BitVec 2) (a b d : BitVec 5), s.hart.prefixFits .c false false = true → s.hart.hasRoom .c = true →
     (2 ^ 32 ≤ (s.reg a).toNat → exec (.cpShape ck a b) s = .next (s.trapSeq ⟨0x38, 0⟩)) ∧
     (∀ t r, (s.reg a).toNat < 2 ^ 32 → (b = 0 → t = s ∧ r = 0) → (b ≠ 0 → s.shapeRecord (s.reg b) 4 = .ok (t, r)) →
       ∃ u en, exec (.cpShape ck a b) s = .next u ∧ u.hart.cq = s.hart.cq ++ [en] ∧ en.instr = .cpShape ck a b ∧ en.shape = s.hart.c[ck.toNat] ∧ u.mem = t.mem ∧
         u.hart.c[ck.toNat] = {
           count0 := BitVec.ofNat 32 (s.reg a).toNat, count1 := BitVec.ofNat 16 (r / 2 ^ 32), count2 := BitVec.ofNat 16 (r / 2 ^ 48)
           s1 := BitVec.ofNat 64 (r / 2 ^ 64), s2 := BitVec.ofNat 64 (r / 2 ^ 128), d1 := BitVec.ofNat 64 (r / 2 ^ 192) } ∧
         (∀ j : BitVec 2, j ≠ ck → u.hart.c[j.toNat] = s.hart.c[j.toNat]) ∧ u.hart.regs = s.hart.regs ∧
         u.hart.pc = (s.hart.pc + 4) &&& pcMask) ∧
     (∃ u en, exec (.cpCnt d) s = .next u ∧ u.hart.cq = s.hart.cq ++ [en] ∧ en.instr = .cpCnt d ∧ s.sameBut u ∧ u.mem = s.mem ∧
       u.hart.regs = s.hart.regs ∧ u.hart.pc = (s.hart.pc + 4) &&& pcMask) ∧
     (∀ (x : State) (hid : BitVec 11) (en : Entry) (rest : List Entry), (x.hartAt hid.toNat).cq = en :: rest →
       (en.instr = .cpCnt d ∨ en.instr = .cpShape ck a b) →
       (x.shapeHeld hid.toNat = true → exec (.instructionRetire hid 3) x = .next x) ∧
       (x.shapeHeld hid.toNat = false → (∀ e ∈ rest, e.isMove = false) →
         ∃ u, exec (.instructionRetire hid 3) x = .next u ∧ (u.hartAt hid.toNat).cq = rest ∧ u.mem = x.mem ∧
           (en.instr = .cpCnt d →
             (u.hartAt hid.toNat).reg d = if d = 0 then 0 else (x.hartAt hid.toNat).cpcnt)))) ∧
  (∀ (s : State) (hid : BitVec 11) (o : Copy) (en : Entry) (rest : List Entry),
     let h := s.hartAt hid.toNat
     let k := s.coreAt (hid.toNat / 8)
     h.cq = en :: rest → en.instr = .cpGo o →
     (∀ n, o.ssp = 1 → o.dsp = 2 → en.shape = { count0 := n } → en.prog < n.toNat → en.mcf = 0 →
       s.copyHeld hid.toNat ⟨.ab, .wb, compTok o.comp, 0⟩ = false → s.dev.latent = none →
       en.op1.toNat + n.toNat ≤ Config.abBytes → en.op2.toNat + n.toNat ≤ Config.wbBytes →
       let len := min 4096 (n.toNat - en.prog)
       ∃ t e1, exec (.copyChunk hid) s = .next t ∧ (t.hartAt hid.toNat).cq = e1 :: rest ∧ e1.prog = en.prog + 4096 ∧
         e1.left = en.left - (len + 255) / 256 ∧ t.mem = s.mem ∧ (t.coreAt (hid.toNat / 8)).ab = k.ab ∧
         (∀ j, j < len → (t.coreAt (hid.toNat / 8)).wb.byte (en.op2.toNat + en.prog + j) = k.ab.byte (en.op1.toNat + en.prog + j)) ∧
         (∀ y, (y < en.op2.toNat + en.prog ∨ en.op2.toNat + en.prog + len ≤ y) →
           (t.coreAt (hid.toNat / 8)).wb.byte y = k.wb.byte y)) ∧
     (h.run = .running → en.shape.count0 ≠ 0 → en.shape.total ≤ en.prog → en.mcf = 0 → (∀ e ∈ rest, e.isMove = false) →
       ∃ t, exec (.copyComplete hid) s = .next t ∧ (t.hartAt hid.toNat).cq = rest ∧ t.mem = s.mem ∧
         (o.comp = 0 → (t.hartAt hid.toNat).cpcnt = h.cpcnt + 1) ∧
         (o.comp ≠ 0 → (t.hartAt hid.toNat).cpcnt = h.cpcnt ∧ (en.pfx = none →
           (t.hartAt hid.toNat).tokens (9 + o.comp.toNat) = h.tokens (9 + o.comp.toNat) + 1))))

/-! ### Negotiated bays -/

/-- The admission of a take (R319 to R321): in a surrender routine it is cause 0x44; a malformed request is reason 0x30;
where the free units cover it and the recall queue has not overflowed, the bay is pending under the next free handle,
its deadline 64 + 4u cycles away, or the last of the hart's bays' where that is later (R55), and bayh names it. -/
def Obligations.BayTakes : Prop :=
  ∀ (i : Instr) (s : State) (x : Submission) (neg : Bool) (d a b : BitVec 5) (w : BitVec 1),
    i = (if neg then .bayTakeNeg d a b w else .bayTakeFix d a w) → submissionOf i = some x → s.hart.canSubmit x →
    let ask := s.reg a
    let ent := if neg then s.reg b else 0
    let u := takeUnits ask
    let r := if s.hart.sup then 0 else s.hart.resv.toNat
    let why := s.commonReason s.who.fn r []
    let c := s.clusAt s.clusNo
    (s.hart.surr.isSome = true → exec i s = .next (s.trapSeq ⟨0x44, 0⟩)) ∧
    (s.hart.surr = none → takeBad neg ask ent = true → ∃ v, exec i s = .next v ∧ s.turnedAway v x 0x30) ∧
    (s.hart.surr = none → takeBad neg ask ent = false → why ≠ 0 → why ≠ 1 →
      ∃ v, exec i s = .next v ∧ s.turnedAway v x why) ∧
    (s.hart.surr = none → takeBad neg ask ent = false → why = 0 ∨ why = 1 → u ≤ c.free → c.recalls.length ≤ 16 →
      ∃ v, exec i s = .next v ∧
        let k := v.clusAt s.clusNo
        let hd := c.nextHandle
        let p := k.bay hd
        p.st = .pending ∧ p.neg = neg ∧ p.units = u ∧ p.got = u ∧ p.gang = s.hart.gang ∧ p.holder = s.cur ∧
        (neg = true → p.entry = ent ∧ p.lb = takeLb ask ∧ p.allow = takeAllow ask) ∧
        (∀ j, j ≠ hd → k.bay j = c.bay j) ∧ k.square = c.square ∧ k.recalls = c.recalls ∧ v.mem = s.mem ∧ v.dev = s.dev ∧
        v.hart.bay.bayh = BitVec.ofNat 8 hd ∧
        (d ≠ 0 → v.hart.reg d =
          if (s.rsvAt r).cls = 0 then BitVec.allOnes 64
          else BitVec.ofNat 64 (2 ^ 63 + max s.hart.srcDl[1].toNat (s.now + 64 + 4 * u))) ∧
        v.hart.pc = (s.hart.pc + 4) &&& pcMask)

/-- bay.give (R314, R323): it releases the bay that the address in S[a] names, where the hart's gang holds it and the
hart's accesses are performed. A bay of another gang, handle 0 and a free handle that another gang held last are cause
0x40, one lost or given 0x43, an address above 2^32
0x14. The returns from a surrender routine (R87, R327): the banked pc, registers and prefix come back. With fin the
bay stays recalled and the count goes on, and with ref where no refusal is left; with sum it is released and the count
ends; with ref, while refusals are left, the recall is
put off to the next frame boundary and the count stops. What the routine set aside stands in the vector queue again, behind
it the stream changes that the routine made. They wait for what the routine dispatched, and sum for the hart's accesses. A
pre-emption that has waited comes then. Outside a routine they are cause 0x45, after a prefix 0x03. The order of the queue
after a routine, what set-aside instructions are not waited for, and the waits for a pending bay and for accesses, are the
model's choices (log 32, log 69, log 41). -/
def Obligations.BayReleases : Prop :=
  (∀ (s : State) (a : BitVec 5), s.hart.prefixFits .s false false = true →
     let x := (s.reg a).toNat
     let hd := x / 2 ^ 24
     let b := (s.clusAt s.clusNo).bay hd
     let mine := b.gang = s.hart.gang ∧ s.hart.gang ≠ 0
     (2 ^ 32 ≤ x → exec (.bayGive a) s = .next (s.popped.trapSeq ⟨0x14, s.reg a⟩)) ∧
     (x < 2 ^ 32 → b.st ≠ .free → ¬ mine → exec (.bayGive a) s = .next (s.popped.trapSeq ⟨0x40, s.reg a⟩)) ∧
     (x < 2 ^ 32 → b.st = .free → hd ≠ 0 → b.lastGang = s.hart.gang → s.hart.gang ≠ 0 →
       exec (.bayGive a) s = .next (s.popped.trapSeq ⟨0x43, s.reg a⟩)) ∧
     (x < 2 ^ 32 → b.st = .free → (hd = 0 ∨ b.lastGang ≠ s.hart.gang ∨ s.hart.gang = 0) →
       exec (.bayGive a) s = .next (s.popped.trapSeq ⟨0x40, s.reg a⟩)) ∧
     (x < 2 ^ 32 → b.st = .pending → mine → exec (.bayGive a) s = .next (s.waitFor (.bay s.clusNo hd))) ∧
     (x < 2 ^ 32 → b.st = .held → mine → s.begun.accessBusy s.cur = true → exec (.bayGive a) s = .next (s.waitFor .accesses)) ∧
     (x < 2 ^ 32 → b.st = .held → mine → s.begun.accessBusy s.cur = false →
       ∃ t, exec (.bayGive a) s = .next t ∧ t.hart.pc = (s.hart.pc + 4) &&& pcMask ∧ t.hart.regs = s.hart.regs ∧ t.mem = s.mem ∧
         let k := t.clusAt s.clusNo
         (k.bay hd).st = .free ∧ (k.bay hd).lastGang = b.gang ∧
         (∀ y, (hd * 2 ^ 24 ≤ y ∧ y < (hd + 1) * 2 ^ 24 → k.square.byte y = 0) ∧
           (¬ (hd * 2 ^ 24 ≤ y ∧ y < (hd + 1) * 2 ^ 24) → k.square.byte y = (s.clusAt s.clusNo).square.byte y)) ∧
         (∀ v ∈ k.recalls, v.victim ≠ hd) ∧ (∀ j, j ≠ s.clusNo → t.clusAt j = s.clusAt j))) ∧
  (∀ (i : Instr) (s : State) (y : Surr), (i = .bayRetFin ∨ i = .bayRetSum ∨ i = .bayRetRef) →
     (s.hart.pfx.isSome = true → exec i s = .next (s.trapSeq ⟨0x03, 0⟩)) ∧
     (s.hart.pfx = none → s.hart.surr = none → exec i s = .next (s.trapSeq ⟨0x45, 0⟩)) ∧
     let own := (s.hart.vq ++ s.hart.mq ++ s.hart.cq).any (fun e => e.surr) = true ∨ s.hart.ss.any (fun e => e.surr) = true
     let busy := i = .bayRetSum ∧ s.hart.bay.isOpen = true ∧ s.accessBusy s.cur = true
     (s.hart.pfx = none → s.hart.surr = some y → own → exec i s = .next (s.waitFor .routine)) ∧
     (s.hart.pfx = none → s.hart.surr = some y → ¬ own → busy → exec i s = .next (s.waitFor .accesses)) ∧
     (s.hart.pfx = none → s.hart.surr = some y → ¬ own → ¬ busy → s.hart.preempt = true →
       ∃ t, exec i s = .next t ∧ t.hart.run = .suspending ∧ t.hart.hdr.cause = 0x50 ∧ t.hart.hdr.rpc = y.pc ∧
         t.hart.surr = none ∧ t.hart.post = false ∧ t.mem = s.mem) ∧
     (s.hart.pfx = none → s.hart.surr = some y → ¬ own → ¬ busy → s.hart.preempt = false →
       ∃ t, exec i s = .next t ∧ t.hart.surr = none ∧ t.hart.pc = y.pc ∧ t.hart.wait = none ∧ t.mem = s.mem ∧
         t.hart.pfx = (if y.pfx.pend then some (y.pfx.word, y.pfx.popd) else none) ∧
         (∀ j : Fin 8, t.hart.regs[24 + j.val] = y.bank[j]) ∧ (∀ j : Fin 24, t.hart.regs[j.val] = s.hart.regs[j.val]) ∧
         t.hart.vq = s.hart.vq ++ (s.hart.backStreams y).2 ∧ (∃ l, (s.hart.backStreams y).2 = y.vq ++ l) ∧ t.hart.tok = s.hart.tok ∧ t.hart.fflags = s.hart.fflags ∧
         (i = .bayRetFin → t.clus = s.clus ∧ t.hart.bay.isOpen = s.hart.bay.isOpen ∧
           (s.hart.bay.isOpen = true → t.hart.bay.counting = s.hart.bay.counting) ∧
           (s.hart.bay.isOpen = false → t.hart.bay.counting = false)) ∧
         (i = .bayRetSum → s.hart.bay.isOpen = true → ((t.clusAt s.clusNo).bay s.hart.bay.handle.toNat).st = .free ∧
           (((s.clusAt s.clusNo).bay s.hart.bay.handle.toNat).holder = s.cur →
             t.hart.bay.isOpen = false ∧ t.hart.bay.counting = false)) ∧
         (i = .bayRetRef → s.hart.bay.isOpen = true → s.hart.bay.aleft = 0 →
           t.clus = s.clus ∧ t.hart.bay.isOpen = true ∧ t.hart.bay.aleft = 0 ∧ t.hart.bay.counting = s.hart.bay.counting) ∧
         (i = .bayRetRef → s.hart.bay.isOpen = true → s.hart.bay.aleft ≠ 0 →
           t.hart.bay.aleft = s.hart.bay.aleft - 1 ∧ t.hart.bay.counting = false ∧ t.hart.bay.isOpen = true ∧
           (∀ r ∈ (t.clusAt s.clusNo).recalls, r.victim = s.hart.bay.handle.toNat → r.notBefore = BitVec.ofNat 64 (nextFrame s.now)) ∧
           (t.clusAt s.clusNo).bays = (s.clusAt s.clusNo).bays)))

/-- A bay's grant once its units are there (R321), the delivery of a recall (R324), and overruns (R326, R328): a delivered
recall banks pc, s24 to s31 and the prefix and goes to the bay's entry with a time limit of 16 · 2^lb + 2048 cycles;
one to a hart that does not run, and an overrun, release the bay at once. Where an access that waits in stream S can still trap,
the hart is banked as it was when the first such was dispatched. That is the model's choice (log 26), and that these happen
as events of their own (log 18). -/
def Obligations.BayEvents : Prop :=
  ∀ (s : State) (cl : BitVec 5) (hd : BitVec 8),
    let c := s.clusAt cl.toNat
    let b := c.bay hd.toNat
    (b.st = .pending → b.units ≤ b.got → b.giveAtGrant = false →
      ∃ t, exec (.bayGrant cl hd) s = .next t ∧ let k := t.clusAt cl.toNat
        k.bay hd.toNat = { b with st := .held, grant := s.time } ∧ (∀ j, j ≠ hd.toNat → k.bay j = c.bay j) ∧
        (∀ y, hd.toNat * 2 ^ 24 ≤ y → y < (hd.toNat + 1) * 2 ^ 24 → k.square.byte y = 0) ∧ t.mem = s.mem ∧ t.harts = s.harts) ∧
    (∀ r, c.recalls.find? (fun x => x.victim == hd.toNat) = some r → r.isOpen = false → r.holder < 4096 →
      let h := s.hartAt r.holder
      h.surr = none → h.bay.isOpen = false →
      (h.run = .running → ∃ t y, exec (.recallDelivery cl hd) s = .next t ∧ let k := t.hartAt r.holder
        k.surr = some y ∧ (∀ j : Fin 8, y.bank[j] = k.regs[24 + j.val]) ∧ y.cls = r.rqcls ∧ y.resv = r.rqrsv ∧
        (h.unsettled = false → y.pc = h.pc ∧ k.regs = h.regs ∧ k.ss = h.ss ∧
          (h.pfx = none → y.pfx = { h.pfxsave with pend := false, popd := false }) ∧
          (∀ w took, h.pfx = some (w, took) → y.pfx = { pend := true, popd := took, word := w })) ∧
        (∀ l x m z, h.ss = l ++ x :: m → (∀ v ∈ l, v.risky = false) → x.back = some z →
          y.pc = x.pc ∧ k.regs = z.regs ∧ k.fflags = z.fflags ∧ k.ss = l) ∧
        k.pc = b.entry &&& pcMask ∧ k.pfx = none ∧ k.wait = none ∧
        k.bay.isOpen = true ∧ k.bay.counting = true ∧ k.bay.ucnt = 0 ∧ k.bay.handle = BitVec.ofNat 8 r.victim ∧
        k.bay.rcend = s.time + BitVec.ofNat 64 (16 * 2 ^ b.lb + 2048) ∧ (t.clusAt cl.toNat).bays = c.bays ∧ t.mem = s.mem) ∧
      (h.run ≠ .running → b.holder < 4096 → ∃ t, exec (.recallDelivery cl hd) s = .next t ∧ ((t.clusAt cl.toNat).bay hd.toNat).st = .free ∧
        (t.hartAt b.holder).bay.lost = true ∧ (t.hartAt b.holder).bay.lostHandle = hd ∧ t.mem = s.mem)) ∧
    (∀ (hid : BitVec 11), let h := s.hartAt hid.toNat
      let z := h.bay.handle
      let overrun (i : Instr) : Prop := ∃ t, exec i s = .next t ∧ (t.hartAt hid.toNat).run = .suspending ∧
        (t.hartAt hid.toNat).hdr.cause = 0x42 ∧ (t.hartAt hid.toNat).hdr.engine = 5 ∧ (t.hartAt hid.toNat).surr = none ∧
        ((t.clusAt (hid.toNat / 64)).bay z.toNat).st = .free ∧ t.mem = s.mem
      h.bay.isOpen = true → h.bay.counting = true →
      (2 ^ h.bay.lb.toNat < h.bay.ucnt → overrun (.surrenderUnitOverrun hid)) ∧
      (h.bay.rcend ≤ s.time → overrun (.surrenderTimeOverrun hid)))

/-! ### The sampler -/

/-- The logit instructions, in lockstep over the lanes (R345 to R348): each live lane whose predicate holds takes the
table's result; a bad index in a live lane ends the request with status 0x49 and changes no lane; nothing else
changes. -/
def Obligations.LogitResults : Prop :=
  ∀ (i : Instr) (s : State) (p : BitVec 2) (bad : Lane → Bool) (f : Mem → Lane → Lane), logitTable i = some (p, bad, f) →
    let c := s.clusAt s.clusNo
    ∃ k : Clus, exec i s = .next (s.setClusAt s.clusNo k) ∧ k = { c with lanes := k.lanes, lstat := k.lstat } ∧
      (c.lstat ≠ 0 → k = c) ∧
      (c.lstat = 0 → (∃ j : Fin 128, c.lanes[j].live = true ∧ bad c.lanes[j] = true) → k.lstat = 0x49 ∧ k.lanes = c.lanes) ∧
      (c.lstat = 0 → (∀ j : Fin 128, c.lanes[j].live = true → bad c.lanes[j] = false) →
        k.lstat = 0 ∧ ∀ j : Fin 128, k.lanes[j] =
          if c.lanes[j].live = true ∧ (p = 1 → c.lanes[j].cf = true) ∧ (p = 2 → c.lanes[j].cf = false)
          then f (c.slot c.lslot) c.lanes[j] else c.lanes[j])

/-- The admission of sampler work (R339 to R342): a request block that is not aligned is cause 0x10; then the common
reasons, of which 0x02 for a deadline more than 256 frames away is the last (R53, R55; log 70), a malformed block or
operand 0x40, a slot outside the core's window 0x42, a full sampler 0x41. The block is read once, at dispatch, and kept by a request
that waits for admission. What is accepted stands last in the
cluster's work with its slot, address, block and charge: maxcyc cycles for a request, 32 for a table. -/
def Obligations.SamplerAdmission : Prop :=
  ∀ (i : Instr) (s t : State) (x : Submission) (op raw : Nat) (ra rb : BitVec 5), submissionOf i = some x →
    samplerOf i = some (op, ra, rb) → op ≠ 3 → s.hart.canSubmit x →
    let a := s.reg ra
    let blk := if op = 0 then blockOf raw else {}
    let slot := if op = 0 then blk.slot.toNat else (s.reg rb).toNat
    let why := s.commonReason s.who.fn s.hart.workResv [6]
    let bad := if op = 0 then blk.bad = true else (a.toNat % 64 ≠ 0 ∨ 1023 < slot)
    let inWindow := s.core.smpBase.toNat ≤ slot ∧ slot < s.core.smpBase.toNat + s.core.smpCnt.toNat
    let c := s.clusAt s.clusNo
    let mine := c.works.filter (fun y => y.hid == s.cur)
    let full := 64 ≤ c.works.length ∨ 16 ≤ s.worksOf s.cur
    let units := if op = 0 then blk.maxcyc.toNat else 32
    let d := max s.hart.srcDl[2].toNat (pace s.now (units + mine.foldl (fun m y => m + y.left) 0)
      (s.remaining s.hart.workResv 6 s.clusNo) (s.budget s.hart.workResv 6) 256)
    let near := s.workCls s.hart = 0 ∨ d - s.now ≤ 256 * 4096
    (op = 0 → s.hart.smpRaw = none → a.toNat % 64 ≠ 0 → exec i s = .next (s.trapSeq ⟨0x10, a⟩)) ∧
    ((op = 0 → (s.hart.smpRaw = none ∧ a.toNat % 64 = 0 ∧ s.shapeRecord a 8 = .ok (t, raw)) ∨ (s.hart.smpRaw = some raw ∧ t = s)) →
      (op ≠ 0 → t = s) →
      (why ≠ 0 → ∃ u, exec i s = .next u ∧ t.turnedAway u x why) ∧
      (why = 0 → ¬ near → x.w = false → ∃ u, exec i s = .next u ∧ t.turnedAway u x 2) ∧
      (why = 0 → near → bad → ∃ u, exec i s = .next u ∧ t.turnedAway u x 0x40) ∧
      (why = 0 → near → ¬ bad → ¬ inWindow → ∃ u, exec i s = .next u ∧ t.turnedAway u x 0x42) ∧
      (why = 0 → near → ¬ bad → inWindow → full → x.w = false → ∃ u, exec i s = .next u ∧ t.turnedAway u x 0x41) ∧
      (why = 0 → near → ¬ bad → inWindow → ¬ full →
        ∃ u wk, exec i s = .next u ∧ (u.clusAt s.clusNo).works = c.works ++ [wk] ∧ wk.op = op ∧ wk.slot = slot ∧ wk.addr = a ∧
          wk.blk = blk ∧ wk.w = units ∧ wk.hid = s.cur ∧ wk.gang = s.hart.gang ∧ wk.started = false ∧ wk.seq = c.seq ∧
          (u.clusAt s.clusNo).table = c.table ∧ (u.clusAt s.clusNo).bays = c.bays ∧ u.mem = t.mem ∧
          (x.d ≠ 0 → u.hart.reg x.d =
            if s.workCls s.hart = 0 then BitVec.allOnes 64 else BitVec.ofNat 64 (2 ^ 63 + d)) ∧
          u.hart.pc = (s.hart.pc + 4) &&& pcMask))

/-- smp.pld's admission (R334, R341): after the common reasons, and reason 0x02 for a deadline more than 256 frames away, a
program of no words or more than 96, an index above 63 or a misaligned address, at which nothing is read, is reason
0x40; one that the 2048 words of program memory have no room for 0x43; else it is accepted. The three table and program works performed (R341): the slot takes the 512
bytes, the memory takes the slot's, the program takes its words; a load that faults changes nothing and says 0x4B, a
store 0x4C. That the transfers happen as events of their own is the model's choice (log 18). -/
def Obligations.SamplerTables : Prop :=
  (∀ (s : State) (d a b : BitVec 5) (w : BitVec 1) (x : Submission), submissionOf (.smpPld d a b w) = some x →
    s.hart.canSubmit x → s.hart.smpRaw = none → (s.reg a).toNat % 64 ≠ 0 →
    let why := s.commonReason s.who.fn s.hart.workResv [6]
    let near := s.workCls s.hart = 0 ∨ s.smpDeadline 16 - s.now ≤ 256 * 4096
    (why ≠ 0 → ∃ u, exec (.smpPld d a b w) s = .next u ∧ s.turnedAway u x why) ∧
    (why = 0 → ¬ near → w = 0 → ∃ u, exec (.smpPld d a b w) s = .next u ∧ s.turnedAway u x 2) ∧
    (why = 0 → near → ∃ u, exec (.smpPld d a b w) s = .next u ∧ s.turnedAway u x 0x40)) ∧
  (∀ (s t : State) (d a b : BitVec 5) (w : BitVec 1) (p : Place) (x : Submission), submissionOf (.smpPld d a b w) = some x →
    s.hart.canSubmit x → s.hart.smpRaw = none → (s.reg a).toNat % 64 = 0 → s.scalarPlace 0 (s.reg a) 4 .read = .ok (t, p) →
    let raw := t.getAt p 4
    let n := raw % 128
    let c := s.clusAt s.clusNo
    let bad := 63 < (s.reg b).toNat ∨ 128 ≤ raw ∨ n = 0 ∨ 96 < n
    s.commonReason s.who.fn s.hart.workResv [6] = 0 → (s.workCls s.hart = 0 ∨ s.smpDeadline (n + 16) - s.now ≤ 256 * 4096) →
    (bad → ∃ u, exec (.smpPld d a b w) s = .next u ∧ t.turnedAway u x 0x40) ∧
    (¬ bad → c.works.length < 64 → s.worksOf s.cur < 16 → 2048 < c.poolUsed + n → w = 0 →
      ∃ u, exec (.smpPld d a b w) s = .next u ∧ t.turnedAway u x 0x43) ∧
    (¬ bad → c.works.length < 64 → s.worksOf s.cur < 16 → c.poolUsed + n ≤ 2048 →
      ∃ u wk, exec (.smpPld d a b w) s = .next u ∧ (u.clusAt s.clusNo).works = c.works ++ [wk] ∧ wk.op = 3 ∧
        wk.slot = (s.reg b).toNat ∧ wk.n = n ∧ wk.w = n + 16 ∧ u.mem = t.mem ∧
        (d ≠ 0 → u.hart.reg d = if s.workCls s.hart = 0 then BitVec.allOnes 64 else BitVec.ofNat 64 (2 ^ 63 + s.smpDeadline (n + 16))))) ∧
  (∀ (s : State) (cl : BitVec 5) (seq : BitVec 64) (w : Work),
    let c := s.clusAt cl.toNat
    c.work seq.toNat = some w → c.mayStart w = true → s.workHeld cl.toNat w = false → w.hid < 4096 →
    (w.op = 1 → let b := s.chargeCycles cl.toNat w 32
      (∀ u img, b.readExtent w w.addr.toNat 512 = .ok (u, img) →
        ∃ t, exec (.tableLoadPerform cl seq) s = .next t ∧ s.workOver t cl.toNat w ∧ t.mem = u.mem ∧
          (∀ j, j < 512 → (t.clusAt cl.toNat).table.byte (512 * w.slot + j) = img.byte j) ∧
          (∀ y, (y < 512 * w.slot ∨ 512 * w.slot + 512 ≤ y) → (t.clusAt cl.toNat).table.byte y = c.table.byte y)) ∧
      (∀ a, b.readExtent w w.addr.toNat 512 = .error a →
        ∃ t, exec (.tableLoadPerform cl seq) s = .next t ∧ s.workOver t cl.toNat w ∧ t.workFault w 0x4B a ∧
          (t.clusAt cl.toNat).table = c.table ∧ t.mem = s.mem)) ∧
    (w.op = 2 → let b := s.chargeCycles cl.toNat w 32
      (∀ u l, b.dvSpans w.who w.addr.toNat 512 0 .write w.touch 3 = .ok (u, l) →
        ∃ t, exec (.tableStorePerform cl seq) s = .next t ∧ s.workOver t cl.toNat w ∧ (t.clusAt cl.toNat).table = c.table ∧
          t.mem = (u.scatter l (c.table.slice (512 * w.slot) 512)).mem) ∧
      (∀ x, b.dvSpans w.who w.addr.toNat 512 0 .write w.touch 3 = .error (.trap x) →
        ∃ t, exec (.tableStorePerform cl seq) s = .next t ∧ s.workOver t cl.toNat w ∧ t.workFault w 0x4C x.addr ∧ t.mem = s.mem)) ∧
    (w.op = 3 → let b := s.chargeCycles cl.toNat w (w.n + 16)
      (∀ u img, b.readExtent w (w.addr.toNat + 4) (4 * w.n) = .ok (u, img) →
        ∃ t p, exec (.programLoadPerform cl seq) s = .next t ∧ s.workOver t cl.toNat w ∧
          (t.clusAt cl.toNat).progs.find w.slot = some p ∧ p.fn = w.fn ∧ p.words.length = w.n ∧
          (∀ j, j < w.n → p.words.getD j 0 = BitVec.ofNat 32 (img.read (4 * j) 4)) ∧ t.mem = u.mem ∧
          (t.clusAt cl.toNat).table = c.table) ∧
      (∀ a, b.readExtent w (w.addr.toNat + 4) (4 * w.n) = .error a →
        ∃ t, exec (.programLoadPerform cl seq) s = .next t ∧ s.workOver t cl.toNat w ∧ t.workFault w 0x4B a ∧
          (t.clusAt cl.toNat).progs = c.progs ∧ t.mem = s.mem)))

/-- A request as it runs (R332, R343, R351 to R354): it starts with the program that its slot's attr names, or ends with
0x4D; a strip that may run gives its lanes to the program and folds their outputs in; one that is held or whose
watermark is not passed waits; one past its budget ends with 0x4A, one whose accesses fault with 0x4B, one whose
program fails with the lane's code. The draw after the last strip writes the record. That a strip is one event, and
that a record of code 0x4A holds maxcyc and one of code 0x4B the cycles of the strips before, is the model's choice (log 18, log 39). -/
def Obligations.SamplerRequests : Prop :=
  ∀ (s : State) (cl : BitVec 5) (seq : BitVec 64) (w : Work),
    let k := cl.toNat
    let c := s.clusAt k
    let attr := (biasEntry (c.slot w.slot) 0).2.1
    let used := w.used s.now
    c.work seq.toNat = some w → w.hid < 4096 → w.op = 0 →
    (c.mayStart w = true → s.workHeld k w = false →
      (∀ p, attr / 128 % 2 = 1 → c.progs.find (attr % 64) = some p → ∃ t, exec (.samplerStart cl seq) s = .next t ∧
        (t.clusAt k).work seq.toNat =
          some { w with started := true, begin := s.time, words := p.words, prog := attr % 64, ver := p.ver } ∧ t.mem = s.mem) ∧
      ((attr / 128 % 2 = 0 ∨ c.progs.find (attr % 64) = none) →
        ∃ t, exec (.samplerStart cl seq) s = .next t ∧ s.requestEnds s t k w 0x4D 16)) ∧
    (w.started = true → w.blk.maxcyc.toNat < used →
      ∃ t, exec (.samplerCycleOverrun cl seq) s = .next t ∧ s.requestEnds s t k w 0x4A w.blk.maxcyc.toNat) ∧
    (w.started = true → w.waitFrom = none → w.strip < w.strips →
      let waits (t : State) : Prop := (t.clusAt k).work seq.toNat = some { w with waitFrom := some s.time, tried := s.now + 1 }
      (s.workHeld k w = true → ∃ t, exec (.samplerStrip cl seq) s = .next t ∧ waits t ∧ t.mem = s.mem) ∧
      (s.workHeld k w = false → w.blk.maxcyc.toNat < used + w.stripCyc →
        ∃ t, exec (.samplerStrip cl seq) s = .next t ∧ s.requestEnds s t k w 0x4A w.blk.maxcyc.toNat) ∧
      (s.workHeld k w = false → used + w.stripCyc ≤ w.blk.maxcyc.toNat →
        (∀ e, s.stripPass w = .error (.trap e) →
          ∃ t, exec (.samplerStrip cl seq) s = .next t ∧ s.requestEnds (s.stopMet w (.trap e)) t k w 0x4B used) ∧
        (∀ e, s.stripPass w = .error (.wait e) → ∃ t, exec (.samplerStrip cl seq) s = .next t ∧ waits t ∧ t.mem = s.mem) ∧
        (∀ u e, s.stripPass w = .ok (u, true) → u.stripLogits w = .error (.trap e) →
          ∃ t, exec (.samplerStrip cl seq) s = .next t ∧ s.requestEnds (u.stopMet w (.trap e)) t k w 0x4B used) ∧
        (∀ u e, s.stripPass w = .ok (u, true) → u.stripLogits w = .error (.wait e) →
          ∃ t, exec (.samplerStrip cl seq) s = .next t ∧ waits t ∧ t.mem = u.mem) ∧
        (∀ u, s.stripPass w = .ok (u, false) → ∃ t, exec (.samplerStrip cl seq) s = .next t ∧ waits t ∧ t.mem = u.mem) ∧
        (∀ u v xs, s.stripPass w = .ok (u, true) → u.stripLogits w = .ok (v, xs) →
          let r := ({ c with lanes := startLanes (128 * w.strip) xs, lslot := w.slot, lstat := 0 } : Clus).runProgram w.words
          let ys := (r.lanes.toList.take xs.length).map (fun l => (l.tok, yOf w.blk.c.toNat l.out.toNat))
          (r.lstat = 0 → ∃ t, exec (.samplerStrip cl seq) s = .next t ∧ (t.clusAt k).work seq.toNat = some (w.fold ys) ∧
            (w.fold ys).strip = w.strip + 1 ∧ t.mem = v.mem) ∧
          (r.lstat ≠ 0 → ∃ t, exec (.samplerStrip cl seq) s = .next t ∧
            s.requestEnds v t k w r.lstat.toNat (used + w.stripCyc))))) ∧
    (∀ t0 u v xs, w.started = true → w.waitFrom = some t0 → s.workHeld k w = false → s.stripPass w = .ok (u, true) →
      u.stripLogits w = .ok (v, xs) → ∃ t, exec (.samplerWmReread cl seq) s = .next t ∧
        (t.clusAt k).work seq.toNat =
          some { w with waitFrom := none, waited := w.waited + (s.now - t0.toNat), tried := s.now + 1 } ∧ t.mem = u.mem) ∧
    (∀ tk u pa, w.started = true → w.strips ≤ w.strip → w.tok = some tk → w.blk.mode.toNat / 4 % 2 = 0 → tk < 2 ^ 32 →
      used ≤ w.blk.maxcyc.toNat → s.dv w.who w.blk.res.toNat .write w.touch = .ok (u, pa) →
      ∃ t, exec (.samplerDraw cl seq) s = .next t ∧ s.workOver t k w ∧ (t.clusAt k).table = c.table ∧
        t.mem.read pa 4 = tk ∧ t.mem.read (pa + 4) 4 = w.m.toNat ∧ t.mem.read (pa + 8) 4 = w.s.toNat ∧
        t.mem.read (pa + 12) 4 = (if w.nf then 256 else 0) ∧ t.mem.read (pa + 16) 4 = used ∧ t.mem.read (pa + 20) 4 = w.y.toNat ∧
        t.mem.read (pa + 24) 8 = w.blk.step.toNat ∧ ∀ y, (y < pa ∨ pa + 32 ≤ y) → t.mem.byte y = u.mem.byte y)

/-! ### Gangs and frames -/

/-- glaunch (R113 to R118): the checks in order, in a reset of function 0 reason 0x09 before them (R364); an accepted
launch reserves the placement's slots, whose harts begin at the block's entry with their stack in s2 and args in s3,
and its block says state 1, the gang and the accept word, for the next frame boundary plus 64 cycles. -/
def Obligations.Launches : Prop :=
  ∀ (s t : State) (d a : BitVec 5) (x : Submission) (raw : Nat), submissionOf (.glaunch d a) = some x → s.hart.sup = true →
    s.hart.run = .running → s.hart.canSubmit x → s.scalarGate 0 .read = none →
    let at_ := s.reg a
    let b := launchBlock raw
    let f := s.hart.lfunc.toNat
    let why := s.commonReason f b.resv [0]
    (at_.toNat % 64 ≠ 0 → exec (.glaunch d a) s = .next (s.trapSeq ⟨0x10, at_⟩)) ∧
    (at_.toNat % 64 = 0 → s.blockRead s.who at_.toNat s.hart.scalarTouch = .ok (t, raw) → s.fnClosed 0 = true →
      ∃ u, exec (.glaunch d a) s = .next u ∧ t.turnedAway u x 9) ∧
    (at_.toNat % 64 = 0 → s.blockRead s.who at_.toNat s.hart.scalarTouch = .ok (t, raw) → s.fnClosed 0 = false →
      (why ≠ 0 → why ≠ 1 → ∃ u, exec (.glaunch d a) s = .next u ∧ t.turnedAway u x why) ∧
      (why = 0 ∨ why = 1 → b.bad = true → ∃ u, exec (.glaunch d a) s = .next u ∧ t.turnedAway u x 0x50) ∧
      (why = 1 → b.bad = false → ∃ u, exec (.glaunch d a) s = .next u ∧ t.turnedAway u x 1) ∧
      (why = 0 → b.bad = false → ∀ r, t.placement b = .error r → ∃ u, exec (.glaunch d a) s = .next u ∧ t.turnedAway u x r) ∧
      (why = 0 → b.bad = false → ∀ l, t.placement b = .ok l → 8 ≤ s.launchesOf s.cur →
        ∃ u, exec (.glaunch d a) s = .next u ∧ t.turnedAway u x 0x53) ∧
      (why = 0 → b.bad = false → ∀ l, t.placement b = .ok l → s.launchesOf s.cur < 8 → (l.map (fun y => y.1)).Nodup →
        s.cur ∉ l.map (fun y => y.1) →
        let word := acceptWord (s.rsvAt b.resv).cls (nextFrame s.now + 64)
        ∃ u g gang, exec (.glaunch d a) s = .next u ∧ u.gangAt g = some gang ∧ gang.block = at_ ∧ gang.placed = false ∧
          gang.members.length = l.length ∧ (d ≠ 0 → u.hart.reg d = word) ∧
          t.blockSays u gang [(64, 4, 1), (68, 2, g), (72, 8, word.toNat)] ∧
          (∀ j hid p, l[j]? = some (hid, p) → let h := u.hartAt hid
            let c := s.coreAt (hid / 8)
            let top := c.stkpool + BitVec.ofNat 64 (hid % 8 + 1) * c.stkmax
            h.run = .reserved ∧ h.sup = false ∧ h.pc = b.entry ∧ h.reg 2 = top ∧ h.reg 3 = b.args ∧ h.stkhi = top ∧
            h.stklo = top - BitVec.ofNat 64 b.stack ∧ h.gang = BitVec.ofNat 16 g ∧ h.ghart = j ∧ h.plan = p ∧ h.vq = [])))

/-- gbar (R123): a user hart of a gang whose engines have drained arrives and waits; a barrier that every member has
arrived at completes, its generation advances, and each that waits goes on. hend (R125): the hart waits, and when its
work is over it ends: its slot goes at the next frame boundary, and the gang counts it; a gang with no hart left
completes (R118). A gang's start watermark (R117) once reached lets its harts run. That departures and ends are events
of their own is the model's choice (log 18, log 28). -/
def Obligations.GangLife : Prop :=
  ∀ (s : State) (g : BitVec 2) (x : Gang),
    let h := s.hart
    let m := x.members.getD h.ghart {}
    let unit := groupUnit g.toNat m.core
    (s.gangAt h.gang.toNat = some x → h.sup = false → h.surr = none → h.prefixFits .s false false = true → h.ghart < x.members.length →
      m.arrived.toNat / 2 ^ g.toNat % 2 = 0 → g ≠ 3 → s.begun.engineBusy s.cur = false →
      ∃ t y, exec (.gbar g) s = .next t ∧ t.hart.wait = some { kind := .gbar g, since := s.time } ∧ t.hart.pc = h.pc ∧ t.hart.regs = h.regs ∧
        t.mem = s.mem ∧ t.gangAt h.gang.toNat = some y ∧ (y.members.getD h.ghart {}).arrivedAt g.toNat (x.genOf g.toNat unit) = true) ∧
    (h.sup = true → h.prefixFits .s false false = true → exec (.gbar g) s = .next (s.popped.trapSeq ⟨0x08, 0⟩)) ∧
    (∀ (gang : BitVec 16) (un : BitVec 8), s.gangAt gang.toNat = some x → x.groupFull g.toNat un.toNat = true →
      ∃ t y, exec (.gbarDepart gang g un) s = .next t ∧ t.gangAt gang.toNat = some y ∧
        y.genOf g.toNat un.toNat = x.genOf g.toNat un.toNat + 1 ∧ t.mem = s.mem ∧
        (∀ hid w, let k := s.hartAt hid
          (s.harts.find hid).isSome = true → k.run = .running → k.gang = gang → k.wait = some w → w.kind = .gbar g →
          (x.members.getD k.ghart {}).inGroup g.toNat un.toNat = true →
          (t.hartAt hid).wait = none ∧ (t.hartAt hid).pc = (k.pc + 4) &&& pcMask ∧ (t.hartAt hid).pfx = none ∧
          (t.hartAt hid).regs = k.regs)) ∧
    (h.sup = false → h.surr = none → h.pfx = none → h.lostUpd = none →
      exec .hend s = .next (s.setHart { h with wait := some { kind := .hend, since := s.time } })) ∧
    (∀ hid : BitVec 11, s.hendReady hid.toNat = true → (s.hartAt hid.toNat).lostUpd = none →
      let k := s.hartAt hid.toNat
      s.gangAt k.gang.toNat = some x → k.ghart < x.members.length → ∃ t y, exec (.hartEnd hid) s = .next t ∧
        t.hartAt hid.toNat = { run := .ended, plan := k.plan } ∧ t.gangAt k.gang.toNat = some y ∧ y.nend = x.nend + 1 ∧
        y.nkill = x.nkill ∧ (y.members.getD k.ghart {}).ended = true ∧ t.mem = s.mem) ∧
    (∀ gang : BitVec 16, s.gangAt gang.toNat = some x → s.gangOver gang.toNat x = true →
      ∃ t, exec (.gangComplete gang) s = .next t ∧ t.gangAt gang.toNat = none ∧
        s.blockSays t x [(64, 4, 3), (88, 8, s.now), (96, 4, x.nend), (100, 4, x.nkill)]) ∧
    (∀ gang : BitVec 16, s.gangAt gang.toNat = some x → x.waiting = true →
      ∀ u v, s.startMark x = .ok (u, v) → x.wmv ≤ v →
      ∃ t y, exec (.startWatermarkPoll gang) s = .next t ∧ t.gangAt gang.toNat = some y ∧ y.waiting = false ∧ t.mem = u.mem ∧
        (∀ hid, (s.hartAt hid).run = .watermark → (s.hartAt hid).gang = gang → (t.hartAt hid).run = .running))

/-- hsusp (R135): a running hart of the core begins to be suspended, with cause 0x50 and no record posted, and the
supervisor waits for it; a suspended one needs nothing; a slot that has none, or a supervisor, is cause 0x08. hsave
(R136) writes a suspended hart's frame and frees its slot; hload (R137) loads it into a free one, whose registers are
the frame's; a frame that is not 4096-aligned is cause 0x10, a wrong version 0x07, one whose bytes hold a soft error 0x52
(R366), as is an hsave whose core's data hold one. The layout of the opaque area and its integrity word, that hload looks at the
alignment before the slot and hsave at the slot first, are the model's (log 15, log 72), and that what waits in stream S goes with
the hart is too (log 26). -/
def Obligations.SaveAndLoad : Prop :=
  ∀ (s : State) (a b : BitVec 5), s.hart.sup = true → s.hart.pfx = none → s.hart.run = .running →
    let x := (s.reg a).toNat
    let h := s.hartAt x
    let at_ := (s.reg b).toNat
    let bad := x / 8 ≠ s.coreNo ∨ h.sup = true
    ((bad ∨ h.run = .free ∨ h.run = .reserved ∨ h.run = .ended) → exec (.hsusp a) s = .next (s.trapSeq ⟨0x08, 0⟩)) ∧
    (¬ bad → h.run = .suspended ∨ h.run = .loaded → exec (.hsusp a) s = .next (s.retired 0)) ∧
    (¬ bad → h.run = .running ∨ h.run = .watermark → h.surr = none → h.bay.isOpen = false → s.hart.wait = none →
      ∃ t, exec (.hsusp a) s = .next t ∧ (t.hartAt x).run = .suspending ∧ (t.hartAt x).post = false ∧
        (t.hartAt x).hdr.cause = 0x50 ∧ (t.hartAt x).hdr.engine = 7 ∧
        (t.hartAt x).hdr.rpc = h.pc ∧ (t.hartAt x).regs = h.regs ∧ (t.hartAt x).ss = h.ss ∧
        t.hart.wait = some { kind := .hsusp x, since := s.time } ∧ t.hart.pc = s.hart.pc ∧ t.mem = s.mem) ∧
    (x / 8 ≠ s.coreNo ∨ (h.run ≠ .suspended ∧ h.run ≠ .loaded) → exec (.hsave b a) s = .next (s.trapSeq ⟨0x08, 0⟩)) ∧
    (x / 8 = s.coreNo → h.run = .suspended ∨ h.run = .loaded → at_ % 4096 ≠ 0 → exec (.hsave b a) s = .next (s.trapSeq ⟨0x10, s.reg b⟩)) ∧
    (x / 8 = s.coreNo → h.run = .suspended ∨ h.run = .loaded → at_ % 4096 = 0 →
      let f := s.frameImage x
      ∀ u l, s.dvSpans s.who at_ f.2 0 .write 2 (f.2 / 65536 + 2) = .ok (u, l) →
      (u.frameSpoiled x = true → exec (.hsave b a) s = .next (s.trapSeq ⟨0x52, 0⟩)) ∧
      (u.frameSpoiled x = false → ∃ t, exec (.hsave b a) s = .next t ∧ t.mem = (u.scatter l f.1).mem ∧ t.hartAt x = {} ∧
        h.plan ∈ (t.coreAt s.coreNo).freeing ∧ t.hart.pc = (s.hart.pc + 4) &&& pcMask ∧ t.hart.regs = s.hart.regs)) ∧
    (let hid := 8 * s.coreNo + x
     (at_ % 4096 ≠ 0 → exec (.hload b a) s = .next (s.trapSeq ⟨0x10, s.reg b⟩)) ∧
     (at_ % 4096 = 0 → (8 ≤ x ∨ (s.hartAt hid).run ≠ .free) → exec (.hload b a) s = .next (s.trapSeq ⟨0x08, 0⟩)) ∧
     (at_ % 4096 = 0 → x < 8 → (s.hartAt hid).run = .free → ∀ t1 l0 t2 l, s.dvSpans s.who at_ 12288 0 .read 2 3 = .ok (t1, l0) →
       ((t1.spoiledSpan l0).isSome = true → exec (.hload b a) s = .next (s.trapSeq ⟨0x52, s.reg b⟩)) ∧
       let m0 := t1.gather l0
       let size := opqOff (m0.read 576 8) (bits (m0.read 896 8) 16 10) (popcount (m0.read 896 1) 8) + 16384
       ((t1.spoiledSpan l0).isSome = false → m0.read 76 4 = size → m0.read 576 8 % 8 = 0 → m0.read 576 8 ≤ 64 →
       t1.dvSpans t1.who at_ size 0 .read 2 (size / 65536 + 2) = .ok (t2, l) →
       ((t2.spoiledSpan l).isSome = true → exec (.hload b a) s = .next (s.trapSeq ⟨0x52, s.reg b⟩)) ∧
       ((t2.spoiledSpan l).isSome = false →
       ((t2.gather l).read 0 4 ≠ 0x00090001 → exec (.hload b a) s = .next (s.trapSeq ⟨0x07, 0⟩)) ∧
       (∀ t3 cq t4, (t2.moved l).loadFrame hid (t2.gather l) = .ok (t3, cq) → t3.writeDeadlines at_ cq = .ok t4 →
         exec (.hload b a) s = .next (t4.setHart t4.hart.advance) ∧ (t4.hartAt hid).run = .loaded ∧
         (∀ i : Fin 32, (t4.hartAt hid).regs[i] = BitVec.ofNat 64 ((t2.gather l).read (256 + 8 * i.val) 8)) ∧
         (t4.hartAt hid).fflags = BitVec.ofNat 5 ((t2.gather l).read 512 8) ∧
         (t4.hartAt hid).vec.vl = (t2.gather l).read 784 8)))))

/-! ### Effects of status registers, and the frame boundary -/

/-- Writes to translation invalidation (R159) drop the translations that the core, or every core, keeps of the context, or
of those the ones that cover the page, and nothing else. A
write of fflags replaces them (R71). Writes to tqbase, tqlen and tqhead (R119, R128): each takes its own bits, a tqlen
outside 4 to 12 nothing; and a record that waited for room goes to its place in the ring, with the new tail behind the
ring. Writes to rsvcfg and to a budget (R49, R50), of the reservation that rsvsel names: a change that fits the limits
waits for the next frame boundary and clears the refusal; one that does not, of reservation 0, with class 3, or to a
budget of a reservation that does not exist, is refused and changes nothing else. That tqbase keeps bits 63 to 12 only, and
that each hart has its own rsvsel, are the model's choices (log 44, log 4). -/
def Obligations.SupervisorWrites : Prop :=
  (∀ (s : State) (v va : BitVec 64) (ctx : BitVec 5),
     (let a := va.toNat / 65536 % 2 ^ 41 * 65536
      let drops (i : Instr) (which : Nat → Tlb → Prop) : Prop := ∃ t, exec i s = .next t ∧ t = { s with cores := t.cores } ∧
        ∀ k, t.coreAt k = { s.coreAt k with tlb := (t.coreAt k).tlb } ∧
          ∀ e, e ∈ (t.coreAt k).tlb ↔ e ∈ (s.coreAt k).tlb ∧ ¬ which k e
      let page (e : Tlb) : Prop := e.ctx = ctx.toNat ∧ e.page ≤ a ∧ a < e.page + 2 ^ pteShift e.pte
      drops (.xinvPageCore va ctx) (fun k e => k = s.coreNo ∧ page e) ∧
      drops (.xinvContextCore ctx) (fun k e => k = s.coreNo ∧ e.ctx = ctx.toNat) ∧
      drops (.xinvPageAll va ctx) (fun _ e => page e) ∧ drops (.xinvContextAll ctx) (fun _ e => e.ctx = ctx.toNat)) ∧
     (∃ t, exec (.fflagsWrite v) s = .next t ∧ t = s.setHart { s.hart with fflags := BitVec.ofNat 5 (v.toNat % 32) }) ∧
     (s.core.pend = [] → ∀ (k : BitVec 2), ∃ t, exec (.trapRingRegWrite k v) s = .next t ∧ t.mem = s.mem ∧
       t.core = { s.core with
         tqbase := if k = 0 then v &&& 0xFFFFFFFFFFFFF000 else s.core.tqbase
         tqlen := if k = 1 ∧ 4 ≤ v.toNat % 16 ∧ v.toNat % 16 ≤ 12 then BitVec.ofNat 4 v.toNat else s.core.tqlen
         tqhead := if k = 2 then v else s.core.tqhead }) ∧
     (∀ r u pa w pb, s.core.pend = [r] → s.core.tqbase ≠ 0 →
       let n := 2 ^ s.core.tqlen.toNat
       let tail := s.core.tqtail
       let base := s.core.tqbase.toNat
       let s1 := s.setCore { s.core with tqhead := v }
       (tail - v).toNat ≠ n → s1.dv (supWho s.coreNo) (base + 64 * (tail.toNat % n)) .write 2 = .ok (u, pa) →
       u.dv (supWho s.coreNo) (base + 64 * n) .write 2 = .ok (w, pb) → (pb + 8 ≤ pa ∨ pa + 64 ≤ pb) →
       ∃ t, exec (.trapRingRegWrite 2 v) s = .next t ∧ t.core.pend = [] ∧ t.core.tqtail = tail + 1 ∧
         t.mem.read pb 8 = (tail + 1).toNat ∧ t.mem.read pa 4 = 0x00090001 ∧ t.mem.read (pa + 4) 1 = r.cause.toNat ∧
         t.mem.read (pa + 8) 8 = r.ipc.toNat ∧ t.mem.read (pa + 24) 8 = r.rpc.toNat ∧ t.mem.read (pa + 56) 8 = r.time.toNat)) ∧
  (∀ (s : State) (v : BitVec 64) (k : BitVec 3),
     let r := s.hart.rsvsel.toNat
     let x := s.rsvAt r
     let fits (y : Rsv) : Prop := ∀ i, i < 8 → (s.sums r y i).1 ≤ (s.limits i).1 ∧ (s.sums r y i).2 ≤ (s.limits i).2
     let c := BitVec.ofNat 2 v.toNat
     let y := { x with newCls := some c, rej := false, brk := false }
     let z := { x with newBud := x.newBud.setIfInBounds k.toNat (some (BitVec.ofNat 32 v.toNat)), rej := false }
     let becomes (i : Instr) (w : Rsv) : Prop := ∃ t, exec i s = .next t ∧ t.rsvAt r = w ∧ (∀ j, j ≠ r → t.rsvAt j = s.rsvAt j) ∧
       t.mem = s.mem ∧ t.harts = s.harts ∧ t.cores = s.cores ∧ t.clus = s.clus
     (r ≠ 0 → c ≠ 3 → fits y → becomes (.rsvcfgWrite v) y) ∧
     ((r = 0 ∨ c = 3 ∨ ¬ fits y) → becomes (.rsvcfgWrite v) { x with rej := true }) ∧
     (r ≠ 0 → (x.on = true ∨ x.newCls.isSome = true) → fits z → becomes (.rsvbudWrite k v) z) ∧
     ((r = 0 ∨ (x.on = false ∧ x.newCls = none) ∨ ¬ fits z) → becomes (.rsvbudWrite k v) { x with rej := true }))

/-- The frame boundary (R46, R50, R117, R125, R292): every use counter is zero and the energy of the frame past is kept;
changes of reservations take effect; the slot of an ended hart is free; a reserved hart runs, its share of the
accumulators zero, or waits for its gang's start watermark. The energy ceiling reached (R48) holds work to the frame's
end. A request for a lower ceiling (R370) waits for the boundary, and one below 1000 µJ or above the image's is
refused. -/
def Obligations.FrameBoundary : Prop :=
  ∀ (s : State), ∃ t, exec .frameBoundary s = .next t ∧ t.dev.used = [] ∧ t.dev.energy = 0 ∧ t.dev.energyLast = s.dev.energy ∧
    t.dev.hold = false ∧ t.dev.frames = s.now / 4096 ∧ t.time = s.time ∧
    (∀ r x, s.dev.rsv.find r = some x → t.rsvAt r = { x with
      on := x.on || x.newCls.isSome, cls := x.newCls.getD x.cls, newCls := none, newBud := Vector.replicate 8 none
      bud := Vector.ofFn (fun i : Fin 8 => (x.newBud[i]).getD x.bud[i]) }) ∧
    (∀ hid, (s.hartAt hid).run = .ended → t.hartAt hid = {}) ∧
    (∀ hid x, (s.hartAt hid).run = .reserved → s.gangAt (s.hartAt hid).gang.toNat = some x →
      let h := s.hartAt hid
      let k := t.hartAt hid
      k.run = (if x.wm = 0 then .running else .watermark) ∧ k.plan.on = true ∧ k.pc = h.pc ∧ k.regs = h.regs ∧
      (∀ y, 1024 * h.plan.rowBase ≤ y → y < 1024 * (h.plan.rowBase + h.plan.rows) → (t.coreAt (hid / 8)).acc.byte y = 0)) ∧
    (∀ v, s.dev.eceilReq = some v → (v < 1000 ∨ s.img.eceil < v) →
      t.dev.eceil = s.dev.eceil ∧ t.dev.eceilReq = none ∧ t.dev.eceilRefused = true) ∧
    exec .energyCeilingReached s = .next { s with dev := { s.dev with hold := true } } ∧
    (∀ v : BitVec 32, exec (.eceilLower v) s = .next { s with dev := { s.dev with eceilReq := some v.toNat } })

/-- Work that is late (R56): the first copy, bay, sampler work or launch whose deadline has come is marked, its
reservation broken, and a notice of cause 0x51 posted, as a record is (R128); a class-G memory request that the bound covers and that missed it
does the same (R163). Engine 7 and the pc in a notice, and that work which could be done in the very cycle of its deadline is late, are the
model's choice (log 34, log 86). -/
def Obligations.LateWork : Prop :=
  ∀ (s : State) (n : BitVec 11),
    let k := n.toNat
    let h := s.hartAt k
    (∀ l1 e l2, h.cq = l1 ++ e :: l2 → (∀ x ∈ l1, x.isLate s.now = false) → e.isLate s.now = true →
      ∃ t, exec (.deadlineReached n 0) s = .next t ∧ (t.hartAt k).cq = l1 ++ { e with late := true } :: l2 ∧
        s.notices t (k / 8) k (h.entryResv e) h.gang h.pc) ∧
    (∀ i b, (s.clusAt k).bays.find? (fun kb => kb.2.isLate s.now) = some (i, b) → b.holder < 4096 →
      ∃ t, exec (.deadlineReached n 1) s = .next t ∧ (t.clusAt k).bay i = { b with late := true } ∧
        s.notices t (b.holder / 8) b.holder b.resv.toNat b.gang (s.hartAt b.holder).pc) ∧
    (∀ w, (s.clusAt k).works.find? (fun w => w.isLate s.now) = some w → w.hid < 4096 →
      ∃ t, exec (.deadlineReached n 2) s = .next t ∧ (∃ w1 ∈ (t.clusAt k).works, w1 = { w with late := true }) ∧
        s.notices t (w.hid / 8) w.hid w.resv.toNat w.gang (s.hartAt w.hid).pc) ∧
    (∀ g x, s.dev.gangs.find? (fun p => p.2.core == k && p.2.isLate s.now) = some (g, x) → x.src < 4096 →
      ∃ t, exec (.deadlineReached n 3) s = .next t ∧ t.gangAt g = some { x with late := true } ∧
        s.notices t k x.src x.resv.toNat (BitVec.ofNat 16 g) (s.hartAt x.src).pc) ∧
    (∀ r, s.memCovered k = some r →
      ∃ t, exec (.memLatencyMiss n) s = .next t ∧ s.notices t (k / 8) k r h.gang h.pc ∧ t.harts = s.harts) ∧
    (s.memCovered k = none → exec (.memLatencyMiss n) s = .next s)

/-! ### Waits and engines -/

/-- Ends of dispatch waits: a token wait that nothing can end traps with cause 0x0E after 4096 cycles (R37), at the waiting
instruction, with the prefix it stands under saved; a waiting
`.w` form is tried again as the instruction itself, with what it has read already (R339, R341), and after 4096 cycles refused
with 0x08 (R52); wtime and qwait go
on once time or the watch word has reached their target, with its value in S[d] (R111, R154). That the ends of waits
are events of their own is the model's choice (log 18), and so is what the record of cause 0x0E says of an instruction that
waits with its prefix: the pc and word of the instruction, not of the prefix word (log 76). -/
def Obligations.WaitsEnd : Prop :=
  ∀ (s : State) (hid : BitVec 11) (w : Waiting),
    let x := hid.toNat
    let h := s.hartAt x
    let long := 4096 ≤ (s.time - w.since).toNat
    h.run = .running → h.wait = some w →
    (∀ id, ((w.kind = .pop id ∧ h.tokens id = 0 ∧ h.reserved id = 0) ∨ (w.kind = .push id ∧ 8 ≤ h.tokens id) ∨
        (∃ n, w.kind = .pops id n ∧ h.tokens id + h.reserved id < n) ∨ (∃ n, w.kind = .pushes id n ∧ 8 < h.tokens id + n)) → long →
      h.surr = none → h.bay.isOpen = false →
      let word := s.peekWord x
      let atPfx := word.toNat / 2 ^ 26 = 0x10 ∧ h.pfx = none
      ∃ t, exec (.tokenDeadlock hid) s = .next t ∧ t.mem = s.mem ∧ let k := t.hartAt x
        k.run = .suspending ∧ k.hdr.cause = 0x0E ∧ k.post = true ∧
        (¬ atPfx → k.hdr.ipc = h.pc ∧ k.hdr.word = word) ∧
        (atPfx → k.hdr.ipc = (h.pc + 4) &&& pcMask ∧ k.hdr.word = (s.pastPfx x).peekWord x) ∧
        k.regs = h.regs ∧ k.hdr.rpc = k.hdr.ipc ∧ k.vq = h.vq ∧ k.mq = h.mq ∧ k.cq = h.cq ∧ k.ss = h.ss ∧
        (atPfx → k.pfxsave = { pend := true, popd := false, word := word })) ∧
    (∀ i z, submissionOf i = some z → z.w = true → w.kind = .admission z.x →
      let y : State := { s with cur := x, ir := s.peekWord x }
      let ends (f : State → Prop) : Prop := ∃ u, exec (.waitedAdmission hid) s = .next { u with cur := s.cur, ir := s.ir } ∧ f u
      y.hart.canSubmit z →
      (∀ t word, z.ask y = .ok (.accepted t word) → ends (fun u => y.taken t u z word)) ∧
      let v := z.seen y
      (∀ r, z.ask y = .ok (.refused r false) → ends (fun u => v.turnedAway u z r)) ∧
      (∀ r, z.ask y = .ok (.refused r true) → long → ends (fun u => v.turnedAway u z 8)) ∧
      (∀ r, z.ask y = .ok (.refused r true) → ¬ long →
        ends (fun u => u.hart = { h with tested := s.time, wait := some { w with raw := u.hart.smpRaw } } ∧
          (w.raw.isSome = true → u.hart.smpRaw = w.raw) ∧ v.sameBut u ∧ u.mem = v.mem ∧ u.dev = v.dev))) ∧
    (∀ i z, submissionOf i = some z → w.kind = .admission z.x → long →
      ∃ t, exec (.admissionWaitTimeout hid) s = .next t ∧ s.wakes t x z.d 8 ∧ (t.hartAt x).tok = h.tok ∧ t.mem = s.mem ∧
        (z.take = true → (t.hartAt x).bay.bayh = 0)) ∧
    (∀ tg d, w.kind = .wtime tg d → tg ≤ s.time →
      ∃ t, exec (.wtimeWake hid) s = .next t ∧ s.wakes t x d s.time ∧ t.mem = s.mem) ∧
    (∀ q tg d u v, w.kind = .qwait q tg d → s.watchValue x (h.latestWatch q) = .ok (u, v) → tg ≤ v →
      ∃ t, exec (.qwaitWake hid) s = .next t ∧ s.wakes t x d v ∧ t.mem = u.mem)

/-- Instructions that waited in an engine's queue. An element-wise vector instruction at the head that may run does so and
stands done with its flags (R250 to R262); one that waited for a watch, or a vwait, is tried again, and is done or
waits on (R153, R288); a matrix instruction likewise (R307). What is done retires once the engine is through with it
(R43): its flags, its scalar result and
its place in the queue (R35, R71). A wmpub makes its word the greater of the two (R155). The first
update whose applier's die runs is applied (R183, R184, R370), but lost where its bytes hold a soft error (R186). A lookahead puts translations that a walk finds
among those its core keeps, 2048 at most, and
changes nothing else (R160). That engines act in events of their own is the model's choice (log 18), and so are that one with
work for several cycles stays done at its queue's head for them (log 16) and that updates
are applied in the order they were sent (log 74). -/
def Obligations.EnginesWork : Prop :=
  ∀ (s : State) (hid : BitVec 11) (en : Entry) (rest : List Entry),
    let x := hid.toNat
    let h := s.hartAt x
    (h.vq = en :: rest → s.vecReady x = true → s.dev.latent = none → s.shared x = false → en.acc = none →
      (∀ op m d w f, vecOpOf en.instr = some op → en.started = false → en.tried = 0 →
        let split := h.vec.splits op false
        let v := { (if split then h.vec.cut else h.vec) with ends := none }
        (split = true → h.vec.strap = false) → v.startCheck op en = none → vecElems v en en.instr = some (m, d, w, f) →
        let r := v.mapElems (maskOf m en) d.toNat w (copyOf en) f
        ∃ t e1, exec (.vectorStart hid) s = .next t ∧ (t.hartAt x).vq = e1 :: rest ∧ e1.done = true ∧ e1.fl = en.fl ||| r.2 ∧
          (t.hartAt x).vec = { r.1.chain op with ends := none } ∧ (t.hartAt x).regs = h.regs ∧ t.mem = s.mem) ∧
      (∀ op i, vecOpOf en.instr = some op → en.started = true → en.tried ≠ 0 → h.vec.ends = none → h.vec.startCheck op (h.look en) = none →
        i = Instr.watchReread hid ∨ ((∃ d q c, en.instr = .vwait d q c) ∧
          (i = .vwaitReread hid ∨ (i = .vwaitTimeout hid ∧ s.vwaitOver x = true))) →
        (∀ d e, op.run (s.setHartAt x h) x (h.look en) = .ok d → (d.s.hartAt x).vq = e :: rest →
          ∃ t e1, exec i s = .next t ∧ (t.hartAt x).vq = e1 :: rest ∧ e1.done = true ∧ e1.res = d.res ∧ t.mem = d.s.mem) ∧
        (∀ r w e, op.run (s.setHartAt x h) x (h.look en) = .error r → r.stop = .wait w → (r.s.hartAt x).vq = e :: rest →
          ∃ t e1, exec i s = .next t ∧ (t.hartAt x).vq = e1 :: rest ∧ e1.done = e.done ∧ e1.tried = s.now + 1 ∧
            (t.hartAt x).vec.estart = BitVec.ofNat 32 r.el ∧ t.mem = r.s.mem))) ∧
    (∀ op u fl, h.mq = en :: rest → s.matReady x = true → matOpOf en.instr = some op → s.matCheck x op en = none →
      op.run s x en = .ok (u, fl) → (u.hartAt x).mq = h.mq →
      ∃ t e1, exec (.matrixStart hid) s = .next t ∧ (t.hartAt x).mq = e1 :: rest ∧ e1.done = true ∧ e1.fl = en.fl ||| fl ∧
        t.mem = u.mem ∧ t.coreAt (x / 8) = u.coreAt (x / 8)) ∧
    (∀ op r w, h.mq = en :: rest → s.matReady x = true → matOpOf en.instr = some op → s.matCheck x op en = none →
      op.run s x en = .error r → r.stop = .wait w → (r.s.hartAt x).mq = h.mq →
      ∃ t e1, exec (.matrixStart hid) s = .next t ∧ (t.hartAt x).mq = e1 :: rest ∧ e1.started = true ∧ e1.done = en.done ∧
        e1.prog = r.row ∧ e1.fl = en.fl ||| r.fl ∧ t.mem = r.s.mem ∧ t.coreAt (x / 8) = r.s.coreAt (x / 8)) ∧
    (∀ op c, h.mq = en :: rest → s.matReady x = true → matOpOf en.instr = some op → s.matCheck x op en = some c →
      h.surr = none → h.bay.isOpen = false →
      ∃ t, exec (.matrixStart hid) s = .next t ∧ t.mem = s.mem ∧ t.coreAt (x / 8) = s.coreAt (x / 8) ∧ let k := t.hartAt x
        k.run = .suspending ∧ k.hdr.cause = c ∧ k.hdr.engine = 3 ∧ k.hdr.ipc = en.pc ∧ k.hdr.word = en.word) ∧
    (en.done = true → en.isMove = false → s.now < en.tried →
      (h.vq = en :: rest → exec (.instructionRetire hid 1) s = .next s) ∧
      (h.mq = en :: rest → exec (.instructionRetire hid 2) s = .next s)) ∧
    (en.done = true → en.tried ≤ s.now → en.isMove = false → (∀ e ∈ rest, e.isMove = false) →
      (h.vq = en :: rest → ∃ t, exec (.instructionRetire hid 1) s = .next t ∧ (t.hartAt x).vq = rest ∧ t.mem = s.mem ∧
        (t.hartAt x).fflags = h.fflags ||| en.fl ∧ (t.hartAt x).vec.estart = 0 ∧ (t.hartAt x).vec.rowstart = 0 ∧
        (∀ d v, en.res = some (d, v) → d ≠ 0 → (t.hartAt x).reg d = v) ∧ (en.res = none → (t.hartAt x).regs = h.regs)) ∧
      (h.mq = en :: rest → ∃ t, exec (.instructionRetire hid 2) s = .next t ∧ (t.hartAt x).mq = rest ∧ t.mem = s.mem ∧
        (t.hartAt x).fflags = h.fflags ||| en.fl)) ∧
    (∀ p l u at_, h.ss = p :: l → p.kind = .publish → p.sq = false → p.size = 8 → s.sReady x p = true → h.run = .running →
      s.scalarLook x p.touch 0 p.addr 8 .rmw = .ok (u, at_) →
      ∃ t, exec (.instructionRetire hid 0) s = .next t ∧ (t.hartAt x).ss = l ∧
        t.mem.read at_.at_ 8 = max (u.mem.read at_.at_ 8) p.val.toNat ∧
        ∀ y, (y < at_.at_ ∨ at_.at_ + 8 ≤ y) → t.mem.byte y = u.mem.byte y) ∧
    (∀ q, ∃ t, exec (.lookaheadTranslate hid q) s = .next t ∧ t = { s with cores := t.cores } ∧
      (∀ k, t.coreAt k = { s.coreAt k with tlb := (t.coreAt k).tlb } ∧ (k ≠ x / 8 → t.coreAt k = s.coreAt k) ∧
        ((s.coreAt k).tlb.length ≤ 2048 → (t.coreAt k).tlb.length ≤ 2048) ∧
        ∀ e, e ∈ (t.coreAt k).tlb → e ∈ (s.coreAt k).tlb ∨ (e.ctx = (s.whoOf x).fn ∧ e.hid = x ∧ e.q = q ∧
          ∃ a, e.page ≤ a ∧ a < e.page + 2 ^ pteShift e.pte ∧ s.walkOf (s.whoOf x) a = .ok (e.at_, e.pte)))) ∧
    (s.appliable = none → exec .updateApply s = .next s) ∧
    (∀ l1 u l2, s.dev.updates = l1 ++ u :: l2 → (∀ y ∈ l1, s.dieRuns (baseDie (stackOf y.pa)) = false) →
      s.dieRuns (baseDie (stackOf u.pa)) = true → s.appliable = some u) ∧
    (∀ u, s.appliable = some u → s.spoiled 3 0 u.pa u.size = true → ∃ t, exec .updateApply s = .next t ∧
      t.dev.updates = s.dev.updates.erase u ∧
      t.mem = s.mem ∧ t.dev.latent = none ∧ (u.hid < 4096 → (t.hartAt u.hid).lostUpd = some u.dva)) ∧
    (∀ u, s.appliable = some u → s.spoiled 3 0 u.pa u.size = false → ∃ t, exec .updateApply s = .next t ∧
      t.dev.updates = s.dev.updates.erase u ∧
      t.mem = s.mem.write u.pa u.size (if u.fp then ((if u.size = 8 then f64 else f32).add .rne (s.mem.read u.pa u.size) u.val).1
        else (s.mem.read u.pa u.size + u.val) % 2 ^ (8 * u.size)) ∧ t.harts = s.harts)

/-! ### The host -/

/-- Accesses of the host and of peers (R176, R179, R358, R359) of up to eight bytes in one page: a write puts its bytes at
the translated address; a read answers them; an atomic does both; one the port turns away, or that faults, changes no
byte and answers so, a posted write too, which answers nothing where it succeeds. A 16-byte compare and swap is an
Unsupported Request. A CXL.mem read of device memory (R357) answers its bytes, one
past the end of HBM an Unsupported Request (the model's choice, log 87). A read whose bytes hold a soft error aborts,
and a CXL.cache atomic on them writes nothing; the error is then over (R366). That host accesses translate through the tables
of core 0, and what a function whose TDI does not run answers, are the model's choices (log 21, log 29). -/
def Obligations.HostAccesses : Prop :=
  ∀ (s : State) (fn : BitVec 5) (addr data y : BitVec 64) (n : BitVec 4) (op : BitVec 2) (w : BitVec 1),
    let f := fn.toNat
    let a := addr.toNat
    let k := min 8 n.toNat
    let onePage := 0 < k ∧ a % 65536 + k ≤ 65536 ∧ a + k ≤ 2 ^ 57
    let written (t u : State) (pa k x : Nat) : Prop := t.mem.read pa k = x % 256 ^ k ∧
      ∀ b, (b < pa ∨ pa + k ≤ b) → t.mem.byte b = u.mem.byte b
    let size := 4 + 4 * w.toNat
    let off := BitVec.ofNat 40 a
    let fresh (old : Nat) : Nat := if op = 0 then old + data.toNat else if op = 1 then data.toNat
      else if old = data.toNat % 256 ^ size then y.toNat else old
    (s.port f = none → onePage →
      (∀ u pa, s.dv (hostWho f) a .write 2 = .ok (u, pa) →
        (∃ t, exec (.hostWrite fn addr n data) s = .next t ∧ written t u pa k data.toNat ∧ t.dev.done = s.dev.done) ∧
        (a < 2 ^ 40 → ∃ t, exec (.bar2Access fn 1 off n data) s = .next t ∧ written t u pa k data.toNat ∧ t.dev.done = s.dev.done)) ∧
      (∀ e, s.dv (hostWho f) a .write 2 = .error e →
        (∃ t, exec (.hostWrite fn addr n data) s = .next t ∧ t.mem = s.mem ∧ s.answers t fn .completerAbort 0) ∧
        (a < 2 ^ 40 → ∃ t, exec (.bar2Access fn 1 off n data) s = .next t ∧ t.mem = s.mem ∧ s.answers t fn .completerAbort 0)) ∧
      (∀ u pa, s.dv (hostWho f) a .read 2 = .ok (u, pa) → s.dev.latent = none →
        (∃ t, exec (.hostRead fn addr ⟨n, 0⟩) s = .next t ∧ t.mem = u.mem ∧ s.answers t fn .success (BitVec.ofNat 64 (u.mem.read pa k))) ∧
        (a < 2 ^ 40 → ∃ t, exec (.bar2Access fn 0 off n data) s = .next t ∧ t.mem = u.mem ∧
          s.answers t fn .success (BitVec.ofNat 64 (u.mem.read pa k)))) ∧
      (∀ u pa, s.dv (hostWho f) a .read 2 = .ok (u, pa) → u.spoiled 3 0 pa k = true → ∃ t, exec (.hostRead fn addr ⟨n, 0⟩) s = .next t ∧
        t.mem = s.mem ∧ s.answers t fn .completerAbort 0 ∧ t.dev.latent = none) ∧
      (∀ e, s.dv (hostWho f) a .read 2 = .error e → ∃ t, exec (.hostRead fn addr ⟨n, 0⟩) s = .next t ∧ t.mem = s.mem ∧
        s.answers t fn .completerAbort 0)) ∧
    (∀ st, s.port f = some st →
      (∃ t, exec (.hostWrite fn addr n data) s = .next t ∧ t.mem = s.mem ∧ s.answers t fn st 0) ∧
      (∃ t, exec (.hostRead fn addr ⟨n, 0⟩) s = .next t ∧ t.mem = s.mem ∧ s.answers t fn st 0)) ∧
    (s.port f = none → op ≠ 3 → a % size = 0 →
      (∀ u pa, s.dv (hostWho f) a .rmw 2 = .ok (u, pa) → s.dev.latent = none → ∃ t, exec (.hostAtomicop fn op w addr data y) s = .next t ∧
        written t u pa size (fresh (u.mem.read pa size)) ∧ s.answers t fn .success (BitVec.ofNat 64 (u.mem.read pa size))) ∧
      (∀ e, s.dv (hostWho f) a .rmw 2 = .error e → ∃ t, exec (.hostAtomicop fn op w addr data y) s = .next t ∧ t.mem = s.mem ∧
        s.answers t fn .completerAbort 0)) ∧
    (∃ t, exec (.hostCas16 fn addr) s = .next t ∧ t.mem = s.mem ∧ s.answers t fn .unsupportedRequest 0) ∧
    (s.dev.latent = none → ∃ t, exec (.hostRead fn addr ⟨n, 2⟩) s = .next t ∧ t.mem = s.mem ∧
      (a + k ≤ 0xC000000000 → s.answers t fn .success (BitVec.ofNat 64 (s.mem.read a k))) ∧
      (0xC000000000 < a + k → s.answers t fn .unsupportedRequest 0)) ∧
    (∀ pa : BitVec 52, (pa.toNat + k ≤ 0xC000000000 →
        ∃ t, exec (.cxlMemWrite pa n data) s = .next t ∧ written t s pa.toNat k data.toNat) ∧
      (op ≠ 3 → pa.toNat + size ≤ 0xC000000000 → s.spoiled 3 0 pa.toNat size = false →
        ∃ t, exec (.cxlCacheHostAtomic op w pa data y) s = .next t ∧ written t s pa.toNat size (fresh (s.mem.read pa.toNat size))) ∧
      (pa.toNat + size ≤ 0xC000000000 → s.spoiled 3 0 pa.toNat size = true →
        ∃ t, exec (.cxlCacheHostAtomic op w pa data y) s = .next t ∧ t.mem = s.mem ∧ t.dev.latent = none))

/-- The mailbox (R360) and the commands (R361): a read gives the register at its offset, in every state of the function; a
write to cqbase, cqlen, cqtail and erhead takes its bits, where the function is no TDI that is not running (R365); the record
that a function's service cores take next receives its status, and cqhead advances. A launch answers 0 or 0x10, an
opened connection 0, one after a closed tail 0x12, a closed one and a read error record 0, any other code 1.
Byte-stream rings (R362, R363): the service cores take bytes that are there from a tx ring, advancing head, and put
bytes for which there is room into an rx ring, advancing tail; a tail past head + 2^lg closes the connection; while the clock of
their die is held (R370) they move nothing. The
operand layout of an Open command and the limit of 256 connections are the model's choice (log 22), and so are that the
mailbox is read in every state while a TDI that does not run refuses writes (log 29), and that commands and rings are
translated through the tables of core 0 (log 21). A record or a ring header
whose bytes hold a soft error is not acted on: the error's record is written and it is over (R366; log 76). -/
def Obligations.HostService : Prop :=
  (∀ (s : State) (fn : BitVec 5) (v : BitVec 64),
     let f := fn.toNat
     let x := s.fnAt f
     let wrote (off : BitVec 12) (y : Fn) : Prop := exec (.mailboxWrite fn off v) s = .next (s.setFnAt f y)
     let word (u : State) (pa i : Nat) : Nat := u.mem.read (pa + 8 * i) 8
     (s.hasFn f = true → ∀ (a : BitVec 64) (n : BitVec 4), ∃ t, exec (.hostRead fn a ⟨n, 1⟩) s = .next t ∧ t.mem = s.mem ∧
       s.answers t fn .success (
         if a = 0 then 0x00090768
         else if a = 8 then BitVec.ofNat 64 ((if x.ready then 1 else 0) + (if x.badImage then 2 else 0)
           + (if x.inReset then 4 else 0) + (if x.tdiErr then 8 else 0))
         else if a = 0x10 then x.cqbase else if a = 0x18 then BitVec.ofNat 64 x.cqlen.toNat
         else if a = 0x20 then x.cqtail else if a = 0x28 then x.cqhead else if a = 0x30 then x.erhead
         else if a = 0x38 then x.ertail else 0)) ∧
     (s.hasFn f = true → s.tdiShut f = false → wrote 0x10 { x with cqbase := v &&& 0xFFFFFFFFFFFFF000 } ∧ wrote 0x20 { x with cqtail := v } ∧
       wrote 0x30 { x with erhead := v } ∧
       (4 ≤ v.toNat % 16 → v.toNat % 16 ≤ 12 → wrote 0x18 { x with cqlen := BitVec.ofNat 4 v.toNat }) ∧
       exec (.cqtailDoorbell fn v) s = .next (s.setFnAt f { x with cqtail := v }) ∧
       exec (.mailboxWrite fn 0x28 v) s = .next s) ∧
     (∀ a u pa, s.nextCommand f = some a → s.dv (hostWho f) a .rmw 2 = .ok (u, pa) → u.spoiled 3 0 pa 64 = true →
       ∀ i ∈ [Instr.launch fn, .openConnection fn, .closeConnection fn, .readErrorRecord fn, .unknownCommand fn],
         exec i s = .next (s.errorMet f 0xFFFF (BitVec.ofNat 64 a))) ∧
     (∀ u pa code, s.commandAt f code u pa →
       (code = 1 →
         (∀ r, u.hostLaunch f (BitVec.ofNat 64 (word u pa 1)) = r → ∃ t, exec (.launch fn) s = .next t ∧
           s.commandDone t f pa r.2 ∧ (r.2 = 0 ∨ r.2 = 0x10) ∧ t.harts = r.1.harts ∧ t.dev.gangs = r.1.dev.gangs)) ∧
       (code = 2 →
         (x.closed = true → ∃ t, exec (.openConnection fn) s = .next t ∧ s.commandDone t f pa 0x12 ∧ (t.fnAt f).closed = false) ∧
         (x.closed = false → ∀ i, (∀ j, j < i → (x.conns.find j).isSome = true) → x.conns.find i = none → i < 256 →
           word u pa 1 ≤ 7 → word u pa 3 % 64 = 0 → word u pa 4 % 64 = 0 →
           ∃ t, exec (.openConnection fn) s = .next t ∧ s.commandDone t f pa 0 ∧ (t.fnAt f).conns.find i =
             some ⟨word u pa 1, BitVec.ofNat 64 (word u pa 2), BitVec.ofNat 64 (word u pa 3), BitVec.ofNat 64 (word u pa 4)⟩)) ∧
       (code = 3 → ∃ t, exec (.closeConnection fn) s = .next t ∧ s.commandDone t f pa 0 ∧ (t.fnAt f).conns.find (word u pa 1) = none ∧
         ∀ j, j ≠ word u pa 1 → (t.fnAt f).conns.find j = x.conns.find j) ∧
       (code = 4 → ∀ r, x.errs.find (word u pa 1 % 256) = some r → ∃ t, exec (.readErrorRecord fn) s = .next t ∧ s.commandDone t f pa 0 ∧
         ∀ i : Fin 4, t.mem.read (pa + 32 + 8 * i.val) 8 = r[i].toNat) ∧
       (code = 0 ∨ 4 < code → ∃ t, exec (.unknownCommand fn) s = .next t ∧ s.commandDone t f pa 1 ∧
         ∀ b, b ≠ pa + 1 → t.mem.byte b = u.mem.byte b))) ∧
  (∀ (s u : State) (fn : BitVec 5) (conn : BitVec 8) (rx : BitVec 1) (n : BitVec 4) (data : BitVec 64) (c : Conn) (pa : Nat),
     let f := fn.toNat
     let base := u.mem.read pa 8
     let lg := u.mem.read (pa + 8) 4
     let head := u.mem.read (pa + 16) 8
     let tail := u.mem.read (pa + 24) 8
     let used := (tail + 2 ^ 64 - head) % 2 ^ 64
     let k := min 8 n.toNat
     (s.dieRuns ioDie = false → exec (.ringTransfer fn conn rx n data) s = .next s) ∧
     (s.dieRuns ioDie = true →
     (s.fnAt f).conns.find conn.toNat = some c → s.dv (hostWho f) (if rx = 1 then c.rx else c.tx).toNat .rmw 2 = .ok (u, pa) →
     (u.spoiled 3 0 pa 32 = true → exec (.ringTransfer fn conn rx n data) s =
       .next (s.errorMet f 0xFFFF (if rx = 1 then c.rx else c.tx))) ∧
     (u.spoiled 3 0 pa 32 = false → 12 ≤ lg → lg ≤ 24 → base % 4096 = 0 →
     (2 ^ lg < used → ∃ t, exec (.ringTransfer fn conn rx n data) s = .next t ∧ t.mem = u.mem ∧
       (t.fnAt f).conns.find conn.toNat = none ∧ (t.fnAt f).closed = true) ∧
     (∀ w, used ≤ 2 ^ lg → rx = 0 → k ≤ used →
       (List.range k).foldl (fun (v : Option State) i =>
         v.bind (fun z => (z.hostGet f (base + (head + i) % 2 ^ lg) 1).map (fun r => r.1))) (some u) = some w →
       ∃ t, exec (.ringTransfer fn conn rx n data) s = .next t ∧ t.mem = w.mem.write (pa + 16) 8 (head + k) ∧ t.harts = s.harts) ∧
     (used ≤ 2 ^ lg → rx = 0 → used < k → ∃ t, exec (.ringTransfer fn conn rx n data) s = .next t ∧ t.mem = u.mem) ∧
     (∀ w, rx = 1 → used + k ≤ 2 ^ lg →
       (List.range k).foldl (fun (v : Option State) i =>
         v.bind (fun z => z.hostPut f (base + (tail + i) % 2 ^ lg) 1 (data.toNat / 2 ^ (8 * i) % 256))) (some u) = some w →
       ∃ t, exec (.ringTransfer fn conn rx n data) s = .next t ∧ t.mem = w.mem.write (pa + 24) 8 (tail + k)) ∧
     (rx = 1 → used ≤ 2 ^ lg → 2 ^ lg < used + k → ∃ t, exec (.ringTransfer fn conn rx n data) s = .next t ∧ t.mem = u.mem))))

/-- A function-level reset (R364): the function is in reset; none of its harts runs, and none of its bays, sampler work,
slots or programs is left: each bay it had is free, with no unit and every byte zero; of function 0 the copies of its
supervisors end in error. Made again, the mailbox takes its reset values. A TDI that leaves RUN for ERROR or
CONFIG_UNLOCKED (R365) is scrubbed in the same way with its TDI error set; lock and run step it forward. IDE streams take
and lose their keys, and the started copies and sampler work over the port end in error with those of their stream. A copy
that ends in error counts or deposits as one that failed does (R199) and is reported (R56): the first by its hart's trap where
that runs, every other by a record of its own. The two phases of a function-level
reset, the transitions of a TDI, what they leave of ready, and how transfers end in error, are the model's
choice (log 29, log 30, log 75). -/
def Obligations.FunctionsReset : Prop :=
  ∀ (s : State) (fn : BitVec 5) (st : BitVec 3),
    let f := fn.toNat
    let x := s.fnAt f
    let cutHere (t : State) (hid : Nat) (c : Entry → Bool) (cause : BitVec 8) : Prop :=
      let h := s.hartAt hid
      let k := t.hartAt hid
      let cut (e : Entry) : Bool := (copyRunOf e.instr).isSome && c e
      let gone := h.cq.filter cut
      let shown (e : Entry) : Prop := ∃ r : Record, r.cause = cause ∧ r.engine = 4 ∧ r.ipc = e.pc ∧ r.word = e.word ∧
        (h.sup = true → r ∈ t.dev.svc) ∧ (h.sup = false → (s.coreAt (hid / 8)).tqbase = 0 → r ∈ (t.coreAt (hid / 8)).pend)
      k.cq = h.cq.filter (fun e => !cut e) ∧
      ((∀ e ∈ h.cq, ∀ y, copyRunOf e.instr = some y → y.tok = 0) → k.cpcnt = h.cpcnt + BitVec.ofNat 64 gone.length) ∧
      (h.run ≠ .running → k.run = h.run ∧ ∀ e ∈ gone, shown e) ∧
      (∀ e l, gone = e :: l → h.run = .running → k.run = .suspending ∧ k.hdr.cause = cause ∧ k.hdr.engine = 4 ∧
        k.hdr.ipc = e.pc ∧ k.hdr.word = e.word ∧ ∀ y ∈ l, shown y)
    let scrubbed (t : State) : Prop :=
      (∀ hid, (t.hartAt hid).sup = false → (t.hartAt hid).fn = fn →
        (t.hartAt hid).run = .free ∨ (t.hartAt hid).run = .ended) ∧
      (∀ p ∈ t.clus, (∀ w ∈ p.2.works, w.fn ≠ fn) ∧ (∀ y ∈ p.2.progs, y.2.fn ≠ fn) ∧ (∀ y ∈ p.2.slotFn, y.2 ≠ fn)) ∧
      (∀ cl hd, let b := (s.clusAt cl).bay hd
        b.st ≠ .free → b.fn = fn → let y := (t.clusAt cl).bay hd
          y.st = .free ∧ y.units = 0 ∧ y.got = 0 ∧
          ∀ a, hd * 2 ^ 24 ≤ a → a < (hd + 1) * 2 ^ 24 → (t.clusAt cl).square.byte a = 0) ∧
      (∀ cl hd, let y := (t.clusAt cl).bay hd; y.st ≠ .free → y.fn ≠ fn) ∧
      (∀ p ∈ t.dev.gangs, p.2.fn = fn → ∀ m ∈ p.2.members, m.ended = true) ∧
      (fn = 0 → ∀ hid, let h := s.hartAt hid
        let any := ∃ e ∈ h.cq, (copyRunOf e.instr).isSome = true
        h.sup = true → h.surr = none → h.bay.isOpen = false →
        (any → cutHere t hid (fun _ => true) 0x53) ∧ (¬ any → (t.hartAt hid).cq = h.cq ∧ (t.hartAt hid).run = h.run)) ∧
      ((∀ p ∈ s.clus, ∀ w ∈ p.2.works, w.fn ≠ fn) → t.mem = s.mem)
    (s.hasFn f = true → x.inReset = false →
      ∃ t, exec (.functionLevelReset fn) s = .next t ∧ (t.fnAt f).inReset = true ∧ scrubbed t) ∧
    (s.hasFn f = true → x.inReset = true →
      exec (.functionLevelReset fn) s = .next (s.setFnAt f
        { Fn.boot s.img f with ready := false, waking := true, tdi := x.tdi, tdiErr := x.tdiErr })) ∧
    (∀ unlocked : BitVec 1, x.tdi = some .running →
      ∃ t, exec (.tdiLeaveRun ⟨fn, unlocked⟩) s = .next t ∧ (t.fnAt f).tdi = some (if unlocked = 1 then .unlocked else .error) ∧
        (t.fnAt f).tdiErr = true ∧ (t.fnAt f).ready = false ∧ (t.fnAt f).waking = (x.ready || x.waking) ∧ scrubbed t) ∧
    (fn ≠ 0 → s.hasFn f = true →
      exec (.tdiLock fn) s = .next (s.setFnAt f { x with tdi := some .locked, tdiErr := false })) ∧
    (x.tdi = some .locked → exec (.tdiRun fn) s = .next (s.setFnAt f { x with tdi := some .running })) ∧
    exec (.spdmKeyExchange st) s = .next { s with dev := { s.dev with ide := s.dev.ide.set st.toNat true } } ∧
    (let live := s.dev.ide[st.toNat] = true
     let ofHart (h : Hart) : Nat := if h.sup then 0 else h.fn.toNat
     let inFlight (w : Work) : Prop := live ∧ w.started = true ∧ onStream w.fn.toNat st.toNat = true ∧ s.overPort w = true
     let overIt (e : Entry) : Bool := e.started && e.host
     let quiet (p : Nat × Hart) : Prop := let h := s.hartAt p.1
       onStream (ofHart p.2) st.toNat = false ∨ h.sup = true ∨ (s.coreAt (p.1 / 8)).tqbase = 0 ∨
       (h.run = .running ∧ (h.cq.filter (fun e => (copyRunOf e.instr).isSome && overIt e)).length ≤ 1)
     ∃ t, exec (.spdmSessionExpiry st) s = .next t ∧ t.dev.ide = s.dev.ide.set st.toNat false ∧
      (¬ live → t = { s with dev := { s.dev with ide := s.dev.ide.set st.toNat false } }) ∧
      ((∀ p ∈ s.clus, ∀ w ∈ p.2.works, ¬ inFlight w) →
        ((∀ p ∈ s.harts, quiet p) → t.mem = s.mem) ∧ ∀ cl, (t.clusAt cl).works = (s.clusAt cl).works) ∧
      (∀ p ∈ s.clus, ∀ w ∈ p.2.works, inFlight w → ∀ v ∈ (t.clusAt p.1).works, v.seq ≠ w.seq) ∧
      ∀ hid, let h := s.hartAt hid
        let any := ∃ e ∈ h.cq, (copyRunOf e.instr).isSome = true ∧ e.started = true ∧ e.host = true
        (live → onStream (ofHart h) st.toNat = true → any → h.surr = none → h.bay.isOpen = false → cutHere t hid overIt 0x54) ∧
        ((∀ p ∈ s.harts, p.1 = hid → onStream (ofHart p.2) st.toNat = false) ∨ ¬ any →
          (t.hartAt hid).cq = h.cq ∧ (t.hartAt hid).run = h.run))

/-! ### Errors, thermal events and reset -/

/-- Errors (R186, R366): a corrected one is counted; an uncorrectable one puts a record of four words at its place in the
ring of the function whose request met it, and a running hart that met it traps with cause 0x52, imprecisely; in a service
core's memory the function is no longer ready. One that stands in data, which nothing has met, waits there, and a load
whose bytes hold it traps with cause 0x52, precisely (R97). A page migration (R165) makes every copy of the page's entry
invalid and drops what the cores keep of it; then it moves the page's bytes and names the new frame in every copy, and
updates under way to the page follow it; where its bytes hold a soft error it moves nothing and the entry is valid again; that
these are two events, and how the second fails, is the model's choice (log 59). Thermal and
management events (R370): a die's clock is held and released; above 115 °C every step but one that a reset begins
stops; the management controller reads the energy of the last frame in µJ, and temperatures and a power on which nothing bears
(log 94). A reset at any time gives the machine of
the configuration image at time 0; main memory keeps its bytes (the model's choice, log 17). That one error at a time stands
in data, and that all steps stop above 115 °C, are the model's choices too (log 76, log 53). -/
def Obligations.ErrorsAndEvents : Prop :=
  (∀ (s : State) (loc : BitVec 3) (unit hid : BitVec 16) (fn : BitVec 5) (pa dva : BitVec 64),
     let f := fn.toNat
     exec (.correctableError loc) s = .next { s with dev := { s.dev with corrected := s.dev.corrected + 1 } } ∧
     (standsInData loc hid = true → exec (.uncorrectableError loc unit hid fn pa dva) s =
       .next { s with dev := { s.dev with latent := some ⟨loc.toNat, unit.toNat, pa.toNat⟩ } }) ∧
     (standsInData loc hid = false → let g := s.errorFn loc.toNat unit.toNat hid.toNat f pa.toNat
       ∃ t, exec (.uncorrectableError loc unit hid fn pa dva) s = .next t ∧ (t.fnAt g).ertail = (s.fnAt g).ertail + 1 ∧
       (t.fnAt g).errs.find ((s.fnAt g).ertail.toNat % 256) =
         some #v[BitVec.ofNat 64 (0x52 + loc.toNat * 2 ^ 8 + unit.toNat * 2 ^ 16 + hid.toNat * 2 ^ 32), pa, s.time, dva] ∧
       (loc = 5 → (t.fnAt f).ready = false) ∧
       (hid.toNat < 1280 → g = (s.whoOf hid.toNat).fn) ∧
       (loc ≠ 2 → loc ≠ 4 → loc ≠ 5 → hid.toNat < 1280 → (s.hartAt hid.toNat).run = .running →
         (s.hartAt hid.toNat).surr = none → (s.hartAt hid.toNat).bay.isOpen = false →
         (t.hartAt hid.toNat).run = .suspending ∧ (t.hartAt hid.toNat).hdr.cause = 0x52 ∧ (t.hartAt hid.toNat).hdr.addr = dva ∧
         (t.hartAt hid.toNat).hdr.flags.toNat % 2 = 1) ∧
       (∀ u, loc = 4 → s.dev.updates.find? (fun y => y.pa == pa.toNat) = some u → u.hid < 4096 →
         (t.hartAt u.hid).lostUpd = some u.dva ∧ t.dev.updates = s.dev.updates.erase u)) ∧
     (∀ (d a : BitVec 5) (off : BitVec 8) (ordsc : BitVec 4) (ty : BitVec 3) (u : State) (at_ : Nat) (e : Latent),
       let y := (scalarAddr (s.reg a) off (tySize ty)).toNat
       s.hart.prefixFits .s false false = true → s.scalarGate 0 .read = none → y % tySize ty = 0 →
       s.begun.dv s.begun.who y .read s.begun.hart.scalarTouch = .ok (u, at_) →
       s.dev.latent = some e → e.loc = 3 → at_ ≤ e.addr → e.addr < at_ + tySize ty →
       exec (.ld d a off ordsc 0 ty) s = .next (s.popped.trapSeq ⟨0x52, BitVec.ofNat 64 y⟩)) ∧
     (∀ (src dst : BitVec 36) (pte : BitVec 52),
       let a := src.toNat * 65536
       let b := dst.toNat * 65536
       let p := s.mem.read pte.toNat 8
       let size := 2 ^ pteShift p
       let copies := leafCopies pte.toNat p
       let apart (y : Nat) : Prop := ∀ c ∈ copies, y < c ∨ c + 8 ≤ y
       pteBase p = a → b % size = 0 →
       (p % 2 = 1 → ∃ t, exec (.pageMigrate src dst pte) s = .next t ∧ (∀ c ∈ copies, t.mem.read c 8 = p - 1) ∧
         (∀ y, apart y → t.mem.byte y = s.mem.byte y) ∧ (∀ k e, e ∈ (t.coreAt k).tlb → e.at_ ∉ copies) ∧ t.harts = s.harts) ∧
       (p % 2 = 0 → s.spoiled 3 0 a size = true → ∃ t, exec (.pageMigrate src dst pte) s = .next t ∧ t.dev.latent = none ∧
         (∀ c ∈ copies, t.mem.read c 8 = p + 1) ∧ (∀ y, apart y → t.mem.byte y = s.mem.byte y) ∧ t.harts = s.harts) ∧
       (p % 2 = 0 → s.spoiled 3 0 a size = false → (∀ c ∈ copies, c + 8 ≤ b ∨ b + size ≤ c) →
         ∃ t, exec (.pageMigrate src dst pte) s = .next t ∧ (∀ j, j < size → t.mem.byte (b + j) = s.mem.byte (a + j)) ∧
           (∀ c ∈ copies, t.mem.read c 8 = p + b + 1 - a) ∧
           (∀ y, (y < b ∨ b + size ≤ y) → apart y → t.mem.byte y = s.mem.byte y) ∧ t.harts = s.harts ∧
           (∀ u ∈ s.dev.updates, a ≤ u.pa → u.pa < a + size → { u with pa := u.pa - a + b } ∈ t.dev.updates)))) ∧
  (∀ (s : State) (die : BitVec 5),
     (∃ t, exec (.thermalHold die) s = .next t ∧ t = { s with dev := { s.dev with held := t.dev.held } } ∧
       t.dieRuns die.toNat = false ∧ ∀ j : BitVec 5, j ≠ die → t.dieRuns j.toNat = s.dieRuns j.toNat) ∧
     (∃ t, exec (.thermalRelease die) s = .next t ∧ t = { s with dev := { s.dev with held := t.dev.held } } ∧
       t.dieRuns die.toNat = true ∧ ∀ j : BitVec 5, j ≠ die → t.dieRuns j.toNat = s.dieRuns j.toNat) ∧
     (∃ t, exec .thermalStop s = .next t ∧ (s.agenda = [] → step t = .fault .thermalStop)) ∧
     (s.dev.stopped = true → s.agenda = [] → step s = .fault .thermalStop) ∧
     (∃ t x, exec .pldmMonitorRead s = .next t ∧ x.energy = s.dev.energyLast / 1024 ∧
       t = { s with fresh := s.fresh + 1, dev := { s.dev with pldm := some x } })) ∧
  (∀ (s : State), ∃ t, exec .reset s = .next t ∧ t.time = 0 ∧ t.img = s.img ∧ t.mem = s.mem ∧ t.dev.eceil = s.img.eceil ∧
     (∀ hid, t.hartAt hid = Hart.boot s.img hid) ∧ (∀ k, t.coreAt k = Core.boot s.img k) ∧ t.clus = [])
end

