-- ==== Sys2Proof/Laws/State.lean ====
section
/-! SUPPORT. The small laws of the state: total maps, one lemma per field and update, and what an accessor reads after an
update. -/

namespace Sys2Proof

/-! ### Total maps -/

@[simp] theorem TMap.find_set_same {α : Type} (m : TMap α) (i : Nat) (v : α) : (m.set i v).find i = some v := by
  induction m with
  | nil => simp [TMap.set, TMap.find]
  | cons p t ih =>
    obtain ⟨k, u⟩ := p
    simp only [TMap.set]
    split
    · simp [TMap.find]
    · split
      · simp [TMap.find]
      · simp [TMap.find, *]

@[simp] theorem TMap.find_set_other {α : Type} (m : TMap α) {i j : Nat} (v : α) (h : j ≠ i) :
    (m.set i v).find j = m.find j := by
  induction m with
  | nil => simp [TMap.set, TMap.find, Ne.symm h]
  | cons p t ih =>
    obtain ⟨k, u⟩ := p
    simp only [TMap.set]
    split
    · rename_i hk; subst hk; simp [TMap.find, Ne.symm h]
    · split
      · simp [TMap.find, Ne.symm h]
      · simp [TMap.find, ih]

@[simp] theorem TMap.set_set {α : Type} (m : TMap α) (i : Nat) (u v : α) : (m.set i u).set i v = m.set i v := by
  induction m with
  | nil => simp [TMap.set]
  | cons p t ih =>
    obtain ⟨k, w⟩ := p
    by_cases h : k = i
    · simp [TMap.set, h]
    · by_cases hlt : i < k
      · simp [TMap.set, h, hlt]
      · simp [TMap.set, h, hlt, ih]

namespace Machine

/-! ### Fields of State after an update -/

@[simp] theorem State.setHartAt_time (s : State) (i : Nat) (h : Hart) : (s.setHartAt i h).time = s.time := rfl
@[simp] theorem State.setHartAt_cur (s : State) (i : Nat) (h : Hart) : (s.setHartAt i h).cur = s.cur := rfl
@[simp] theorem State.setHartAt_ir (s : State) (i : Nat) (h : Hart) : (s.setHartAt i h).ir = s.ir := rfl
@[simp] theorem State.setHartAt_turn (s : State) (i : Nat) (h : Hart) : (s.setHartAt i h).turn = s.turn := rfl
@[simp] theorem State.setHartAt_agenda (s : State) (i : Nat) (h : Hart) : (s.setHartAt i h).agenda = s.agenda := rfl
@[simp] theorem State.setHartAt_fresh (s : State) (i : Nat) (h : Hart) : (s.setHartAt i h).fresh = s.fresh := rfl
@[simp] theorem State.setHartAt_img (s : State) (i : Nat) (h : Hart) : (s.setHartAt i h).img = s.img := rfl
@[simp] theorem State.setHartAt_cores (s : State) (i : Nat) (h : Hart) : (s.setHartAt i h).cores = s.cores := rfl
@[simp] theorem State.setHartAt_clus (s : State) (i : Nat) (h : Hart) : (s.setHartAt i h).clus = s.clus := rfl
@[simp] theorem State.setHartAt_mem (s : State) (i : Nat) (h : Hart) : (s.setHartAt i h).mem = s.mem := rfl
@[simp] theorem State.setHartAt_dev (s : State) (i : Nat) (h : Hart) : (s.setHartAt i h).dev = s.dev := rfl

@[simp] theorem State.setHart_time (s : State) (h : Hart) : (s.setHart h).time = s.time := rfl
@[simp] theorem State.setHart_cur (s : State) (h : Hart) : (s.setHart h).cur = s.cur := rfl
@[simp] theorem State.setHart_ir (s : State) (h : Hart) : (s.setHart h).ir = s.ir := rfl
@[simp] theorem State.setHart_turn (s : State) (h : Hart) : (s.setHart h).turn = s.turn := rfl
@[simp] theorem State.setHart_agenda (s : State) (h : Hart) : (s.setHart h).agenda = s.agenda := rfl
@[simp] theorem State.setHart_fresh (s : State) (h : Hart) : (s.setHart h).fresh = s.fresh := rfl
@[simp] theorem State.setHart_img (s : State) (h : Hart) : (s.setHart h).img = s.img := rfl
@[simp] theorem State.setHart_cores (s : State) (h : Hart) : (s.setHart h).cores = s.cores := rfl
@[simp] theorem State.setHart_clus (s : State) (h : Hart) : (s.setHart h).clus = s.clus := rfl
@[simp] theorem State.setHart_mem (s : State) (h : Hart) : (s.setHart h).mem = s.mem := rfl
@[simp] theorem State.setHart_dev (s : State) (h : Hart) : (s.setHart h).dev = s.dev := rfl

@[simp] theorem State.setCoreAt_time (s : State) (i : Nat) (c : Core) : (s.setCoreAt i c).time = s.time := rfl
@[simp] theorem State.setCoreAt_cur (s : State) (i : Nat) (c : Core) : (s.setCoreAt i c).cur = s.cur := rfl
@[simp] theorem State.setCoreAt_ir (s : State) (i : Nat) (c : Core) : (s.setCoreAt i c).ir = s.ir := rfl
@[simp] theorem State.setCoreAt_turn (s : State) (i : Nat) (c : Core) : (s.setCoreAt i c).turn = s.turn := rfl
@[simp] theorem State.setCoreAt_agenda (s : State) (i : Nat) (c : Core) : (s.setCoreAt i c).agenda = s.agenda := rfl
@[simp] theorem State.setCoreAt_fresh (s : State) (i : Nat) (c : Core) : (s.setCoreAt i c).fresh = s.fresh := rfl
@[simp] theorem State.setCoreAt_img (s : State) (i : Nat) (c : Core) : (s.setCoreAt i c).img = s.img := rfl
@[simp] theorem State.setCoreAt_harts (s : State) (i : Nat) (c : Core) : (s.setCoreAt i c).harts = s.harts := rfl
@[simp] theorem State.setCoreAt_clus (s : State) (i : Nat) (c : Core) : (s.setCoreAt i c).clus = s.clus := rfl
@[simp] theorem State.setCoreAt_mem (s : State) (i : Nat) (c : Core) : (s.setCoreAt i c).mem = s.mem := rfl
@[simp] theorem State.setCoreAt_dev (s : State) (i : Nat) (c : Core) : (s.setCoreAt i c).dev = s.dev := rfl

@[simp] theorem State.setCore_time (s : State) (c : Core) : (s.setCore c).time = s.time := rfl
@[simp] theorem State.setCore_cur (s : State) (c : Core) : (s.setCore c).cur = s.cur := rfl
@[simp] theorem State.setCore_ir (s : State) (c : Core) : (s.setCore c).ir = s.ir := rfl
@[simp] theorem State.setCore_turn (s : State) (c : Core) : (s.setCore c).turn = s.turn := rfl
@[simp] theorem State.setCore_agenda (s : State) (c : Core) : (s.setCore c).agenda = s.agenda := rfl
@[simp] theorem State.setCore_fresh (s : State) (c : Core) : (s.setCore c).fresh = s.fresh := rfl
@[simp] theorem State.setCore_img (s : State) (c : Core) : (s.setCore c).img = s.img := rfl
@[simp] theorem State.setCore_harts (s : State) (c : Core) : (s.setCore c).harts = s.harts := rfl
@[simp] theorem State.setCore_clus (s : State) (c : Core) : (s.setCore c).clus = s.clus := rfl
@[simp] theorem State.setCore_mem (s : State) (c : Core) : (s.setCore c).mem = s.mem := rfl
@[simp] theorem State.setCore_dev (s : State) (c : Core) : (s.setCore c).dev = s.dev := rfl

@[simp] theorem State.setClusAt_time (s : State) (i : Nat) (c : Clus) : (s.setClusAt i c).time = s.time := rfl
@[simp] theorem State.setClusAt_cur (s : State) (i : Nat) (c : Clus) : (s.setClusAt i c).cur = s.cur := rfl
@[simp] theorem State.setClusAt_ir (s : State) (i : Nat) (c : Clus) : (s.setClusAt i c).ir = s.ir := rfl
@[simp] theorem State.setClusAt_turn (s : State) (i : Nat) (c : Clus) : (s.setClusAt i c).turn = s.turn := rfl
@[simp] theorem State.setClusAt_agenda (s : State) (i : Nat) (c : Clus) : (s.setClusAt i c).agenda = s.agenda := rfl
@[simp] theorem State.setClusAt_fresh (s : State) (i : Nat) (c : Clus) : (s.setClusAt i c).fresh = s.fresh := rfl
@[simp] theorem State.setClusAt_img (s : State) (i : Nat) (c : Clus) : (s.setClusAt i c).img = s.img := rfl
@[simp] theorem State.setClusAt_harts (s : State) (i : Nat) (c : Clus) : (s.setClusAt i c).harts = s.harts := rfl
@[simp] theorem State.setClusAt_cores (s : State) (i : Nat) (c : Clus) : (s.setClusAt i c).cores = s.cores := rfl
@[simp] theorem State.setClusAt_mem (s : State) (i : Nat) (c : Clus) : (s.setClusAt i c).mem = s.mem := rfl
@[simp] theorem State.setClusAt_dev (s : State) (i : Nat) (c : Clus) : (s.setClusAt i c).dev = s.dev := rfl

@[simp] theorem State.setFnAt_time (s : State) (i : Nat) (x : Fn) : (s.setFnAt i x).time = s.time := rfl
@[simp] theorem State.setFnAt_cur (s : State) (i : Nat) (x : Fn) : (s.setFnAt i x).cur = s.cur := rfl
@[simp] theorem State.setFnAt_ir (s : State) (i : Nat) (x : Fn) : (s.setFnAt i x).ir = s.ir := rfl
@[simp] theorem State.setFnAt_turn (s : State) (i : Nat) (x : Fn) : (s.setFnAt i x).turn = s.turn := rfl
@[simp] theorem State.setFnAt_agenda (s : State) (i : Nat) (x : Fn) : (s.setFnAt i x).agenda = s.agenda := rfl
@[simp] theorem State.setFnAt_fresh (s : State) (i : Nat) (x : Fn) : (s.setFnAt i x).fresh = s.fresh := rfl
@[simp] theorem State.setFnAt_img (s : State) (i : Nat) (x : Fn) : (s.setFnAt i x).img = s.img := rfl
@[simp] theorem State.setFnAt_harts (s : State) (i : Nat) (x : Fn) : (s.setFnAt i x).harts = s.harts := rfl
@[simp] theorem State.setFnAt_cores (s : State) (i : Nat) (x : Fn) : (s.setFnAt i x).cores = s.cores := rfl
@[simp] theorem State.setFnAt_clus (s : State) (i : Nat) (x : Fn) : (s.setFnAt i x).clus = s.clus := rfl
@[simp] theorem State.setFnAt_mem (s : State) (i : Nat) (x : Fn) : (s.setFnAt i x).mem = s.mem := rfl

@[simp] theorem State.setRsvAt_time (s : State) (i : Nat) (x : Rsv) : (s.setRsvAt i x).time = s.time := rfl
@[simp] theorem State.setRsvAt_cur (s : State) (i : Nat) (x : Rsv) : (s.setRsvAt i x).cur = s.cur := rfl
@[simp] theorem State.setRsvAt_ir (s : State) (i : Nat) (x : Rsv) : (s.setRsvAt i x).ir = s.ir := rfl
@[simp] theorem State.setRsvAt_turn (s : State) (i : Nat) (x : Rsv) : (s.setRsvAt i x).turn = s.turn := rfl
@[simp] theorem State.setRsvAt_agenda (s : State) (i : Nat) (x : Rsv) : (s.setRsvAt i x).agenda = s.agenda := rfl
@[simp] theorem State.setRsvAt_fresh (s : State) (i : Nat) (x : Rsv) : (s.setRsvAt i x).fresh = s.fresh := rfl
@[simp] theorem State.setRsvAt_img (s : State) (i : Nat) (x : Rsv) : (s.setRsvAt i x).img = s.img := rfl
@[simp] theorem State.setRsvAt_harts (s : State) (i : Nat) (x : Rsv) : (s.setRsvAt i x).harts = s.harts := rfl
@[simp] theorem State.setRsvAt_cores (s : State) (i : Nat) (x : Rsv) : (s.setRsvAt i x).cores = s.cores := rfl
@[simp] theorem State.setRsvAt_clus (s : State) (i : Nat) (x : Rsv) : (s.setRsvAt i x).clus = s.clus := rfl
@[simp] theorem State.setRsvAt_mem (s : State) (i : Nat) (x : Rsv) : (s.setRsvAt i x).mem = s.mem := rfl

@[simp] theorem State.setGangAt_time (s : State) (i : Nat) (x : Gang) : (s.setGangAt i x).time = s.time := rfl
@[simp] theorem State.setGangAt_cur (s : State) (i : Nat) (x : Gang) : (s.setGangAt i x).cur = s.cur := rfl
@[simp] theorem State.setGangAt_ir (s : State) (i : Nat) (x : Gang) : (s.setGangAt i x).ir = s.ir := rfl
@[simp] theorem State.setGangAt_turn (s : State) (i : Nat) (x : Gang) : (s.setGangAt i x).turn = s.turn := rfl
@[simp] theorem State.setGangAt_agenda (s : State) (i : Nat) (x : Gang) : (s.setGangAt i x).agenda = s.agenda := rfl
@[simp] theorem State.setGangAt_fresh (s : State) (i : Nat) (x : Gang) : (s.setGangAt i x).fresh = s.fresh := rfl
@[simp] theorem State.setGangAt_img (s : State) (i : Nat) (x : Gang) : (s.setGangAt i x).img = s.img := rfl
@[simp] theorem State.setGangAt_harts (s : State) (i : Nat) (x : Gang) : (s.setGangAt i x).harts = s.harts := rfl
@[simp] theorem State.setGangAt_cores (s : State) (i : Nat) (x : Gang) : (s.setGangAt i x).cores = s.cores := rfl
@[simp] theorem State.setGangAt_clus (s : State) (i : Nat) (x : Gang) : (s.setGangAt i x).clus = s.clus := rfl
@[simp] theorem State.setGangAt_mem (s : State) (i : Nat) (x : Gang) : (s.setGangAt i x).mem = s.mem := rfl

@[simp] theorem State.setReg_time (s : State) (r : BitVec 5) (v : Word) : (s.setReg r v).time = s.time := rfl
@[simp] theorem State.setReg_cur (s : State) (r : BitVec 5) (v : Word) : (s.setReg r v).cur = s.cur := rfl
@[simp] theorem State.setReg_ir (s : State) (r : BitVec 5) (v : Word) : (s.setReg r v).ir = s.ir := rfl
@[simp] theorem State.setReg_turn (s : State) (r : BitVec 5) (v : Word) : (s.setReg r v).turn = s.turn := rfl
@[simp] theorem State.setReg_agenda (s : State) (r : BitVec 5) (v : Word) : (s.setReg r v).agenda = s.agenda := rfl
@[simp] theorem State.setReg_fresh (s : State) (r : BitVec 5) (v : Word) : (s.setReg r v).fresh = s.fresh := rfl
@[simp] theorem State.setReg_img (s : State) (r : BitVec 5) (v : Word) : (s.setReg r v).img = s.img := rfl
@[simp] theorem State.setReg_cores (s : State) (r : BitVec 5) (v : Word) : (s.setReg r v).cores = s.cores := rfl
@[simp] theorem State.setReg_clus (s : State) (r : BitVec 5) (v : Word) : (s.setReg r v).clus = s.clus := rfl
@[simp] theorem State.setReg_mem (s : State) (r : BitVec 5) (v : Word) : (s.setReg r v).mem = s.mem := rfl
@[simp] theorem State.setReg_dev (s : State) (r : BitVec 5) (v : Word) : (s.setReg r v).dev = s.dev := rfl

/-! ### Accessors after an update -/

@[simp] theorem State.hartAt_setHartAt (s : State) (i : Nat) (h : Hart) : (s.setHartAt i h).hartAt i = h := by
  simp [State.hartAt, State.setHartAt]
@[simp] theorem State.hartAt_setHartAt_other (s : State) {i j : Nat} (h : Hart) (n : j ≠ i) :
    (s.setHartAt i h).hartAt j = s.hartAt j := by
  simp [State.hartAt, State.setHartAt, n]
@[simp] theorem State.setHartAt_setHartAt (s : State) (i : Nat) (h k : Hart) :
    (s.setHartAt i h).setHartAt i k = s.setHartAt i k := by
  simp [State.setHartAt]
@[simp] theorem State.hart_setHart (s : State) (h : Hart) : (s.setHart h).hart = h := by
  simp [State.hart, State.setHart]
@[simp] theorem State.setHart_setHart (s : State) (h k : Hart) : (s.setHart h).setHart k = s.setHart k := by
  simp [State.setHart]
@[simp] theorem State.hartAt_setHart_other (s : State) {j : Nat} (h : Hart) (n : j ≠ s.cur) :
    (s.setHart h).hartAt j = s.hartAt j := by
  simp [State.setHart, n]
theorem State.setHart_def (s : State) (h : Hart) : s.setHart h = s.setHartAt s.cur h := rfl
@[simp] theorem State.hart_setReg (s : State) (r : BitVec 5) (v : Word) : (s.setReg r v).hart = s.hart.setReg r v := by
  simp [State.setReg]
theorem State.setReg_def (s : State) (r : BitVec 5) (v : Word) : s.setReg r v = s.setHart (s.hart.setReg r v) := rfl
@[simp] theorem State.coreAt_setCoreAt (s : State) (i : Nat) (c : Core) : (s.setCoreAt i c).coreAt i = c := by
  simp [State.coreAt, State.setCoreAt]
@[simp] theorem State.coreAt_setCoreAt_other (s : State) {i j : Nat} (c : Core) (n : j ≠ i) :
    (s.setCoreAt i c).coreAt j = s.coreAt j := by
  simp [State.coreAt, State.setCoreAt, n]
@[simp] theorem State.setCoreAt_setCoreAt (s : State) (i : Nat) (c d : Core) :
    (s.setCoreAt i c).setCoreAt i d = s.setCoreAt i d := by
  simp [State.setCoreAt]
@[simp] theorem State.clusAt_setClusAt (s : State) (i : Nat) (c : Clus) : (s.setClusAt i c).clusAt i = c := by
  simp [State.clusAt, State.setClusAt]
@[simp] theorem State.clusAt_setClusAt_other (s : State) {i j : Nat} (c : Clus) (n : j ≠ i) :
    (s.setClusAt i c).clusAt j = s.clusAt j := by
  simp [State.clusAt, State.setClusAt, n]
@[simp] theorem State.fnAt_setFnAt (s : State) (i : Nat) (x : Fn) : (s.setFnAt i x).fnAt i = x := by
  simp [State.fnAt, State.setFnAt]
@[simp] theorem State.fnAt_setFnAt_other (s : State) {i j : Nat} (x : Fn) (n : j ≠ i) :
    (s.setFnAt i x).fnAt j = s.fnAt j := by
  simp [State.fnAt, State.setFnAt, n]
@[simp] theorem State.rsvAt_setRsvAt (s : State) (i : Nat) (x : Rsv) : (s.setRsvAt i x).rsvAt i = x := by
  simp [State.rsvAt, State.setRsvAt]
@[simp] theorem State.rsvAt_setRsvAt_other (s : State) {i j : Nat} (x : Rsv) (n : j ≠ i) :
    (s.setRsvAt i x).rsvAt j = s.rsvAt j := by
  simp [State.rsvAt, State.setRsvAt, n]
@[simp] theorem State.coreAt_busyFor_other (s : State) {core k : Nat} (i : Fin 20) (per n : Nat) (d : k ≠ core) :
    (s.busyFor core i per n).coreAt k = s.coreAt k := by
  simp [State.busyFor, State.coreAt, State.setCoreAt, d]
@[simp] theorem State.coreAt_busyFor (s : State) (core : Nat) (i : Fin 20) (per n : Nat) :
    (s.busyFor core i per n).coreAt core =
      { s.coreAt core with busy := (s.coreAt core).busy.set i (max (per * s.now) (s.coreAt core).busy[i] + n) } := by
  simp [State.busyFor, State.coreAt, State.setCoreAt]
@[simp] theorem State.hartAt_busyFor (s : State) (core : Nat) (i : Fin 20) (per n x : Nat) :
    (s.busyFor core i per n).hartAt x = s.hartAt x := rfl
@[simp] theorem State.clusAt_busyFor (s : State) (core : Nat) (i : Fin 20) (per n x : Nat) :
    (s.busyFor core i per n).clusAt x = s.clusAt x := rfl
@[simp] theorem State.mem_busyFor (s : State) (core : Nat) (i : Fin 20) (per n : Nat) : (s.busyFor core i per n).mem = s.mem := rfl
@[simp] theorem State.dev_busyFor (s : State) (core : Nat) (i : Fin 20) (per n : Nat) : (s.busyFor core i per n).dev = s.dev := rfl
@[simp] theorem State.now_busyFor (s : State) (core : Nat) (i : Fin 20) (per n : Nat) : (s.busyFor core i per n).now = s.now := rfl
@[simp] theorem State.cur_busyFor (s : State) (core : Nat) (i : Fin 20) (per n : Nat) : (s.busyFor core i per n).cur = s.cur := rfl
@[simp] theorem State.gangAt_setGangAt (s : State) (i : Nat) (x : Gang) : (s.setGangAt i x).gangAt i = some x := by
  simp [State.gangAt, State.setGangAt]

@[simp] theorem State.coreAt_setHartAt (s : State) (i : Nat) (h : Hart) (k_ : Nat) : (s.setHartAt i h).coreAt k_ = s.coreAt k_ := rfl
@[simp] theorem State.clusAt_setHartAt (s : State) (i : Nat) (h : Hart) (k_ : Nat) : (s.setHartAt i h).clusAt k_ = s.clusAt k_ := rfl
@[simp] theorem State.fnAt_setHartAt (s : State) (i : Nat) (h : Hart) (k_ : Nat) : (s.setHartAt i h).fnAt k_ = s.fnAt k_ := rfl
@[simp] theorem State.rsvAt_setHartAt (s : State) (i : Nat) (h : Hart) (k_ : Nat) : (s.setHartAt i h).rsvAt k_ = s.rsvAt k_ := rfl
@[simp] theorem State.gangAt_setHartAt (s : State) (i : Nat) (h : Hart) (k_ : Nat) : (s.setHartAt i h).gangAt k_ = s.gangAt k_ := rfl
@[simp] theorem State.coreAt_setHart (s : State) (h : Hart) (k_ : Nat) : (s.setHart h).coreAt k_ = s.coreAt k_ := rfl
@[simp] theorem State.clusAt_setHart (s : State) (h : Hart) (k_ : Nat) : (s.setHart h).clusAt k_ = s.clusAt k_ := rfl
@[simp] theorem State.fnAt_setHart (s : State) (h : Hart) (k_ : Nat) : (s.setHart h).fnAt k_ = s.fnAt k_ := rfl
@[simp] theorem State.rsvAt_setHart (s : State) (h : Hart) (k_ : Nat) : (s.setHart h).rsvAt k_ = s.rsvAt k_ := rfl
@[simp] theorem State.gangAt_setHart (s : State) (h : Hart) (k_ : Nat) : (s.setHart h).gangAt k_ = s.gangAt k_ := rfl
@[simp] theorem State.hartAt_setCoreAt (s : State) (i : Nat) (c : Core) (k_ : Nat) : (s.setCoreAt i c).hartAt k_ = s.hartAt k_ := rfl
@[simp] theorem State.clusAt_setCoreAt (s : State) (i : Nat) (c : Core) (k_ : Nat) : (s.setCoreAt i c).clusAt k_ = s.clusAt k_ := rfl
@[simp] theorem State.fnAt_setCoreAt (s : State) (i : Nat) (c : Core) (k_ : Nat) : (s.setCoreAt i c).fnAt k_ = s.fnAt k_ := rfl
@[simp] theorem State.rsvAt_setCoreAt (s : State) (i : Nat) (c : Core) (k_ : Nat) : (s.setCoreAt i c).rsvAt k_ = s.rsvAt k_ := rfl
@[simp] theorem State.gangAt_setCoreAt (s : State) (i : Nat) (c : Core) (k_ : Nat) : (s.setCoreAt i c).gangAt k_ = s.gangAt k_ := rfl
@[simp] theorem State.hartAt_setCore (s : State) (c : Core) (k_ : Nat) : (s.setCore c).hartAt k_ = s.hartAt k_ := rfl
@[simp] theorem State.clusAt_setCore (s : State) (c : Core) (k_ : Nat) : (s.setCore c).clusAt k_ = s.clusAt k_ := rfl
@[simp] theorem State.fnAt_setCore (s : State) (c : Core) (k_ : Nat) : (s.setCore c).fnAt k_ = s.fnAt k_ := rfl
@[simp] theorem State.rsvAt_setCore (s : State) (c : Core) (k_ : Nat) : (s.setCore c).rsvAt k_ = s.rsvAt k_ := rfl
@[simp] theorem State.gangAt_setCore (s : State) (c : Core) (k_ : Nat) : (s.setCore c).gangAt k_ = s.gangAt k_ := rfl
@[simp] theorem State.hartAt_setClusAt (s : State) (i : Nat) (c : Clus) (k_ : Nat) : (s.setClusAt i c).hartAt k_ = s.hartAt k_ := rfl
@[simp] theorem State.coreAt_setClusAt (s : State) (i : Nat) (c : Clus) (k_ : Nat) : (s.setClusAt i c).coreAt k_ = s.coreAt k_ := rfl
@[simp] theorem State.fnAt_setClusAt (s : State) (i : Nat) (c : Clus) (k_ : Nat) : (s.setClusAt i c).fnAt k_ = s.fnAt k_ := rfl
@[simp] theorem State.rsvAt_setClusAt (s : State) (i : Nat) (c : Clus) (k_ : Nat) : (s.setClusAt i c).rsvAt k_ = s.rsvAt k_ := rfl
@[simp] theorem State.gangAt_setClusAt (s : State) (i : Nat) (c : Clus) (k_ : Nat) : (s.setClusAt i c).gangAt k_ = s.gangAt k_ := rfl
@[simp] theorem State.hartAt_setFnAt (s : State) (i : Nat) (x : Fn) (k_ : Nat) : (s.setFnAt i x).hartAt k_ = s.hartAt k_ := rfl
@[simp] theorem State.coreAt_setFnAt (s : State) (i : Nat) (x : Fn) (k_ : Nat) : (s.setFnAt i x).coreAt k_ = s.coreAt k_ := rfl
@[simp] theorem State.clusAt_setFnAt (s : State) (i : Nat) (x : Fn) (k_ : Nat) : (s.setFnAt i x).clusAt k_ = s.clusAt k_ := rfl
@[simp] theorem State.hartAt_setRsvAt (s : State) (i : Nat) (x : Rsv) (k_ : Nat) : (s.setRsvAt i x).hartAt k_ = s.hartAt k_ := rfl
@[simp] theorem State.coreAt_setRsvAt (s : State) (i : Nat) (x : Rsv) (k_ : Nat) : (s.setRsvAt i x).coreAt k_ = s.coreAt k_ := rfl
@[simp] theorem State.clusAt_setRsvAt (s : State) (i : Nat) (x : Rsv) (k_ : Nat) : (s.setRsvAt i x).clusAt k_ = s.clusAt k_ := rfl
@[simp] theorem State.hartAt_setGangAt (s : State) (i : Nat) (x : Gang) (k_ : Nat) : (s.setGangAt i x).hartAt k_ = s.hartAt k_ := rfl
@[simp] theorem State.coreAt_setGangAt (s : State) (i : Nat) (x : Gang) (k_ : Nat) : (s.setGangAt i x).coreAt k_ = s.coreAt k_ := rfl
@[simp] theorem State.clusAt_setGangAt (s : State) (i : Nat) (x : Gang) (k_ : Nat) : (s.setGangAt i x).clusAt k_ = s.clusAt k_ := rfl
@[simp] theorem State.coreAt_setReg (s : State) (r : BitVec 5) (v : Word) (k_ : Nat) : (s.setReg r v).coreAt k_ = s.coreAt k_ := rfl
@[simp] theorem State.clusAt_setReg (s : State) (r : BitVec 5) (v : Word) (k_ : Nat) : (s.setReg r v).clusAt k_ = s.clusAt k_ := rfl
@[simp] theorem State.fnAt_setReg (s : State) (r : BitVec 5) (v : Word) (k_ : Nat) : (s.setReg r v).fnAt k_ = s.fnAt k_ := rfl
@[simp] theorem State.rsvAt_setReg (s : State) (r : BitVec 5) (v : Word) (k_ : Nat) : (s.setReg r v).rsvAt k_ = s.rsvAt k_ := rfl
@[simp] theorem State.gangAt_setReg (s : State) (r : BitVec 5) (v : Word) (k_ : Nat) : (s.setReg r v).gangAt k_ = s.gangAt k_ := rfl
@[simp] theorem State.now_setHartAt (s : State) (i : Nat) (h : Hart) : (s.setHartAt i h).now = s.now := rfl
@[simp] theorem State.now_setHart (s : State) (h : Hart) : (s.setHart h).now = s.now := rfl
@[simp] theorem State.hart_setCoreAt (s : State) (i : Nat) (c : Core) : (s.setCoreAt i c).hart = s.hart := rfl
@[simp] theorem State.now_setCoreAt (s : State) (i : Nat) (c : Core) : (s.setCoreAt i c).now = s.now := rfl
@[simp] theorem State.hart_setCore (s : State) (c : Core) : (s.setCore c).hart = s.hart := rfl
@[simp] theorem State.now_setCore (s : State) (c : Core) : (s.setCore c).now = s.now := rfl
@[simp] theorem State.hart_setClusAt (s : State) (i : Nat) (c : Clus) : (s.setClusAt i c).hart = s.hart := rfl
@[simp] theorem State.now_setClusAt (s : State) (i : Nat) (c : Clus) : (s.setClusAt i c).now = s.now := rfl
@[simp] theorem State.hart_setFnAt (s : State) (i : Nat) (x : Fn) : (s.setFnAt i x).hart = s.hart := rfl
@[simp] theorem State.now_setFnAt (s : State) (i : Nat) (x : Fn) : (s.setFnAt i x).now = s.now := rfl
@[simp] theorem State.hart_setRsvAt (s : State) (i : Nat) (x : Rsv) : (s.setRsvAt i x).hart = s.hart := rfl
@[simp] theorem State.now_setRsvAt (s : State) (i : Nat) (x : Rsv) : (s.setRsvAt i x).now = s.now := rfl
@[simp] theorem State.hart_setGangAt (s : State) (i : Nat) (x : Gang) : (s.setGangAt i x).hart = s.hart := rfl
@[simp] theorem State.now_setGangAt (s : State) (i : Nat) (x : Gang) : (s.setGangAt i x).now = s.now := rfl
@[simp] theorem State.now_setReg (s : State) (r : BitVec 5) (v : Word) : (s.setReg r v).now = s.now := rfl
@[simp] theorem State.core_setHartAt (s : State) (i : Nat) (h : Hart) : (s.setHartAt i h).core = s.core := rfl
@[simp] theorem State.core_setHart (s : State) (h : Hart) : (s.setHart h).core = s.core := rfl
@[simp] theorem State.core_setClusAt (s : State) (i : Nat) (c : Clus) : (s.setClusAt i c).core = s.core := rfl
@[simp] theorem State.core_setFnAt (s : State) (i : Nat) (x : Fn) : (s.setFnAt i x).core = s.core := rfl
@[simp] theorem State.core_setRsvAt (s : State) (i : Nat) (x : Rsv) : (s.setRsvAt i x).core = s.core := rfl
@[simp] theorem State.core_setGangAt (s : State) (i : Nat) (x : Gang) : (s.setGangAt i x).core = s.core := rfl
@[simp] theorem State.core_setReg (s : State) (r : BitVec 5) (v : Word) : (s.setReg r v).core = s.core := rfl

/-! ### Fields of Hart after an update -/

@[simp] theorem Hart.setReg_s0 (h : Hart) (v : Word) : h.setReg 0 v = h := by simp [Hart.setReg]
@[simp] theorem Hart.reg_s0 (h : Hart) : h.reg 0 = 0 := by simp [Hart.reg]
theorem Hart.reg_setReg_same (h : Hart) {r : BitVec 5} (v : Word) (n : r ≠ 0) : (h.setReg r v).reg r = v := by
  simp only [Hart.reg, Hart.setReg, if_neg n]; simp
theorem Hart.reg_setReg_other (h : Hart) {r q : BitVec 5} (v : Word) (n : q ≠ r) : (h.setReg r v).reg q = h.reg q := by
  unfold Hart.setReg
  split
  · rfl
  · have : r.toNat ≠ q.toNat := fun e => n (BitVec.eq_of_toNat_eq e.symm)
    simp [Hart.reg, this]
@[simp] theorem Hart.setReg_run (h : Hart) (r : BitVec 5) (v : Word) : (h.setReg r v).run = h.run := by
  unfold Hart.setReg; split <;> rfl
@[simp] theorem Hart.setReg_sup (h : Hart) (r : BitVec 5) (v : Word) : (h.setReg r v).sup = h.sup := by
  unfold Hart.setReg; split <;> rfl
@[simp] theorem Hart.setReg_pc (h : Hart) (r : BitVec 5) (v : Word) : (h.setReg r v).pc = h.pc := by
  unfold Hart.setReg; split <;> rfl
@[simp] theorem Hart.setReg_surr (h : Hart) (r : BitVec 5) (v : Word) : (h.setReg r v).surr = h.surr := by
  unfold Hart.setReg; split <;> rfl
@[simp] theorem Hart.setReg_stklo (h : Hart) (r : BitVec 5) (v : Word) : (h.setReg r v).stklo = h.stklo := by
  unfold Hart.setReg; split <;> rfl
@[simp] theorem Hart.setReg_stkhi (h : Hart) (r : BitVec 5) (v : Word) : (h.setReg r v).stkhi = h.stkhi := by
  unfold Hart.setReg; split <;> rfl
@[simp] theorem Hart.setReg_tok (h : Hart) (r : BitVec 5) (v : Word) : (h.setReg r v).tok = h.tok := by
  unfold Hart.setReg; split <;> rfl
@[simp] theorem Hart.setReg_tokres (h : Hart) (r : BitVec 5) (v : Word) : (h.setReg r v).tokres = h.tokres := by
  unfold Hart.setReg; split <;> rfl
@[simp] theorem Hart.setReg_pops (h : Hart) (r : BitVec 5) (v : Word) : (h.setReg r v).pops = h.pops := by
  unfold Hart.setReg; split <;> rfl
@[simp] theorem Hart.setReg_fflags (h : Hart) (r : BitVec 5) (v : Word) : (h.setReg r v).fflags = h.fflags := by
  unfold Hart.setReg; split <;> rfl
@[simp] theorem Hart.setReg_frm (h : Hart) (r : BitVec 5) (v : Word) : (h.setReg r v).frm = h.frm := by
  unfold Hart.setReg; split <;> rfl
@[simp] theorem Hart.setReg_rkey (h : Hart) (r : BitVec 5) (v : Word) : (h.setReg r v).rkey = h.rkey := by
  unfold Hart.setReg; split <;> rfl
@[simp] theorem Hart.setReg_rstrm (h : Hart) (r : BitVec 5) (v : Word) : (h.setReg r v).rstrm = h.rstrm := by
  unfold Hart.setReg; split <;> rfl
@[simp] theorem Hart.setReg_rctr (h : Hart) (r : BitVec 5) (v : Word) : (h.setReg r v).rctr = h.rctr := by
  unfold Hart.setReg; split <;> rfl
@[simp] theorem Hart.setReg_pfxsave (h : Hart) (r : BitVec 5) (v : Word) : (h.setReg r v).pfxsave = h.pfxsave := by
  unfold Hart.setReg; split <;> rfl
@[simp] theorem Hart.setReg_pfx (h : Hart) (r : BitVec 5) (v : Word) : (h.setReg r v).pfx = h.pfx := by
  unfold Hart.setReg; split <;> rfl
@[simp] theorem Hart.setReg_wait (h : Hart) (r : BitVec 5) (v : Word) : (h.setReg r v).wait = h.wait := by
  unfold Hart.setReg; split <;> rfl
@[simp] theorem Hart.setReg_age (h : Hart) (r : BitVec 5) (v : Word) : (h.setReg r v).age = h.age := by
  unfold Hart.setReg; split <;> rfl
@[simp] theorem Hart.setReg_soon (h : Hart) (r : BitVec 5) (v : Word) : (h.setReg r v).soon = h.soon := by
  unfold Hart.setReg; split <;> rfl
@[simp] theorem Hart.setReg_throttle (h : Hart) (r : BitVec 5) (v : Word) : (h.setReg r v).throttle = h.throttle := by
  unfold Hart.setReg; split <;> rfl
@[simp] theorem Hart.setReg_throttleCnt (h : Hart) (r : BitVec 5) (v : Word) : (h.setReg r v).throttleCnt = h.throttleCnt := by
  unfold Hart.setReg; split <;> rfl
@[simp] theorem Hart.setReg_gang (h : Hart) (r : BitVec 5) (v : Word) : (h.setReg r v).gang = h.gang := by
  unfold Hart.setReg; split <;> rfl
@[simp] theorem Hart.setReg_ghart (h : Hart) (r : BitVec 5) (v : Word) : (h.setReg r v).ghart = h.ghart := by
  unfold Hart.setReg; split <;> rfl
@[simp] theorem Hart.setReg_gsize (h : Hart) (r : BitVec 5) (v : Word) : (h.setReg r v).gsize = h.gsize := by
  unfold Hart.setReg; split <;> rfl
@[simp] theorem Hart.setReg_fn (h : Hart) (r : BitVec 5) (v : Word) : (h.setReg r v).fn = h.fn := by
  unfold Hart.setReg; split <;> rfl
@[simp] theorem Hart.setReg_resv (h : Hart) (r : BitVec 5) (v : Word) : (h.setReg r v).resv = h.resv := by
  unfold Hart.setReg; split <;> rfl
@[simp] theorem Hart.setReg_rsvsel (h : Hart) (r : BitVec 5) (v : Word) : (h.setReg r v).rsvsel = h.rsvsel := by
  unfold Hart.setReg; split <;> rfl
@[simp] theorem Hart.setReg_lfunc (h : Hart) (r : BitVec 5) (v : Word) : (h.setReg r v).lfunc = h.lfunc := by
  unfold Hart.setReg; split <;> rfl
@[simp] theorem Hart.setReg_plan (h : Hart) (r : BitVec 5) (v : Word) : (h.setReg r v).plan = h.plan := by
  unfold Hart.setReg; split <;> rfl
@[simp] theorem Hart.setReg_q (h : Hart) (r : BitVec 5) (v : Word) : (h.setReg r v).q = h.q := by
  unfold Hart.setReg; split <;> rfl
@[simp] theorem Hart.setReg_c (h : Hart) (r : BitVec 5) (v : Word) : (h.setReg r v).c = h.c := by
  unfold Hart.setReg; split <;> rfl
@[simp] theorem Hart.setReg_cpcnt (h : Hart) (r : BitVec 5) (v : Word) : (h.setReg r v).cpcnt = h.cpcnt := by
  unfold Hart.setReg; split <;> rfl
@[simp] theorem Hart.setReg_cpmcs (h : Hart) (r : BitVec 5) (v : Word) : (h.setReg r v).cpmcs = h.cpmcs := by
  unfold Hart.setReg; split <;> rfl
@[simp] theorem Hart.setReg_vec (h : Hart) (r : BitVec 5) (v : Word) : (h.setReg r v).vec = h.vec := by
  unfold Hart.setReg; split <;> rfl
@[simp] theorem Hart.setReg_mshape (h : Hart) (r : BitVec 5) (v : Word) : (h.setReg r v).mshape = h.mshape := by
  unfold Hart.setReg; split <;> rfl
@[simp] theorem Hart.setReg_vq (h : Hart) (r : BitVec 5) (v : Word) : (h.setReg r v).vq = h.vq := by
  unfold Hart.setReg; split <;> rfl
@[simp] theorem Hart.setReg_mq (h : Hart) (r : BitVec 5) (v : Word) : (h.setReg r v).mq = h.mq := by
  unfold Hart.setReg; split <;> rfl
@[simp] theorem Hart.setReg_cq (h : Hart) (r : BitVec 5) (v : Word) : (h.setReg r v).cq = h.cq := by
  unfold Hart.setReg; split <;> rfl
@[simp] theorem Hart.setReg_seq (h : Hart) (r : BitVec 5) (v : Word) : (h.setReg r v).seq = h.seq := by
  unfold Hart.setReg; split <;> rfl
@[simp] theorem Hart.setReg_holdS (h : Hart) (r : BitVec 5) (v : Word) : (h.setReg r v).holdS = h.holdS := by
  unfold Hart.setReg; split <;> rfl
@[simp] theorem Hart.setReg_ss (h : Hart) (r : BitVec 5) (v : Word) : (h.setReg r v).ss = h.ss := by
  unfold Hart.setReg; split <;> rfl
@[simp] theorem Hart.setReg_pfxOld (h : Hart) (r : BitVec 5) (v : Word) : (h.setReg r v).pfxOld = h.pfxOld := by
  unfold Hart.setReg; split <;> rfl
@[simp] theorem Hart.setReg_pfxPc (h : Hart) (r : BitVec 5) (v : Word) : (h.setReg r v).pfxPc = h.pfxPc := by
  unfold Hart.setReg; split <;> rfl
@[simp] theorem Hart.setReg_tested (h : Hart) (r : BitVec 5) (v : Word) : (h.setReg r v).tested = h.tested := by
  unfold Hart.setReg; split <;> rfl
@[simp] theorem Hart.setReg_holdV (h : Hart) (r : BitVec 5) (v : Word) : (h.setReg r v).holdV = h.holdV := by
  unfold Hart.setReg; split <;> rfl
@[simp] theorem Hart.setReg_qHold (h : Hart) (r : BitVec 5) (v : Word) : (h.setReg r v).qHold = h.qHold := by
  unfold Hart.setReg; split <;> rfl
@[simp] theorem Hart.setReg_srcDl (h : Hart) (r : BitVec 5) (v : Word) : (h.setReg r v).srcDl = h.srcDl := by
  unfold Hart.setReg; split <;> rfl
@[simp] theorem Hart.setReg_bay (h : Hart) (r : BitVec 5) (v : Word) : (h.setReg r v).bay = h.bay := by
  unfold Hart.setReg; split <;> rfl
@[simp] theorem Hart.setReg_smp (h : Hart) (r : BitVec 5) (v : Word) : (h.setReg r v).smp = h.smp := by
  unfold Hart.setReg; split <;> rfl
@[simp] theorem Hart.setReg_lostUpd (h : Hart) (r : BitVec 5) (v : Word) : (h.setReg r v).lostUpd = h.lostUpd := by
  unfold Hart.setReg; split <;> rfl
@[simp] theorem Hart.setReg_hdr (h : Hart) (r : BitVec 5) (v : Word) : (h.setReg r v).hdr = h.hdr := by
  unfold Hart.setReg; split <;> rfl
@[simp] theorem Hart.setReg_post (h : Hart) (r : BitVec 5) (v : Word) : (h.setReg r v).post = h.post := by
  unfold Hart.setReg; split <;> rfl
@[simp] theorem Hart.setReg_preempt (h : Hart) (r : BitVec 5) (v : Word) : (h.setReg r v).preempt = h.preempt := by
  unfold Hart.setReg; split <;> rfl
@[simp] theorem Hart.takeTok_run (h : Hart) (n : Nat) : (h.takeTok n).run = h.run := rfl
@[simp] theorem Hart.takeTok_sup (h : Hart) (n : Nat) : (h.takeTok n).sup = h.sup := rfl
@[simp] theorem Hart.takeTok_pc (h : Hart) (n : Nat) : (h.takeTok n).pc = h.pc := rfl
@[simp] theorem Hart.takeTok_regs (h : Hart) (n : Nat) : (h.takeTok n).regs = h.regs := rfl
@[simp] theorem Hart.takeTok_surr (h : Hart) (n : Nat) : (h.takeTok n).surr = h.surr := rfl
@[simp] theorem Hart.takeTok_stklo (h : Hart) (n : Nat) : (h.takeTok n).stklo = h.stklo := rfl
@[simp] theorem Hart.takeTok_stkhi (h : Hart) (n : Nat) : (h.takeTok n).stkhi = h.stkhi := rfl
@[simp] theorem Hart.takeTok_tokres (h : Hart) (n : Nat) : (h.takeTok n).tokres = h.tokres := rfl
@[simp] theorem Hart.takeTok_pops (h : Hart) (n : Nat) :
    (h.takeTok n).pops = h.pops.setIfInBounds n (h.pops.toList.getD n 0 + 1) := rfl
@[simp] theorem Hart.takeTok_fflags (h : Hart) (n : Nat) : (h.takeTok n).fflags = h.fflags := rfl
@[simp] theorem Hart.takeTok_frm (h : Hart) (n : Nat) : (h.takeTok n).frm = h.frm := rfl
@[simp] theorem Hart.takeTok_rkey (h : Hart) (n : Nat) : (h.takeTok n).rkey = h.rkey := rfl
@[simp] theorem Hart.takeTok_rstrm (h : Hart) (n : Nat) : (h.takeTok n).rstrm = h.rstrm := rfl
@[simp] theorem Hart.takeTok_rctr (h : Hart) (n : Nat) : (h.takeTok n).rctr = h.rctr := rfl
@[simp] theorem Hart.takeTok_pfxsave (h : Hart) (n : Nat) : (h.takeTok n).pfxsave = h.pfxsave := rfl
@[simp] theorem Hart.takeTok_pfx (h : Hart) (n : Nat) : (h.takeTok n).pfx = h.pfx := rfl
@[simp] theorem Hart.takeTok_wait (h : Hart) (n : Nat) : (h.takeTok n).wait = h.wait := rfl
@[simp] theorem Hart.takeTok_age (h : Hart) (n : Nat) : (h.takeTok n).age = h.age := rfl
@[simp] theorem Hart.takeTok_soon (h : Hart) (n : Nat) : (h.takeTok n).soon = h.soon := rfl
@[simp] theorem Hart.takeTok_throttle (h : Hart) (n : Nat) : (h.takeTok n).throttle = h.throttle := rfl
@[simp] theorem Hart.takeTok_throttleCnt (h : Hart) (n : Nat) : (h.takeTok n).throttleCnt = h.throttleCnt := rfl
@[simp] theorem Hart.takeTok_gang (h : Hart) (n : Nat) : (h.takeTok n).gang = h.gang := rfl
@[simp] theorem Hart.takeTok_ghart (h : Hart) (n : Nat) : (h.takeTok n).ghart = h.ghart := rfl
@[simp] theorem Hart.takeTok_gsize (h : Hart) (n : Nat) : (h.takeTok n).gsize = h.gsize := rfl
@[simp] theorem Hart.takeTok_fn (h : Hart) (n : Nat) : (h.takeTok n).fn = h.fn := rfl
@[simp] theorem Hart.takeTok_resv (h : Hart) (n : Nat) : (h.takeTok n).resv = h.resv := rfl
@[simp] theorem Hart.takeTok_rsvsel (h : Hart) (n : Nat) : (h.takeTok n).rsvsel = h.rsvsel := rfl
@[simp] theorem Hart.takeTok_lfunc (h : Hart) (n : Nat) : (h.takeTok n).lfunc = h.lfunc := rfl
@[simp] theorem Hart.takeTok_plan (h : Hart) (n : Nat) : (h.takeTok n).plan = h.plan := rfl
@[simp] theorem Hart.takeTok_q (h : Hart) (n : Nat) : (h.takeTok n).q = h.q := rfl
@[simp] theorem Hart.takeTok_c (h : Hart) (n : Nat) : (h.takeTok n).c = h.c := rfl
@[simp] theorem Hart.takeTok_cpcnt (h : Hart) (n : Nat) : (h.takeTok n).cpcnt = h.cpcnt := rfl
@[simp] theorem Hart.takeTok_cpmcs (h : Hart) (n : Nat) : (h.takeTok n).cpmcs = h.cpmcs := rfl
@[simp] theorem Hart.takeTok_vec (h : Hart) (n : Nat) : (h.takeTok n).vec = h.vec := rfl
@[simp] theorem Hart.takeTok_mshape (h : Hart) (n : Nat) : (h.takeTok n).mshape = h.mshape := rfl
@[simp] theorem Hart.takeTok_vq (h : Hart) (n : Nat) : (h.takeTok n).vq = h.vq := rfl
@[simp] theorem Hart.takeTok_mq (h : Hart) (n : Nat) : (h.takeTok n).mq = h.mq := rfl
@[simp] theorem Hart.takeTok_cq (h : Hart) (n : Nat) : (h.takeTok n).cq = h.cq := rfl
@[simp] theorem Hart.takeTok_seq (h : Hart) (n : Nat) : (h.takeTok n).seq = h.seq := rfl
@[simp] theorem Hart.takeTok_holdS (h : Hart) (n : Nat) : (h.takeTok n).holdS = h.holdS := rfl
@[simp] theorem Hart.takeTok_ss (h : Hart) (n : Nat) : (h.takeTok n).ss = h.ss := rfl
@[simp] theorem Hart.takeTok_pfxOld (h : Hart) (n : Nat) : (h.takeTok n).pfxOld = h.pfxOld := rfl
@[simp] theorem Hart.takeTok_pfxPc (h : Hart) (n : Nat) : (h.takeTok n).pfxPc = h.pfxPc := rfl
@[simp] theorem Hart.takeTok_tested (h : Hart) (n : Nat) : (h.takeTok n).tested = h.tested := rfl
@[simp] theorem Hart.takeTok_holdV (h : Hart) (n : Nat) : (h.takeTok n).holdV = h.holdV := rfl
@[simp] theorem Hart.takeTok_qHold (h : Hart) (n : Nat) : (h.takeTok n).qHold = h.qHold := rfl
@[simp] theorem Hart.takeTok_srcDl (h : Hart) (n : Nat) : (h.takeTok n).srcDl = h.srcDl := rfl
@[simp] theorem Hart.takeTok_bay (h : Hart) (n : Nat) : (h.takeTok n).bay = h.bay := rfl
@[simp] theorem Hart.takeTok_smp (h : Hart) (n : Nat) : (h.takeTok n).smp = h.smp := rfl
@[simp] theorem Hart.takeTok_lostUpd (h : Hart) (n : Nat) : (h.takeTok n).lostUpd = h.lostUpd := rfl
@[simp] theorem Hart.takeTok_hdr (h : Hart) (n : Nat) : (h.takeTok n).hdr = h.hdr := rfl
@[simp] theorem Hart.takeTok_post (h : Hart) (n : Nat) : (h.takeTok n).post = h.post := rfl
@[simp] theorem Hart.takeTok_preempt (h : Hart) (n : Nat) : (h.takeTok n).preempt = h.preempt := rfl
@[simp] theorem Hart.reserveTok_run (h : Hart) (n : Nat) : (h.reserveTok n).run = h.run := rfl
@[simp] theorem Hart.reserveTok_sup (h : Hart) (n : Nat) : (h.reserveTok n).sup = h.sup := rfl
@[simp] theorem Hart.reserveTok_pc (h : Hart) (n : Nat) : (h.reserveTok n).pc = h.pc := rfl
@[simp] theorem Hart.reserveTok_regs (h : Hart) (n : Nat) : (h.reserveTok n).regs = h.regs := rfl
@[simp] theorem Hart.reserveTok_surr (h : Hart) (n : Nat) : (h.reserveTok n).surr = h.surr := rfl
@[simp] theorem Hart.reserveTok_stklo (h : Hart) (n : Nat) : (h.reserveTok n).stklo = h.stklo := rfl
@[simp] theorem Hart.reserveTok_stkhi (h : Hart) (n : Nat) : (h.reserveTok n).stkhi = h.stkhi := rfl
@[simp] theorem Hart.reserveTok_tok (h : Hart) (n : Nat) : (h.reserveTok n).tok = h.tok := rfl
@[simp] theorem Hart.reserveTok_fflags (h : Hart) (n : Nat) : (h.reserveTok n).fflags = h.fflags := rfl
@[simp] theorem Hart.reserveTok_frm (h : Hart) (n : Nat) : (h.reserveTok n).frm = h.frm := rfl
@[simp] theorem Hart.reserveTok_rkey (h : Hart) (n : Nat) : (h.reserveTok n).rkey = h.rkey := rfl
@[simp] theorem Hart.reserveTok_rstrm (h : Hart) (n : Nat) : (h.reserveTok n).rstrm = h.rstrm := rfl
@[simp] theorem Hart.reserveTok_rctr (h : Hart) (n : Nat) : (h.reserveTok n).rctr = h.rctr := rfl
@[simp] theorem Hart.reserveTok_pfxsave (h : Hart) (n : Nat) : (h.reserveTok n).pfxsave = h.pfxsave := rfl
@[simp] theorem Hart.reserveTok_pfx (h : Hart) (n : Nat) : (h.reserveTok n).pfx = h.pfx := rfl
@[simp] theorem Hart.reserveTok_wait (h : Hart) (n : Nat) : (h.reserveTok n).wait = h.wait := rfl
@[simp] theorem Hart.reserveTok_age (h : Hart) (n : Nat) : (h.reserveTok n).age = h.age := rfl
@[simp] theorem Hart.reserveTok_soon (h : Hart) (n : Nat) : (h.reserveTok n).soon = h.soon := rfl
@[simp] theorem Hart.reserveTok_throttle (h : Hart) (n : Nat) : (h.reserveTok n).throttle = h.throttle := rfl
@[simp] theorem Hart.reserveTok_throttleCnt (h : Hart) (n : Nat) : (h.reserveTok n).throttleCnt = h.throttleCnt := rfl
@[simp] theorem Hart.reserveTok_gang (h : Hart) (n : Nat) : (h.reserveTok n).gang = h.gang := rfl
@[simp] theorem Hart.reserveTok_ghart (h : Hart) (n : Nat) : (h.reserveTok n).ghart = h.ghart := rfl
@[simp] theorem Hart.reserveTok_gsize (h : Hart) (n : Nat) : (h.reserveTok n).gsize = h.gsize := rfl
@[simp] theorem Hart.reserveTok_fn (h : Hart) (n : Nat) : (h.reserveTok n).fn = h.fn := rfl
@[simp] theorem Hart.reserveTok_resv (h : Hart) (n : Nat) : (h.reserveTok n).resv = h.resv := rfl
@[simp] theorem Hart.reserveTok_rsvsel (h : Hart) (n : Nat) : (h.reserveTok n).rsvsel = h.rsvsel := rfl
@[simp] theorem Hart.reserveTok_lfunc (h : Hart) (n : Nat) : (h.reserveTok n).lfunc = h.lfunc := rfl
@[simp] theorem Hart.reserveTok_plan (h : Hart) (n : Nat) : (h.reserveTok n).plan = h.plan := rfl
@[simp] theorem Hart.reserveTok_q (h : Hart) (n : Nat) : (h.reserveTok n).q = h.q := rfl
@[simp] theorem Hart.reserveTok_c (h : Hart) (n : Nat) : (h.reserveTok n).c = h.c := rfl
@[simp] theorem Hart.reserveTok_cpcnt (h : Hart) (n : Nat) : (h.reserveTok n).cpcnt = h.cpcnt := rfl
@[simp] theorem Hart.reserveTok_cpmcs (h : Hart) (n : Nat) : (h.reserveTok n).cpmcs = h.cpmcs := rfl
@[simp] theorem Hart.reserveTok_vec (h : Hart) (n : Nat) : (h.reserveTok n).vec = h.vec := rfl
@[simp] theorem Hart.reserveTok_mshape (h : Hart) (n : Nat) : (h.reserveTok n).mshape = h.mshape := rfl
@[simp] theorem Hart.reserveTok_vq (h : Hart) (n : Nat) : (h.reserveTok n).vq = h.vq := rfl
@[simp] theorem Hart.reserveTok_mq (h : Hart) (n : Nat) : (h.reserveTok n).mq = h.mq := rfl
@[simp] theorem Hart.reserveTok_cq (h : Hart) (n : Nat) : (h.reserveTok n).cq = h.cq := rfl
@[simp] theorem Hart.reserveTok_seq (h : Hart) (n : Nat) : (h.reserveTok n).seq = h.seq := rfl
@[simp] theorem Hart.reserveTok_holdS (h : Hart) (n : Nat) : (h.reserveTok n).holdS = h.holdS := rfl
@[simp] theorem Hart.reserveTok_ss (h : Hart) (n : Nat) : (h.reserveTok n).ss = h.ss := rfl
@[simp] theorem Hart.reserveTok_pfxOld (h : Hart) (n : Nat) : (h.reserveTok n).pfxOld = h.pfxOld := rfl
@[simp] theorem Hart.reserveTok_pfxPc (h : Hart) (n : Nat) : (h.reserveTok n).pfxPc = h.pfxPc := rfl
@[simp] theorem Hart.reserveTok_tested (h : Hart) (n : Nat) : (h.reserveTok n).tested = h.tested := rfl
@[simp] theorem Hart.reserveTok_holdV (h : Hart) (n : Nat) : (h.reserveTok n).holdV = h.holdV := rfl
@[simp] theorem Hart.reserveTok_qHold (h : Hart) (n : Nat) : (h.reserveTok n).qHold = h.qHold := rfl
@[simp] theorem Hart.reserveTok_srcDl (h : Hart) (n : Nat) : (h.reserveTok n).srcDl = h.srcDl := rfl
@[simp] theorem Hart.reserveTok_bay (h : Hart) (n : Nat) : (h.reserveTok n).bay = h.bay := rfl
@[simp] theorem Hart.reserveTok_smp (h : Hart) (n : Nat) : (h.reserveTok n).smp = h.smp := rfl
@[simp] theorem Hart.reserveTok_lostUpd (h : Hart) (n : Nat) : (h.reserveTok n).lostUpd = h.lostUpd := rfl
@[simp] theorem Hart.reserveTok_hdr (h : Hart) (n : Nat) : (h.reserveTok n).hdr = h.hdr := rfl
@[simp] theorem Hart.reserveTok_post (h : Hart) (n : Nat) : (h.reserveTok n).post = h.post := rfl
@[simp] theorem Hart.reserveTok_preempt (h : Hart) (n : Nat) : (h.reserveTok n).preempt = h.preempt := rfl
@[simp] theorem Hart.unreserveTok_run (h : Hart) (n : Nat) : (h.unreserveTok n).run = h.run := rfl
@[simp] theorem Hart.unreserveTok_sup (h : Hart) (n : Nat) : (h.unreserveTok n).sup = h.sup := rfl
@[simp] theorem Hart.unreserveTok_pc (h : Hart) (n : Nat) : (h.unreserveTok n).pc = h.pc := rfl
@[simp] theorem Hart.unreserveTok_regs (h : Hart) (n : Nat) : (h.unreserveTok n).regs = h.regs := rfl
@[simp] theorem Hart.unreserveTok_surr (h : Hart) (n : Nat) : (h.unreserveTok n).surr = h.surr := rfl
@[simp] theorem Hart.unreserveTok_stklo (h : Hart) (n : Nat) : (h.unreserveTok n).stklo = h.stklo := rfl
@[simp] theorem Hart.unreserveTok_stkhi (h : Hart) (n : Nat) : (h.unreserveTok n).stkhi = h.stkhi := rfl
@[simp] theorem Hart.unreserveTok_tok (h : Hart) (n : Nat) : (h.unreserveTok n).tok = h.tok := rfl
@[simp] theorem Hart.unreserveTok_fflags (h : Hart) (n : Nat) : (h.unreserveTok n).fflags = h.fflags := rfl
@[simp] theorem Hart.unreserveTok_frm (h : Hart) (n : Nat) : (h.unreserveTok n).frm = h.frm := rfl
@[simp] theorem Hart.unreserveTok_rkey (h : Hart) (n : Nat) : (h.unreserveTok n).rkey = h.rkey := rfl
@[simp] theorem Hart.unreserveTok_rstrm (h : Hart) (n : Nat) : (h.unreserveTok n).rstrm = h.rstrm := rfl
@[simp] theorem Hart.unreserveTok_rctr (h : Hart) (n : Nat) : (h.unreserveTok n).rctr = h.rctr := rfl
@[simp] theorem Hart.unreserveTok_pfxsave (h : Hart) (n : Nat) : (h.unreserveTok n).pfxsave = h.pfxsave := rfl
@[simp] theorem Hart.unreserveTok_pfx (h : Hart) (n : Nat) : (h.unreserveTok n).pfx = h.pfx := rfl
@[simp] theorem Hart.unreserveTok_wait (h : Hart) (n : Nat) : (h.unreserveTok n).wait = h.wait := rfl
@[simp] theorem Hart.unreserveTok_age (h : Hart) (n : Nat) : (h.unreserveTok n).age = h.age := rfl
@[simp] theorem Hart.unreserveTok_soon (h : Hart) (n : Nat) : (h.unreserveTok n).soon = h.soon := rfl
@[simp] theorem Hart.unreserveTok_throttle (h : Hart) (n : Nat) : (h.unreserveTok n).throttle = h.throttle := rfl
@[simp] theorem Hart.unreserveTok_throttleCnt (h : Hart) (n : Nat) : (h.unreserveTok n).throttleCnt = h.throttleCnt := rfl
@[simp] theorem Hart.unreserveTok_gang (h : Hart) (n : Nat) : (h.unreserveTok n).gang = h.gang := rfl
@[simp] theorem Hart.unreserveTok_ghart (h : Hart) (n : Nat) : (h.unreserveTok n).ghart = h.ghart := rfl
@[simp] theorem Hart.unreserveTok_gsize (h : Hart) (n : Nat) : (h.unreserveTok n).gsize = h.gsize := rfl
@[simp] theorem Hart.unreserveTok_fn (h : Hart) (n : Nat) : (h.unreserveTok n).fn = h.fn := rfl
@[simp] theorem Hart.unreserveTok_resv (h : Hart) (n : Nat) : (h.unreserveTok n).resv = h.resv := rfl
@[simp] theorem Hart.unreserveTok_rsvsel (h : Hart) (n : Nat) : (h.unreserveTok n).rsvsel = h.rsvsel := rfl
@[simp] theorem Hart.unreserveTok_lfunc (h : Hart) (n : Nat) : (h.unreserveTok n).lfunc = h.lfunc := rfl
@[simp] theorem Hart.unreserveTok_plan (h : Hart) (n : Nat) : (h.unreserveTok n).plan = h.plan := rfl
@[simp] theorem Hart.unreserveTok_q (h : Hart) (n : Nat) : (h.unreserveTok n).q = h.q := rfl
@[simp] theorem Hart.unreserveTok_c (h : Hart) (n : Nat) : (h.unreserveTok n).c = h.c := rfl
@[simp] theorem Hart.unreserveTok_cpcnt (h : Hart) (n : Nat) : (h.unreserveTok n).cpcnt = h.cpcnt := rfl
@[simp] theorem Hart.unreserveTok_cpmcs (h : Hart) (n : Nat) : (h.unreserveTok n).cpmcs = h.cpmcs := rfl
@[simp] theorem Hart.unreserveTok_vec (h : Hart) (n : Nat) : (h.unreserveTok n).vec = h.vec := rfl
@[simp] theorem Hart.unreserveTok_mshape (h : Hart) (n : Nat) : (h.unreserveTok n).mshape = h.mshape := rfl
@[simp] theorem Hart.unreserveTok_vq (h : Hart) (n : Nat) : (h.unreserveTok n).vq = h.vq := rfl
@[simp] theorem Hart.unreserveTok_mq (h : Hart) (n : Nat) : (h.unreserveTok n).mq = h.mq := rfl
@[simp] theorem Hart.unreserveTok_cq (h : Hart) (n : Nat) : (h.unreserveTok n).cq = h.cq := rfl
@[simp] theorem Hart.unreserveTok_seq (h : Hart) (n : Nat) : (h.unreserveTok n).seq = h.seq := rfl
@[simp] theorem Hart.unreserveTok_holdS (h : Hart) (n : Nat) : (h.unreserveTok n).holdS = h.holdS := rfl
@[simp] theorem Hart.unreserveTok_ss (h : Hart) (n : Nat) : (h.unreserveTok n).ss = h.ss := rfl
@[simp] theorem Hart.unreserveTok_pfxOld (h : Hart) (n : Nat) : (h.unreserveTok n).pfxOld = h.pfxOld := rfl
@[simp] theorem Hart.unreserveTok_pfxPc (h : Hart) (n : Nat) : (h.unreserveTok n).pfxPc = h.pfxPc := rfl
@[simp] theorem Hart.unreserveTok_tested (h : Hart) (n : Nat) : (h.unreserveTok n).tested = h.tested := rfl
@[simp] theorem Hart.unreserveTok_holdV (h : Hart) (n : Nat) : (h.unreserveTok n).holdV = h.holdV := rfl
@[simp] theorem Hart.unreserveTok_qHold (h : Hart) (n : Nat) : (h.unreserveTok n).qHold = h.qHold := rfl
@[simp] theorem Hart.unreserveTok_srcDl (h : Hart) (n : Nat) : (h.unreserveTok n).srcDl = h.srcDl := rfl
@[simp] theorem Hart.unreserveTok_bay (h : Hart) (n : Nat) : (h.unreserveTok n).bay = h.bay := rfl
@[simp] theorem Hart.unreserveTok_smp (h : Hart) (n : Nat) : (h.unreserveTok n).smp = h.smp := rfl
@[simp] theorem Hart.unreserveTok_lostUpd (h : Hart) (n : Nat) : (h.unreserveTok n).lostUpd = h.lostUpd := rfl
@[simp] theorem Hart.unreserveTok_hdr (h : Hart) (n : Nat) : (h.unreserveTok n).hdr = h.hdr := rfl
@[simp] theorem Hart.unreserveTok_post (h : Hart) (n : Nat) : (h.unreserveTok n).post = h.post := rfl
@[simp] theorem Hart.unreserveTok_preempt (h : Hart) (n : Nat) : (h.unreserveTok n).preempt = h.preempt := rfl
@[simp] theorem Hart.depositTok_run (h : Hart) (n : Nat) : (h.depositTok n).run = h.run := rfl
@[simp] theorem Hart.depositTok_sup (h : Hart) (n : Nat) : (h.depositTok n).sup = h.sup := rfl
@[simp] theorem Hart.depositTok_pc (h : Hart) (n : Nat) : (h.depositTok n).pc = h.pc := rfl
@[simp] theorem Hart.depositTok_regs (h : Hart) (n : Nat) : (h.depositTok n).regs = h.regs := rfl
@[simp] theorem Hart.depositTok_surr (h : Hart) (n : Nat) : (h.depositTok n).surr = h.surr := rfl
@[simp] theorem Hart.depositTok_stklo (h : Hart) (n : Nat) : (h.depositTok n).stklo = h.stklo := rfl
@[simp] theorem Hart.depositTok_stkhi (h : Hart) (n : Nat) : (h.depositTok n).stkhi = h.stkhi := rfl
@[simp] theorem Hart.depositTok_fflags (h : Hart) (n : Nat) : (h.depositTok n).fflags = h.fflags := rfl
@[simp] theorem Hart.depositTok_frm (h : Hart) (n : Nat) : (h.depositTok n).frm = h.frm := rfl
@[simp] theorem Hart.depositTok_rkey (h : Hart) (n : Nat) : (h.depositTok n).rkey = h.rkey := rfl
@[simp] theorem Hart.depositTok_rstrm (h : Hart) (n : Nat) : (h.depositTok n).rstrm = h.rstrm := rfl
@[simp] theorem Hart.depositTok_rctr (h : Hart) (n : Nat) : (h.depositTok n).rctr = h.rctr := rfl
@[simp] theorem Hart.depositTok_pfxsave (h : Hart) (n : Nat) : (h.depositTok n).pfxsave = h.pfxsave := rfl
@[simp] theorem Hart.depositTok_pfx (h : Hart) (n : Nat) : (h.depositTok n).pfx = h.pfx := rfl
@[simp] theorem Hart.depositTok_wait (h : Hart) (n : Nat) : (h.depositTok n).wait = h.wait := rfl
@[simp] theorem Hart.depositTok_age (h : Hart) (n : Nat) : (h.depositTok n).age = h.age := rfl
@[simp] theorem Hart.depositTok_soon (h : Hart) (n : Nat) : (h.depositTok n).soon = h.soon := rfl
@[simp] theorem Hart.depositTok_throttle (h : Hart) (n : Nat) : (h.depositTok n).throttle = h.throttle := rfl
@[simp] theorem Hart.depositTok_throttleCnt (h : Hart) (n : Nat) : (h.depositTok n).throttleCnt = h.throttleCnt := rfl
@[simp] theorem Hart.depositTok_gang (h : Hart) (n : Nat) : (h.depositTok n).gang = h.gang := rfl
@[simp] theorem Hart.depositTok_ghart (h : Hart) (n : Nat) : (h.depositTok n).ghart = h.ghart := rfl
@[simp] theorem Hart.depositTok_gsize (h : Hart) (n : Nat) : (h.depositTok n).gsize = h.gsize := rfl
@[simp] theorem Hart.depositTok_fn (h : Hart) (n : Nat) : (h.depositTok n).fn = h.fn := rfl
@[simp] theorem Hart.depositTok_resv (h : Hart) (n : Nat) : (h.depositTok n).resv = h.resv := rfl
@[simp] theorem Hart.depositTok_rsvsel (h : Hart) (n : Nat) : (h.depositTok n).rsvsel = h.rsvsel := rfl
@[simp] theorem Hart.depositTok_lfunc (h : Hart) (n : Nat) : (h.depositTok n).lfunc = h.lfunc := rfl
@[simp] theorem Hart.depositTok_plan (h : Hart) (n : Nat) : (h.depositTok n).plan = h.plan := rfl
@[simp] theorem Hart.depositTok_q (h : Hart) (n : Nat) : (h.depositTok n).q = h.q := rfl
@[simp] theorem Hart.depositTok_c (h : Hart) (n : Nat) : (h.depositTok n).c = h.c := rfl
@[simp] theorem Hart.depositTok_cpcnt (h : Hart) (n : Nat) : (h.depositTok n).cpcnt = h.cpcnt := rfl
@[simp] theorem Hart.depositTok_cpmcs (h : Hart) (n : Nat) : (h.depositTok n).cpmcs = h.cpmcs := rfl
@[simp] theorem Hart.depositTok_vec (h : Hart) (n : Nat) : (h.depositTok n).vec = h.vec := rfl
@[simp] theorem Hart.depositTok_mshape (h : Hart) (n : Nat) : (h.depositTok n).mshape = h.mshape := rfl
@[simp] theorem Hart.depositTok_vq (h : Hart) (n : Nat) : (h.depositTok n).vq = h.vq := rfl
@[simp] theorem Hart.depositTok_mq (h : Hart) (n : Nat) : (h.depositTok n).mq = h.mq := rfl
@[simp] theorem Hart.depositTok_cq (h : Hart) (n : Nat) : (h.depositTok n).cq = h.cq := rfl
@[simp] theorem Hart.depositTok_seq (h : Hart) (n : Nat) : (h.depositTok n).seq = h.seq := rfl
@[simp] theorem Hart.depositTok_holdS (h : Hart) (n : Nat) : (h.depositTok n).holdS = h.holdS := rfl
@[simp] theorem Hart.depositTok_ss (h : Hart) (n : Nat) : (h.depositTok n).ss = h.ss := rfl
@[simp] theorem Hart.depositTok_pfxOld (h : Hart) (n : Nat) : (h.depositTok n).pfxOld = h.pfxOld := rfl
@[simp] theorem Hart.depositTok_pfxPc (h : Hart) (n : Nat) : (h.depositTok n).pfxPc = h.pfxPc := rfl
@[simp] theorem Hart.depositTok_tested (h : Hart) (n : Nat) : (h.depositTok n).tested = h.tested := rfl
@[simp] theorem Hart.depositTok_holdV (h : Hart) (n : Nat) : (h.depositTok n).holdV = h.holdV := rfl
@[simp] theorem Hart.depositTok_qHold (h : Hart) (n : Nat) : (h.depositTok n).qHold = h.qHold := rfl
@[simp] theorem Hart.depositTok_srcDl (h : Hart) (n : Nat) : (h.depositTok n).srcDl = h.srcDl := rfl
@[simp] theorem Hart.depositTok_bay (h : Hart) (n : Nat) : (h.depositTok n).bay = h.bay := rfl
@[simp] theorem Hart.depositTok_smp (h : Hart) (n : Nat) : (h.depositTok n).smp = h.smp := rfl
@[simp] theorem Hart.depositTok_lostUpd (h : Hart) (n : Nat) : (h.depositTok n).lostUpd = h.lostUpd := rfl
@[simp] theorem Hart.depositTok_hdr (h : Hart) (n : Nat) : (h.depositTok n).hdr = h.hdr := rfl
@[simp] theorem Hart.depositTok_post (h : Hart) (n : Nat) : (h.depositTok n).post = h.post := rfl
@[simp] theorem Hart.depositTok_preempt (h : Hart) (n : Nat) : (h.depositTok n).preempt = h.preempt := rfl
@[simp] theorem Hart.deposit_run (h : Hart) (p : Nat) : (h.deposit p).run = h.run := by
  unfold Hart.deposit; split <;> rfl
@[simp] theorem Hart.deposit_sup (h : Hart) (p : Nat) : (h.deposit p).sup = h.sup := by
  unfold Hart.deposit; split <;> rfl
@[simp] theorem Hart.deposit_pc (h : Hart) (p : Nat) : (h.deposit p).pc = h.pc := by
  unfold Hart.deposit; split <;> rfl
@[simp] theorem Hart.deposit_regs (h : Hart) (p : Nat) : (h.deposit p).regs = h.regs := by
  unfold Hart.deposit; split <;> rfl
@[simp] theorem Hart.deposit_surr (h : Hart) (p : Nat) : (h.deposit p).surr = h.surr := by
  unfold Hart.deposit; split <;> rfl
@[simp] theorem Hart.deposit_stklo (h : Hart) (p : Nat) : (h.deposit p).stklo = h.stklo := by
  unfold Hart.deposit; split <;> rfl
@[simp] theorem Hart.deposit_stkhi (h : Hart) (p : Nat) : (h.deposit p).stkhi = h.stkhi := by
  unfold Hart.deposit; split <;> rfl
@[simp] theorem Hart.deposit_fflags (h : Hart) (p : Nat) : (h.deposit p).fflags = h.fflags := by
  unfold Hart.deposit; split <;> rfl
@[simp] theorem Hart.deposit_frm (h : Hart) (p : Nat) : (h.deposit p).frm = h.frm := by
  unfold Hart.deposit; split <;> rfl
@[simp] theorem Hart.deposit_rkey (h : Hart) (p : Nat) : (h.deposit p).rkey = h.rkey := by
  unfold Hart.deposit; split <;> rfl
@[simp] theorem Hart.deposit_rstrm (h : Hart) (p : Nat) : (h.deposit p).rstrm = h.rstrm := by
  unfold Hart.deposit; split <;> rfl
@[simp] theorem Hart.deposit_rctr (h : Hart) (p : Nat) : (h.deposit p).rctr = h.rctr := by
  unfold Hart.deposit; split <;> rfl
@[simp] theorem Hart.deposit_pfxsave (h : Hart) (p : Nat) : (h.deposit p).pfxsave = h.pfxsave := by
  unfold Hart.deposit; split <;> rfl
@[simp] theorem Hart.deposit_pfx (h : Hart) (p : Nat) : (h.deposit p).pfx = h.pfx := by
  unfold Hart.deposit; split <;> rfl
@[simp] theorem Hart.deposit_wait (h : Hart) (p : Nat) : (h.deposit p).wait = h.wait := by
  unfold Hart.deposit; split <;> rfl
@[simp] theorem Hart.deposit_age (h : Hart) (p : Nat) : (h.deposit p).age = h.age := by
  unfold Hart.deposit; split <;> rfl
@[simp] theorem Hart.deposit_soon (h : Hart) (p : Nat) : (h.deposit p).soon = h.soon := by
  unfold Hart.deposit; split <;> rfl
@[simp] theorem Hart.deposit_throttle (h : Hart) (p : Nat) : (h.deposit p).throttle = h.throttle := by
  unfold Hart.deposit; split <;> rfl
@[simp] theorem Hart.deposit_throttleCnt (h : Hart) (p : Nat) : (h.deposit p).throttleCnt = h.throttleCnt := by
  unfold Hart.deposit; split <;> rfl
@[simp] theorem Hart.deposit_gang (h : Hart) (p : Nat) : (h.deposit p).gang = h.gang := by
  unfold Hart.deposit; split <;> rfl
@[simp] theorem Hart.deposit_ghart (h : Hart) (p : Nat) : (h.deposit p).ghart = h.ghart := by
  unfold Hart.deposit; split <;> rfl
@[simp] theorem Hart.deposit_gsize (h : Hart) (p : Nat) : (h.deposit p).gsize = h.gsize := by
  unfold Hart.deposit; split <;> rfl
@[simp] theorem Hart.deposit_fn (h : Hart) (p : Nat) : (h.deposit p).fn = h.fn := by
  unfold Hart.deposit; split <;> rfl
@[simp] theorem Hart.deposit_resv (h : Hart) (p : Nat) : (h.deposit p).resv = h.resv := by
  unfold Hart.deposit; split <;> rfl
@[simp] theorem Hart.deposit_rsvsel (h : Hart) (p : Nat) : (h.deposit p).rsvsel = h.rsvsel := by
  unfold Hart.deposit; split <;> rfl
@[simp] theorem Hart.deposit_lfunc (h : Hart) (p : Nat) : (h.deposit p).lfunc = h.lfunc := by
  unfold Hart.deposit; split <;> rfl
@[simp] theorem Hart.deposit_plan (h : Hart) (p : Nat) : (h.deposit p).plan = h.plan := by
  unfold Hart.deposit; split <;> rfl
@[simp] theorem Hart.deposit_q (h : Hart) (p : Nat) : (h.deposit p).q = h.q := by
  unfold Hart.deposit; split <;> rfl
@[simp] theorem Hart.deposit_c (h : Hart) (p : Nat) : (h.deposit p).c = h.c := by
  unfold Hart.deposit; split <;> rfl
@[simp] theorem Hart.deposit_cpcnt (h : Hart) (p : Nat) : (h.deposit p).cpcnt = h.cpcnt := by
  unfold Hart.deposit; split <;> rfl
@[simp] theorem Hart.deposit_cpmcs (h : Hart) (p : Nat) : (h.deposit p).cpmcs = h.cpmcs := by
  unfold Hart.deposit; split <;> rfl
@[simp] theorem Hart.deposit_vec (h : Hart) (p : Nat) : (h.deposit p).vec = h.vec := by
  unfold Hart.deposit; split <;> rfl
@[simp] theorem Hart.deposit_mshape (h : Hart) (p : Nat) : (h.deposit p).mshape = h.mshape := by
  unfold Hart.deposit; split <;> rfl
@[simp] theorem Hart.deposit_vq (h : Hart) (p : Nat) : (h.deposit p).vq = h.vq := by
  unfold Hart.deposit; split <;> rfl
@[simp] theorem Hart.deposit_mq (h : Hart) (p : Nat) : (h.deposit p).mq = h.mq := by
  unfold Hart.deposit; split <;> rfl
@[simp] theorem Hart.deposit_cq (h : Hart) (p : Nat) : (h.deposit p).cq = h.cq := by
  unfold Hart.deposit; split <;> rfl
@[simp] theorem Hart.deposit_seq (h : Hart) (p : Nat) : (h.deposit p).seq = h.seq := by
  unfold Hart.deposit; split <;> rfl
@[simp] theorem Hart.deposit_holdS (h : Hart) (p : Nat) : (h.deposit p).holdS = h.holdS := by
  unfold Hart.deposit; split <;> rfl
@[simp] theorem Hart.deposit_ss (h : Hart) (p : Nat) : (h.deposit p).ss = h.ss := by
  unfold Hart.deposit; split <;> rfl
@[simp] theorem Hart.deposit_pfxOld (h : Hart) (p : Nat) : (h.deposit p).pfxOld = h.pfxOld := by
  unfold Hart.deposit; split <;> rfl
@[simp] theorem Hart.deposit_pfxPc (h : Hart) (p : Nat) : (h.deposit p).pfxPc = h.pfxPc := by
  unfold Hart.deposit; split <;> rfl
@[simp] theorem Hart.deposit_tested (h : Hart) (p : Nat) : (h.deposit p).tested = h.tested := by
  unfold Hart.deposit; split <;> rfl
@[simp] theorem Hart.deposit_holdV (h : Hart) (p : Nat) : (h.deposit p).holdV = h.holdV := by
  unfold Hart.deposit; split <;> rfl
@[simp] theorem Hart.deposit_qHold (h : Hart) (p : Nat) : (h.deposit p).qHold = h.qHold := by
  unfold Hart.deposit; split <;> rfl
@[simp] theorem Hart.deposit_srcDl (h : Hart) (p : Nat) : (h.deposit p).srcDl = h.srcDl := by
  unfold Hart.deposit; split <;> rfl
@[simp] theorem Hart.deposit_bay (h : Hart) (p : Nat) : (h.deposit p).bay = h.bay := by
  unfold Hart.deposit; split <;> rfl
@[simp] theorem Hart.deposit_smp (h : Hart) (p : Nat) : (h.deposit p).smp = h.smp := by
  unfold Hart.deposit; split <;> rfl
@[simp] theorem Hart.deposit_lostUpd (h : Hart) (p : Nat) : (h.deposit p).lostUpd = h.lostUpd := by
  unfold Hart.deposit; split <;> rfl
@[simp] theorem Hart.deposit_hdr (h : Hart) (p : Nat) : (h.deposit p).hdr = h.hdr := by
  unfold Hart.deposit; split <;> rfl
@[simp] theorem Hart.deposit_post (h : Hart) (p : Nat) : (h.deposit p).post = h.post := by
  unfold Hart.deposit; split <;> rfl
@[simp] theorem Hart.deposit_preempt (h : Hart) (p : Nat) : (h.deposit p).preempt = h.preempt := by
  unfold Hart.deposit; split <;> rfl
@[simp] theorem Hart.unreserve_run (h : Hart) (p : Nat) : (h.unreserve p).run = h.run := by
  unfold Hart.unreserve; split <;> rfl
@[simp] theorem Hart.unreserve_sup (h : Hart) (p : Nat) : (h.unreserve p).sup = h.sup := by
  unfold Hart.unreserve; split <;> rfl
@[simp] theorem Hart.unreserve_pc (h : Hart) (p : Nat) : (h.unreserve p).pc = h.pc := by
  unfold Hart.unreserve; split <;> rfl
@[simp] theorem Hart.unreserve_regs (h : Hart) (p : Nat) : (h.unreserve p).regs = h.regs := by
  unfold Hart.unreserve; split <;> rfl
@[simp] theorem Hart.unreserve_surr (h : Hart) (p : Nat) : (h.unreserve p).surr = h.surr := by
  unfold Hart.unreserve; split <;> rfl
@[simp] theorem Hart.unreserve_stklo (h : Hart) (p : Nat) : (h.unreserve p).stklo = h.stklo := by
  unfold Hart.unreserve; split <;> rfl
@[simp] theorem Hart.unreserve_stkhi (h : Hart) (p : Nat) : (h.unreserve p).stkhi = h.stkhi := by
  unfold Hart.unreserve; split <;> rfl
@[simp] theorem Hart.unreserve_tok (h : Hart) (p : Nat) : (h.unreserve p).tok = h.tok := by
  unfold Hart.unreserve; split <;> rfl
@[simp] theorem Hart.unreserve_fflags (h : Hart) (p : Nat) : (h.unreserve p).fflags = h.fflags := by
  unfold Hart.unreserve; split <;> rfl
@[simp] theorem Hart.unreserve_frm (h : Hart) (p : Nat) : (h.unreserve p).frm = h.frm := by
  unfold Hart.unreserve; split <;> rfl
@[simp] theorem Hart.unreserve_rkey (h : Hart) (p : Nat) : (h.unreserve p).rkey = h.rkey := by
  unfold Hart.unreserve; split <;> rfl
@[simp] theorem Hart.unreserve_rstrm (h : Hart) (p : Nat) : (h.unreserve p).rstrm = h.rstrm := by
  unfold Hart.unreserve; split <;> rfl
@[simp] theorem Hart.unreserve_rctr (h : Hart) (p : Nat) : (h.unreserve p).rctr = h.rctr := by
  unfold Hart.unreserve; split <;> rfl
@[simp] theorem Hart.unreserve_pfxsave (h : Hart) (p : Nat) : (h.unreserve p).pfxsave = h.pfxsave := by
  unfold Hart.unreserve; split <;> rfl
@[simp] theorem Hart.unreserve_pfx (h : Hart) (p : Nat) : (h.unreserve p).pfx = h.pfx := by
  unfold Hart.unreserve; split <;> rfl
@[simp] theorem Hart.unreserve_wait (h : Hart) (p : Nat) : (h.unreserve p).wait = h.wait := by
  unfold Hart.unreserve; split <;> rfl
@[simp] theorem Hart.unreserve_age (h : Hart) (p : Nat) : (h.unreserve p).age = h.age := by
  unfold Hart.unreserve; split <;> rfl
@[simp] theorem Hart.unreserve_soon (h : Hart) (p : Nat) : (h.unreserve p).soon = h.soon := by
  unfold Hart.unreserve; split <;> rfl
@[simp] theorem Hart.unreserve_throttle (h : Hart) (p : Nat) : (h.unreserve p).throttle = h.throttle := by
  unfold Hart.unreserve; split <;> rfl
@[simp] theorem Hart.unreserve_throttleCnt (h : Hart) (p : Nat) : (h.unreserve p).throttleCnt = h.throttleCnt := by
  unfold Hart.unreserve; split <;> rfl
@[simp] theorem Hart.unreserve_gang (h : Hart) (p : Nat) : (h.unreserve p).gang = h.gang := by
  unfold Hart.unreserve; split <;> rfl
@[simp] theorem Hart.unreserve_ghart (h : Hart) (p : Nat) : (h.unreserve p).ghart = h.ghart := by
  unfold Hart.unreserve; split <;> rfl
@[simp] theorem Hart.unreserve_gsize (h : Hart) (p : Nat) : (h.unreserve p).gsize = h.gsize := by
  unfold Hart.unreserve; split <;> rfl
@[simp] theorem Hart.unreserve_fn (h : Hart) (p : Nat) : (h.unreserve p).fn = h.fn := by
  unfold Hart.unreserve; split <;> rfl
@[simp] theorem Hart.unreserve_resv (h : Hart) (p : Nat) : (h.unreserve p).resv = h.resv := by
  unfold Hart.unreserve; split <;> rfl
@[simp] theorem Hart.unreserve_rsvsel (h : Hart) (p : Nat) : (h.unreserve p).rsvsel = h.rsvsel := by
  unfold Hart.unreserve; split <;> rfl
@[simp] theorem Hart.unreserve_lfunc (h : Hart) (p : Nat) : (h.unreserve p).lfunc = h.lfunc := by
  unfold Hart.unreserve; split <;> rfl
@[simp] theorem Hart.unreserve_plan (h : Hart) (p : Nat) : (h.unreserve p).plan = h.plan := by
  unfold Hart.unreserve; split <;> rfl
@[simp] theorem Hart.unreserve_q (h : Hart) (p : Nat) : (h.unreserve p).q = h.q := by
  unfold Hart.unreserve; split <;> rfl
@[simp] theorem Hart.unreserve_c (h : Hart) (p : Nat) : (h.unreserve p).c = h.c := by
  unfold Hart.unreserve; split <;> rfl
@[simp] theorem Hart.unreserve_cpcnt (h : Hart) (p : Nat) : (h.unreserve p).cpcnt = h.cpcnt := by
  unfold Hart.unreserve; split <;> rfl
@[simp] theorem Hart.unreserve_cpmcs (h : Hart) (p : Nat) : (h.unreserve p).cpmcs = h.cpmcs := by
  unfold Hart.unreserve; split <;> rfl
@[simp] theorem Hart.unreserve_vec (h : Hart) (p : Nat) : (h.unreserve p).vec = h.vec := by
  unfold Hart.unreserve; split <;> rfl
@[simp] theorem Hart.unreserve_mshape (h : Hart) (p : Nat) : (h.unreserve p).mshape = h.mshape := by
  unfold Hart.unreserve; split <;> rfl
@[simp] theorem Hart.unreserve_vq (h : Hart) (p : Nat) : (h.unreserve p).vq = h.vq := by
  unfold Hart.unreserve; split <;> rfl
@[simp] theorem Hart.unreserve_mq (h : Hart) (p : Nat) : (h.unreserve p).mq = h.mq := by
  unfold Hart.unreserve; split <;> rfl
@[simp] theorem Hart.unreserve_cq (h : Hart) (p : Nat) : (h.unreserve p).cq = h.cq := by
  unfold Hart.unreserve; split <;> rfl
@[simp] theorem Hart.unreserve_seq (h : Hart) (p : Nat) : (h.unreserve p).seq = h.seq := by
  unfold Hart.unreserve; split <;> rfl
@[simp] theorem Hart.unreserve_holdS (h : Hart) (p : Nat) : (h.unreserve p).holdS = h.holdS := by
  unfold Hart.unreserve; split <;> rfl
@[simp] theorem Hart.unreserve_ss (h : Hart) (p : Nat) : (h.unreserve p).ss = h.ss := by
  unfold Hart.unreserve; split <;> rfl
@[simp] theorem Hart.unreserve_pfxOld (h : Hart) (p : Nat) : (h.unreserve p).pfxOld = h.pfxOld := by
  unfold Hart.unreserve; split <;> rfl
@[simp] theorem Hart.unreserve_pfxPc (h : Hart) (p : Nat) : (h.unreserve p).pfxPc = h.pfxPc := by
  unfold Hart.unreserve; split <;> rfl
@[simp] theorem Hart.unreserve_tested (h : Hart) (p : Nat) : (h.unreserve p).tested = h.tested := by
  unfold Hart.unreserve; split <;> rfl
@[simp] theorem Hart.unreserve_holdV (h : Hart) (p : Nat) : (h.unreserve p).holdV = h.holdV := by
  unfold Hart.unreserve; split <;> rfl
@[simp] theorem Hart.unreserve_qHold (h : Hart) (p : Nat) : (h.unreserve p).qHold = h.qHold := by
  unfold Hart.unreserve; split <;> rfl
@[simp] theorem Hart.unreserve_srcDl (h : Hart) (p : Nat) : (h.unreserve p).srcDl = h.srcDl := by
  unfold Hart.unreserve; split <;> rfl
@[simp] theorem Hart.unreserve_bay (h : Hart) (p : Nat) : (h.unreserve p).bay = h.bay := by
  unfold Hart.unreserve; split <;> rfl
@[simp] theorem Hart.unreserve_smp (h : Hart) (p : Nat) : (h.unreserve p).smp = h.smp := by
  unfold Hart.unreserve; split <;> rfl
@[simp] theorem Hart.unreserve_lostUpd (h : Hart) (p : Nat) : (h.unreserve p).lostUpd = h.lostUpd := by
  unfold Hart.unreserve; split <;> rfl
@[simp] theorem Hart.unreserve_hdr (h : Hart) (p : Nat) : (h.unreserve p).hdr = h.hdr := by
  unfold Hart.unreserve; split <;> rfl
@[simp] theorem Hart.unreserve_post (h : Hart) (p : Nat) : (h.unreserve p).post = h.post := by
  unfold Hart.unreserve; split <;> rfl
@[simp] theorem Hart.unreserve_preempt (h : Hart) (p : Nat) : (h.unreserve p).preempt = h.preempt := by
  unfold Hart.unreserve; split <;> rfl
@[simp] theorem Hart.count_run (h : Hart) (n : Nat) : (h.count n).run = h.run := by
  unfold Hart.count; split <;> rfl
@[simp] theorem Hart.count_sup (h : Hart) (n : Nat) : (h.count n).sup = h.sup := by
  unfold Hart.count; split <;> rfl
@[simp] theorem Hart.count_pc (h : Hart) (n : Nat) : (h.count n).pc = h.pc := by
  unfold Hart.count; split <;> rfl
@[simp] theorem Hart.count_regs (h : Hart) (n : Nat) : (h.count n).regs = h.regs := by
  unfold Hart.count; split <;> rfl
@[simp] theorem Hart.count_surr (h : Hart) (n : Nat) : (h.count n).surr = h.surr := by
  unfold Hart.count; split <;> rfl
@[simp] theorem Hart.count_stklo (h : Hart) (n : Nat) : (h.count n).stklo = h.stklo := by
  unfold Hart.count; split <;> rfl
@[simp] theorem Hart.count_stkhi (h : Hart) (n : Nat) : (h.count n).stkhi = h.stkhi := by
  unfold Hart.count; split <;> rfl
@[simp] theorem Hart.count_tok (h : Hart) (n : Nat) : (h.count n).tok = h.tok := by
  unfold Hart.count; split <;> rfl
@[simp] theorem Hart.count_tokres (h : Hart) (n : Nat) : (h.count n).tokres = h.tokres := by
  unfold Hart.count; split <;> rfl
@[simp] theorem Hart.count_pops (h : Hart) (n : Nat) : (h.count n).pops = h.pops := by
  unfold Hart.count; split <;> rfl
@[simp] theorem Hart.count_fflags (h : Hart) (n : Nat) : (h.count n).fflags = h.fflags := by
  unfold Hart.count; split <;> rfl
@[simp] theorem Hart.count_frm (h : Hart) (n : Nat) : (h.count n).frm = h.frm := by
  unfold Hart.count; split <;> rfl
@[simp] theorem Hart.count_rkey (h : Hart) (n : Nat) : (h.count n).rkey = h.rkey := by
  unfold Hart.count; split <;> rfl
@[simp] theorem Hart.count_rstrm (h : Hart) (n : Nat) : (h.count n).rstrm = h.rstrm := by
  unfold Hart.count; split <;> rfl
@[simp] theorem Hart.count_rctr (h : Hart) (n : Nat) : (h.count n).rctr = h.rctr := by
  unfold Hart.count; split <;> rfl
@[simp] theorem Hart.count_pfxsave (h : Hart) (n : Nat) : (h.count n).pfxsave = h.pfxsave := by
  unfold Hart.count; split <;> rfl
@[simp] theorem Hart.count_pfx (h : Hart) (n : Nat) : (h.count n).pfx = h.pfx := by
  unfold Hart.count; split <;> rfl
@[simp] theorem Hart.count_wait (h : Hart) (n : Nat) : (h.count n).wait = h.wait := by
  unfold Hart.count; split <;> rfl
@[simp] theorem Hart.count_age (h : Hart) (n : Nat) : (h.count n).age = h.age := by
  unfold Hart.count; split <;> rfl
@[simp] theorem Hart.count_soon (h : Hart) (n : Nat) : (h.count n).soon = h.soon := by
  unfold Hart.count; split <;> rfl
@[simp] theorem Hart.count_throttle (h : Hart) (n : Nat) : (h.count n).throttle = h.throttle := by
  unfold Hart.count; split <;> rfl
@[simp] theorem Hart.count_throttleCnt (h : Hart) (n : Nat) : (h.count n).throttleCnt = h.throttleCnt := by
  unfold Hart.count; split <;> rfl
@[simp] theorem Hart.count_gang (h : Hart) (n : Nat) : (h.count n).gang = h.gang := by
  unfold Hart.count; split <;> rfl
@[simp] theorem Hart.count_ghart (h : Hart) (n : Nat) : (h.count n).ghart = h.ghart := by
  unfold Hart.count; split <;> rfl
@[simp] theorem Hart.count_gsize (h : Hart) (n : Nat) : (h.count n).gsize = h.gsize := by
  unfold Hart.count; split <;> rfl
@[simp] theorem Hart.count_fn (h : Hart) (n : Nat) : (h.count n).fn = h.fn := by
  unfold Hart.count; split <;> rfl
@[simp] theorem Hart.count_resv (h : Hart) (n : Nat) : (h.count n).resv = h.resv := by
  unfold Hart.count; split <;> rfl
@[simp] theorem Hart.count_rsvsel (h : Hart) (n : Nat) : (h.count n).rsvsel = h.rsvsel := by
  unfold Hart.count; split <;> rfl
@[simp] theorem Hart.count_lfunc (h : Hart) (n : Nat) : (h.count n).lfunc = h.lfunc := by
  unfold Hart.count; split <;> rfl
@[simp] theorem Hart.count_plan (h : Hart) (n : Nat) : (h.count n).plan = h.plan := by
  unfold Hart.count; split <;> rfl
@[simp] theorem Hart.count_q (h : Hart) (n : Nat) : (h.count n).q = h.q := by
  unfold Hart.count; split <;> rfl
@[simp] theorem Hart.count_c (h : Hart) (n : Nat) : (h.count n).c = h.c := by
  unfold Hart.count; split <;> rfl
@[simp] theorem Hart.count_cpcnt (h : Hart) (n : Nat) : (h.count n).cpcnt = h.cpcnt := by
  unfold Hart.count; split <;> rfl
@[simp] theorem Hart.count_cpmcs (h : Hart) (n : Nat) : (h.count n).cpmcs = h.cpmcs := by
  unfold Hart.count; split <;> rfl
@[simp] theorem Hart.count_vec (h : Hart) (n : Nat) : (h.count n).vec = h.vec := by
  unfold Hart.count; split <;> rfl
@[simp] theorem Hart.count_mshape (h : Hart) (n : Nat) : (h.count n).mshape = h.mshape := by
  unfold Hart.count; split <;> rfl
@[simp] theorem Hart.count_vq (h : Hart) (n : Nat) : (h.count n).vq = h.vq := by
  unfold Hart.count; split <;> rfl
@[simp] theorem Hart.count_mq (h : Hart) (n : Nat) : (h.count n).mq = h.mq := by
  unfold Hart.count; split <;> rfl
@[simp] theorem Hart.count_cq (h : Hart) (n : Nat) : (h.count n).cq = h.cq := by
  unfold Hart.count; split <;> rfl
@[simp] theorem Hart.count_seq (h : Hart) (n : Nat) : (h.count n).seq = h.seq := by
  unfold Hart.count; split <;> rfl
@[simp] theorem Hart.count_holdS (h : Hart) (n : Nat) : (h.count n).holdS = h.holdS := by
  unfold Hart.count; split <;> rfl
@[simp] theorem Hart.count_ss (h : Hart) (n : Nat) : (h.count n).ss = h.ss := by
  unfold Hart.count; split <;> rfl
@[simp] theorem Hart.count_pfxOld (h : Hart) (n : Nat) : (h.count n).pfxOld = h.pfxOld := by
  unfold Hart.count; split <;> rfl
@[simp] theorem Hart.count_pfxPc (h : Hart) (n : Nat) : (h.count n).pfxPc = h.pfxPc := by
  unfold Hart.count; split <;> rfl
@[simp] theorem Hart.count_tested (h : Hart) (n : Nat) : (h.count n).tested = h.tested := by
  unfold Hart.count; split <;> rfl
@[simp] theorem Hart.count_holdV (h : Hart) (n : Nat) : (h.count n).holdV = h.holdV := by
  unfold Hart.count; split <;> rfl
@[simp] theorem Hart.count_qHold (h : Hart) (n : Nat) : (h.count n).qHold = h.qHold := by
  unfold Hart.count; split <;> rfl
@[simp] theorem Hart.count_srcDl (h : Hart) (n : Nat) : (h.count n).srcDl = h.srcDl := by
  unfold Hart.count; split <;> rfl
@[simp] theorem Hart.count_smp (h : Hart) (n : Nat) : (h.count n).smp = h.smp := by
  unfold Hart.count; split <;> rfl
@[simp] theorem Hart.count_lostUpd (h : Hart) (n : Nat) : (h.count n).lostUpd = h.lostUpd := by
  unfold Hart.count; split <;> rfl
@[simp] theorem Hart.count_hdr (h : Hart) (n : Nat) : (h.count n).hdr = h.hdr := by
  unfold Hart.count; split <;> rfl
@[simp] theorem Hart.count_post (h : Hart) (n : Nat) : (h.count n).post = h.post := by
  unfold Hart.count; split <;> rfl
@[simp] theorem Hart.count_preempt (h : Hart) (n : Nat) : (h.count n).preempt = h.preempt := by
  unfold Hart.count; split <;> rfl
@[simp] theorem Hart.retireTo_run (h : Hart) (p : Word) : (h.retireTo p).run = h.run := by
  simp [Hart.retireTo]
@[simp] theorem Hart.advance_run (h : Hart) : h.advance.run = h.run := by
  simp [Hart.advance]
@[simp] theorem Hart.retireTo_sup (h : Hart) (p : Word) : (h.retireTo p).sup = h.sup := by
  simp [Hart.retireTo]
@[simp] theorem Hart.advance_sup (h : Hart) : h.advance.sup = h.sup := by
  simp [Hart.advance]
@[simp] theorem Hart.retireTo_regs (h : Hart) (p : Word) : (h.retireTo p).regs = h.regs := by
  simp [Hart.retireTo]
@[simp] theorem Hart.advance_regs (h : Hart) : h.advance.regs = h.regs := by
  simp [Hart.advance]
@[simp] theorem Hart.retireTo_surr (h : Hart) (p : Word) : (h.retireTo p).surr = h.surr := by
  simp [Hart.retireTo]
@[simp] theorem Hart.advance_surr (h : Hart) : h.advance.surr = h.surr := by
  simp [Hart.advance]
@[simp] theorem Hart.retireTo_stklo (h : Hart) (p : Word) : (h.retireTo p).stklo = h.stklo := by
  simp [Hart.retireTo]
@[simp] theorem Hart.advance_stklo (h : Hart) : h.advance.stklo = h.stklo := by
  simp [Hart.advance]
@[simp] theorem Hart.retireTo_stkhi (h : Hart) (p : Word) : (h.retireTo p).stkhi = h.stkhi := by
  simp [Hart.retireTo]
@[simp] theorem Hart.advance_stkhi (h : Hart) : h.advance.stkhi = h.stkhi := by
  simp [Hart.advance]
@[simp] theorem Hart.retireTo_tok (h : Hart) (p : Word) : (h.retireTo p).tok = h.tok := by
  simp [Hart.retireTo]
@[simp] theorem Hart.advance_tok (h : Hart) : h.advance.tok = h.tok := by
  simp [Hart.advance]
@[simp] theorem Hart.retireTo_tokres (h : Hart) (p : Word) : (h.retireTo p).tokres = h.tokres := by
  simp [Hart.retireTo]
@[simp] theorem Hart.retireTo_pops (h : Hart) (p : Word) : (h.retireTo p).pops = h.pops := by
  simp [Hart.retireTo]
@[simp] theorem Hart.advance_tokres (h : Hart) : h.advance.tokres = h.tokres := by
  simp [Hart.advance]
@[simp] theorem Hart.advance_pops (h : Hart) : h.advance.pops = h.pops := by
  simp [Hart.advance]
@[simp] theorem Hart.retireTo_fflags (h : Hart) (p : Word) : (h.retireTo p).fflags = h.fflags := by
  simp [Hart.retireTo]
@[simp] theorem Hart.advance_fflags (h : Hart) : h.advance.fflags = h.fflags := by
  simp [Hart.advance]
@[simp] theorem Hart.retireTo_frm (h : Hart) (p : Word) : (h.retireTo p).frm = h.frm := by
  simp [Hart.retireTo]
@[simp] theorem Hart.advance_frm (h : Hart) : h.advance.frm = h.frm := by
  simp [Hart.advance]
@[simp] theorem Hart.retireTo_rkey (h : Hart) (p : Word) : (h.retireTo p).rkey = h.rkey := by
  simp [Hart.retireTo]
@[simp] theorem Hart.advance_rkey (h : Hart) : h.advance.rkey = h.rkey := by
  simp [Hart.advance]
@[simp] theorem Hart.retireTo_rstrm (h : Hart) (p : Word) : (h.retireTo p).rstrm = h.rstrm := by
  simp [Hart.retireTo]
@[simp] theorem Hart.advance_rstrm (h : Hart) : h.advance.rstrm = h.rstrm := by
  simp [Hart.advance]
@[simp] theorem Hart.retireTo_rctr (h : Hart) (p : Word) : (h.retireTo p).rctr = h.rctr := by
  simp [Hart.retireTo]
@[simp] theorem Hart.advance_rctr (h : Hart) : h.advance.rctr = h.rctr := by
  simp [Hart.advance]
@[simp] theorem Hart.retireTo_pfxsave (h : Hart) (p : Word) : (h.retireTo p).pfxsave = h.pfxsave := by
  simp [Hart.retireTo]
@[simp] theorem Hart.advance_pfxsave (h : Hart) : h.advance.pfxsave = h.pfxsave := by
  simp [Hart.advance]
@[simp] theorem Hart.retireTo_age (h : Hart) (p : Word) : (h.retireTo p).age = h.age := by
  simp [Hart.retireTo]
@[simp] theorem Hart.advance_age (h : Hart) : h.advance.age = h.age := by
  simp [Hart.advance]
@[simp] theorem Hart.retireTo_soon (h : Hart) (p : Word) : (h.retireTo p).soon = h.soon := by
  simp [Hart.retireTo]
@[simp] theorem Hart.advance_soon (h : Hart) : h.advance.soon = h.soon := by
  simp [Hart.advance]
@[simp] theorem Hart.retireTo_throttle (h : Hart) (p : Word) : (h.retireTo p).throttle = h.throttle := by
  simp [Hart.retireTo]
@[simp] theorem Hart.advance_throttle (h : Hart) : h.advance.throttle = h.throttle := by
  simp [Hart.advance]
@[simp] theorem Hart.retireTo_throttleCnt (h : Hart) (p : Word) : (h.retireTo p).throttleCnt = h.throttleCnt := by
  simp [Hart.retireTo]
@[simp] theorem Hart.advance_throttleCnt (h : Hart) : h.advance.throttleCnt = h.throttleCnt := by
  simp [Hart.advance]
@[simp] theorem Hart.retireTo_gang (h : Hart) (p : Word) : (h.retireTo p).gang = h.gang := by
  simp [Hart.retireTo]
@[simp] theorem Hart.advance_gang (h : Hart) : h.advance.gang = h.gang := by
  simp [Hart.advance]
@[simp] theorem Hart.retireTo_ghart (h : Hart) (p : Word) : (h.retireTo p).ghart = h.ghart := by
  simp [Hart.retireTo]
@[simp] theorem Hart.advance_ghart (h : Hart) : h.advance.ghart = h.ghart := by
  simp [Hart.advance]
@[simp] theorem Hart.retireTo_gsize (h : Hart) (p : Word) : (h.retireTo p).gsize = h.gsize := by
  simp [Hart.retireTo]
@[simp] theorem Hart.advance_gsize (h : Hart) : h.advance.gsize = h.gsize := by
  simp [Hart.advance]
@[simp] theorem Hart.retireTo_fn (h : Hart) (p : Word) : (h.retireTo p).fn = h.fn := by
  simp [Hart.retireTo]
@[simp] theorem Hart.advance_fn (h : Hart) : h.advance.fn = h.fn := by
  simp [Hart.advance]
@[simp] theorem Hart.retireTo_resv (h : Hart) (p : Word) : (h.retireTo p).resv = h.resv := by
  simp [Hart.retireTo]
@[simp] theorem Hart.advance_resv (h : Hart) : h.advance.resv = h.resv := by
  simp [Hart.advance]
@[simp] theorem Hart.retireTo_rsvsel (h : Hart) (p : Word) : (h.retireTo p).rsvsel = h.rsvsel := by
  simp [Hart.retireTo]
@[simp] theorem Hart.advance_rsvsel (h : Hart) : h.advance.rsvsel = h.rsvsel := by
  simp [Hart.advance]
@[simp] theorem Hart.retireTo_lfunc (h : Hart) (p : Word) : (h.retireTo p).lfunc = h.lfunc := by
  simp [Hart.retireTo]
@[simp] theorem Hart.advance_lfunc (h : Hart) : h.advance.lfunc = h.lfunc := by
  simp [Hart.advance]
@[simp] theorem Hart.retireTo_plan (h : Hart) (p : Word) : (h.retireTo p).plan = h.plan := by
  simp [Hart.retireTo]
@[simp] theorem Hart.advance_plan (h : Hart) : h.advance.plan = h.plan := by
  simp [Hart.advance]
@[simp] theorem Hart.retireTo_q (h : Hart) (p : Word) : (h.retireTo p).q = h.q := by
  simp [Hart.retireTo]
@[simp] theorem Hart.advance_q (h : Hart) : h.advance.q = h.q := by
  simp [Hart.advance]
@[simp] theorem Hart.retireTo_c (h : Hart) (p : Word) : (h.retireTo p).c = h.c := by
  simp [Hart.retireTo]
@[simp] theorem Hart.advance_c (h : Hart) : h.advance.c = h.c := by
  simp [Hart.advance]
@[simp] theorem Hart.retireTo_cpcnt (h : Hart) (p : Word) : (h.retireTo p).cpcnt = h.cpcnt := by
  simp [Hart.retireTo]
@[simp] theorem Hart.advance_cpcnt (h : Hart) : h.advance.cpcnt = h.cpcnt := by
  simp [Hart.advance]
@[simp] theorem Hart.retireTo_cpmcs (h : Hart) (p : Word) : (h.retireTo p).cpmcs = h.cpmcs := by
  simp [Hart.retireTo]
@[simp] theorem Hart.advance_cpmcs (h : Hart) : h.advance.cpmcs = h.cpmcs := by
  simp [Hart.advance]
@[simp] theorem Hart.retireTo_vec (h : Hart) (p : Word) : (h.retireTo p).vec = h.vec := by
  simp [Hart.retireTo]
@[simp] theorem Hart.advance_vec (h : Hart) : h.advance.vec = h.vec := by
  simp [Hart.advance]
@[simp] theorem Hart.retireTo_mshape (h : Hart) (p : Word) : (h.retireTo p).mshape = h.mshape := by
  simp [Hart.retireTo]
@[simp] theorem Hart.advance_mshape (h : Hart) : h.advance.mshape = h.mshape := by
  simp [Hart.advance]
@[simp] theorem Hart.retireTo_vq (h : Hart) (p : Word) : (h.retireTo p).vq = h.vq := by
  simp [Hart.retireTo]
@[simp] theorem Hart.advance_vq (h : Hart) : h.advance.vq = h.vq := by
  simp [Hart.advance]
@[simp] theorem Hart.retireTo_mq (h : Hart) (p : Word) : (h.retireTo p).mq = h.mq := by
  simp [Hart.retireTo]
@[simp] theorem Hart.advance_mq (h : Hart) : h.advance.mq = h.mq := by
  simp [Hart.advance]
@[simp] theorem Hart.retireTo_cq (h : Hart) (p : Word) : (h.retireTo p).cq = h.cq := by
  simp [Hart.retireTo]
@[simp] theorem Hart.advance_cq (h : Hart) : h.advance.cq = h.cq := by
  simp [Hart.advance]
@[simp] theorem Hart.retireTo_seq (h : Hart) (p : Word) : (h.retireTo p).seq = h.seq := by
  simp [Hart.retireTo]
@[simp] theorem Hart.advance_seq (h : Hart) : h.advance.seq = h.seq := by
  simp [Hart.advance]
@[simp] theorem Hart.retireTo_holdS (h : Hart) (p : Word) : (h.retireTo p).holdS = h.holdS := by
  simp [Hart.retireTo]
@[simp] theorem Hart.advance_holdS (h : Hart) : h.advance.holdS = h.holdS := by
  simp [Hart.advance]
@[simp] theorem Hart.retireTo_ss (h : Hart) (p : Word) : (h.retireTo p).ss = h.ss := by
  simp [Hart.retireTo]
@[simp] theorem Hart.retireTo_pfxOld (h : Hart) (p : Word) : (h.retireTo p).pfxOld = h.pfxOld := by
  simp [Hart.retireTo]
@[simp] theorem Hart.retireTo_pfxPc (h : Hart) (p : Word) : (h.retireTo p).pfxPc = h.pfxPc := by
  simp [Hart.retireTo]
@[simp] theorem Hart.retireTo_tested (h : Hart) (p : Word) : (h.retireTo p).tested = h.tested := by
  simp [Hart.retireTo]
@[simp] theorem Hart.retireTo_holdV (h : Hart) (p : Word) : (h.retireTo p).holdV = h.holdV := by
  simp [Hart.retireTo]
@[simp] theorem Hart.retireTo_qHold (h : Hart) (p : Word) : (h.retireTo p).qHold = h.qHold := by
  simp [Hart.retireTo]
@[simp] theorem Hart.retireTo_srcDl (h : Hart) (p : Word) : (h.retireTo p).srcDl = h.srcDl := by
  simp [Hart.retireTo]
@[simp] theorem Hart.advance_ss (h : Hart) : h.advance.ss = h.ss := by
  simp [Hart.advance]
@[simp] theorem Hart.advance_pfxOld (h : Hart) : h.advance.pfxOld = h.pfxOld := by
  simp [Hart.advance]
@[simp] theorem Hart.advance_pfxPc (h : Hart) : h.advance.pfxPc = h.pfxPc := by
  simp [Hart.advance]
@[simp] theorem Hart.advance_tested (h : Hart) : h.advance.tested = h.tested := by
  simp [Hart.advance]
@[simp] theorem Hart.advance_holdV (h : Hart) : h.advance.holdV = h.holdV := by
  simp [Hart.advance]
@[simp] theorem Hart.advance_qHold (h : Hart) : h.advance.qHold = h.qHold := by
  simp [Hart.advance]
@[simp] theorem Hart.advance_srcDl (h : Hart) : h.advance.srcDl = h.srcDl := by
  simp [Hart.advance]
@[simp] theorem Hart.retireTo_smp (h : Hart) (p : Word) : (h.retireTo p).smp = h.smp := by
  simp [Hart.retireTo]
@[simp] theorem Hart.advance_smp (h : Hart) : h.advance.smp = h.smp := by
  simp [Hart.advance]
@[simp] theorem Hart.retireTo_lostUpd (h : Hart) (p : Word) : (h.retireTo p).lostUpd = h.lostUpd := by
  simp [Hart.retireTo]
@[simp] theorem Hart.advance_lostUpd (h : Hart) : h.advance.lostUpd = h.lostUpd := by
  simp [Hart.advance]
@[simp] theorem Hart.retireTo_hdr (h : Hart) (p : Word) : (h.retireTo p).hdr = h.hdr := by
  simp [Hart.retireTo]
@[simp] theorem Hart.advance_hdr (h : Hart) : h.advance.hdr = h.hdr := by
  simp [Hart.advance]
@[simp] theorem Hart.retireTo_post (h : Hart) (p : Word) : (h.retireTo p).post = h.post := by
  simp [Hart.retireTo]
@[simp] theorem Hart.advance_post (h : Hart) : h.advance.post = h.post := by
  simp [Hart.advance]
@[simp] theorem Hart.retireTo_preempt (h : Hart) (p : Word) : (h.retireTo p).preempt = h.preempt := by
  simp [Hart.retireTo]
@[simp] theorem Hart.advance_preempt (h : Hart) : h.advance.preempt = h.preempt := by
  simp [Hart.advance]
@[simp] theorem Hart.retireTo_pc (h : Hart) (p : Word) : (h.retireTo p).pc = p := rfl
@[simp] theorem Hart.retireTo_pfx (h : Hart) (p : Word) : (h.retireTo p).pfx = none := rfl
@[simp] theorem Hart.retireTo_wait (h : Hart) (p : Word) : (h.retireTo p).wait = none := rfl
@[simp] theorem Hart.advance_pc (h : Hart) : h.advance.pc = (h.pc + 4) &&& pcMask := rfl
@[simp] theorem Hart.advance_pfx (h : Hart) : h.advance.pfx = none := rfl
@[simp] theorem Hart.advance_wait (h : Hart) : h.advance.wait = none := rfl
theorem Hart.reg_of_regs {h k : Hart} (e : h.regs = k.regs) (r : BitVec 5) : h.reg r = k.reg r := by simp [Hart.reg, e]
@[simp] theorem Hart.reg_advance (h : Hart) (r : BitVec 5) : h.advance.reg r = h.reg r := Hart.reg_of_regs (by simp) r
@[simp] theorem Hart.reg_retireTo (h : Hart) (p : Word) (r : BitVec 5) : (h.retireTo p).reg r = h.reg r :=
  Hart.reg_of_regs (by simp) r
@[simp] theorem Hart.reg_deposit (h : Hart) (p : Nat) (r : BitVec 5) : (h.deposit p).reg r = h.reg r :=
  Hart.reg_of_regs (by simp) r
@[simp] theorem Hart.reg_takeTok (h : Hart) (p : Nat) (r : BitVec 5) : (h.takeTok p).reg r = h.reg r := rfl
@[simp] theorem Hart.reg_reserveTok (h : Hart) (p : Nat) (r : BitVec 5) : (h.reserveTok p).reg r = h.reg r := rfl

end Machine
end Sys2Proof
end

