-- ==== Sys2Proof/Laws/Ops.lean ====
section
/-! SUPPORT. The shared frames of instructions: once what each does when its prefix fits, cited instead of unfolding. -/

namespace Sys2Proof.Machine

theorem Hart.fits_misuse {h : Hart} {e : Eng} {a b : Bool} (f : h.prefixFits e a b = true) :
    (match h.pfx with | some (w, _) => pfxMisuse w e a b | none => false) = false := by
  unfold Hart.prefixFits at f
  cases hp : h.pfx with
  | none => rfl
  | some p => simp [hp] at f ⊢; exact f.1.1

theorem Hart.fits_pop {h : Hart} {e : Eng} {a b : Bool} (f : h.prefixFits e a b = true) :
    (popOf h.pfx != 0 && h.tokens (popOf h.pfx) == 0) = false := by
  simp only [Hart.prefixFits, Bool.and_eq_true, Bool.or_eq_true, beq_iff_eq, bne_iff_ne] at f
  rcases f.1.2 with h1 | h1 <;> simp [h1]

theorem Hart.fits_push {h : Hart} {e : Eng} {a b : Bool} (f : h.prefixFits e a b = true) :
    (pushOf h.pfx != 0 && h.fullTok (pushOf h.pfx)) = false := by
  simp only [Hart.prefixFits, Bool.and_eq_true, Bool.or_eq_true, beq_iff_eq] at f
  rcases f.2 with h1 | h1
  · simp [h1]
  · simp at h1; simp [h1]

/-- What the frame of a sequencer instruction does when its prefix fits (R35, R62). -/
theorem State.frame_fits {s : State} (body : State → Except Stop (State × After))
    (f : s.hart.prefixFits .s false false = true) :
    s.frame none none body =
      match body s.begun with
      | .error (.trap t) =>
        s.popped.trapSeq t
      | .error (.wait w) => s.waitFor w
      | .ok (t, .park w) => t.setHart { t.hart with wait := some { kind := w, since := s.time } }
      | .ok (t, .queue) => t.setHart t.hart.advance
      | .ok (t, .retire) => t.retired (pushOf s.hart.pfx) := by
  have no {b : Bool} (h : b = false) : ¬b = true := by simp [h]
  unfold State.frame
  refine (if_neg (no (Hart.fits_misuse f))).trans ?_
  refine (if_neg (no (Hart.fits_pop f))).trans ?_
  exact if_neg (no (Hart.fits_push f))

theorem State.frame_retire {s t : State} {body : State → Except Stop (State × After)}
    (f : s.hart.prefixFits .s false false = true) (b : body s.begun = .ok (t, .retire)) :
    s.frame none none body = t.retired (pushOf s.hart.pfx) := by
  rw [State.frame_fits body f, b]

theorem State.frame_park {s t : State} {w : Wait} {body : State → Except Stop (State × After)}
    (f : s.hart.prefixFits .s false false = true) (b : body s.begun = .ok (t, .park w)) :
    s.frame none none body = t.setHart { t.hart with wait := some { kind := w, since := s.time } } := by
  rw [State.frame_fits body f, b]

theorem State.sequencer_ok {s t : State} {body : State → Except Stop State}
    (f : s.hart.prefixFits .s false false = true) (b : body s.begun = .ok t) :
    s.sequencer none none body = t.retired (pushOf s.hart.pfx) := by
  unfold State.sequencer
  rw [State.frame_retire f (t := t)]
  simp [b]

theorem State.simple_fits {s : State} (g : State → State) (f : s.hart.prefixFits .s false false = true) :
    s.simple g = (g s.begun).retired (pushOf s.hart.pfx) := State.sequencer_ok f rfl

/-- A cause found before the prefix is looked at (R88). -/
theorem State.frame_early (s : State) (c : BitVec 8) (late : Option (BitVec 8)) (body : State → Except Stop (State × After)) :
    s.frame (some c) late body = s.trapSeq ⟨c, 0⟩ := rfl

/-- A hart with no access in stream S that can still trap goes back nowhere. -/
theorem Hart.rollBack_settled {h : Hart} (n : h.unsettled = false) : h.rollBack = h := by
  have e : ∀ l : List SAcc, l.any SAcc.risky = false → l.dropWhile (fun x => !x.risky) = [] := by
    intro l
    induction l with
    | nil => intro _; rfl
    | cons x t ih =>
      intro a
      obtain ⟨a1, a2⟩ := Bool.or_eq_false_iff.mp a
      rw [List.dropWhile_cons, a1]
      exact ih a2
  unfold Hart.rollBack
  rw [e h.ss n]

/-- Where no access in stream S can still trap, no token taken keeps its slot: a FIFO's slots are those of its tokens and of the
pushes reserved (R35). -/
theorem Hart.slotsTaken_settled {h : Hart} (n : h.unsettled = false) (id : Nat) :
    h.slotsTaken id = h.tokens id + h.reserved id := by
  have e : ∀ l : List SAcc, l.any SAcc.risky = false → l.findSome? (fun x => x.back) = none := by
    intro l
    induction l with
    | nil => intro _; rfl
    | cons x t ih =>
      intro a
      obtain ⟨a1, a2⟩ := Bool.or_eq_false_iff.mp a
      have b : x.back = none := by simpa [SAcc.risky] using a1
      rw [List.findSome?_cons, b]
      exact ih a2
  simp [Hart.slotsTaken, Hart.heldToks, e h.ss n]
theorem Hart.fullTok_settled {h : Hart} (n : h.unsettled = false) (id : Nat) :
    h.fullTok id = decide (Config.qdtok ≤ h.tokens id + h.reserved id) := by
  rw [Hart.fullTok, Hart.slotsTaken_settled n]
/-- Where no access can still trap, no entry stands behind one. -/
theorem Hart.behind_settled {h : Hart} (n : h.unsettled = false) (en : Entry) : h.behind en = false := by
  have e : h.ss.find? SAcc.risky = none := by
    rw [List.find?_eq_none]
    intro x m
    have := List.any_eq_false.mp n x m
    simpa using this
  simp [Hart.behind, e]

/-- The frame of an instruction that takes no prefix, where there is none and its body completes (R62). -/
theorem State.bare_ok {s t : State} {body : State → Except Stop State} (p : s.hart.pfx = none) (b : body s = .ok t) :
    s.bare none none body = t := by
  simp [State.bare, p, b]

/-- An instruction that takes no prefix raises cause 0x03 after one (R62). -/
theorem State.bare_prefixed {s : State} {late : Option (BitVec 8)} {body : State → Except Stop State}
    (p : s.hart.pfx.isSome = true) : s.bare none late body = s.trapSeq ⟨0x03, 0⟩ := by
  simp [State.bare, p]

/-! ### The state a sequencer instruction starts from -/

@[simp] theorem State.begun_time (s : State) : s.begun.time = s.time := by
  unfold State.begun State.popped State.afterPop; simp only []; split <;> split <;> rfl
@[simp] theorem State.begun_cur (s : State) : s.begun.cur = s.cur := by
  unfold State.begun State.popped State.afterPop; simp only []; split <;> split <;> rfl
@[simp] theorem State.begun_ir (s : State) : s.begun.ir = s.ir := by
  unfold State.begun State.popped State.afterPop; simp only []; split <;> split <;> rfl
@[simp] theorem State.begun_turn (s : State) : s.begun.turn = s.turn := by
  unfold State.begun State.popped State.afterPop; simp only []; split <;> split <;> rfl
@[simp] theorem State.begun_agenda (s : State) : s.begun.agenda = s.agenda := by
  unfold State.begun State.popped State.afterPop; simp only []; split <;> split <;> rfl
@[simp] theorem State.begun_fresh (s : State) : s.begun.fresh = s.fresh := by
  unfold State.begun State.popped State.afterPop; simp only []; split <;> split <;> rfl
@[simp] theorem State.begun_img (s : State) : s.begun.img = s.img := by
  unfold State.begun State.popped State.afterPop; simp only []; split <;> split <;> rfl
@[simp] theorem State.begun_cores (s : State) : s.begun.cores = s.cores := by
  unfold State.begun State.popped State.afterPop; simp only []; split <;> split <;> rfl
@[simp] theorem State.begun_clus (s : State) : s.begun.clus = s.clus := by
  unfold State.begun State.popped State.afterPop; simp only []; split <;> split <;> rfl
@[simp] theorem State.begun_mem (s : State) : s.begun.mem = s.mem := by
  unfold State.begun State.popped State.afterPop; simp only []; split <;> split <;> rfl
@[simp] theorem State.begun_dev (s : State) : s.begun.dev = s.dev := by
  unfold State.begun State.popped State.afterPop; simp only []; split <;> split <;> rfl
theorem State.begun_hartAt (s : State) {j : Nat} (n : j ≠ s.cur) : s.begun.hartAt j = s.hartAt j := by
  unfold State.begun State.popped State.afterPop; simp only []; split <;> split <;> simp [n]

/-- The acting hart as its instruction's effect finds it. -/
theorem State.begun_hart (s : State) :
    s.begun.hart =
      (let h := s.hart
       let h1 := match h.pfx with
         | none => h
         | some _ => { (if popOf h.pfx = 0 then h else h.takeTok (popOf h.pfx)) with pfx := h.pfx.map (fun p => (p.1, true)) }
       if pushOf h.pfx = 0 then h1 else h1.reserveTok (pushOf h.pfx)) := by
  unfold State.begun State.popped State.afterPop
  by_cases a : pushOf s.hart.pfx = 0 <;> cases p : s.hart.pfx <;> simp_all

/-- Without a prefix the effect starts from the state itself. -/
theorem State.begun_plain {s : State} (p : s.hart.pfx = none) : s.begun = s := by
  simp [State.begun, State.popped, State.afterPop, p, pushOf]

/-- The parts of a hart that taking a pop and reserving a push leave alone. -/
theorem Hart.begun_parts (h : Hart) :
    let h1 := match h.pfx with
      | none => h
      | some _ => { (if popOf h.pfx = 0 then h else h.takeTok (popOf h.pfx)) with pfx := h.pfx.map (fun (p : BitVec 32 × Bool) => (p.1, true)) }
    let k := if pushOf h.pfx = 0 then h1 else h1.reserveTok (pushOf h.pfx)
    k = { h with pfx := k.pfx, tok := k.tok, tokres := k.tokres, pops := k.pops } := by
  cases h.pfx <;> simp only [] <;> (repeat' split) <;> rfl

theorem State.begun_same (s : State) :
    s.begun.hart = { s.hart with
      pfx := s.begun.hart.pfx, tok := s.begun.hart.tok, tokres := s.begun.hart.tokres, pops := s.begun.hart.pops } := by
  rw [State.begun_hart]
  exact Hart.begun_parts s.hart

@[simp] theorem State.begun_reg (s : State) (r : BitVec 5) : s.begun.reg r = s.reg r := by
  unfold State.reg; rw [State.begun_same]; rfl
@[simp] theorem State.begun_pc (s : State) : s.begun.hart.pc = s.hart.pc := by rw [State.begun_same]
@[simp] theorem State.begun_frm (s : State) : s.begun.hart.frm = s.hart.frm := by rw [State.begun_same]
@[simp] theorem State.begun_sup (s : State) : s.begun.hart.sup = s.hart.sup := by rw [State.begun_same]
@[simp] theorem State.begun_surr (s : State) : s.begun.hart.surr = s.hart.surr := by rw [State.begun_same]
@[simp] theorem State.begun_vq (s : State) : s.begun.hart.vq = s.hart.vq := by rw [State.begun_same]
@[simp] theorem State.begun_mq (s : State) : s.begun.hart.mq = s.hart.mq := by rw [State.begun_same]
@[simp] theorem State.begun_cq (s : State) : s.begun.hart.cq = s.hart.cq := by rw [State.begun_same]
@[simp] theorem State.begun_ss (s : State) : s.begun.hart.ss = s.hart.ss := by rw [State.begun_same]
@[simp] theorem State.begun_q (s : State) : s.begun.hart.q = s.hart.q := by rw [State.begun_same]
@[simp] theorem State.begun_vec (s : State) : s.begun.hart.vec = s.hart.vec := by rw [State.begun_same]
@[simp] theorem State.begun_regs (s : State) : s.begun.hart.regs = s.hart.regs := by rw [State.begun_same]
@[simp] theorem State.begun_tested (s : State) : s.begun.hart.tested = s.hart.tested := by rw [State.begun_same]

end Sys2Proof.Machine
end

