-- ==== Sys2Proof/Laws/Engines.lean ====
section
/-! SUPPORT. The engines' shared operations, once what each can do: dispatch into a queue, charges, and the issue of a
vector instruction that the vector unit takes at once. -/
namespace Sys2Proof.Machine

theorem State.engineIssue_fits {s t : State} {e : Eng} {en : Entry} {a b : Bool} {mk : State → Except Stop (State × Entry)}
    (f : s.hart.prefixFits e a b = true) (r : s.hart.hasRoom e = true) (m : mk s = .ok (t, en)) :
    s.engineIssue e a b mk = t.setHart (t.hart.dispatched e en) := by
  have no {b : Bool} (h : b = false) : ¬b = true := by simp [h]
  unfold State.engineIssue
  refine (if_neg (no (Hart.fits_misuse f))).trans ?_
  refine (if_neg (no (Hart.fits_pop f))).trans ?_
  refine (if_neg (no (Hart.fits_push f))).trans ?_
  refine (if_neg (by simp [r])).trans ?_
  rw [m]

theorem Hart.hasRoom_empty {h : Hart} {e : Eng} (q : h.queue e = []) (n : e ≠ .s) (b : e = .v → h.banked = []) :
    h.hasRoom e = true := by
  cases e <;> simp_all [Hart.hasRoom, Hart.allQueue, realEntries, queueDepth, Config.qdvec, Config.qdmat, Config.qdcpy]

/-- What dispatch changes of a hart: the queue, the tokens, the pc, the prefix, the wait and the sequence number. -/
theorem Hart.dispatched_eq (h : Hart) (e : Eng) (en : Entry) :
    h.dispatched e en = { h with
      vq := if e = .v then h.vq ++ [en] else h.vq, mq := if e = .m then h.mq ++ [en] else h.mq
      cq := if e = .c then h.cq ++ [en] else h.cq
      tok := (h.dispatched e en).tok, tokres := (h.dispatched e en).tokres, pops := (h.dispatched e en).pops
      pc := (h.pc + 4) &&& pcMask, pfx := none, wait := none, seq := h.seq + 1 } := by
  unfold Hart.dispatched
  cases e <;> simp only [Hart.setQueue, Hart.queue] <;> split <;> split <;> rfl

@[simp] theorem Hart.dispatched_run (h : Hart) (e : Eng) (en : Entry) : (h.dispatched e en).run = h.run := by
  rw [Hart.dispatched_eq]
@[simp] theorem Hart.dispatched_sup (h : Hart) (e : Eng) (en : Entry) : (h.dispatched e en).sup = h.sup := by
  rw [Hart.dispatched_eq]
@[simp] theorem Hart.dispatched_regs (h : Hart) (e : Eng) (en : Entry) : (h.dispatched e en).regs = h.regs := by
  rw [Hart.dispatched_eq]
@[simp] theorem Hart.dispatched_surr (h : Hart) (e : Eng) (en : Entry) : (h.dispatched e en).surr = h.surr := by
  rw [Hart.dispatched_eq]
@[simp] theorem Hart.dispatched_stklo (h : Hart) (e : Eng) (en : Entry) : (h.dispatched e en).stklo = h.stklo := by
  rw [Hart.dispatched_eq]
@[simp] theorem Hart.dispatched_stkhi (h : Hart) (e : Eng) (en : Entry) : (h.dispatched e en).stkhi = h.stkhi := by
  rw [Hart.dispatched_eq]
@[simp] theorem Hart.dispatched_fflags (h : Hart) (e : Eng) (en : Entry) : (h.dispatched e en).fflags = h.fflags := by
  rw [Hart.dispatched_eq]
@[simp] theorem Hart.dispatched_frm (h : Hart) (e : Eng) (en : Entry) : (h.dispatched e en).frm = h.frm := by
  rw [Hart.dispatched_eq]
@[simp] theorem Hart.dispatched_rkey (h : Hart) (e : Eng) (en : Entry) : (h.dispatched e en).rkey = h.rkey := by
  rw [Hart.dispatched_eq]
@[simp] theorem Hart.dispatched_rstrm (h : Hart) (e : Eng) (en : Entry) : (h.dispatched e en).rstrm = h.rstrm := by
  rw [Hart.dispatched_eq]
@[simp] theorem Hart.dispatched_rctr (h : Hart) (e : Eng) (en : Entry) : (h.dispatched e en).rctr = h.rctr := by
  rw [Hart.dispatched_eq]
@[simp] theorem Hart.dispatched_pfxsave (h : Hart) (e : Eng) (en : Entry) : (h.dispatched e en).pfxsave = h.pfxsave := by
  rw [Hart.dispatched_eq]
@[simp] theorem Hart.dispatched_age (h : Hart) (e : Eng) (en : Entry) : (h.dispatched e en).age = h.age := by
  rw [Hart.dispatched_eq]
@[simp] theorem Hart.dispatched_soon (h : Hart) (e : Eng) (en : Entry) : (h.dispatched e en).soon = h.soon := by
  rw [Hart.dispatched_eq]
@[simp] theorem Hart.dispatched_throttle (h : Hart) (e : Eng) (en : Entry) : (h.dispatched e en).throttle = h.throttle := by
  rw [Hart.dispatched_eq]
@[simp] theorem Hart.dispatched_throttleCnt (h : Hart) (e : Eng) (en : Entry) : (h.dispatched e en).throttleCnt = h.throttleCnt := by
  rw [Hart.dispatched_eq]
@[simp] theorem Hart.dispatched_gang (h : Hart) (e : Eng) (en : Entry) : (h.dispatched e en).gang = h.gang := by
  rw [Hart.dispatched_eq]
@[simp] theorem Hart.dispatched_ghart (h : Hart) (e : Eng) (en : Entry) : (h.dispatched e en).ghart = h.ghart := by
  rw [Hart.dispatched_eq]
@[simp] theorem Hart.dispatched_gsize (h : Hart) (e : Eng) (en : Entry) : (h.dispatched e en).gsize = h.gsize := by
  rw [Hart.dispatched_eq]
@[simp] theorem Hart.dispatched_fn (h : Hart) (e : Eng) (en : Entry) : (h.dispatched e en).fn = h.fn := by
  rw [Hart.dispatched_eq]
@[simp] theorem Hart.dispatched_resv (h : Hart) (e : Eng) (en : Entry) : (h.dispatched e en).resv = h.resv := by
  rw [Hart.dispatched_eq]
@[simp] theorem Hart.dispatched_rsvsel (h : Hart) (e : Eng) (en : Entry) : (h.dispatched e en).rsvsel = h.rsvsel := by
  rw [Hart.dispatched_eq]
@[simp] theorem Hart.dispatched_lfunc (h : Hart) (e : Eng) (en : Entry) : (h.dispatched e en).lfunc = h.lfunc := by
  rw [Hart.dispatched_eq]
@[simp] theorem Hart.dispatched_plan (h : Hart) (e : Eng) (en : Entry) : (h.dispatched e en).plan = h.plan := by
  rw [Hart.dispatched_eq]
@[simp] theorem Hart.dispatched_q (h : Hart) (e : Eng) (en : Entry) : (h.dispatched e en).q = h.q := by
  rw [Hart.dispatched_eq]
@[simp] theorem Hart.dispatched_c (h : Hart) (e : Eng) (en : Entry) : (h.dispatched e en).c = h.c := by
  rw [Hart.dispatched_eq]
@[simp] theorem Hart.dispatched_cpcnt (h : Hart) (e : Eng) (en : Entry) : (h.dispatched e en).cpcnt = h.cpcnt := by
  rw [Hart.dispatched_eq]
@[simp] theorem Hart.dispatched_cpmcs (h : Hart) (e : Eng) (en : Entry) : (h.dispatched e en).cpmcs = h.cpmcs := by
  rw [Hart.dispatched_eq]
@[simp] theorem Hart.dispatched_vec (h : Hart) (e : Eng) (en : Entry) : (h.dispatched e en).vec = h.vec := by
  rw [Hart.dispatched_eq]
@[simp] theorem Hart.dispatched_mshape (h : Hart) (e : Eng) (en : Entry) : (h.dispatched e en).mshape = h.mshape := by
  rw [Hart.dispatched_eq]
@[simp] theorem Hart.dispatched_holdS (h : Hart) (e : Eng) (en : Entry) : (h.dispatched e en).holdS = h.holdS := by
  rw [Hart.dispatched_eq]
@[simp] theorem Hart.dispatched_ss (h : Hart) (e : Eng) (en : Entry) : (h.dispatched e en).ss = h.ss := by
  rw [Hart.dispatched_eq]
@[simp] theorem Hart.dispatched_pfxOld (h : Hart) (e : Eng) (en : Entry) : (h.dispatched e en).pfxOld = h.pfxOld := by
  rw [Hart.dispatched_eq]
@[simp] theorem Hart.dispatched_pfxPc (h : Hart) (e : Eng) (en : Entry) : (h.dispatched e en).pfxPc = h.pfxPc := by
  rw [Hart.dispatched_eq]
@[simp] theorem Hart.dispatched_tested (h : Hart) (e : Eng) (en : Entry) : (h.dispatched e en).tested = h.tested := by
  rw [Hart.dispatched_eq]
@[simp] theorem Hart.dispatched_holdV (h : Hart) (e : Eng) (en : Entry) : (h.dispatched e en).holdV = h.holdV := by
  rw [Hart.dispatched_eq]
@[simp] theorem Hart.dispatched_qHold (h : Hart) (e : Eng) (en : Entry) : (h.dispatched e en).qHold = h.qHold := by
  rw [Hart.dispatched_eq]
@[simp] theorem Hart.dispatched_srcDl (h : Hart) (e : Eng) (en : Entry) : (h.dispatched e en).srcDl = h.srcDl := by
  rw [Hart.dispatched_eq]
@[simp] theorem Hart.dispatched_bay (h : Hart) (e : Eng) (en : Entry) : (h.dispatched e en).bay = h.bay := by
  rw [Hart.dispatched_eq]
@[simp] theorem Hart.dispatched_smp (h : Hart) (e : Eng) (en : Entry) : (h.dispatched e en).smp = h.smp := by
  rw [Hart.dispatched_eq]
@[simp] theorem Hart.dispatched_lostUpd (h : Hart) (e : Eng) (en : Entry) : (h.dispatched e en).lostUpd = h.lostUpd := by
  rw [Hart.dispatched_eq]
@[simp] theorem Hart.dispatched_hdr (h : Hart) (e : Eng) (en : Entry) : (h.dispatched e en).hdr = h.hdr := by
  rw [Hart.dispatched_eq]
@[simp] theorem Hart.dispatched_post (h : Hart) (e : Eng) (en : Entry) : (h.dispatched e en).post = h.post := by
  rw [Hart.dispatched_eq]
@[simp] theorem Hart.dispatched_preempt (h : Hart) (e : Eng) (en : Entry) : (h.dispatched e en).preempt = h.preempt := by
  rw [Hart.dispatched_eq]
@[simp] theorem Hart.dispatched_pc (h : Hart) (e : Eng) (en : Entry) : (h.dispatched e en).pc = (h.pc + 4) &&& pcMask := by
  rw [Hart.dispatched_eq]
@[simp] theorem Hart.dispatched_pfx (h : Hart) (e : Eng) (en : Entry) : (h.dispatched e en).pfx = none := by
  rw [Hart.dispatched_eq]
@[simp] theorem Hart.dispatched_wait (h : Hart) (e : Eng) (en : Entry) : (h.dispatched e en).wait = none := by
  rw [Hart.dispatched_eq]
@[simp] theorem Hart.dispatched_vq (h : Hart) (e : Eng) (en : Entry) :
    (h.dispatched e en).vq = if e = .v then h.vq ++ [en] else h.vq := by
  rw [Hart.dispatched_eq]
@[simp] theorem Hart.dispatched_mq (h : Hart) (e : Eng) (en : Entry) :
    (h.dispatched e en).mq = if e = .m then h.mq ++ [en] else h.mq := by
  rw [Hart.dispatched_eq]
@[simp] theorem Hart.dispatched_cq (h : Hart) (e : Eng) (en : Entry) :
    (h.dispatched e en).cq = if e = .c then h.cq ++ [en] else h.cq := by
  rw [Hart.dispatched_eq]

/-- The state after dispatch of a vector instruction into an empty queue. -/
def State.vecQueued (s : State) (i : Instr) : State :=
  s.setHart { s.hart.dispatched .v (s.vecEntry i) with rctr := s.rctrPast i }

theorem State.vecSent_eq (s : State) (i : Instr) (op : VecOp) :
    s.vecSent i op = (s.vecQueued i).setHart { (s.vecQueued i).hart with vec := (s.vecSent i op).hart.vec } := by
  simp [State.vecSent, State.vecQueued]

theorem State.vecHeld_vec (u : State) (op : VecOp) (v : VecState) (g : v.vgrant = u.hart.vec.vgrant) :
    (u.setHart { u.hart with vec := v }).vecHeld u.cur op = u.vecHeld u.cur op := by
  have e : (u.setHart { u.hart with vec := v }).hartAt u.cur = { u.hart with vec := v } := by
    simp [State.setHart]
  unfold State.vecHeld
  simp only [e, g]
  rfl

theorem State.vecQueued_vq (s : State) (i : Instr) (q : s.hart.vq = []) : (s.vecQueued i).hart.vq = [s.vecEntry i] := by
  simp [State.vecQueued]; exact q
theorem State.vecQueued_vec (s : State) (i : Instr) : (s.vecQueued i).hart.vec = s.hart.vec := by
  simp [State.vecQueued]
theorem State.vecQueued_mq (s : State) (i : Instr) : (s.vecQueued i).hart.mq = s.hart.mq := by
  simp [State.vecQueued]
theorem State.vecQueued_q (s : State) (i : Instr) : (s.vecQueued i).hart.q = s.hart.q := by
  simp [State.vecQueued]
theorem State.vecQueued_cur (s : State) (i : Instr) : (s.vecQueued i).cur = s.cur := rfl

theorem State.vecQueued_mshape (s : State) (i : Instr) : (s.vecQueued i).hart.mshape = s.hart.mshape := by
  simp [State.vecQueued]

theorem matReads_congr {h k : Hart} (m : h.mshape = k.mshape) (q : h.mq = k.mq) (v : h.vec = k.vec) :
    matReads h = matReads k := by
  funext rc i; unfold matReads Hart.ascFor; rw [m, q, v]

/-- The scoreboard looks at no more of a hart than its matrix queue, its vector state, its streams and mshape. -/
theorem State.vecScore_congr {s t : State} {x : Nat} {op : VecOp} {en : Entry}
    (a : (t.hartAt x).mq = (s.hartAt x).mq) (b : (t.hartAt x).vec = (s.hartAt x).vec) (c : (t.hartAt x).q = (s.hartAt x).q)
    (d : (t.hartAt x).mshape = (s.hartAt x).mshape) : t.vecScore x op en = s.vecScore x op en := by
  have l : (t.hartAt x).look en = (s.hartAt x).look en := by simp only [Hart.look, c]
  unfold State.vecScore
  simp only [a, b, l, matReads_congr d a b]

theorem State.vecQueued_score {s : State} {i : Instr} {op : VecOp} (h : s.vecScore s.cur op (s.vecEntry i) = false) :
    (s.vecQueued i).vecScore s.cur op (s.vecEntry i) = false := by
  rw [← h]
  exact State.vecScore_congr (s.vecQueued_mq i) (s.vecQueued_vec i) (s.vecQueued_q i) (s.vecQueued_mshape i)

/-- The issue of a vector instruction that the vector unit takes at once: it runs and retires. -/
theorem State.vecIssue_free {s : State} {i : Instr} {op : VecOp} {at_ : State → State}
    (ha : at_ (s.setHart (s.hart.dispatched .v (s.vecEntry i))) = s.vecQueued i) (hs : s.vecFree i op) :
    s.vecIssue i op (s.vecScalar i) 0 at_ = ((s.vecQueued i).vecRun s.cur op false).vecRetire s.cur := by
  obtain ⟨hf, hq, hr, hsc, hh, hsp, hl, hc⟩ := hs
  have e1 : s.engineIssue .v op.maskable op.vecResult (fun t =>
      let en := t.mkEntry i (s.vecScalar i) 0
      .ok (t, { en with tried := b2n (true && t.vecScore t.cur op en) })) = s.setHart (s.hart.dispatched .v (s.vecEntry i)) := by
    refine State.engineIssue_fits (t := s) hf hr ?_
    have : s.vecScore s.cur op (s.mkEntry i (s.vecScalar i) 0) = false := hsc
    simp only [this]
    rfl
  have n1 : (s.setHart (s.hart.dispatched .v (s.vecEntry i))).hart.vq.length = s.hart.vq.length + 1 := by
    simp [hq]
  have hh2 : (s.vecQueued i).vecHeld s.cur op = false := by
    rw [State.vecSent_eq] at hh
    have g : (s.vecSent i op).hart.vec.vgrant = (s.vecQueued i).hart.vec.vgrant := by
      rw [State.vecQueued_vec]
      simp only [State.vecSent, State.hart_setHart, Hart.dispatched_vec]
      split <;> rfl
    exact (State.vecHeld_vec _ op _ g).symm.trans hh
  have hc : (s.setHart (s.hart.dispatched .v (s.vecEntry i))).cur = s.cur := rfl
  unfold State.vecIssue
  simp only [hq, List.isEmpty_nil, e1, List.length_nil]
  rw [hq] at n1
  simp only [n1, List.length_nil, beq_self_eq_true, if_true, ha]
  simp only [State.vecQueued_cur, hh2, State.vecQueued_vq s i hq, State.vecQueued_score hsc]
  rfl

/-- Where no soft error stands in data and the engine does not turn to another hart, a run ends where its sweep does. -/
theorem State.vecPause_none {s : State} (x : Nat) (op : VecOp) (v : VecState) (en : Entry) (l : s.dev.latent = none) :
    s.vecPause x op v en false = none := by
  simp [State.vecPause, State.vecError, l]

theorem Entry.seeded_fresh {en : Entry} (op : VecOp) (v : VecState) (a : en.acc = none) : en.seeded op v = en := by
  unfold Entry.seeded; rw [a]
theorem VecState.enter_fresh {en : Entry} (v : VecState) (op : VecOp) (b : Bool) (a : en.acc = none) :
    v.enter op en b = { (if b then v.cut else v) with ends := none } := by
  unfold VecState.enter VecState.rebase; rw [a]

theorem VecState.endAt_none {v : VecState} (h : v.ends = none) : v.endAt none = v := by
  unfold VecState.endAt; rw [Option.map_none, ← h]

theorem Hart.look_acc (h : Hart) (en : Entry) : (h.look en).acc = en.acc := by
  unfold Hart.look; split <;> rfl
theorem Hart.look_fl (h : Hart) (en : Entry) : (h.look en).fl = en.fl := by
  unfold Hart.look; split <;> rfl

/-- The run of a vector instruction that the vector unit takes at once. -/
theorem State.vecRun_free {s : State} {i : Instr} {op : VecOp} (hs : s.vecFree i op) :
    (s.vecQueued i).vecRun s.cur op false =
      State.vecAfter s.now s.cur op (s.hart.look (s.vecEntry i)) (s.vecSent i op).hart.vec none
        (op.run (s.vecSent i op) s.cur (s.hart.look (s.vecEntry i))) := by
  obtain ⟨hf, hq, hr, hsc, hh, hsp, hl, hc⟩ := hs
  have sp (v : VecState) (en : Entry) : (s.vecQueued i).vecPause s.cur op v en false = none :=
    State.vecPause_none s.cur op v en hl
  have ac : (s.hart.look (s.vecEntry i)).acc = none := Hart.look_acc _ _
  have e : (s.vecQueued i).hartAt s.cur = (s.vecQueued i).hart := rfl
  have l : (s.vecQueued i).hart.look (s.vecEntry i) = s.hart.look (s.vecEntry i) := by
    simp only [Hart.look, State.vecQueued_q]
  have st : (s.hart.look (s.vecEntry i)).started = false := by
    unfold Hart.look; split <;> rfl
  have tr : (s.hart.look (s.vecEntry i)).tried = 0 := by
    unfold Hart.look; split <;> rfl
  have now : (s.vecQueued i).now = s.now := rfl
  have v1 : s.hart.vec.enter op (s.hart.look (s.vecEntry i)) (s.hart.vec.splits op false) = (s.vecSent i op).hart.vec := by
    rw [VecState.enter_fresh _ op _ ac]
    simp only [State.vecSent, State.hart_setHart, Hart.dispatched_vec]
  have v2 : (s.vecSent i op).hart.vec.endAt none = (s.vecSent i op).hart.vec :=
    VecState.endAt_none (by simp only [State.vecSent, State.hart_setHart])
  have t1 : (s.vecQueued i).setHartAt s.cur { (s.vecQueued i).hart with vec := (s.vecSent i op).hart.vec } = s.vecSent i op :=
    (State.vecSent_eq s i op).symm
  have hsp : (s.hart.vec.splits op false && s.hart.vec.strap) = false := by
    revert hsp; cases s.hart.vec.splits op false <;> cases s.hart.vec.strap <;> simp
  unfold State.vecRun
  simp only [e, State.vecQueued_vq s i hq, State.vecQueued_vec, l, st, tr, now, Bool.not_false, Bool.true_and,
    bne_self_eq_false, hsp, Entry.seeded_fresh op _ ac, v1, v2, hc, sp]
  rw [← State.vecQueued_vq s i hq]
  exact congrArg (fun u => State.vecAfter s.now s.cur op (s.hart.look (s.vecEntry i)) (s.vecSent i op).hart.vec none
    (op.run u s.cur (s.hart.look (s.vecEntry i)))) t1

/-! ### Charges -/

/-- A charge changes budgets and the time an engine is at work, nothing else. -/
theorem State.charge_eq (s : State) (r res inst n : Nat) :
    s.charge r res inst n = { s with
      dev := { s.dev with used := (s.charge r res inst n).dev.used }, cores := (s.charge r res inst n).cores } := by
  unfold State.charge
  split
  · rfl
  · unfold State.occupy
    split <;> rfl

theorem State.chargeEnergy_eq (s : State) (r n : Nat) :
    s.chargeEnergy r n = { s with
      dev := { s.dev with used := (s.chargeEnergy r n).dev.used, energy := (s.chargeEnergy r n).dev.energy }
      cores := (s.chargeEnergy r n).cores } := by
  unfold State.chargeEnergy
  simp only []
  rw [State.charge_eq]

theorem State.occupy_core (s : State) (res core n k : Nat) :
    (s.occupy res core n).coreAt k = { s.coreAt k with busy := ((s.occupy res core n).coreAt k).busy } := by
  unfold State.occupy
  split
  · rfl
  · by_cases e : k = core
    · subst e; simp
    · simp [e]

theorem State.charge_core (s : State) (r res inst n k : Nat) :
    (s.charge r res inst n).coreAt k = { s.coreAt k with busy := ((s.charge r res inst n).coreAt k).busy } := by
  unfold State.charge
  split
  · rfl
  · exact State.occupy_core _ _ _ _ _


@[simp] theorem State.charge_hartAt (s : State) (r res inst n j : Nat) : (s.charge r res inst n).hartAt j = s.hartAt j := by
  rw [State.charge_eq]; rfl
@[simp] theorem State.chargeEnergy_hartAt (s : State) (r n j : Nat) : (s.chargeEnergy r n).hartAt j = s.hartAt j := by
  rw [State.chargeEnergy_eq]; rfl

theorem State.chargeEnergy_core (s : State) (r n k : Nat) :
    (s.chargeEnergy r n).coreAt k = { s.coreAt k with busy := ((s.chargeEnergy r n).coreAt k).busy } := by
  unfold State.chargeEnergy
  exact State.charge_core s r 7 0 n k

/-- Work that something of a core takes on changes when it is at work, nothing else. -/
theorem State.busyFor_core (s : State) (core : Nat) (i : Fin 20) (per n k : Nat) :
    (s.busyFor core i per n).coreAt k = { s.coreAt k with busy := ((s.busyFor core i per n).coreAt k).busy } := by
  by_cases e : k = core
  · subst e; simp
  · simp [e]

/-- Nothing but what counts work, and the surrender units of hart x, differs. -/
def State.worked (s t : State) (x : Nat) : Prop :=
  t.mem = s.mem ∧ t.clus = s.clus ∧ (∀ k, t.coreAt k = { s.coreAt k with busy := (t.coreAt k).busy }) ∧
  t.dev = { s.dev with used := t.dev.used, energy := t.dev.energy } ∧ t.time = s.time ∧ t.cur = s.cur ∧ t.ir = s.ir ∧
  t.turn = s.turn ∧ t.agenda = s.agenda ∧ t.fresh = s.fresh ∧ t.img = s.img ∧ (∀ j, j ≠ x → t.hartAt j = s.hartAt j) ∧
  ∃ u, t.hartAt x = { s.hartAt x with bay := { (s.hartAt x).bay with ucnt := u } }

theorem State.worked_refl (s : State) (x : Nat) : s.worked s x :=
  ⟨rfl, rfl, fun _ => rfl, rfl, rfl, rfl, rfl, rfl, rfl, rfl, rfl, fun _ _ => rfl, (s.hartAt x).bay.ucnt, rfl⟩

theorem State.worked_trans {s t u : State} {x : Nat} (a : s.worked t x) (b : t.worked u x) : s.worked u x := by
  obtain ⟨a1, a2, a3, a4, a5, a6, a7, a8, a9, a10, a11, a12, ua, a13⟩ := a
  obtain ⟨b1, b2, b3, b4, b5, b6, b7, b8, b9, b10, b11, b12, ub, b13⟩ := b
  refine ⟨b1.trans a1, b2.trans a2, fun k => ?_, ?_, b5.trans a5, b6.trans a6, b7.trans a7, b8.trans a8, b9.trans a9,
    b10.trans a10, b11.trans a11, fun j n => (b12 j n).trans (a12 j n), ub, ?_⟩
  · rw [b3 k, a3 k]
  · rw [b4, a4]
  · rw [b13, a13]

theorem State.worked_charge (s : State) (r res inst n x : Nat) : s.worked (s.charge r res inst n) x := by
  have e := State.charge_eq s r res inst n
  refine ⟨?_, ?_, State.charge_core s r res inst n, ?_, ?_, ?_, ?_, ?_, ?_, ?_, ?_, fun j _ => s.charge_hartAt r res inst n j,
    (s.hartAt x).bay.ucnt, s.charge_hartAt r res inst n x⟩ <;> (rw [e])

theorem State.worked_energy (s : State) (r n x : Nat) : s.worked (s.chargeEnergy r n) x := by
  have e := State.chargeEnergy_eq s r n
  refine ⟨?_, ?_, State.chargeEnergy_core s r n, ?_, ?_, ?_, ?_, ?_, ?_, ?_, ?_, fun j _ => s.chargeEnergy_hartAt r n j,
    (s.hartAt x).bay.ucnt, s.chargeEnergy_hartAt r n x⟩ <;> (rw [e])

theorem State.worked_busyFor (s : State) (core : Nat) (i : Fin 20) (per n x : Nat) : s.worked (s.busyFor core i per n) x :=
  ⟨rfl, rfl, s.busyFor_core core i per n, rfl, rfl, rfl, rfl, rfl, rfl, rfl, rfl, fun _ _ => rfl, (s.hartAt x).bay.ucnt, rfl⟩

theorem State.worked_count (s : State) (x n : Nat) : s.worked (s.setHartAt x ((s.hartAt x).count n)) x := by
  refine ⟨rfl, rfl, fun _ => rfl, rfl, rfl, rfl, rfl, rfl, rfl, rfl, rfl, fun j n => State.hartAt_setHartAt_other s _ n, ?_⟩
  simp only [State.hartAt_setHartAt]
  unfold Hart.count
  split
  · exact ⟨_, rfl⟩
  · exact ⟨(s.hartAt x).bay.ucnt, rfl⟩

theorem State.worked_groups (s : State) (x g : Nat) : s.worked (s.chargeGroups x g) x := by
  unfold State.chargeGroups
  simp only []
  have a := State.worked_trans (State.worked_trans
    (s.worked_charge (s.hartAt x).vecResv 1 (x / 8) (g * (s.hartAt x).vec.vgrant / 8) x)
    (State.worked_energy _ (s.hartAt x).vecResv (g * (s.hartAt x).vec.vgrant / 8) x))
    (State.worked_busyFor _ (x / 8) (lanesAt x) 1 g x)
  split
  · split
    · exact State.worked_trans a (State.worked_count _ x g)
    · exact a
  · exact a

theorem State.usePort_eq (s : State) (core : Nat) (sp : Space) (wr : Bool) (n : Nat) :
    s.usePort core sp wr n = { s with cores := (s.usePort core sp wr n).cores } := by
  unfold State.usePort
  split
  · rfl
  · split <;> rfl

theorem State.usePort_core (s : State) (core : Nat) (sp : Space) (wr : Bool) (n k : Nat) :
    (s.usePort core sp wr n).coreAt k = { s.coreAt k with busy := ((s.usePort core sp wr n).coreAt k).busy } := by
  unfold State.usePort
  split
  · rfl
  · split
    · rfl
    · by_cases e : k = core
      · subst e; simp
      · simp [e]

/-- A port that moves bytes changes when it is busy, nothing else. -/
theorem State.worked_usePort (s : State) (core : Nat) (sp : Space) (wr : Bool) (n x : Nat) :
    s.worked (s.usePort core sp wr n) x := by
  have e := State.usePort_eq s core sp wr n
  refine ⟨?_, ?_, State.usePort_core s core sp wr n, ?_, ?_, ?_, ?_, ?_, ?_, ?_, ?_, fun j _ => ?_, (s.hartAt x).bay.ucnt, ?_⟩ <;>
    (rw [e]; try rfl)

/-- A hart whose vector queue is empty has no head to wait for. -/
theorem Hart.through_empty {h : Hart} (q : h.vq = []) : h.through .v = h := by
  simp [Hart.through, Hart.queue, q]
theorem Hart.retireHead_vq {h : Hart} {en : Entry} {l : List Entry} (q : h.vq = en :: l) : (h.retireHead .v).vq = l := by
  have late (k : Hart) (b : Bool) (r : BitVec 5) (v : Word) : (k.setLate b r v).vq = k.vq := by
    unfold Hart.setLate; simp
  unfold Hart.retireHead
  simp only [Hart.queue, q, Hart.setQueue, Hart.orFlags]
  cases en.res <;> cases en.newCur <;> cases en.pfx <;> simp only [late, Hart.setCursor] <;> (repeat' split) <;>
    simp [late, Hart.depositTok, Hart.unreserveTok]

/-- A hart whose queue holds one done instruction, once that has retired, whether it does at once or not. -/
theorem Hart.through_done {h : Hart} {en : Entry} (q : h.vq = [en]) (d : en.done = true) (b : Prop) [Decidable b] :
    (if b then h.retireHead .v else h).through .v = h.retireHead .v := by
  split
  · exact Hart.through_empty (Hart.retireHead_vq q)
  · simp [Hart.through, Hart.queue, q, d]

/-- A vector run that completes, and its retirement: where its entry still stands alone at the head, the hart takes its
flags, its scalar result and its cursor, and its push, at once or as soon as the element groups are through. -/
theorem State.vecAfter_ok {now x : Nat} {op : VecOp} {en e1 : Entry} {v : VecState} {d : VDone}
    (q : (d.s.hartAt x).vq = [e1]) (ac : en.acc = none) (ef : en.fl = 0) :
    ∃ u n, d.s.worked u x ∧
      let k : Hart := { u.hartAt x with
        vec := { (u.hartAt x).vec.chain op with ends := none }
        vq := [{ en with started := true, done := true, tried := n, fl := d.fl, res := d.res, newCur := d.newCur }] }
      (State.vecAfter now x op en v none (.ok d)).vecRetire x =
        u.setHartAt x (if n ≤ u.now then k.retireHead .v else k) := by
  have key : ∀ u : State, d.s.worked u x → ∀ e2 : Entry, (u.vecDone x op e2).vecRetire x =
      let k : Hart := { u.hartAt x with
        vec := { (u.hartAt x).vec.chain op with ends := none }
        vq := [{ e2 with started := true, done := true, tried := u.vecThrough x e2 }] }
      u.setHartAt x (if u.vecThrough x e2 ≤ u.now then k.retireHead .v else k) := by
    intro u w e2
    have uq : (u.hartAt x).vq = [e1] := by
      obtain ⟨_, _, _, _, _, _, _, _, _, _, _, _, k, h⟩ := w
      rw [h]; exact q
    simp only [State.vecDone, Hart.setHead, Hart.queue, uq, Hart.setQueue, State.vecRetire, State.hartAt_setHartAt,
      Entry.over, State.now_setHartAt, Bool.true_and, decide_eq_true_eq]
    split <;> simp
  have z : (0 : BitVec 5) ||| d.fl = d.fl := BitVec.zero_or
  unfold State.vecAfter
  simp only [ac, ef, z, Option.filter_none]
  cases op.grouped <;> simp only [if_true, Bool.false_eq_true, if_false]
  · exact ⟨_, _, State.worked_refl _ _, key _ (State.worked_refl _ _) _⟩
  · exact ⟨_, _, State.worked_groups _ _ _, key _ (State.worked_groups _ _ _) _⟩

theorem State.vecQueued_id {s : State} {i : Instr} (h : s.rctrPast i = s.hart.rctr) :
    id (s.setHart (s.hart.dispatched .v (s.vecEntry i))) = s.vecQueued i := by
  have e : s.hart.dispatched .v (s.vecEntry i) =
      { s.hart.dispatched .v (s.vecEntry i) with rctr := (s.hart.dispatched .v (s.vecEntry i)).rctr } := rfl
  unfold State.vecQueued
  rw [h, ← Hart.dispatched_rctr s.hart .v (s.vecEntry i)]
  rfl

theorem State.cvtIssue_eq {s : State} {i : Instr} {o : VCvt} {op : VecOp}
    (a : s.vecScalar i = if o.rnd = 5 then s.hart.rctr else 0)
    (b : s.rctrPast i = if o.rnd = 5 then s.hart.rctr + 0x200000 else s.hart.rctr) :
    ∃ at_ : State → State, s.cvtIssue i o op = s.vecIssue i op (s.vecScalar i) 0 at_ ∧
      at_ (s.setHart (s.hart.dispatched .v (s.vecEntry i))) = s.vecQueued i := by
  unfold State.cvtIssue
  split
  · rename_i h
    rw [if_pos h] at a b
    refine ⟨_, by rw [a], ?_⟩
    simp [State.vecQueued, b]
  · rename_i h
    rw [if_neg h] at a b
    exact ⟨id, by rw [a], State.vecQueued_id b⟩

/-- The meaning of a vector instruction is its issue with its operation and its captured scalar. -/
theorem exec_vector {i : Instr} {op : VecOp} (s : State) (h : vecOpOf i = some op) :
    ∃ at_ : State → State, exec i s = .next (s.vecIssue i op (s.vecScalar i) 0 at_) ∧
      at_ (s.setHart (s.hart.dispatched .v (s.vecEntry i))) = s.vecQueued i := by
  cases i <;> first
    | (cases h; done)
    | (cases h; exact ⟨id, rfl, State.vecQueued_id rfl⟩)
    | (cases h
       refine Exists.imp (fun a h => ⟨congrArg Host.Outcome.next h.1, h.2⟩) (State.cvtIssue_eq rfl rfl))


/-- A vector instruction that only computes, where the vector unit takes it at once: the next state, up to what counts
work; it has retired, or stands done at the head of its queue and does so when its element groups are through
(`Hart.through_done`). -/
theorem exec_pure {s : State} {i : Instr} {op : VecOp}
    {f : VecState → Entry → VecState × Flags × Option (BitVec 5 × Word)} (h : vecOpOf i = some op) (p : op.run = pureRun f)
    (hs : s.vecFree i op) :
    ∃ u n, let en := s.hart.look (s.vecEntry i)
      let r := f (s.vecSent i op).hart.vec en
      let k : Hart := { u.hartAt s.cur with
        vec := { (u.hartAt s.cur).vec.chain op with ends := none }
        vq := [{ en with started := true, done := true, tried := n, fl := r.2.1, res := r.2.2, newCur := none }] }
      ((s.vecSent i op).setHart { (s.vecSent i op).hart with vec := r.1 }).worked u s.cur ∧
      exec i s = .next (u.setHartAt s.cur (if n ≤ u.now then k.retireHead .v else k)) := by
  obtain ⟨at_, e, a⟩ := exec_vector s h
  obtain ⟨hf, hq, hr⟩ := hs
  have hs : s.vecFree i op := ⟨hf, hq, hr⟩
  rw [e, State.vecIssue_free a hs, State.vecRun_free hs, p]
  have q1 : (((s.vecSent i op).setHart { (s.vecSent i op).hart with
      vec := (f (s.vecSent i op).hart.vec (s.hart.look (s.vecEntry i))).1 }).hartAt s.cur).vq = [s.vecEntry i] := by
    show (State.setHart (s.vecSent i op) _).hart.vq = _
    rw [State.hart_setHart]
    simp [State.vecSent, hq]
  obtain ⟨u, n, w, k⟩ := State.vecAfter_ok (now := s.now) (x := s.cur) (op := op) (en := s.hart.look (s.vecEntry i))
    (v := (s.vecSent i op).hart.vec) (d := {
      s := (s.vecSent i op).setHart { (s.vecSent i op).hart with
        vec := (f (s.vecSent i op).hart.vec (s.hart.look (s.vecEntry i))).1 }
      fl := (f (s.vecSent i op).hart.vec (s.hart.look (s.vecEntry i))).2.1
      res := (f (s.vecSent i op).hart.vec (s.hart.look (s.vecEntry i))).2.2 }) q1 (Hart.look_acc _ _) (Hart.look_fl _ _)
  exact ⟨u, n, w, congrArg Host.Outcome.next k⟩

end Sys2Proof.Machine
end

