-- ==== Sys2Proof/Laws/Memory.lean ====
section
/-! SUPPORT. The laws of byte memory: every operation keeps the canonical form, a byte reads as it was last written and
every other byte as before. -/

namespace Sys2Proof.Machine

/-- The canonical form as a property of the list: addresses rise, no listed byte is zero. -/
def Mem.Canon (m : Mem) : Prop := m.Pairwise (fun a b => a.1 < b.1) ∧ ∀ c ∈ m, c.2 ≠ 0

theorem Mem.wfFrom_iff (m : Mem) (lo : Option Nat) :
    Mem.wfFrom lo m = true ↔ m.Canon ∧ ∀ l, lo = some l → ∀ c ∈ m, l < c.1 := by
  induction m generalizing lo with
  | nil => simp [Mem.wfFrom, Mem.Canon]
  | cons p t ih =>
    obtain ⟨k, v⟩ := p
    simp only [Mem.wfFrom, Bool.and_eq_true, ih, Mem.Canon, List.pairwise_cons, List.mem_cons, forall_eq_or_imp]
    constructor
    · rintro ⟨⟨h1, h2⟩, ⟨h3, h4⟩, h5⟩
      refine ⟨⟨⟨fun c hc => h5 k rfl c hc, h3⟩, by simpa using h2, h4⟩, ?_⟩
      rintro l rfl
      have hl : l < k := by simpa using h1
      exact ⟨hl, fun c hc => hl.trans (h5 k rfl c hc)⟩
    · rintro ⟨⟨⟨h1, h2⟩, h3, h4⟩, h5⟩
      refine ⟨⟨?_, by simpa using h3⟩, ⟨h2, h4⟩, ?_⟩
      · cases lo with
        | none => rfl
        | some l => simpa using (h5 l rfl).1
      · rintro l hl c hc
        cases hl
        exact h1 c hc

theorem Mem.wf_iff (m : Mem) : m.wf = true ↔ m.Canon := by
  simp [Mem.wf, Mem.wfFrom_iff]

theorem Mem.wf_nil : Mem.wf [] = true := rfl

theorem Mem.wf_filter (m : Mem) (p : Host.Cell → Bool) (h : m.wf = true) : Mem.wf (m.filter p) = true := by
  rw [Mem.wf_iff] at *
  exact ⟨h.1.filter _, fun c hc => h.2 c (List.mem_filter.1 hc).1⟩

theorem Mem.put_mem (m : Mem) (a : Nat) (v : BitVec 8) : ∀ c ∈ m.put a v, c = (a, v) ∨ c ∈ m := by
  induction m with
  | nil => simp [Mem.put]
  | cons p t ih =>
    obtain ⟨k, u⟩ := p
    simp only [Mem.put]
    intro c hc
    split at hc
    · rcases List.mem_cons.1 hc with h | h <;> simp [h]
    · split at hc
      · rcases List.mem_cons.1 hc with h | h
        · simp [h]
        · exact .inr h
      · rcases List.mem_cons.1 hc with h | h
        · simp [h]
        · rcases ih c h with h | h <;> simp [h]

theorem Mem.canon_put (m : Mem) (a : Nat) (v : BitVec 8) (hv : v ≠ 0) (h : m.Canon) : (m.put a v).Canon := by
  induction m with
  | nil => simpa [Mem.put, Mem.Canon] using hv
  | cons p t ih =>
    obtain ⟨k, u⟩ := p
    obtain ⟨hs, hz⟩ := h
    rw [List.pairwise_cons] at hs
    have ht : Mem.Canon t := ⟨hs.2, fun c hc => hz c (List.mem_cons_of_mem _ hc)⟩
    simp only [Mem.put]
    split
    · rename_i hk
      subst hk
      refine ⟨List.pairwise_cons.2 ⟨hs.1, hs.2⟩, ?_⟩
      rintro c hc
      rcases List.mem_cons.1 hc with rfl | hc
      · exact hv
      · exact ht.2 c hc
    · split
      · rename_i hk hlt
        refine ⟨List.pairwise_cons.2 ⟨?_, List.pairwise_cons.2 hs⟩, ?_⟩
        · intro c hc
          rcases List.mem_cons.1 hc with rfl | hc
          · exact hlt
          · exact hlt.trans (hs.1 c hc)
        · intro c hc
          rcases List.mem_cons.1 hc with rfl | hc
          · exact hv
          · exact hz c hc
      · rename_i hk hlt
        have hi := ih ht
        refine ⟨List.pairwise_cons.2 ⟨?_, hi.1⟩, ?_⟩
        · intro c hc
          rcases Mem.put_mem t a v c hc with rfl | hc
          · exact lt_of_le_of_ne (Nat.le_of_not_lt hlt) hk
          · exact hs.1 c hc
        · intro c hc
          rcases List.mem_cons.1 hc with rfl | hc
          · exact hz _ List.mem_cons_self
          · exact hi.2 c hc

theorem Mem.wf_set (m : Mem) (a : Nat) (v : BitVec 8) (h : m.wf = true) : (m.set a v).wf = true := by
  unfold Mem.set
  split
  · exact Mem.wf_filter m _ h
  · rename_i hv
    rw [Mem.wf_iff] at *
    exact Mem.canon_put m a v hv h

theorem Mem.wf_write (m : Mem) (a n v : Nat) (h : m.wf = true) : (m.write a n v).wf = true := by
  induction n generalizing m a v with
  | zero => exact h
  | succ n ih => exact ih _ _ _ (Mem.wf_set m a _ h)

theorem Mem.wf_clear (m : Mem) (lo hi : Nat) (h : m.wf = true) : (m.clear lo hi).wf = true := Mem.wf_filter m _ h

theorem Mem.wf_slice (m : Mem) (a n : Nat) (h : m.wf = true) : (m.slice a n).wf = true := by
  have hf := Mem.wf_filter m (fun c => decide (a ≤ c.1) && decide (c.1 < a + n)) h
  rw [Mem.wf_iff] at *
  unfold Mem.slice
  refine ⟨?_, ?_⟩
  · rw [List.pairwise_map]
    refine hf.1.imp_of_mem ?_
    intro x y hx hy hxy
    have h1 := (List.mem_filter.1 hx).2
    have h2 := (List.mem_filter.1 hy).2
    simp only [Bool.and_eq_true, decide_eq_true_eq] at h1 h2
    omega
  · intro c hc
    obtain ⟨d, hd, rfl⟩ := List.mem_map.1 hc
    exact hf.2 d hd

theorem Mem.wf_blit (m : Mem) (a n : Nat) (img : Mem) (h : m.wf = true) (hi : img.wf = true) :
    (m.blit a n img).wf = true := by
  have h1 := Mem.wf_filter m (fun c => decide (c.1 < a)) h
  have h2 := Mem.wf_filter img (fun c => decide (c.1 < n)) hi
  have h3 := Mem.wf_filter m (fun c => decide (a + n ≤ c.1)) h
  rw [Mem.wf_iff] at *
  unfold Mem.blit
  refine ⟨?_, ?_⟩
  · rw [List.append_assoc, List.pairwise_append, List.pairwise_append]
    refine ⟨h1.1, ⟨?_, h3.1, ?_⟩, ?_⟩
    · rw [List.pairwise_map]
      exact h2.1.imp (fun hxy => by simpa using hxy)
    · intro x hx y hy
      obtain ⟨c, hc, rfl⟩ := List.mem_map.1 hx
      have hcn := (List.mem_filter.1 hc).2
      have hyn := (List.mem_filter.1 hy).2
      simp only [decide_eq_true_eq] at hcn hyn
      change c.1 + a < y.1
      omega
    · intro x hx y hy
      have hxa := (List.mem_filter.1 hx).2
      simp only [decide_eq_true_eq] at hxa
      rcases List.mem_append.1 hy with hy | hy
      · obtain ⟨c, hc, rfl⟩ := List.mem_map.1 hy
        change x.1 < c.1 + a
        omega
      · have hya := (List.mem_filter.1 hy).2
        simp only [decide_eq_true_eq] at hya
        omega
  · intro c hc
    rcases List.mem_append.1 hc with hc | hc
    · rcases List.mem_append.1 hc with hc | hc
      · exact h1.2 c hc
      · obtain ⟨d, hd, rfl⟩ := List.mem_map.1 hc
        exact h2.2 d hd
    · exact h3.2 c hc

theorem Mem.wf_ofFields (l : List (Nat × Nat × Nat)) : (Mem.ofFields l).wf = true := by
  unfold Mem.ofFields
  have : ∀ (l : List (Nat × Nat × Nat)) (m : Mem), m.wf = true →
      Mem.wf (l.foldl (fun m f => m.write f.1 f.2.1 f.2.2) m) = true := by
    intro l
    induction l with
    | nil => intro m h; exact h
    | cons f t ih => intro m h; exact ih _ (Mem.wf_write m _ _ _ h)
  exact this l [] rfl

/-! ### What a byte reads as -/

@[simp] theorem Mem.byte_nil (a : Nat) : Mem.byte [] a = 0 := rfl

theorem Mem.byte_of_above (m : Mem) (a : Nat) (h : ∀ c ∈ m, a < c.1) : m.byte a = 0 := by
  induction m with
  | nil => rfl
  | cons p t ih =>
    obtain ⟨k, v⟩ := p
    have hk : a < k := h (k, v) List.mem_cons_self
    simp only [Mem.byte, if_neg (Nat.ne_of_gt hk)]
    exact ih (fun c hc => h c (List.mem_cons_of_mem _ hc))

theorem Mem.byte_put (m : Mem) (a b : Nat) (v : BitVec 8) : (m.put a v).byte b = if b = a then v else m.byte b := by
  induction m with
  | nil => simp [Mem.put, Mem.byte, eq_comm]
  | cons p t ih =>
    obtain ⟨k, u⟩ := p
    by_cases hk : k = a
    · subst hk
      by_cases hb : b = k
      · simp [Mem.put, Mem.byte, hb]
      · simp [Mem.put, Mem.byte, hb, Ne.symm hb]
    · by_cases hlt : a < k
      · by_cases hb : b = a
        · simp [Mem.put, Mem.byte, hk, hlt, hb]
        · simp [Mem.put, Mem.byte, hk, hlt, hb, Ne.symm hb]
      · simp only [Mem.put, if_neg hk, if_neg hlt, Mem.byte, ih]
        by_cases hb : k = b
        · subst hb; simp [hk]
        · simp [hb]

theorem Mem.byte_filter_ne (m : Mem) (a b : Nat) :
    Mem.byte (m.filter (fun c => c.1 != a)) b = if b = a then 0 else m.byte b := by
  induction m with
  | nil => simp
  | cons p t ih =>
    obtain ⟨k, u⟩ := p
    by_cases hk : k = a
    · subst hk
      by_cases hb : b = k
      · subst hb; simpa using ih
      · simpa [Mem.byte, hb, Ne.symm hb] using ih
    · by_cases hb : k = b
      · subst hb; simp [Mem.byte, hk]
      · simpa [hk, Mem.byte, hb] using ih

/-- A byte written reads as written, and every other byte as before. -/
theorem Mem.byte_set (m : Mem) (a b : Nat) (v : BitVec 8) : (m.set a v).byte b = if b = a then v else m.byte b := by
  unfold Mem.set
  split
  · rename_i h
    rw [Mem.byte_filter_ne, h]
  · exact Mem.byte_put m a b v

theorem Mem.byte_write_other (m : Mem) (a n v b : Nat) (h : b < a ∨ a + n ≤ b) : (m.write a n v).byte b = m.byte b := by
  induction n generalizing m a v with
  | zero => rfl
  | succ n ih =>
    rw [Mem.write, ih _ _ _ (by omega), Mem.byte_set, if_neg (by omega)]

theorem Mem.byte_write (m : Mem) (a n v i : Nat) (h : i < n) :
    (m.write a n v).byte (a + i) = BitVec.ofNat 8 (v / 256 ^ i) := by
  induction n generalizing m a v i with
  | zero => omega
  | succ n ih =>
    cases i with
    | zero =>
      rw [Mem.write, Mem.byte_write_other _ _ _ _ _ (by omega), Mem.byte_set]
      simp
    | succ i =>
      rw [Mem.write, show a + (i + 1) = a + 1 + i by omega, ih _ _ _ _ (by omega), Nat.div_div_eq_div_mul, pow_succ']

/-- Reading depends on the bytes read alone. -/
theorem Mem.read_congr (m k : Mem) (a n : Nat) (h : ∀ b, a ≤ b → b < a + n → m.byte b = k.byte b) :
    m.read a n = k.read a n := by
  induction n generalizing a with
  | zero => rfl
  | succ n ih =>
    rw [Mem.read, Mem.read, h a (by omega) (by omega), ih (a + 1) (fun b h1 h2 => h b (by omega) (by omega))]

theorem Mem.read_lt (m : Mem) (a n : Nat) : m.read a n < 256 ^ n := by
  induction n generalizing a with
  | zero => simp [Mem.read]
  | succ n ih =>
    have h1 := ih (a + 1)
    have h2 := (m.byte a).isLt
    rw [Mem.read, pow_succ']
    omega

end Sys2Proof.Machine
end

