-- ==== Sys2Proof/Laws/PerInstr.lean ====
section
/-! SUPPORT. A law of every instruction as syntax: no instruction has a word in both maps. -/

namespace Sys2Proof.Laws.OneMap

/-- An instruction has a word in the hart map (R58), in the logit map (R346), or in neither, never in both. -/
def Statement (i : Instr) : Prop := encode i = none ∨ encodeLogit i = none

theorem add (d a b : BitVec 5) : Statement (.add d a b) := .inr rfl
theorem sub (d a b : BitVec 5) : Statement (.sub d a b) := .inr rfl
theorem and (d a b : BitVec 5) : Statement (.and d a b) := .inr rfl
theorem or (d a b : BitVec 5) : Statement (.or d a b) := .inr rfl
theorem xor (d a b : BitVec 5) : Statement (.xor d a b) := .inr rfl
theorem sll (d a b : BitVec 5) : Statement (.sll d a b) := .inr rfl
theorem srl (d a b : BitVec 5) : Statement (.srl d a b) := .inr rfl
theorem sra (d a b : BitVec 5) : Statement (.sra d a b) := .inr rfl
theorem mul (d a b : BitVec 5) : Statement (.mul d a b) := .inr rfl
theorem mulh (d a b : BitVec 5) : Statement (.mulh d a b) := .inr rfl
theorem mulhu (d a b : BitVec 5) : Statement (.mulhu d a b) := .inr rfl
theorem div (d a b : BitVec 5) : Statement (.div d a b) := .inr rfl
theorem divu (d a b : BitVec 5) : Statement (.divu d a b) := .inr rfl
theorem rem (d a b : BitVec 5) : Statement (.rem d a b) := .inr rfl
theorem remu (d a b : BitVec 5) : Statement (.remu d a b) := .inr rfl
theorem slt (d a b : BitVec 5) : Statement (.slt d a b) := .inr rfl
theorem sltu (d a b : BitVec 5) : Statement (.sltu d a b) := .inr rfl
theorem seq (d a b : BitVec 5) : Statement (.seq d a b) := .inr rfl
theorem sne (d a b : BitVec 5) : Statement (.sne d a b) := .inr rfl
theorem min (d a b : BitVec 5) : Statement (.min d a b) := .inr rfl
theorem max (d a b : BitVec 5) : Statement (.max d a b) := .inr rfl
theorem minu (d a b : BitVec 5) : Statement (.minu d a b) := .inr rfl
theorem maxu (d a b : BitVec 5) : Statement (.maxu d a b) := .inr rfl
theorem slli (d a : BitVec 5) (sh : BitVec 6) : Statement (.slli d a sh) := .inr rfl
theorem srli (d a : BitVec 5) (sh : BitVec 6) : Statement (.srli d a sh) := .inr rfl
theorem srai (d a : BitVec 5) (sh : BitVec 6) : Statement (.srai d a sh) := .inr rfl
theorem andi (d a : BitVec 5) (imm : BitVec 11) : Statement (.andi d a imm) := .inr rfl
theorem ori (d a : BitVec 5) (imm : BitVec 11) : Statement (.ori d a imm) := .inr rfl
theorem xori (d a : BitVec 5) (imm : BitVec 11) : Statement (.xori d a imm) := .inr rfl
theorem slti (d a : BitVec 5) (imm : BitVec 11) : Statement (.slti d a imm) := .inr rfl
theorem sltiu (d a : BitVec 5) (imm : BitVec 11) : Statement (.sltiu d a imm) := .inr rfl
theorem addi (d a : BitVec 5) (imm : BitVec 16) : Statement (.addi d a imm) := .inr rfl
theorem lui (d : BitVec 5) (imm : BitVec 21) : Statement (.lui d imm) := .inr rfl
theorem aupc (d : BitVec 5) (imm : BitVec 21) : Statement (.aupc d imm) := .inr rfl
theorem fadd (d a b : BitVec 5) (t : BitVec 2) (rm : BitVec 3) : Statement (.fadd d a b t rm) := .inr rfl
theorem fsub (d a b : BitVec 5) (t : BitVec 2) (rm : BitVec 3) : Statement (.fsub d a b t rm) := .inr rfl
theorem fmul (d a b : BitVec 5) (t : BitVec 2) (rm : BitVec 3) : Statement (.fmul d a b t rm) := .inr rfl
theorem fma (d a b : BitVec 5) (t : BitVec 2) (rm : BitVec 3) : Statement (.fma d a b t rm) := .inr rfl
theorem fmin (d a b : BitVec 5) (t : BitVec 2) : Statement (.fmin d a b t) := .inr rfl
theorem fmax (d a b : BitVec 5) (t : BitVec 2) : Statement (.fmax d a b t) := .inr rfl
theorem feq (d a b : BitVec 5) (t : BitVec 2) : Statement (.feq d a b t) := .inr rfl
theorem flt (d a b : BitVec 5) (t : BitVec 2) : Statement (.flt d a b t) := .inr rfl
theorem fle (d a b : BitVec 5) (t : BitVec 2) : Statement (.fle d a b t) := .inr rfl
theorem fcvtFpFp (d a : BitVec 5) (t : BitVec 2) (rm : BitVec 3) : Statement (.fcvtFpFp d a t rm) := .inr rfl
theorem fcvtToI64 (d a : BitVec 5) (t : BitVec 2) (rm : BitVec 3) : Statement (.fcvtToI64 d a t rm) := .inr rfl
theorem fcvtToN64 (d a : BitVec 5) (t : BitVec 2) (rm : BitVec 3) : Statement (.fcvtToN64 d a t rm) := .inr rfl
theorem fcvtFromI64 (d a : BitVec 5) (t : BitVec 2) (rm : BitVec 3) : Statement (.fcvtFromI64 d a t rm) := .inr rfl
theorem fcvtFromN64 (d a : BitVec 5) (t : BitVec 2) (rm : BitVec 3) : Statement (.fcvtFromN64 d a t rm) := .inr rfl
theorem ld (d a : BitVec 5) (off : BitVec 8) (ordsc : BitVec 4) (sp : BitVec 1) (ty : BitVec 3) : Statement (.ld d a off ordsc sp ty) := .inr rfl
theorem st (v a : BitVec 5) (off : BitVec 8) (ordsc : BitVec 4) (sp : BitVec 1) (ty : BitVec 3) : Statement (.st v a off ordsc sp ty) := .inr rfl
theorem beq (a b : BitVec 5) (off : BitVec 13) : Statement (.beq a b off) := .inr rfl
theorem bne (a b : BitVec 5) (off : BitVec 13) : Statement (.bne a b off) := .inr rfl
theorem blt (a b : BitVec 5) (off : BitVec 13) : Statement (.blt a b off) := .inr rfl
theorem bge (a b : BitVec 5) (off : BitVec 13) : Statement (.bge a b off) := .inr rfl
theorem bltu (a b : BitVec 5) (off : BitVec 13) : Statement (.bltu a b off) := .inr rfl
theorem bgeu (a b : BitVec 5) (off : BitVec 13) : Statement (.bgeu a b off) := .inr rfl
theorem j (imm : BitVec 21) : Statement (.j imm) := .inr rfl
theorem call (imm : BitVec 21) : Statement (.call imm) := .inr rfl
theorem jr (a : BitVec 5) : Statement (.jr a) := .inr rfl
theorem callr (a : BitVec 5) : Statement (.callr a) := .inr rfl
theorem aadd (o : Atom) : Statement (.aadd o) := .inr rfl
theorem aswap (o : Atom) : Statement (.aswap o) := .inr rfl
theorem aand (o : Atom) : Statement (.aand o) := .inr rfl
theorem aor (o : Atom) : Statement (.aor o) := .inr rfl
theorem aminI (o : Atom) : Statement (.aminI o) := .inr rfl
theorem amaxI (o : Atom) : Statement (.amaxI o) := .inr rfl
theorem aminN (o : Atom) : Statement (.aminN o) := .inr rfl
theorem amaxN (o : Atom) : Statement (.amaxN o) := .inr rfl
theorem acas (o : Atom) : Statement (.acas o) := .inr rfl
theorem fenceSv (sc : BitVec 3) : Statement (.fenceSv sc) := .inr rfl
theorem fenceVs (sc : BitVec 3) : Statement (.fenceVs sc) := .inr rfl
theorem fenceVv (sc : BitVec 3) : Statement (.fenceVv sc) := .inr rfl
theorem fenceAll (sc : BitVec 3) : Statement (.fenceAll sc) := .inr rfl
theorem fenceBinsRel (sc : BitVec 3) : Statement (.fenceBinsRel sc) := .inr rfl
theorem tkpush (id : BitVec 5) : Statement (.tkpush id) := .inr rfl
theorem tkpop (id : BitVec 5) : Statement (.tkpop id) := .inr rfl
theorem wtime (d a : BitVec 5) : Statement (.wtime d a) := .inr rfl
theorem mfs (d : BitVec 5) (n : BitVec 12) : Statement (.mfs d n) := .inr rfl
theorem mts (a : BitVec 5) (n : BitVec 12) : Statement (.mts a n) := .inr rfl
theorem glaunch (d a : BitVec 5) : Statement (.glaunch d a) := .inr rfl
theorem gbar (g : BitVec 2) : Statement (.gbar g) := .inr rfl
theorem hsusp (a : BitVec 5) : Statement (.hsusp a) := .inr rfl
theorem hsave (b a : BitVec 5) : Statement (.hsave b a) := .inr rfl
theorem hload (b a : BitVec 5) : Statement (.hload b a) := .inr rfl
theorem tret : Statement (.tret) := .inr rfl
theorem hend : Statement (.hend) := .inr rfl
theorem pfx (mask copy : BitVec 5) (pop push hint : BitVec 4) : Statement (.pfx mask copy pop push hint) := .inr rfl
theorem qld (q : BitVec 4) (a : BitVec 5) (sp : BitVec 1) (imm : BitVec 6) : Statement (.qld q a sp imm) := .inr rfl
theorem qbase (q : BitVec 4) (a : BitVec 5) : Statement (.qbase q a) := .inr rfl
theorem qstride (q : BitVec 4) (a : BitVec 5) : Statement (.qstride q a) := .inr rfl
theorem qbound (q : BitVec 4) (a : BitVec 5) : Statement (.qbound q a) := .inr rfl
theorem qcur (q : BitVec 4) (a : BitVec 5) : Statement (.qcur q a) := .inr rfl
theorem qcfg (q : BitVec 4) (a : BitVec 5) : Statement (.qcfg q a) := .inr rfl
theorem qget (d : BitVec 5) (q : BitVec 4) (sel : BitVec 6) : Statement (.qget d q sel) := .inr rfl
theorem qrel (q : BitVec 4) : Statement (.qrel q) := .inr rfl
theorem qprobe (d a : BitVec 5) : Statement (.qprobe d a) := .inr rfl
theorem sbar (qs : BitVec 1) (sc : BitVec 3) (qmask : BitVec 16) : Statement (.sbar qs sc qmask) := .inr rfl
theorem qwatch (a b : BitVec 5) (q : BitVec 4) : Statement (.qwatch a b q) := .inr rfl
theorem qunwatch (q : BitVec 4) : Statement (.qunwatch q) := .inr rfl
theorem qwait (a d : BitVec 5) (q : BitVec 4) : Statement (.qwait a d q) := .inr rfl
theorem wmpub (a b : BitVec 5) (sc : BitVec 3) : Statement (.wmpub a b sc) := .inr rfl
theorem vsetl (d a : BitVec 5) (c : BitVec 1) : Statement (.vsetl d a c) := .inr rfl
theorem vsettype (d : BitVec 5) (cls : BitVec 4) (sew lmode : BitVec 2) (c : BitVec 1) : Statement (.vsettype d cls sew lmode c) := .inr rfl
theorem vadd (o : VBin) : Statement (.vadd o) := .inr rfl
theorem vsub (o : VBin) : Statement (.vsub o) := .inr rfl
theorem vmul (o : VBin) : Statement (.vmul o) := .inr rfl
theorem vmulhI (o : VBin) : Statement (.vmulhI o) := .inr rfl
theorem vmulhN (o : VBin) : Statement (.vmulhN o) := .inr rfl
theorem vdivI (o : VBin) : Statement (.vdivI o) := .inr rfl
theorem vdivN (o : VBin) : Statement (.vdivN o) := .inr rfl
theorem vremI (o : VBin) : Statement (.vremI o) := .inr rfl
theorem vremN (o : VBin) : Statement (.vremN o) := .inr rfl
theorem vminI (o : VBin) : Statement (.vminI o) := .inr rfl
theorem vmaxI (o : VBin) : Statement (.vmaxI o) := .inr rfl
theorem vminN (o : VBin) : Statement (.vminN o) := .inr rfl
theorem vmaxN (o : VBin) : Statement (.vmaxN o) := .inr rfl
theorem vand (o : VBin) : Statement (.vand o) := .inr rfl
theorem vor (o : VBin) : Statement (.vor o) := .inr rfl
theorem vxor (o : VBin) : Statement (.vxor o) := .inr rfl
theorem vsll (o : VBin) : Statement (.vsll o) := .inr rfl
theorem vsrl (o : VBin) : Statement (.vsrl o) := .inr rfl
theorem vsra (o : VBin) : Statement (.vsra o) := .inr rfl
theorem vaddSatI (o : VBin) : Statement (.vaddSatI o) := .inr rfl
theorem vaddSatN (o : VBin) : Statement (.vaddSatN o) := .inr rfl
theorem vsubSatI (o : VBin) : Statement (.vsubSatI o) := .inr rfl
theorem vsubSatN (o : VBin) : Statement (.vsubSatN o) := .inr rfl
theorem vmacc (o : VBin) : Statement (.vmacc o) := .inr rfl
theorem vmeq (o : VBin) : Statement (.vmeq o) := .inr rfl
theorem vmne (o : VBin) : Statement (.vmne o) := .inr rfl
theorem vmltI (o : VBin) : Statement (.vmltI o) := .inr rfl
theorem vmleI (o : VBin) : Statement (.vmleI o) := .inr rfl
theorem vmltN (o : VBin) : Statement (.vmltN o) := .inr rfl
theorem vmleN (o : VBin) : Statement (.vmleN o) := .inr rfl
theorem vmov (o : VUn) : Statement (.vmov o) := .inr rfl
theorem vbcast (o : VUn) : Statement (.vbcast o) := .inr rfl
theorem vid (d : BitVec 5) (m c : BitVec 1) (x : BitVec 2) : Statement (.vid d m c x) := .inr rfl
theorem vaddFp (o : VBin) : Statement (.vaddFp o) := .inr rfl
theorem vsubFp (o : VBin) : Statement (.vsubFp o) := .inr rfl
theorem vmulFp (o : VBin) : Statement (.vmulFp o) := .inr rfl
theorem vdivFp (o : VBin) : Statement (.vdivFp o) := .inr rfl
theorem vfma (o : VBin) : Statement (.vfma o) := .inr rfl
theorem vfms (o : VBin) : Statement (.vfms o) := .inr rfl
theorem vfnma (o : VBin) : Statement (.vfnma o) := .inr rfl
theorem vsqrt (o : VUn) : Statement (.vsqrt o) := .inr rfl
theorem vminFp (o : VBin) : Statement (.vminFp o) := .inr rfl
theorem vmaxFp (o : VBin) : Statement (.vmaxFp o) := .inr rfl
theorem vabs (o : VUn) : Statement (.vabs o) := .inr rfl
theorem vneg (o : VUn) : Statement (.vneg o) := .inr rfl
theorem vmfeq (o : VBin) : Statement (.vmfeq o) := .inr rfl
theorem vmfne (o : VBin) : Statement (.vmfne o) := .inr rfl
theorem vmflt (o : VBin) : Statement (.vmflt o) := .inr rfl
theorem vmfle (o : VBin) : Statement (.vmfle o) := .inr rfl
theorem vcvtFpToIeee (o : VCvt) : Statement (.vcvtFpToIeee o) := .inr rfl
theorem vcvtFpToBf16 (o : VCvt) : Statement (.vcvtFpToBf16 o) := .inr rfl
theorem vcvtFpToE4m3 (o : VCvt) : Statement (.vcvtFpToE4m3 o) := .inr rfl
theorem vcvtFpToE5m2 (o : VCvt) : Statement (.vcvtFpToE5m2 o) := .inr rfl
theorem vcvtFpToI (o : VCvt) : Statement (.vcvtFpToI o) := .inr rfl
theorem vcvtFpToN (o : VCvt) : Statement (.vcvtFpToN o) := .inr rfl
theorem vcvtIToIeee (o : VCvt) : Statement (.vcvtIToIeee o) := .inr rfl
theorem vcvtIToBf16 (o : VCvt) : Statement (.vcvtIToBf16 o) := .inr rfl
theorem vcvtIToE4m3 (o : VCvt) : Statement (.vcvtIToE4m3 o) := .inr rfl
theorem vcvtIToE5m2 (o : VCvt) : Statement (.vcvtIToE5m2 o) := .inr rfl
theorem vcvtNToIeee (o : VCvt) : Statement (.vcvtNToIeee o) := .inr rfl
theorem vcvtNToBf16 (o : VCvt) : Statement (.vcvtNToBf16 o) := .inr rfl
theorem vcvtNToE4m3 (o : VCvt) : Statement (.vcvtNToE4m3 o) := .inr rfl
theorem vcvtNToE5m2 (o : VCvt) : Statement (.vcvtNToE5m2 o) := .inr rfl
theorem vcvtIntToI (o : VCvt) : Statement (.vcvtIntToI o) := .inr rfl
theorem vcvtIntToN (o : VCvt) : Statement (.vcvtIntToN o) := .inr rfl
theorem vwmulI (o : VTri) : Statement (.vwmulI o) := .inr rfl
theorem vwmulN (o : VTri) : Statement (.vwmulN o) := .inr rfl
theorem vwmaccI (o : VTri) : Statement (.vwmaccI o) := .inr rfl
theorem vwmaccN (o : VTri) : Statement (.vwmaccN o) := .inr rfl
theorem vwmulFp (o : VTri) : Statement (.vwmulFp o) := .inr rfl
theorem vwmaccFp (o : VTri) : Statement (.vwmaccFp o) := .inr rfl
theorem vdot4I8 (d a b : BitVec 5) (m c : BitVec 1) : Statement (.vdot4I8 d a b m c) := .inr rfl
theorem vdot4N8 (d a b : BitVec 5) (m c : BitVec 1) : Statement (.vdot4N8 d a b m c) := .inr rfl
theorem vsmul (o : VTri) : Statement (.vsmul o) := .inr rfl
theorem vsmacc (o : VTri) : Statement (.vsmacc o) := .inr rfl
theorem vredsum (o : VTri) : Statement (.vredsum o) := .inr rfl
theorem vredosum (o : VTri) : Statement (.vredosum o) := .inr rfl
theorem vredmax (o : VTri) : Statement (.vredmax o) := .inr rfl
theorem vredmin (o : VTri) : Statement (.vredmin o) := .inr rfl
theorem vredmaxN (o : VTri) : Statement (.vredmaxN o) := .inr rfl
theorem vredminN (o : VTri) : Statement (.vredminN o) := .inr rfl
theorem vredand (o : VTri) : Statement (.vredand o) := .inr rfl
theorem vredor (o : VTri) : Statement (.vredor o) := .inr rfl
theorem vredxor (o : VTri) : Statement (.vredxor o) := .inr rfl
theorem vscan (o : VUn) : Statement (.vscan o) := .inr rfl
theorem vscano (o : VUn) : Statement (.vscano o) := .inr rfl
theorem vscanmax (o : VUn) : Statement (.vscanmax o) := .inr rfl
theorem vscanmin (o : VUn) : Statement (.vscanmin o) := .inr rfl
theorem vscanmaxN (o : VUn) : Statement (.vscanmaxN o) := .inr rfl
theorem vscanminN (o : VUn) : Statement (.vscanminN o) := .inr rfl
theorem vrgath (o : VTri) : Statement (.vrgath o) := .inr rfl
theorem vslideup (o : VTri) : Statement (.vslideup o) := .inr rfl
theorem vslidedn (o : VTri) : Statement (.vslidedn o) := .inr rfl
theorem vslide1up (o : VTri) : Statement (.vslide1up o) := .inr rfl
theorem vslide1dn (o : VTri) : Statement (.vslide1dn o) := .inr rfl
theorem vcomp (o : VUn) : Statement (.vcomp o) := .inr rfl
theorem vexpand (o : VUn) : Statement (.vexpand o) := .inr rfl
theorem vmvS (d a : BitVec 5) (c : BitVec 1) (x : BitVec 2) : Statement (.vmvS d a c x) := .inr rfl
theorem vmvV (d a : BitVec 5) (c : BitVec 1) (x : BitVec 2) : Statement (.vmvV d a c x) := .inr rfl
theorem vmvX (d a b : BitVec 5) (c : BitVec 1) (x : BitVec 2) : Statement (.vmvX d a b c x) := .inr rfl
theorem vmand (d a b : BitVec 5) (c : BitVec 1) : Statement (.vmand d a b c) := .inr rfl
theorem vmor (d a b : BitVec 5) (c : BitVec 1) : Statement (.vmor d a b c) := .inr rfl
theorem vmxor (d a b : BitVec 5) (c : BitVec 1) : Statement (.vmxor d a b c) := .inr rfl
theorem vmandn (d a b : BitVec 5) (c : BitVec 1) : Statement (.vmandn d a b c) := .inr rfl
theorem vmnot (d a : BitVec 5) (c : BitVec 1) : Statement (.vmnot d a c) := .inr rfl
theorem vpop (d a : BitVec 5) (m c : BitVec 1) : Statement (.vpop d a m c) := .inr rfl
theorem vfirst (d a : BitVec 5) (m c : BitVec 1) : Statement (.vfirst d a m c) := .inr rfl
theorem vmsbf (d a : BitVec 5) (m c : BitVec 1) : Statement (.vmsbf d a m c) := .inr rfl
theorem vmsif (d a : BitVec 5) (m c : BitVec 1) : Statement (.vmsif d a m c) := .inr rfl
theorem vmsof (d a : BitVec 5) (m c : BitVec 1) : Statement (.vmsof d a m c) := .inr rfl
theorem vconf (o : VUn) : Statement (.vconf o) := .inr rfl
theorem vconfm (o : VTri) : Statement (.vconfm o) := .inr rfl
theorem vpart (d a : BitVec 5) (m c : BitVec 1) : Statement (.vpart d a m c) := .inr rfl
theorem vrun (d a : BitVec 5) (m c : BitVec 1) : Statement (.vrun d a m c) := .inr rfl
theorem vmset (d : BitVec 5) (c : BitVec 1) : Statement (.vmset d c) := .inr rfl
theorem vmclr (d : BitVec 5) (c : BitVec 1) : Statement (.vmclr d c) := .inr rfl
theorem vld (d : BitVec 5) (q : BitVec 4) (m c : BitVec 1) : Statement (.vld d q m c) := .inr rfl
theorem vldff (d : BitVec 5) (q : BitVec 4) (m c : BitVec 1) : Statement (.vldff d q m c) := .inr rfl
theorem vst (v : BitVec 5) (q : BitVec 4) (m c : BitVec 1) : Statement (.vst v q m c) := .inr rfl
theorem vldx (d a : BitVec 5) (q : BitVec 4) (m c : BitVec 1) : Statement (.vldx d a q m c) := .inr rfl
theorem vstx (v a : BitVec 5) (q : BitVec 4) (m c : BitVec 1) : Statement (.vstx v a q m c) := .inr rfl
theorem vstxu (v a : BitVec 5) (q : BitVec 4) (m c : BitVec 1) : Statement (.vstxu v a q m c) := .inr rfl
theorem vsadd (v a : BitVec 5) (q : BitVec 4) (m c : BitVec 1) : Statement (.vsadd v a q m c) := .inr rfl
theorem vwait (d : BitVec 5) (q : BitVec 4) (c : BitVec 1) : Statement (.vwait d q c) := .inr rfl
theorem vcbld (q : BitVec 4) (c : BitVec 1) : Statement (.vcbld q c) := .inr rfl
theorem mmr (d a : BitVec 5) (fmt : BitVec 3) (i r : BitVec 1) (t : BitVec 2) : Statement (.mmr d a fmt i r t) := .inr rfl
theorem mms (d a : BitVec 5) (fmt : BitVec 3) (i r : BitVec 1) (t : BitVec 2) : Statement (.mms d a fmt i r t) := .inr rfl
theorem mmqSq (d a b : BitVec 5) (fmt : BitVec 3) (i r : BitVec 1) (t : BitVec 2) : Statement (.mmqSq d a b fmt i r t) := .inr rfl
theorem mmqAb (d a b : BitVec 5) (fmt : BitVec 3) (i r : BitVec 1) (t : BitVec 2) : Statement (.mmqAb d a b fmt i r t) := .inr rfl
theorem mmsp (d a b : BitVec 5) (fmt : BitVec 3) (i r : BitVec 1) (t : BitVec 2) : Statement (.mmsp d a b fmt i r t) := .inr rfl
theorem mldWb (a : BitVec 5) (fmt : BitVec 3) (r : BitVec 1) (t : BitVec 2) : Statement (.mldWb a fmt r t) := .inr rfl
theorem mldSq (a : BitVec 5) (fmt : BitVec 3) (r : BitVec 1) (t : BitVec 2) : Statement (.mldSq a fmt r t) := .inr rfl
theorem mldsWb (a : BitVec 5) (r : BitVec 1) (t : BitVec 2) : Statement (.mldsWb a r t) := .inr rfl
theorem mldsSq (a : BitVec 5) (r : BitVec 1) (t : BitVec 2) : Statement (.mldsSq a r t) := .inr rfl
theorem mclr (d b : BitVec 5) (i r : BitVec 1) : Statement (.mclr d b i r) := .inr rfl
theorem mrd (d a : BitVec 5) (i r : BitVec 1) : Statement (.mrd d a i r) := .inr rfl
theorem mmov (d a b : BitVec 5) (i r : BitVec 1) : Statement (.mmov d a b i r) := .inr rfl
theorem cpGo (o : Copy) : Statement (.cpGo o) := .inr rfl
theorem cpXpd (o : Xpd) : Statement (.cpXpd o) := .inr rfl
theorem cpShape (ck : BitVec 2) (a b : BitVec 5) : Statement (.cpShape ck a b) := .inr rfl
theorem cpCnt (d : BitVec 5) : Statement (.cpCnt d) := .inr rfl
theorem bayTakeFix (d a : BitVec 5) (w : BitVec 1) : Statement (.bayTakeFix d a w) := .inr rfl
theorem bayTakeNeg (d a b : BitVec 5) (w : BitVec 1) : Statement (.bayTakeNeg d a b w) := .inr rfl
theorem bayGive (a : BitVec 5) : Statement (.bayGive a) := .inr rfl
theorem bayRetFin : Statement (.bayRetFin) := .inr rfl
theorem bayRetSum : Statement (.bayRetSum) := .inr rfl
theorem bayRetRef : Statement (.bayRetRef) := .inr rfl
theorem smpReq (d a : BitVec 5) (w : BitVec 1) (fl : BitVec 3) : Statement (.smpReq d a w fl) := .inr rfl
theorem smpTld (d a b : BitVec 5) (w : BitVec 1) : Statement (.smpTld d a b w) := .inr rfl
theorem smpTst (d a b : BitVec 5) (w : BitVec 1) : Statement (.smpTst d a b w) := .inr rfl
theorem smpPld (d a b : BitVec 5) (w : BitVec 1) : Statement (.smpPld d a b w) := .inr rfl
theorem ladd (d : BitVec 4) (p : BitVec 2) (a b : BitVec 4) : Statement (.ladd d p a b) := .inl rfl
theorem lsub (d : BitVec 4) (p : BitVec 2) (a b : BitVec 4) : Statement (.lsub d p a b) := .inl rfl
theorem lmul (d : BitVec 4) (p : BitVec 2) (a b : BitVec 4) : Statement (.lmul d p a b) := .inl rfl
theorem lfma (d : BitVec 4) (p : BitVec 2) (a b : BitVec 4) : Statement (.lfma d p a b) := .inl rfl
theorem lmin (d : BitVec 4) (p : BitVec 2) (a b : BitVec 4) : Statement (.lmin d p a b) := .inl rfl
theorem lmax (d : BitVec 4) (p : BitVec 2) (a b : BitVec 4) : Statement (.lmax d p a b) := .inl rfl
theorem lmov (d : BitVec 4) (p : BitVec 2) (a : BitVec 4) : Statement (.lmov d p a) := .inl rfl
theorem lneg (d : BitVec 4) (p : BitVec 2) (a : BitVec 4) : Statement (.lneg d p a) := .inl rfl
theorem lconst (d : BitVec 4) (p : BitVec 2) (imm : BitVec 16) : Statement (.lconst d p imm) := .inl rfl
theorem lconstl (d : BitVec 4) (p : BitVec 2) (imm : BitVec 16) : Statement (.lconstl d p imm) := .inl rfl
theorem lcnt (d : BitVec 4) (p : BitVec 2) : Statement (.lcnt d p) := .inl rfl
theorem lbias (d : BitVec 4) (p : BitVec 2) (a : BitVec 4) : Statement (.lbias d p a) := .inl rfl
theorem lcmplt (p : BitVec 2) (a b : BitVec 4) : Statement (.lcmplt p a b) := .inl rfl
theorem lcmpeq (p : BitVec 2) (a b : BitVec 4) : Statement (.lcmpeq p a b) := .inl rfl
theorem lmask (p : BitVec 2) : Statement (.lmask p) := .inl rfl
theorem lret (p : BitVec 2) (a : BitVec 4) : Statement (.lret p a) := .inl rfl
theorem lcnti (d : BitVec 4) (p : BitVec 2) (a : BitVec 4) : Statement (.lcnti d p a) := .inl rfl
theorem lbiasi (d : BitVec 4) (p : BitVec 2) (a : BitVec 4) : Statement (.lbiasi d p a) := .inl rfl
theorem lcmple (p : BitVec 2) (a b : BitVec 4) : Statement (.lcmple p a b) := .inl rfl
theorem xinvPageCore (va : BitVec 64) (ctx : BitVec 5) : Statement (.xinvPageCore va ctx) := .inr rfl
theorem xinvContextCore (ctx : BitVec 5) : Statement (.xinvContextCore ctx) := .inr rfl
theorem xinvPageAll (va : BitVec 64) (ctx : BitVec 5) : Statement (.xinvPageAll va ctx) := .inr rfl
theorem xinvContextAll (ctx : BitVec 5) : Statement (.xinvContextAll ctx) := .inr rfl
theorem rsvcfgWrite (v : BitVec 64) : Statement (.rsvcfgWrite v) := .inr rfl
theorem rsvbudWrite (k : BitVec 3) (v : BitVec 64) : Statement (.rsvbudWrite k v) := .inr rfl
theorem trapRingRegWrite (k : BitVec 2) (v : BitVec 64) : Statement (.trapRingRegWrite k v) := .inr rfl
theorem fflagsWrite (v : BitVec 64) : Statement (.fflagsWrite v) := .inr rfl
theorem frameBoundary : Statement (.frameBoundary) := .inr rfl
theorem energyCeilingReached : Statement (.energyCeilingReached) := .inr rfl
theorem deadlineReached (hid : BitVec 11) (src : BitVec 3) : Statement (.deadlineReached hid src) := .inr rfl
theorem memLatencyMiss (hid : BitVec 11) : Statement (.memLatencyMiss hid) := .inr rfl
theorem tokenDeadlock (hid : BitVec 11) : Statement (.tokenDeadlock hid) := .inr rfl
theorem waitedAdmission (hid : BitVec 11) : Statement (.waitedAdmission hid) := .inr rfl
theorem admissionWaitTimeout (hid : BitVec 11) : Statement (.admissionWaitTimeout hid) := .inr rfl
theorem vectorStart (hid : BitVec 11) : Statement (.vectorStart hid) := .inr rfl
theorem matrixStart (hid : BitVec 11) : Statement (.matrixStart hid) := .inr rfl
theorem instructionRetire (hid : BitVec 11) (eng : BitVec 3) : Statement (.instructionRetire hid eng) := .inr rfl
theorem copyChunk (hid : BitVec 11) : Statement (.copyChunk hid) := .inr rfl
theorem copyComplete (hid : BitVec 11) : Statement (.copyComplete hid) := .inr rfl
theorem lookaheadTranslate (hid : BitVec 11) (q : BitVec 4) : Statement (.lookaheadTranslate hid q) := .inr rfl
theorem watchReread (hid : BitVec 11) : Statement (.watchReread hid) := .inr rfl
theorem qwaitWake (hid : BitVec 11) : Statement (.qwaitWake hid) := .inr rfl
theorem vwaitReread (hid : BitVec 11) : Statement (.vwaitReread hid) := .inr rfl
theorem vwaitTimeout (hid : BitVec 11) : Statement (.vwaitTimeout hid) := .inr rfl
theorem wtimeWake (hid : BitVec 11) : Statement (.wtimeWake hid) := .inr rfl
theorem startWatermarkPoll (gang : BitVec 16) : Statement (.startWatermarkPoll gang) := .inr rfl
theorem gbarDepart (gang : BitVec 16) (g : BitVec 2) (unit : BitVec 8) : Statement (.gbarDepart gang g unit) := .inr rfl
theorem suspensionComplete (hid : BitVec 11) : Statement (.suspensionComplete hid) := .inr rfl
theorem hartEnd (hid : BitVec 11) : Statement (.hartEnd hid) := .inr rfl
theorem gangComplete (gang : BitVec 16) : Statement (.gangComplete gang) := .inr rfl
theorem updateApply : Statement (.updateApply) := .inr rfl
theorem bayGrant (cl : BitVec 5) (h : BitVec 8) : Statement (.bayGrant cl h) := .inr rfl
theorem recallDelivery (cl : BitVec 5) (h : BitVec 8) : Statement (.recallDelivery cl h) := .inr rfl
theorem surrenderUnitOverrun (hid : BitVec 11) : Statement (.surrenderUnitOverrun hid) := .inr rfl
theorem surrenderTimeOverrun (hid : BitVec 11) : Statement (.surrenderTimeOverrun hid) := .inr rfl
theorem samplerStart (cl : BitVec 5) (seq : BitVec 64) : Statement (.samplerStart cl seq) := .inr rfl
theorem samplerWmReread (cl : BitVec 5) (seq : BitVec 64) : Statement (.samplerWmReread cl seq) := .inr rfl
theorem samplerStrip (cl : BitVec 5) (seq : BitVec 64) : Statement (.samplerStrip cl seq) := .inr rfl
theorem samplerCycleOverrun (cl : BitVec 5) (seq : BitVec 64) : Statement (.samplerCycleOverrun cl seq) := .inr rfl
theorem samplerDraw (cl : BitVec 5) (seq : BitVec 64) : Statement (.samplerDraw cl seq) := .inr rfl
theorem tableLoadPerform (cl : BitVec 5) (seq : BitVec 64) : Statement (.tableLoadPerform cl seq) := .inr rfl
theorem tableStorePerform (cl : BitVec 5) (seq : BitVec 64) : Statement (.tableStorePerform cl seq) := .inr rfl
theorem programLoadPerform (cl : BitVec 5) (seq : BitVec 64) : Statement (.programLoadPerform cl seq) := .inr rfl
theorem hostWrite (fn : BitVec 5) (addr : BitVec 64) (n : BitVec 4) (data : BitVec 64) : Statement (.hostWrite fn addr n data) := .inr rfl
theorem hostRead (fn : BitVec 5) (addr : BitVec 64) (n : ReadForm) : Statement (.hostRead fn addr n) := .inr rfl
theorem hostAtomicop (fn : BitVec 5) (op : BitVec 2) (w : BitVec 1) (addr x y : BitVec 64) : Statement (.hostAtomicop fn op w addr x y) := .inr rfl
theorem hostCas16 (fn : BitVec 5) (addr : BitVec 64) : Statement (.hostCas16 fn addr) := .inr rfl
theorem cxlMemWrite (pa : BitVec 52) (n : BitVec 4) (data : BitVec 64) : Statement (.cxlMemWrite pa n data) := .inr rfl
theorem bar2Access (fn : BitVec 5) (wr : BitVec 1) (off : BitVec 40) (n : BitVec 4) (data : BitVec 64) : Statement (.bar2Access fn wr off n data) := .inr rfl
theorem mailboxWrite (fn : BitVec 5) (off : BitVec 12) (v : BitVec 64) : Statement (.mailboxWrite fn off v) := .inr rfl
theorem cqtailDoorbell (fn : BitVec 5) (v : BitVec 64) : Statement (.cqtailDoorbell fn v) := .inr rfl
theorem launch (fn : BitVec 5) : Statement (.launch fn) := .inr rfl
theorem openConnection (fn : BitVec 5) : Statement (.openConnection fn) := .inr rfl
theorem closeConnection (fn : BitVec 5) : Statement (.closeConnection fn) := .inr rfl
theorem readErrorRecord (fn : BitVec 5) : Statement (.readErrorRecord fn) := .inr rfl
theorem unknownCommand (fn : BitVec 5) : Statement (.unknownCommand fn) := .inr rfl
theorem ringTransfer (fn : BitVec 5) (conn : BitVec 8) (rx : BitVec 1) (n : BitVec 4) (data : BitVec 64) : Statement (.ringTransfer fn conn rx n data) := .inr rfl
theorem functionLevelReset (fn : BitVec 5) : Statement (.functionLevelReset fn) := .inr rfl
theorem tdiRun (fn : BitVec 5) : Statement (.tdiRun fn) := .inr rfl
theorem tdiLeaveRun (fn : TdiLeave) : Statement (.tdiLeaveRun fn) := .inr rfl
theorem spdmKeyExchange (st : BitVec 3) : Statement (.spdmKeyExchange st) := .inr rfl
theorem spdmSessionExpiry (st : BitVec 3) : Statement (.spdmSessionExpiry st) := .inr rfl
theorem correctableError (loc : BitVec 3) : Statement (.correctableError loc) := .inr rfl
theorem uncorrectableError (loc : BitVec 3) (unit hid : BitVec 16) (fn : BitVec 5) (pa dva : BitVec 64) : Statement (.uncorrectableError loc unit hid fn pa dva) := .inr rfl
theorem reset : Statement (.reset) := .inr rfl
theorem thermalHold (die : BitVec 5) : Statement (.thermalHold die) := .inr rfl
theorem thermalRelease (die : BitVec 5) : Statement (.thermalRelease die) := .inr rfl
theorem thermalStop : Statement (.thermalStop) := .inr rfl
theorem eceilLower (v : BitVec 32) : Statement (.eceilLower v) := .inr rfl
theorem pldmMonitorRead : Statement (.pldmMonitorRead) := .inr rfl
theorem pageMigrate (src dst : BitVec 36) (pte : BitVec 52) : Statement (.pageMigrate src dst pte) := .inr rfl
theorem wordNotAnInstruction (w : BitVec 32) : Statement (.wordNotAnInstruction w) := .inr rfl
theorem fetchFault (cause : BitVec 8) : Statement (.fetchFault cause) := .inr rfl
theorem tdiLock (fn : BitVec 5) : Statement (.tdiLock fn) := .inr rfl
theorem cxlCacheHostAtomic (op : BitVec 2) (w : BitVec 1) (pa : BitVec 52) (x y : BitVec 64) : Statement (.cxlCacheHostAtomic op w pa x y) := .inr rfl

end Sys2Proof.Laws.OneMap
end

