-- ==== Sys2Proof/Tests/Slice0.lean ====
section
/-! SUPPORT. Tests of the model: words written out from the spec's encodings, the spec's examples and results worked out by
hand, ill-formed terms, and for each obligation with hypotheses a state that meets them. -/

namespace Sys2Proof.Tests
open Sys2Proof.Machine

/-- Four tables that map the 64 KiB pages 5 to 7 of context 0 at their own addresses: page 5 open to all, page 6 read
only, page 7 for the supervisor alone, all with their accessed and dirty bits set. -/
def pages : Mem := Mem.ofFields [(0x10000, 8, 0x20001), (0x20000, 8, 0x30001), (0x30000, 8, 0x40001),
  (0x40028, 8, 0x5067B), (0x40030, 8, 0x6064B), (0x40038, 8, 0x7063B)]

/-- A machine after reset whose core 0 translates through `pages`, with its acting hart changed. -/
def mk (f : Hart → Hart) : State :=
  let s : State := { State.reset with mem := pages }
  let t := s.setCoreAt 0 { s.coreAt 0 with ptroot := (s.coreAt 0).ptroot.set 0 0x10001 }
  t.setHart (f t.hart)

/-- What holds of the next state. -/
def nextIs (o : Host.Outcome State Fault Refusal) (p : State → Bool) : Bool :=
  match o with | .next t => p t | _ => false

/-- The acting hart much later, when what its vector and matrix engines had done is through and has retired. -/
def thru (t : State) : State :=
  let u : State := { t with time := t.time + 4096 }
  u.setHart ((u.hart.through .v).through .m)

theorem next_of {o : Host.Outcome State Fault Refusal} {p : State → Bool} (h : nextIs o p = true) :
    ∃ t, o = .next t ∧ p t = true := by
  cases o with
  | next t => exact ⟨t, rfl, h⟩
  | fault _ => cases h
  | refused _ => cases h

/-- The result, or a default. -/
def got {ε α : Type} (x : Except ε α) (d : α) : α := match x with | .ok a => a | .error _ => d
def isOk {ε α : Type} (x : Except ε α) : Bool := match x with | .ok _ => true | .error _ => false
theorem ok_got {ε α : Type} {x : Except ε α} {d : α} (h : isOk x = true) : x = .ok (got x d) := by
  cases x with
  | ok a => rfl
  | error _ => cases h

/-- What holds of a pair that is the result. -/
def okWith {ε α β : Type} (x : Except ε (α × β)) (p : α → β → Bool) : Bool := match x with | .ok (a, b) => p a b | .error _ => false
theorem ok_with {ε α β : Type} {x : Except ε (α × β)} {p : α → β → Bool} (h : okWith x p = true) : ∃ a b, x = .ok (a, b) ∧ p a b = true := by
  cases x with
  | ok r => exact ⟨r.1, r.2, rfl, h⟩
  | error _ => cases h

theorem some_pair {ε α β : Type} {x : Except ε (α × β)} (h : isOk x = true) : ∃ a b, x = .ok (a, b) := by
  cases x with
  | ok r => exact ⟨r.1, r.2, rfl⟩
  | error _ => cases h

theorem err_of {ε α : Type} {x : Except ε α} (h : isOk x = false) : ∃ e, x = .error e := by
  cases x with
  | ok _ => cases h
  | error e => exact ⟨e, rfl⟩
def isWait {α : Type} (x : Except Stop α) : Bool := match x with | .error (.wait _) => true | _ => false
theorem wait_of {α : Type} {x : Except Stop α} (h : isWait x = true) : ∃ w, x = .error (.wait w) := by
  match x, h with | .error (.wait w), _ => exact ⟨w, rfl⟩
def isTrap {α : Type} (x : Except Stop α) : Bool := match x with | .error (.trap _) => true | _ => false
theorem trap_of {α : Type} {x : Except Stop α} (h : isTrap x = true) : ∃ t, x = .error (.trap t) := by
  cases x with
  | ok _ => cases h
  | error e =>
    cases e with
    | trap t => exact ⟨t, rfl⟩
    | wait _ => cases h


theorem test_decode_integer1 :
    decode 0x04853000 = .ok (.add 4 5 6) ∧
    decode 0x04853040 = .ok (.sub 4 5 6) ∧
    decode 0x04853080 = .ok (.and 4 5 6) ∧
    decode 0x048530C0 = .ok (.or 4 5 6) ∧
    decode 0x04853100 = .ok (.xor 4 5 6) ∧
    decode 0x04853140 = .ok (.sll 4 5 6) ∧
    decode 0x04853180 = .ok (.srl 4 5 6) ∧
    decode 0x048531C0 = .ok (.sra 4 5 6) ∧
    decode 0x04853200 = .ok (.mul 4 5 6) ∧
    decode 0x04853240 = .ok (.mulh 4 5 6) ∧
    decode 0x04853280 = .ok (.mulhu 4 5 6) ∧
    decode 0x048532C0 = .ok (.div 4 5 6) ∧
    decode 0x04853300 = .ok (.divu 4 5 6) ∧
    decode 0x04853340 = .ok (.rem 4 5 6) ∧
    decode 0x04853380 = .ok (.remu 4 5 6) ∧
    decode 0x048533C0 = .ok (.slt 4 5 6) ∧
    decode 0x04853400 = .ok (.sltu 4 5 6) ∧
    decode 0x04853440 = .ok (.seq 4 5 6) ∧
    decode 0x04853480 = .ok (.sne 4 5 6) ∧
    decode 0x048534C0 = .ok (.min 4 5 6) ∧
    decode 0x04853500 = .ok (.max 4 5 6) ∧
    decode 0x04853540 = .ok (.minu 4 5 6) ∧
    decode 0x04853580 = .ok (.maxu 4 5 6) ∧
    decode 0x04850625 = .ok (.slli 4 5 37) :=
  ⟨rfl, rfl, rfl, rfl, rfl, rfl, rfl, rfl, rfl, rfl, rfl, rfl, rfl, rfl, rfl, rfl, rfl, rfl, rfl, rfl, rfl, rfl, rfl, rfl⟩

theorem test_decode_integer2 :
    decode 0x04850665 = .ok (.srli 4 5 37) ∧
    decode 0x048506A5 = .ok (.srai 4 5 37) ∧
    decode 0x0485B6E5 = .ok (.andi 4 5 1445) ∧
    decode 0x0485B725 = .ok (.ori 4 5 1445) ∧
    decode 0x0485B765 = .ok (.xori 4 5 1445) ∧
    decode 0x0485B7A5 = .ok (.slti 4 5 1445) ∧
    decode 0x0485B7E5 = .ok (.sltiu 4 5 1445) ∧
    decode 0x08858005 = .ok (.addi 4 5 32773) ∧
    decode 0x0C900003 = .ok (.lui 4 1048579) :=
  ⟨rfl, rfl, rfl, rfl, rfl, rfl, rfl, rfl, rfl⟩

theorem test_decode_scalarFp :
    decode 0x1085300A = .ok (.fadd 4 5 6 1 2) ∧
    decode 0x1085302A = .ok (.fsub 4 5 6 1 2) ∧
    decode 0x1085304A = .ok (.fmul 4 5 6 1 2) ∧
    decode 0x1085306A = .ok (.fma 4 5 6 1 2) ∧
    decode 0x10853088 = .ok (.fmin 4 5 6 1) ∧
    decode 0x108530A8 = .ok (.fmax 4 5 6 1) ∧
    decode 0x108530C8 = .ok (.feq 4 5 6 1) ∧
    decode 0x108530E8 = .ok (.flt 4 5 6 1) ∧
    decode 0x10853108 = .ok (.fle 4 5 6 1) ∧
    decode 0x1085012A = .ok (.fcvtFpFp 4 5 1 2) ∧
    decode 0x1085014A = .ok (.fcvtToI64 4 5 1 2) ∧
    decode 0x1085016A = .ok (.fcvtToN64 4 5 1 2) ∧
    decode 0x1085018A = .ok (.fcvtFromI64 4 5 1 2) ∧
    decode 0x108501AA = .ok (.fcvtFromN64 4 5 1 2) :=
  ⟨rfl, rfl, rfl, rfl, rfl, rfl, rfl, rfl, rfl, rfl, rfl, rfl, rfl, rfl⟩

theorem test_decode_loadStore :
    decode 0x1485FE3A = .ok (.ld 4 5 254 3 1 2) ∧
    decode 0x1885FE8A = .ok (.st 4 5 254 8 1 2) :=
  ⟨rfl, rfl⟩

theorem test_decode_branch :
    decode 0x20900003 = .ok (.aupc 4 1048579) ∧
    decode 0x1CA61FFD = .ok (.beq 5 6 8189) ∧
    decode 0x1CA63FFD = .ok (.bne 5 6 8189) ∧
    decode 0x1CA65FFD = .ok (.blt 5 6 8189) ∧
    decode 0x1CA67FFD = .ok (.bge 5 6 8189) ∧
    decode 0x1CA69FFD = .ok (.bltu 5 6 8189) ∧
    decode 0x1CA6BFFD = .ok (.bgeu 5 6 8189) ∧
    decode 0x20100003 = .ok (.j 1048579) ∧
    decode 0x20300003 = .ok (.call 1048579) ∧
    decode 0x20450000 = .ok (.jr 5) ∧
    decode 0x20458000 = .ok (.callr 5) :=
  ⟨rfl, rfl, rfl, rfl, rfl, rfl, rfl, rfl, rfl, rfl, rfl⟩

theorem test_decode_atomic :
    decode 0x24853055 = .ok (.aadd ⟨4, 5, 6, 1, 1, 2, 1⟩) ∧
    decode 0x248530D5 = .ok (.aswap ⟨4, 5, 6, 1, 1, 2, 1⟩) ∧
    decode 0x24853155 = .ok (.aand ⟨4, 5, 6, 1, 1, 2, 1⟩) ∧
    decode 0x248531D5 = .ok (.aor ⟨4, 5, 6, 1, 1, 2, 1⟩) ∧
    decode 0x24853255 = .ok (.aminI ⟨4, 5, 6, 1, 1, 2, 1⟩) ∧
    decode 0x248532D5 = .ok (.amaxI ⟨4, 5, 6, 1, 1, 2, 1⟩) ∧
    decode 0x24853355 = .ok (.aminN ⟨4, 5, 6, 1, 1, 2, 1⟩) ∧
    decode 0x248533D5 = .ok (.amaxN ⟨4, 5, 6, 1, 1, 2, 1⟩) ∧
    decode 0x24853455 = .ok (.acas ⟨4, 5, 6, 1, 1, 2, 1⟩) :=
  ⟨rfl, rfl, rfl, rfl, rfl, rfl, rfl, rfl, rfl⟩

theorem test_decode_fenceToken :
    decode 0x28000010 = .ok (.fenceSv 2) ∧
    decode 0x28000050 = .ok (.fenceVs 2) ∧
    decode 0x28000090 = .ok (.fenceVv 2) ∧
    decode 0x280000D0 = .ok (.fenceAll 2) ∧
    decode 0x28000110 = .ok (.fenceBinsRel 2) ∧
    decode 0x28001940 = .ok (.tkpush 3) ∧
    decode 0x28001980 = .ok (.tkpop 3) ∧
    decode 0x288501C0 = .ok (.wtime 4 5) :=
  ⟨rfl, rfl, rfl, rfl, rfl, rfl, rfl, rfl⟩

theorem test_decode_system :
    decode 0x2C800210 = .ok (.mfs 4 528) ∧
    decode 0x2C051210 = .ok (.mts 5 528) ∧
    decode 0x2C852000 = .ok (.glaunch 4 5) ∧
    decode 0x2C003001 = .ok (.gbar 1) ∧
    decode 0x2C054000 = .ok (.hsusp 5) ∧
    decode 0x2CC55000 = .ok (.hsave 6 5) ∧
    decode 0x2CC56000 = .ok (.hload 6 5) ∧
    decode 0x2C007000 = .ok (.tret) ∧
    decode 0x2C008000 = .ok (.hend) :=
  ⟨rfl, rfl, rfl, rfl, rfl, rfl, rfl, rfl, rfl⟩

theorem test_decode_prefix :
    decode 0x40E93405 = .ok (.pfx 7 9 3 4 5) :=
  rfl

theorem test_decode_stream :
    decode 0x4525082B = .ok (.qld 9 5 1 43) ∧
    decode 0x45250040 = .ok (.qbase 9 5) ∧
    decode 0x45250080 = .ok (.qstride 9 5) ∧
    decode 0x452500C0 = .ok (.qbound 9 5) ∧
    decode 0x45250100 = .ok (.qcur 9 5) ∧
    decode 0x45250140 = .ok (.qcfg 9 5) ∧
    decode 0x44804983 = .ok (.qget 4 9 3) ∧
    decode 0x452001C0 = .ok (.qrel 9) ∧
    decode 0x44850200 = .ok (.qprobe 4 5) ∧
    decode 0x48140204 = .ok (.sbar 1 2 516) ∧
    decode 0x48253480 = .ok (.qwatch 5 6 9) ∧
    decode 0x48400480 = .ok (.qunwatch 9) ∧
    decode 0x48652480 = .ok (.qwait 5 4 9) ∧
    decode 0x48853200 = .ok (.wmpub 5 6 2) :=
  ⟨rfl, rfl, rfl, rfl, rfl, rfl, rfl, rfl, rfl, rfl, rfl, rfl, rfl, rfl⟩

theorem test_decode_vectorConfig :
    decode 0x50850004 = .ok (.vsetl 4 5 1) ∧
    decode 0x50866014 = .ok (.vsettype 4 3 1 2 1) :=
  ⟨rfl, rfl⟩

theorem test_decode_vectorInteger1 :
    decode 0x5485320E = .ok (.vadd ⟨4, 5, 6, 1, 1, 1, 2⟩) ∧
    decode 0x5485321E = .ok (.vsub ⟨4, 5, 6, 1, 1, 1, 2⟩) ∧
    decode 0x5485322E = .ok (.vmul ⟨4, 5, 6, 1, 1, 1, 2⟩) ∧
    decode 0x5485323E = .ok (.vmulhI ⟨4, 5, 6, 1, 1, 1, 2⟩) ∧
    decode 0x5485324E = .ok (.vmulhN ⟨4, 5, 6, 1, 1, 1, 2⟩) ∧
    decode 0x5485325E = .ok (.vdivI ⟨4, 5, 6, 1, 1, 1, 2⟩) ∧
    decode 0x5485326E = .ok (.vdivN ⟨4, 5, 6, 1, 1, 1, 2⟩) ∧
    decode 0x5485327E = .ok (.vremI ⟨4, 5, 6, 1, 1, 1, 2⟩) ∧
    decode 0x5485328E = .ok (.vremN ⟨4, 5, 6, 1, 1, 1, 2⟩) ∧
    decode 0x5485329E = .ok (.vminI ⟨4, 5, 6, 1, 1, 1, 2⟩) ∧
    decode 0x548532AE = .ok (.vmaxI ⟨4, 5, 6, 1, 1, 1, 2⟩) ∧
    decode 0x548532BE = .ok (.vminN ⟨4, 5, 6, 1, 1, 1, 2⟩) ∧
    decode 0x548532CE = .ok (.vmaxN ⟨4, 5, 6, 1, 1, 1, 2⟩) ∧
    decode 0x548532DE = .ok (.vand ⟨4, 5, 6, 1, 1, 1, 2⟩) ∧
    decode 0x548532EE = .ok (.vor ⟨4, 5, 6, 1, 1, 1, 2⟩) ∧
    decode 0x548532FE = .ok (.vxor ⟨4, 5, 6, 1, 1, 1, 2⟩) ∧
    decode 0x5485330E = .ok (.vsll ⟨4, 5, 6, 1, 1, 1, 2⟩) ∧
    decode 0x5485331E = .ok (.vsrl ⟨4, 5, 6, 1, 1, 1, 2⟩) ∧
    decode 0x5485332E = .ok (.vsra ⟨4, 5, 6, 1, 1, 1, 2⟩) ∧
    decode 0x5485333E = .ok (.vaddSatI ⟨4, 5, 6, 1, 1, 1, 2⟩) ∧
    decode 0x5485334E = .ok (.vaddSatN ⟨4, 5, 6, 1, 1, 1, 2⟩) ∧
    decode 0x5485335E = .ok (.vsubSatI ⟨4, 5, 6, 1, 1, 1, 2⟩) ∧
    decode 0x5485336E = .ok (.vsubSatN ⟨4, 5, 6, 1, 1, 1, 2⟩) ∧
    decode 0x5485337E = .ok (.vmacc ⟨4, 5, 6, 1, 1, 1, 2⟩) :=
  ⟨rfl, rfl, rfl, rfl, rfl, rfl, rfl, rfl, rfl, rfl, rfl, rfl, rfl, rfl, rfl, rfl, rfl, rfl, rfl, rfl, rfl, rfl, rfl, rfl⟩

theorem test_decode_vectorInteger2 :
    decode 0x5485338E = .ok (.vmeq ⟨4, 5, 6, 1, 1, 1, 2⟩) ∧
    decode 0x5485339E = .ok (.vmne ⟨4, 5, 6, 1, 1, 1, 2⟩) ∧
    decode 0x548533AE = .ok (.vmltI ⟨4, 5, 6, 1, 1, 1, 2⟩) ∧
    decode 0x548533BE = .ok (.vmleI ⟨4, 5, 6, 1, 1, 1, 2⟩) ∧
    decode 0x548533CE = .ok (.vmltN ⟨4, 5, 6, 1, 1, 1, 2⟩) ∧
    decode 0x548533DE = .ok (.vmleN ⟨4, 5, 6, 1, 1, 1, 2⟩) ∧
    decode 0x5485040E = .ok (.vmov ⟨4, 5, 1, 1, 2⟩) ∧
    decode 0x5485041E = .ok (.vbcast ⟨4, 5, 1, 1, 2⟩) ∧
    decode 0x5480042E = .ok (.vid 4 1 1 2) :=
  ⟨rfl, rfl, rfl, rfl, rfl, rfl, rfl, rfl, rfl⟩

theorem test_decode_vectorFp :
    decode 0x5885320E = .ok (.vaddFp ⟨4, 5, 6, 1, 1, 1, 2⟩) ∧
    decode 0x5885321E = .ok (.vsubFp ⟨4, 5, 6, 1, 1, 1, 2⟩) ∧
    decode 0x5885322E = .ok (.vmulFp ⟨4, 5, 6, 1, 1, 1, 2⟩) ∧
    decode 0x5885323E = .ok (.vdivFp ⟨4, 5, 6, 1, 1, 1, 2⟩) ∧
    decode 0x5885324E = .ok (.vfma ⟨4, 5, 6, 1, 1, 1, 2⟩) ∧
    decode 0x5885325E = .ok (.vfms ⟨4, 5, 6, 1, 1, 1, 2⟩) ∧
    decode 0x5885326E = .ok (.vfnma ⟨4, 5, 6, 1, 1, 1, 2⟩) ∧
    decode 0x5885007E = .ok (.vsqrt ⟨4, 5, 1, 1, 2⟩) ∧
    decode 0x5885328E = .ok (.vminFp ⟨4, 5, 6, 1, 1, 1, 2⟩) ∧
    decode 0x5885329E = .ok (.vmaxFp ⟨4, 5, 6, 1, 1, 1, 2⟩) ∧
    decode 0x588500AE = .ok (.vabs ⟨4, 5, 1, 1, 2⟩) ∧
    decode 0x588500BE = .ok (.vneg ⟨4, 5, 1, 1, 2⟩) ∧
    decode 0x588532CE = .ok (.vmfeq ⟨4, 5, 6, 1, 1, 1, 2⟩) ∧
    decode 0x588532DE = .ok (.vmfne ⟨4, 5, 6, 1, 1, 1, 2⟩) ∧
    decode 0x588532EE = .ok (.vmflt ⟨4, 5, 6, 1, 1, 1, 2⟩) ∧
    decode 0x588532FE = .ok (.vmfle ⟨4, 5, 6, 1, 1, 1, 2⟩) :=
  ⟨rfl, rfl, rfl, rfl, rfl, rfl, rfl, rfl, rfl, rfl, rfl, rfl, rfl, rfl, rfl, rfl⟩

theorem test_decode_conversion1 :
    decode 0x5C85500E = .ok (.vcvtFpToIeee ⟨4, 5, 1, 2, 1, 1, 2⟩) ∧
    decode 0x5C85501D = .ok (.vcvtFpToBf16 ⟨4, 5, 1, 2, 1, 1, 1⟩) ∧
    decode 0x5C85502C = .ok (.vcvtFpToE4m3 ⟨4, 5, 1, 2, 1, 1, 0⟩) ∧
    decode 0x5C85503C = .ok (.vcvtFpToE5m2 ⟨4, 5, 1, 2, 1, 1, 0⟩) ∧
    decode 0x5C85504E = .ok (.vcvtFpToI ⟨4, 5, 1, 2, 1, 1, 2⟩) ∧
    decode 0x5C85505E = .ok (.vcvtFpToN ⟨4, 5, 1, 2, 1, 1, 2⟩) ∧
    decode 0x5C85506E = .ok (.vcvtIToIeee ⟨4, 5, 1, 2, 1, 1, 2⟩) ∧
    decode 0x5C85507D = .ok (.vcvtIToBf16 ⟨4, 5, 1, 2, 1, 1, 1⟩) ∧
    decode 0x5C85508C = .ok (.vcvtIToE4m3 ⟨4, 5, 1, 2, 1, 1, 0⟩) ∧
    decode 0x5C85509C = .ok (.vcvtIToE5m2 ⟨4, 5, 1, 2, 1, 1, 0⟩) ∧
    decode 0x5C8550AE = .ok (.vcvtNToIeee ⟨4, 5, 1, 2, 1, 1, 2⟩) ∧
    decode 0x5C8550BD = .ok (.vcvtNToBf16 ⟨4, 5, 1, 2, 1, 1, 1⟩) ∧
    decode 0x5C8550CC = .ok (.vcvtNToE4m3 ⟨4, 5, 1, 2, 1, 1, 0⟩) ∧
    decode 0x5C8550DC = .ok (.vcvtNToE5m2 ⟨4, 5, 1, 2, 1, 1, 0⟩) ∧
    decode 0x5C8550EE = .ok (.vcvtIntToI ⟨4, 5, 1, 2, 1, 1, 2⟩) ∧
    decode 0x5C8550FE = .ok (.vcvtIntToN ⟨4, 5, 1, 2, 1, 1, 2⟩) ∧
    decode 0x5C85310E = .ok (.vwmulI ⟨4, 5, 6, 1, 1, 2⟩) ∧
    decode 0x5C85311E = .ok (.vwmulN ⟨4, 5, 6, 1, 1, 2⟩) ∧
    decode 0x5C85312E = .ok (.vwmaccI ⟨4, 5, 6, 1, 1, 2⟩) ∧
    decode 0x5C85313E = .ok (.vwmaccN ⟨4, 5, 6, 1, 1, 2⟩) ∧
    decode 0x5C85314E = .ok (.vwmulFp ⟨4, 5, 6, 1, 1, 2⟩) ∧
    decode 0x5C85315E = .ok (.vwmaccFp ⟨4, 5, 6, 1, 1, 2⟩) ∧
    decode 0x5C85316C = .ok (.vdot4I8 4 5 6 1 1) ∧
    decode 0x5C85317C = .ok (.vdot4N8 4 5 6 1 1) :=
  ⟨rfl, rfl, rfl, rfl, rfl, rfl, rfl, rfl, rfl, rfl, rfl, rfl, rfl, rfl, rfl, rfl, rfl, rfl, rfl, rfl, rfl, rfl, rfl, rfl⟩

theorem test_decode_conversion2 :
    decode 0x5C85318E = .ok (.vsmul ⟨4, 5, 6, 1, 1, 2⟩) ∧
    decode 0x5C85319E = .ok (.vsmacc ⟨4, 5, 6, 1, 1, 2⟩) :=
  ⟨rfl, rfl⟩

theorem test_decode_mixedWidth :
    decode 0x6085300E = .ok (.vredsum ⟨4, 5, 6, 1, 1, 2⟩) ∧
    decode 0x6085301E = .ok (.vredosum ⟨4, 5, 6, 1, 1, 2⟩) ∧
    decode 0x6085302E = .ok (.vredmax ⟨4, 5, 6, 1, 1, 2⟩) ∧
    decode 0x6085303E = .ok (.vredmin ⟨4, 5, 6, 1, 1, 2⟩) ∧
    decode 0x6085304E = .ok (.vredmaxN ⟨4, 5, 6, 1, 1, 2⟩) ∧
    decode 0x6085305E = .ok (.vredminN ⟨4, 5, 6, 1, 1, 2⟩) ∧
    decode 0x6085306E = .ok (.vredand ⟨4, 5, 6, 1, 1, 2⟩) ∧
    decode 0x6085307E = .ok (.vredor ⟨4, 5, 6, 1, 1, 2⟩) ∧
    decode 0x6085308E = .ok (.vredxor ⟨4, 5, 6, 1, 1, 2⟩) ∧
    decode 0x6085009E = .ok (.vscan ⟨4, 5, 1, 1, 2⟩) ∧
    decode 0x608500AE = .ok (.vscano ⟨4, 5, 1, 1, 2⟩) ∧
    decode 0x608500BE = .ok (.vscanmax ⟨4, 5, 1, 1, 2⟩) ∧
    decode 0x608500CE = .ok (.vscanmin ⟨4, 5, 1, 1, 2⟩) ∧
    decode 0x608500DE = .ok (.vscanmaxN ⟨4, 5, 1, 1, 2⟩) ∧
    decode 0x608500EE = .ok (.vscanminN ⟨4, 5, 1, 1, 2⟩) :=
  ⟨rfl, rfl, rfl, rfl, rfl, rfl, rfl, rfl, rfl, rfl, rfl, rfl, rfl, rfl, rfl⟩

theorem test_decode_reduction :
    decode 0x6485300E = .ok (.vrgath ⟨4, 5, 6, 1, 1, 2⟩) ∧
    decode 0x6485301E = .ok (.vslideup ⟨4, 5, 6, 1, 1, 2⟩) ∧
    decode 0x6485302E = .ok (.vslidedn ⟨4, 5, 6, 1, 1, 2⟩) ∧
    decode 0x6485303E = .ok (.vslide1up ⟨4, 5, 6, 1, 1, 2⟩) ∧
    decode 0x6485304E = .ok (.vslide1dn ⟨4, 5, 6, 1, 1, 2⟩) ∧
    decode 0x6485005E = .ok (.vcomp ⟨4, 5, 1, 1, 2⟩) ∧
    decode 0x6485006E = .ok (.vexpand ⟨4, 5, 1, 1, 2⟩) ∧
    decode 0x64850076 = .ok (.vmvS 4 5 1 2) ∧
    decode 0x64850086 = .ok (.vmvV 4 5 1 2) ∧
    decode 0x64853096 = .ok (.vmvX 4 5 6 1 2) :=
  ⟨rfl, rfl, rfl, rfl, rfl, rfl, rfl, rfl, rfl, rfl⟩

theorem test_decode_maskOps :
    decode 0x68853004 = .ok (.vmand 4 5 6 1) ∧
    decode 0x68853014 = .ok (.vmor 4 5 6 1) ∧
    decode 0x68853024 = .ok (.vmxor 4 5 6 1) ∧
    decode 0x68853034 = .ok (.vmandn 4 5 6 1) ∧
    decode 0x68850044 = .ok (.vmnot 4 5 1) ∧
    decode 0x6885005C = .ok (.vpop 4 5 1 1) ∧
    decode 0x6885006C = .ok (.vfirst 4 5 1 1) ∧
    decode 0x6885007C = .ok (.vmsbf 4 5 1 1) ∧
    decode 0x6885008C = .ok (.vmsif 4 5 1 1) ∧
    decode 0x6885009C = .ok (.vmsof 4 5 1 1) ∧
    decode 0x688500AE = .ok (.vconf ⟨4, 5, 1, 1, 2⟩) ∧
    decode 0x688530BE = .ok (.vconfm ⟨4, 5, 6, 1, 1, 2⟩) ∧
    decode 0x688500CC = .ok (.vpart 4 5 1 1) ∧
    decode 0x688500DC = .ok (.vrun 4 5 1 1) ∧
    decode 0x688000E4 = .ok (.vmset 4 1) ∧
    decode 0x688000F4 = .ok (.vmclr 4 1) :=
  ⟨rfl, rfl, rfl, rfl, rfl, rfl, rfl, rfl, rfl, rfl, rfl, rfl, rfl, rfl, rfl, rfl⟩

theorem test_decode_vectorMemory :
    decode 0x6C80480C = .ok (.vld 4 9 1 1) ∧
    decode 0x6C80481C = .ok (.vldff 4 9 1 1) ∧
    decode 0x6C80482C = .ok (.vst 4 9 1 1) ∧
    decode 0x6C85483C = .ok (.vldx 4 5 9 1 1) ∧
    decode 0x6C85484C = .ok (.vstx 4 5 9 1 1) ∧
    decode 0x6C85485C = .ok (.vstxu 4 5 9 1 1) ∧
    decode 0x6C85486C = .ok (.vsadd 4 5 9 1 1) ∧
    decode 0x6C804874 = .ok (.vwait 4 9 1) ∧
    decode 0x6C004884 = .ok (.vcbld 9 1) :=
  ⟨rfl, rfl, rfl, rfl, rfl, rfl, rfl, rfl, rfl⟩

theorem test_decode_matrix :
    decode 0x8085003D = .ok (.mmr 4 5 3 1 1 1) ∧
    decode 0x808500BD = .ok (.mms 4 5 3 1 1 1) ∧
    decode 0x8085313D = .ok (.mmqSq 4 5 6 3 1 1 1) ∧
    decode 0x808531BD = .ok (.mmqAb 4 5 6 3 1 1 1) ∧
    decode 0x8085323D = .ok (.mmsp 4 5 6 3 1 1 1) ∧
    decode 0x84050036 = .ok (.mldWb 5 3 1 2) ∧
    decode 0x840500B6 = .ok (.mldSq 5 3 1 2) ∧
    decode 0x84050176 = .ok (.mldsWb 5 1 2) ∧
    decode 0x840501F6 = .ok (.mldsSq 5 1 2) ∧
    decode 0x8880300C = .ok (.mclr 4 6 1 1) ∧
    decode 0x8885008C = .ok (.mrd 4 5 1 1) ∧
    decode 0x8885310C = .ok (.mmov 4 5 6 1 1) :=
  ⟨rfl, rfl, rfl, rfl, rfl, rfl, rfl, rfl, rfl, rfl, rfl, rfl⟩

theorem test_decode_copy :
    decode 0x94853372 = .ok (.cpGo ⟨1, 4, 5, 6, 1, 2, 3, 2, 2⟩) ∧
    decode 0x94853337 = .ok (.cpXpd ⟨1, 4, 5, 6, 1, 2, 1, 2⟩) ∧
    decode 0x90653067 = .ok (.cpShape 3 5 6) ∧
    decode 0x908000E7 = .ok (.cpCnt 4) :=
  ⟨rfl, rfl, rfl, rfl⟩

theorem test_decode_bay :
    decode 0x98850040 = .ok (.bayTakeFix 4 5 1) ∧
    decode 0x98853060 = .ok (.bayTakeNeg 4 5 6 1) ∧
    decode 0x98050080 = .ok (.bayGive 5) ∧
    decode 0x98000100 = .ok (.bayRetFin) ∧
    decode 0x98000120 = .ok (.bayRetSum) ∧
    decode 0x98000140 = .ok (.bayRetRef) :=
  ⟨rfl, rfl, rfl, rfl, rfl, rfl⟩

theorem test_decode_sampler :
    decode 0x9C850050 = .ok (.smpReq 4 5 1 2) ∧
    decode 0x9C8530C0 = .ok (.smpTld 4 5 6 1) ∧
    decode 0x9C853140 = .ok (.smpTst 4 5 6 1) ∧
    decode 0x9C8531C0 = .ok (.smpPld 4 5 6 1) :=
  ⟨rfl, rfl, rfl, rfl⟩

theorem test_decode_logit :
    decodeLogit 0x05156000 = some (.ladd 4 1 5 6) ∧
    decodeLogit 0x09156000 = some (.lsub 4 1 5 6) ∧
    decodeLogit 0x0D156000 = some (.lmul 4 1 5 6) ∧
    decodeLogit 0x11156000 = some (.lfma 4 1 5 6) ∧
    decodeLogit 0x15156000 = some (.lmin 4 1 5 6) ∧
    decodeLogit 0x19156000 = some (.lmax 4 1 5 6) ∧
    decodeLogit 0x1D150000 = some (.lmov 4 1 5) ∧
    decodeLogit 0x21150000 = some (.lneg 4 1 5) ∧
    decodeLogit 0x25180050 = some (.lconst 4 1 32773) ∧
    decodeLogit 0x29180050 = some (.lconstl 4 1 32773) ∧
    decodeLogit 0x2D100000 = some (.lcnt 4 1) ∧
    decodeLogit 0x31150000 = some (.lbias 4 1 5) ∧
    decodeLogit 0x34156000 = some (.lcmplt 1 5 6) ∧
    decodeLogit 0x38156000 = some (.lcmpeq 1 5 6) ∧
    decodeLogit 0x3C100000 = some (.lmask 1) ∧
    decodeLogit 0x40150000 = some (.lret 1 5) ∧
    decodeLogit 0x45150000 = some (.lcnti 4 1 5) ∧
    decodeLogit 0x49150000 = some (.lbiasi 4 1 5) ∧
    decodeLogit 0x4C156000 = some (.lcmple 1 5 6) :=
  ⟨rfl, rfl, rfl, rfl, rfl, rfl, rfl, rfl, rfl, rfl, rfl, rfl, rfl, rfl, rfl, rfl, rfl, rfl, rfl⟩

/-! ### Scalar instructions -/

/-- Under a prefix that pops FIFO 4 and pushes FIFO 1, with a token to pop. -/
def prefixed : State := mk (fun h => { h with pfx := some (pfxWord 0 0 4 1 0, false), tok := h.tok.set 4 1 })

theorem witness_ScalarResults :
    (∃ v, intResult prefixed (.add 4 5 6) = some (4, v)) ∧ prefixed.hart.prefixFits .s false false = true ∧
    (∃ x fl, fpResult prefixed (.fadd 4 5 6 1 2) = some (4, x, fl)) := ⟨⟨_, rfl⟩, by decide, ⟨_, _, rfl⟩⟩

theorem witness_ScalarFrame : (∃ t, exec (.add 4 5 6) prefixed = .next t) ∧ (∃ t, exec (.fle 4 5 6 1) prefixed = .next t) :=
  ⟨(next_of (p := fun _ => true) (by decide)).imp fun _ h => h.1, (next_of (p := fun _ => true) (by decide)).imp fun _ h => h.1⟩

/-- A hart whose s5 holds `a` and s6 holds `b`. -/
def with56 (a b : Word) : State := mk (fun h => (h.setReg 5 a).setReg 6 b)

/-- R91: -7 / 2 is -3 and the remainder -1; by zero, all ones and the dividend; -2^63 / -1 is -2^63. -/
theorem test_division :
    nextIs (exec (.div 4 5 6) (with56 (-7) 2)) (fun t => t.reg 4 == -3) = true ∧
    nextIs (exec (.rem 4 5 6) (with56 (-7) 2)) (fun t => t.reg 4 == -1) = true ∧
    nextIs (exec (.divu 4 5 6) (with56 (-7) 2)) (fun t => t.reg 4 == 0x7FFFFFFFFFFFFFFC) = true ∧
    nextIs (exec (.remu 4 5 6) (with56 (-7) 2)) (fun t => t.reg 4 == 1) = true ∧
    nextIs (exec (.div 4 5 6) (with56 5 0)) (fun t => t.reg 4 == -1) = true ∧
    nextIs (exec (.rem 4 5 6) (with56 5 0)) (fun t => t.reg 4 == 5) = true ∧
    nextIs (exec (.div 4 5 6) (with56 0x8000000000000000 (-1))) (fun t => t.reg 4 == 0x8000000000000000) = true := by decide

/-- R67, R89: a sum wraps, a write to s0 is discarded, a source may be the destination. -/
theorem test_add :
    nextIs (exec (.add 5 5 6) (with56 (-1) 2)) (fun t => t.reg 5 == 1 && t.hart.pc == 0x10004) = true ∧
    nextIs (exec (.add 0 5 6) (with56 1 2)) (fun t => t.reg 0 == 0) = true ∧
    nextIs (exec (.sra 4 5 6) (with56 (-8) 65)) (fun t => t.reg 4 == -4) = true ∧
    nextIs (exec (.mulhu 4 5 6) (with56 (-1) (-1))) (fun t => t.reg 4 == -2) = true ∧
    nextIs (exec (.sltiu 4 5 0x7FF) (with56 5 0)) (fun t => t.reg 4 == 1) = true := by decide

/-- R95: -2.75 under RTZ is -2 with NX; 2.5 under RNE is 2; 10^19 as i64 is 2^63 - 1 with NV. -/
theorem test_convert :
    nextIs (exec (.fcvtToI64 7 6 1 2) (with56 0 0xC006000000000000)) (fun t => t.reg 7 == -2 && t.hart.fflags == 1) = true ∧
    nextIs (exec (.fcvtToI64 7 6 1 0) (with56 0 0x4004000000000000)) (fun t => t.reg 7 == 2) = true ∧
    nextIs (exec (.fcvtToI64 7 6 1 1) (with56 0 0x43E158E460913D00)) (fun t => t.reg 7 == 0x7FFFFFFFFFFFFFFF && t.hart.fflags == 16) = true ∧
    nextIs (exec (.fcvtToN64 7 6 1 1) (with56 0 0x43E158E460913D00)) (fun t => t.reg 7 == 10000000000000000000) = true := by decide

/-- R93, R94: 1 + 2^-53 rounds to 1 with NX; fmin puts -0 below +0 and ignores a quiet NaN; an invalid sum is the canonical
NaN with NV. -/
theorem test_float :
    nextIs (exec (.fadd 4 5 6 1 1) (with56 0x3FF0000000000000 0x3CA0000000000000)) (fun t => t.reg 4 == 0x3FF0000000000000 && t.hart.fflags == 1) = true ∧
    nextIs (exec (.fmin 4 5 6 1) (with56 0 0x8000000000000000)) (fun t => t.reg 4 == 0x8000000000000000) = true ∧
    nextIs (exec (.fmax 4 5 6 0) (with56 0x7FC00000 0x3F800000)) (fun t => t.reg 4 == 0x3F800000 && t.hart.fflags == 0) = true ∧
    nextIs (exec (.fsub 4 5 6 0 1) (with56 0x7F800000 0x7F800000)) (fun t => t.reg 4 == 0x7FC00000 && t.hart.fflags == 16) = true := by decide

theorem witness_LoadsAndStores :
    (∃ t p, (mk id).begun.scalarPlace 0 (scalarAddr ((with56 0x50008 0).reg 5) 1 (tySize 3)) (tySize 3) .read = .ok (t, p)) ∧
    badScope 0 (ordscScope 0) = none ∧ (with56 0x50000 0).hart.prefixFits .s false false = true ∧
    (∃ t p, (with56 0x50008 0).begun.scalarPlace 0 (scalarAddr ((with56 0x50008 0).reg 5) 1 (tySize 3)) (tySize 3) .read = .ok (t, p)) ∧
    (∃ t p, (with56 0x50008 0).begun.scalarPlace 0 (scalarAddr ((with56 0x50008 0).reg 5) 1 (tySize 3)) (tySize 3) .write = .ok (t, p)) ∧
    (∀ sp : BitVec 1, (with56 0x50004 0).scalarGate sp .read = none ∧ (with56 0x50004 0).scalarGate sp .write = none) ∧ badScope 1 (ordscScope 0) = none ∧
    ((0x50004 : Nat) % tySize 3 ≠ 0 ∧ (0x50008 : Nat) % tySize 3 = 0) :=
  ⟨some_pair (by decide), by decide, by decide, some_pair (by decide), some_pair (by decide), by decide, by decide, by decide⟩

/-- The address that a scalar access of size `n` through s5 has. -/
def addr5 (s : State) (ty : BitVec 3) : Nat := (scalarAddr (s.reg 5) 0 (tySize ty)).toNat

theorem witness_ScalarAccessTraps :
    (mk id).hart.ss = [] ∧ (mk id).hart.heldS = false ∧
    (addr5 (with56 0x50001 0) 1 % tySize 1 ≠ 0) ∧
    (addr5 (with56 0x200000000000000 0) 3 % tySize 3 = 0 ∧ 2 ^ 57 ≤ addr5 (with56 0x200000000000000 0) 3) ∧
    (addr5 (with56 0x80000 0) 3 < 2 ^ 57 ∧ (with56 0x80000 0).leafOf (mk id).who 0x80000 = .error 0x11) ∧
    (∃ l, (with56 0x60000 0).leafOf (mk id).who 0x60000 = .ok l ∧ pteAllows l.2 (mk id).who.user .write = false) :=
  ⟨by decide, by decide, by decide, by decide, ⟨by decide, rfl⟩, ⟨_, rfl, by decide⟩⟩

/-- A hart of gang 1 that holds bay 1 of one unit, and lost bay 2, with s5 as given. -/
def baySeen (x : Nat) : State :=
  let s := mk (fun h => { (h.setReg 5 (BitVec.ofNat 64 x)) with sup := false, gang := 1 })
  s.setClusAt 0 { s.clusAt 0 with bays := [(1, { st := .held, units := 1, gang := 1 }), (2, { st := .free, lastGang := 1 })] }

/-- Squares: one address for each check of a scalar access (R97, R314). -/
theorem witness_SquareAccessTraps :
    (baySeen 0).hart.ss = [] ∧ (baySeen 0).hart.heldS = false ∧ badScope 1 (ordscScope 0) = none ∧
    (baySeen 0).hart.prefixFits .s false false = true ∧ addr5 (baySeen 0x1000004) 3 % tySize 3 ≠ 0 ∧
    (addr5 (baySeen 0x100000000) 3 % tySize 3 = 0 ∧ 2 ^ 32 ≤ addr5 (baySeen 0x100000000) 3) ∧
    (addr5 (baySeen 0x2000000) 3 = 0x2000000 ∧ (baySeen 0x2000000).reach (baySeen 0x2000000).who 0 2 = .error (.trap ⟨0x43, 0⟩)) ∧
    (addr5 (baySeen 0x3000000) 3 = 0x3000000 ∧ (baySeen 0x3000000).reach (baySeen 0x3000000).who 0 3 = .error (.trap ⟨0x40, 0⟩)) ∧
    (addr5 (baySeen 0x1004000) 3 = 0x1004000 ∧ (baySeen 0x1004000).reach (baySeen 0x1004000).who 0 1 = .ok 0x4000) :=
  ⟨by decide, by decide, by decide, by decide, by decide, by decide, ⟨by decide, rfl⟩, ⟨by decide, rfl⟩, ⟨by decide, rfl⟩⟩

/-- R97, R314: a load from a bay that the gang lost traps with 0x43, one past a bay's size with 0x17. -/
theorem test_square_traps :
    nextIs (exec (.ld 4 5 0 0 1 3) (baySeen 0x2000000)) (fun t => t.hart.hdr.cause == 0x43 && t.hart.hdr.addr == 0x2000000) = true ∧
    nextIs (exec (.ld 4 5 0 0 1 3) (baySeen 0x1004000)) (fun t => t.hart.hdr.cause == 0x17) = true := by decide

theorem witness_LoadStoreFrame :
    (∃ a p, (with56 0x50008 0).begun.leafOf (with56 0x50008 0).begun.who 0x50008 = .ok (a, p)) ∧
    (∃ t, exec (.ld 4 5 0 0 0 3) (with56 0x50008 0) = .next t) ∧ (∃ t, exec (.st 4 5 0 0 0 3) (with56 0x50008 0) = .next t) :=
  ⟨⟨_, _, rfl⟩, (next_of (p := fun _ => true) (by decide)).imp fun _ h => h.1, (next_of (p := fun _ => true) (by decide)).imp fun _ h => h.1⟩

/-- R96: a byte load is sign-extended for ty 4 and zero-extended for ty 0; bytes are little-endian (R6). -/
theorem test_load_store :
    nextIs (exec (.st 6 5 0 0 0 3) (with56 0x50008 0x8877665544332211)) (fun t =>
      t.mem.byte 0x50008 == 0x11 && t.mem.byte 0x5000F == 0x88 && t.mem.byte 0x50010 == 0 &&
      nextIs (exec (.ld 4 5 7 0 0 4) t) (fun u => u.reg 4 == 0xFFFFFFFFFFFFFF88) &&
      nextIs (exec (.ld 4 5 7 0 0 0) t) (fun u => u.reg 4 == 0x88)) = true := by decide

/-- R97: a misaligned store traps with 0x10 and stores nothing. -/
theorem test_misaligned : nextIs (exec (.st 6 5 0 0 0 3) (with56 0x50004 1)) (fun t =>
    t.hart.run == .suspending && t.hart.hdr.cause == 0x10 && t.hart.hdr.addr == 0x50004 && t.mem == pages && t.hart.pc == 0x10000) = true := by
  decide

theorem witness_BranchesAndJumps :
    (∃ k o, branchOf (with56 5 5) (.beq 5 6 4) = some (k, o)) ∧ (with56 5 5).hart.pfx = none ∧
    ((with56 3 0).reg 5).toNat % 4 ≠ 0 ∧ (((with56 0x200000000000000 0).reg 5).toNat % 4 = 0 ∧ 2 ^ 57 ≤ ((with56 0x200000000000000 0).reg 5).toNat) ∧
    (((with56 0x1FFFFFFFFFFFFFC 0).reg 5).toNat % 4 = 0 ∧ ((with56 0x1FFFFFFFFFFFFFC 0).reg 5).toNat < 2 ^ 57) ∧ prefixed.hart.pfx.isSome = true :=
  ⟨⟨_, _, rfl⟩, rfl, by decide, by decide, by decide, rfl⟩

/-- R100, R81: blt is signed and bltu is not; callr s1 jumps to the old link. -/
theorem test_jumps :
    nextIs (exec (.blt 5 6 0x1FFD) (with56 (-1) 0)) (fun t => t.hart.pc == 0xFFF4) = true ∧
    nextIs (exec (.bltu 5 6 0x1FFD) (with56 (-1) 0)) (fun t => t.hart.pc == 0x10004) = true ∧
    nextIs (exec (.callr 1) (mk (fun h => h.setReg 1 0x50000))) (fun t => t.hart.pc == 0x50000 && t.reg 1 == 0x10004) = true := by decide

/-- A hart with a wmpub of 9 to word 0x50000 waiting in stream S, its number 0, the next 1. -/
def publishing (g : Hart → Hart := id) : State :=
  mk (fun h => g { h with ss := [{ kind := .publish, addr := 0x50000, val := 9 }], seq := 1 })

theorem witness_AtomicsAndFences :
    (∃ f, atomicNew (with56 0x50008 7) (.aadd ⟨4, 5, 6, 1, 0, 0, 0⟩) = some (⟨4, 5, 6, 1, 0, 0, 0⟩, f)) ∧ badScope 0 0 = none ∧
    (∃ t p, (with56 0x50008 7).begun.scalarPlace 0 ((with56 0x50008 7).reg 5) 8 .rmw = .ok (t, p)) ∧
    (∃ t p, (with56 0x50008 7).begun.scalarPlace 0 ((with56 0x50008 7).reg 5) 8 .read = .ok (t, p)) ∧
    (∃ f, atomicNew (mk (fun h => (h.setReg 5 0x50008).setReg 4 9)) (.acas ⟨4, 5, 6, 1, 0, 0, 0⟩) = some (⟨4, 5, 6, 1, 0, 0, 0⟩, f) ∧ f 8 0 7 = none) ∧
    (∃ f, atomicNew (with56 0x50008 7) (.acas ⟨4, 5, 6, 1, 0, 0, 0⟩) = some (⟨4, 5, 6, 1, 0, 0, 0⟩, f) ∧ f 8 0 7 = some 7) ∧
    (mk id).hart.ss = [] ∧ publishing.hart.ss ≠ [] ∧ publishing.hart.prefixFits .s false false = true ∧
    (mk id).hart.vecMemPending = false ∧ (mk id).hart.queuesBusy = false ∧ (mk id).samplerBusy 0 = false ∧
    (∀ e ∈ (mk id).hart.vq, ∀ v a q m c, e.instr = .vsadd v a q m c → e.done = true) ∧
    (∀ u ∈ (mk id).dev.updates, u.hid ≠ (mk id).cur) ∧ (mk id).hart.lostUpd = none :=
  ⟨⟨_, rfl⟩, by decide, some_pair (by decide), some_pair (by decide), ⟨_, rfl, by decide⟩, ⟨_, rfl, by decide⟩, rfl, by decide, by decide,
    by decide, by decide, by decide, (by intro e h; cases h), by decide, rfl⟩

/-- A hart with a wmpub in stream S whose s5 is 0x50008 and s6 is 7, and one with four of them. -/
def behindPub (n : Nat := 1) : State :=
  publishing (fun h => ((({ h with ss := List.replicate n (h.ss.headD { kind := .store }), seq := 4 } : Hart).setReg 5 0x50008).setReg 6 7))
/-- A load and a store at the head of stream S. -/
def inS (k : SKind) : State := mk (fun h => { h with ss := [{ kind := k, addr := 0x50008, size := 8, val := 7 }], seq := 1 })

/-- An access at the head of stream S whose page is gone, with what it goes back to. -/
def goneS (k : SKind) (b : Back) : State :=
  mk (fun h => { h with ss := [{ kind := k, size := 8, addr := 0x90000, pc := 0x20000, back := some b }], seq := 1 })
/-- Registers that hold 5 each, with no flags and no prefix. -/
def fives : Back := { regs := Vector.replicate 32 5, fflags := 0, pfx := none }
/-- The same with a prefix. -/
def fivesPfx : Back := { fives with pfx := some (pfxWord 0 0 0 0 1) }
/-- A load from s5 and a store to it whose port is at work. -/
def busyPort : State :=
  let s := with56 0x50008 7
  s.setCoreAt 0 { s.coreAt 0 with busy := (s.coreAt 0).busy.set 10 999999 |>.set 11 999999 }

theorem witness_StreamSWaits :
    ((behindPub).hart.prefixFits .s false false = true ∧ (behindPub).scalarGate 0 .read = some .publish ∧
     (behindPub).scalarGate 0 .write = some .publish ∧ (behindPub).hart.ss.length < 3 ∧ (behindPub).slotFree 0 = true ∧
     (∃ t p, (behindPub).begun.scalarLook 0 (behindPub).begun.hart.scalarTouch 0 (scalarAddr ((behindPub).reg 5) 0 (tySize 3)) (tySize 3) .read = .ok (t, p)) ∧
     (∃ t p, (behindPub).begun.scalarLook 0 (behindPub).begun.hart.scalarTouch 0 (scalarAddr ((behindPub).reg 5) 0 (tySize 3)) (tySize 3) .write = .ok (t, p)) ∧
     (∃ e, (behindPub).begun.scalarLook 0 (behindPub).begun.hart.scalarTouch 0 0x90000 8 .read = .error (.trap e)) ∧
     (∃ e, (behindPub).begun.scalarLook 0 (behindPub).begun.hart.scalarTouch 0 0x60000 8 .write = .error (.trap e)) ∧
     3 ≤ (behindPub 3).hart.ss.length ∧ (behindPub 3).scalarGate 0 .read = some .publish ∧ (behindPub 3).scalarGate 0 .write = some .publish) ∧
    (mk (fun h => { h with holdS := 5, vq := [{ instr := .vld 1 2 0 0 }] })).scalarGate 0 .read = some (.drain false) ∧
    busyPort.scalarGate 0 .read = some .port ∧ busyPort.scalarGate 0 .write = some .port ∧
    (∃ x, (inS (.load 3 4)).hart.ss = x :: [] ∧ x.sq = false ∧ (inS (.load 3 4)).sReady 0 x = true ∧ x.kind = .load 3 4 ∧
      ∃ u p, (inS (.load 3 4)).scalarLook 0 x.touch 0 x.addr x.size x.kind.acc = .ok (u, p)) ∧
    (∃ x, (inS .store).hart.ss = x :: [] ∧ x.sq = false ∧ (inS .store).sReady 0 x = true ∧ x.kind = .store ∧
      ∃ u p, (inS .store).scalarLook 0 x.touch 0 x.addr x.size x.kind.acc = .ok (u, p)) ∧
    (inS .store).hart.run = .running ∧
    (∀ k ∈ [SKind.load 3 4, SKind.store], ∀ b ∈ [fives, fivesPfx],
      ∃ x, (goneS k b).hart.ss = x :: [] ∧ x.sq = false ∧ (goneS k b).sReady 0 x = true ∧ x.back = some b ∧
        (∃ e, (goneS k b).scalarLook 0 x.touch 0 x.addr x.size x.kind.acc = .error (.trap e)) ∧ ∀ id, x.kind ≠ .token id) ∧
    (goneS .store fives).hart.surr = none ∧ (goneS .store fives).hart.bay.isOpen = false :=
  ⟨⟨by decide, by decide, by decide, by decide, by decide, some_pair (by decide), some_pair (by decide), trap_of (by decide),
      trap_of (by decide), by decide, by decide, by decide⟩,
    by decide, by decide, by decide, ⟨_, rfl, rfl, by decide, rfl, some_pair (by decide)⟩,
    ⟨_, rfl, rfl, by decide, rfl, some_pair (by decide)⟩, rfl,
    by
      intro k hk b hw
      simp only [List.mem_cons, List.not_mem_nil, or_false] at hk hw
      rcases hk with rfl | rfl <;> rcases hw with rfl | rfl <;>
        exact ⟨_, rfl, rfl, by decide, rfl, trap_of (by decide), by intro id h; cases h⟩,
    rfl, rfl⟩

/-- R99, R127: a load whose translation is gone traps at its own pc, with the registers it was dispatched with. -/
theorem test_gone : nextIs (exec (.instructionRetire 0 0) (goneS (.load 3 4) fives)) (fun t =>
    t.hart.run == .suspending && t.hart.hdr.cause == 0x11 && t.hart.hdr.rpc == 0x20000 && t.reg 4 == 5 && t.hart.ss.isEmpty) = true := by decide

/-- R99: a load behind a wmpub is dispatched, its register pending; performed, it writes it; a store its bytes. -/
theorem test_stream_s :
    nextIs (exec (.ld 4 5 0 0 0 3) (behindPub)) (fun t => t.hart.ss.length == 2 && t.hart.pc == 0x10004 && t.hart.pendingRegs == [4] && t.hart.wait == none) = true ∧
    nextIs (exec (.instructionRetire 0 0) { inS (.load 3 4) with mem := pages.write 0x50008 8 99 }) (fun t => t.reg 4 == 99 && t.hart.ss.isEmpty) = true ∧
    nextIs (exec (.instructionRetire 0 0) (inS .store)) (fun t => t.mem.read 0x50008 8 == 7) = true := by decide

/-- R107: fence.sv moves on beside a wmpub that waits, and holds the vector memory dispatched behind it. -/
theorem test_fence_sv : nextIs (exec (.fenceSv 2) publishing) (fun t =>
    t.hart.pc == 0x10004 && t.hart.holdV == 1 && t.hart.ss.length == 1 && t.hart.wait == none) = true := by decide

/-- R102, R103: amax.i32 keeps the larger and sign-extends the old value; amax.n32 zero-extends it. -/
theorem test_atomics :
    nextIs (exec (.st 6 5 0 0 0 2) (with56 0x50008 0xFFFFFFFE)) (fun t =>
      nextIs (exec (.amaxI ⟨4, 5, 0, 0, 0, 0, 0⟩) t) (fun u => u.mem.read 0x50008 8 == 0 && u.reg 4 == 0xFFFFFFFFFFFFFFFE) &&
      nextIs (exec (.amaxN ⟨4, 5, 0, 0, 0, 0, 0⟩) t) (fun u => u.mem.read 0x50008 8 == 0xFFFFFFFE && u.reg 4 == 0xFFFFFFFE)) = true := by decide

theorem witness_TokensAndTime :
    tokProducer 4 ≠ .s ∧ tokConsumer 1 ≠ .s ∧ tokProducer 1 = .s ∧ tokConsumer 12 ≠ .s ∧ tokConsumer 4 = .s ∧ prefixed.begun.hart.slotsTaken 1 < 8 ∧
    (prefixed.hart.ss = [] ∧ prefixed.hart.movesBefore prefixed.hart.seq = false) ∧
    8 ≤ (mk (fun h => { h with tok := h.tok.set 1 8 })).begun.hart.slotsTaken 1 ∧ (mk (fun h => { h with tok := h.tok.set 1 7 })).begun.hart.slotsTaken 1 < 8 ∧
    (mk (fun h => { h with tok := h.tok.set 1 5, pops := h.pops.set 1 4, ss := [{ kind := .store, back := some { fives with pops := h.pops.set 1 1 } }] })).begun.hart.slotsTaken 1 = 8 ∧
    publishing.hart.ss ≠ [] ∧ publishing.hart.ss.length < 3 ∧ 3 ≤ (behindPub 3).hart.ss.length ∧ publishing.hart.prefixFits .s false false = true ∧
    (mk (fun h => { h with seq := 1, mq := [{ instr := .mfs 4 0x300 }] })).hart.movesBefore 1 = true ∧
    (mk id).begun.hart.tokens 4 = 0 ∧ prefixed.begun.hart.tokens 8 = 0 ∧ (mk (fun h => { h with tok := h.tok.set 7 1 })).begun.hart.tokens 7 ≠ 0 ∧
    prefixed.hart.tokens 4 ≠ 0 ∧ (mk id).hart.surr = none ∧ (mk id).reg 5 ≤ (mk id).time ∧ (mk id).time < (with56 1 0).reg 5 ∧
    (mk (fun h => { h with surr := some ⟨0, Vector.replicate 8 0, {}, 0, 0, [], 0, 0, Vector.replicate 16 {}, []⟩ })).hart.surr.isSome = true := by decide

/-- R111: a target not above time is written at once; R35: a token deposited. -/
theorem test_tokens_time :
    nextIs (exec (.tkpush 1) (mk id)) (fun t => t.hart.tokens 1 == 1 && t.hart.reserved 1 == 0) = true ∧
    nextIs (exec (.tkpop 1) (mk id)) (fun t => t.hart.hdr.cause == 0x03) = true ∧
    nextIs (exec (.tkpush 1) (mk (fun h => { h with seq := 1, mq := [{ instr := .mfs 4 0x300 }] }))) (fun t =>
      t.hart.tokens 1 == 0 && t.hart.reserved 1 == 1 && t.hart.ss.length == 1 && t.hart.pc == 0x10004) = true ∧
    nextIs (exec (.wtime 4 5) { mk id with time := 9 }) (fun t => t.reg 4 == 9) = true := by decide

/-! ### Prefixes, status registers and streams -/

/-- A queue entry of an instruction. -/
def entry (i : Instr) : Entry := { instr := i }

theorem witness_Prefixes :
    (mk id).hart.pfx = none ∧ prefixed.hart.pfx.isSome = true ∧ (∃ r, intResult prefixed (.add 4 5 6) = some r) ∧
    prefixed.hart.pfx = some (pfxWord 0 0 4 1 0, false) ∧ pfxPop (pfxWord 0 0 4 1 0) = 4 ∧ pfxPush (pfxWord 0 0 4 1 0) = 1 ∧
    tokConsumer 4 = .s ∧ tokProducer 1 = .s ∧ pfxMask (pfxWord 3 0 0 0 0) ≠ 0 ∧
    (mk (fun h => { h with pfx := some (pfxWord 0 0 4 1 0, false) })).hart.tokens 4 = 0 ∧
    8 ≤ (mk (fun h => { h with pfx := some (pfxWord 0 0 0 1 0, false), tok := h.tok.set 1 8 })).hart.tokens 1 :=
  ⟨rfl, rfl, ⟨_, rfl⟩, rfl, by decide, by decide, by decide, by decide, by decide, by decide, by decide⟩

/-- R60: 0x4060_0000 lends the mask v3 to the next word; R62: a second prefix traps with 0x03 there. -/
theorem test_prefix :
    nextIs (exec (.pfx 3 0 0 0 0) (mk id)) (fun t => t.hart.pfx == some (0x40600000, false) && t.hart.pc == 0x10004) = true ∧
    nextIs (exec (.pfx 3 0 0 0 0) prefixed) (fun t => t.hart.hdr.cause == 0x03 && t.hart.pfxsave.pend && t.hart.tokens 4 == 1) = true ∧
    nextIs (exec (.add 4 5 6) prefixed) (fun t => t.hart.tokens 4 == 0 && t.hart.tokens 1 == 1 && t.hart.pfx == none) = true := by decide

/-- A user hart. -/
def user (f : Hart → Hart) : State := mk (fun h => f { h with sup := false, gang := 1 })

/-- A hart behind a load in stream S that can still trap. -/
def unsettledHart (g : Hart → Hart := id) : State := mk (fun h => g { h with ss := [{ kind := .load 3 4, back := some fives }] })

theorem witness_StatusMoves :
    statusEarly (mk id).hart.sup 0x010 = none ∧ (mk id).hart.flagsBusy = false ∧ (mk id).hart.queue (statusEng 0x010) = [] ∧
    statusLate 0x010 = none ∧ (mk id).xinvBusy 0 3 = false ∧ statusEarly false 0x380 = none ∧ (mk id).hart.queue (statusEng 0x380) = [] ∧ statusAccess 0xFFF = none ∧
    statusAccess 0x700 = some .suRo ∧ statusAccess 0x710 = some .suRw ∧ (user id).hart.sup = false ∧ statusAccess 0x205 = some .ro ∧
    (mk id).hart.sup = true ∧ (∀ w took, (mk id).hart.pfx = some (w, took) → pfxMisuse w .s false false = false) ∧
    (statusEng 0x010 = .s ∧ (mk id).hart.unsettled = false ∧ statusEng 0x204 ≠ .s ∧ unsettledHart.hart.unsettled = true ∧
     unsettledHart.hart.queue (statusEng 0x204) = [] ∧ unsettledHart.hart.moveWait (statusEng 0x204) (.mts 5 0x204) = none ∧
     statusLate 0x204 = none ∧ statusEarly true 0x204 = none) :=
  ⟨rfl, by decide, by decide, rfl, by decide, rfl, by decide, rfl, rfl, rfl, rfl, rfl, rfl, (by intro _ _ h; cases h), by decide⟩

/-- R71, R73: fflags keeps five bits; R70: a write to time traps with 0x06, a supervisor register with 0x05, a number of no
table with 0x02. -/
theorem test_status :
    nextIs (exec (.mts 5 0x010) (with56 0xFF 0)) (fun t => t.hart.fflags == 0x1F && t.hart.pc == 0x10004) = true ∧
    nextIs (exec (.mts 5 0x800) (with56 1 0)) (fun t => t.hart.hdr.cause == 0x06) = true ∧
    nextIs (exec (.mfs 5 0x710) (user id)) (fun t => t.hart.hdr.cause == 0x05) = true ∧
    nextIs (exec (.mfs 5 0xFFF) (user id)) (fun t => t.hart.hdr.cause == 0x02) = true ∧
    nextIs (exec (.mfs 5 0x013) (mk (fun h => { h with rstrm := 77 }))) (fun t => t.reg 5 == 77) = true := by decide

/-- A user hart whose vector queue holds a vadd. -/
def queued : State := user (fun h => { h with vq := [entry (.vadd ⟨1, 2, 3, 0, 0, 0, 2⟩)] })

/-- One whose queue holds a vadd and, behind it, four changes of q1. -/
def crowded : State := user (fun h => { h with vq := entry (.vadd ⟨1, 2, 3, 0, 0, 0, 2⟩) :: List.replicate 4 (entry (.qrel 1)) })

/-- A hart in a surrender routine that has set nothing aside, its s5 0x50000. -/
def routineHart : State :=
  user (fun h => { h.setReg 5 0x50000 with surr := some ⟨0x40, Vector.replicate 8 0, {}, 0, 0, [], 0, 0, Vector.replicate 16 {}, []⟩ })

theorem witness_StreamChanges :
    (∃ f, streamChange (with56 0x50000 0) (.qbase 1 5) = some (1, f)) ∧ (with56 0x50000 0).hart.vq = [] ∧
    (∃ f, streamChange queued (.qrel 1) = some (1, f)) ∧ queued.hart.vq ≠ [] ∧ queued.hart.changes 1 < 4 ∧
    crowded.hart.vq ≠ [] ∧ 4 ≤ crowded.hart.changes 1 ∧ crowded.hart.prefixFits .s false false = true ∧ crowded.hart.changes 2 < 4 ∧
    queued.hart.prefixFits .s false false = true ∧ (∃ f, streamChange (with56 0xF000 0) (.qcfg 1 5) = some (1, f)) ∧
    (∃ f, streamChange (with56 8 0) (.qwatch 5 6 1) = some (1, f)) ∧ (with56 0x50000 0).hart.surr = none ∧
    (Instr.qbase 1 5 ≠ .qrel 1 ∧ ∃ f, streamChange (mk id) (.qrel 1) = some (1, f)) ∧
    (∃ x, routineHart.hart.vq = [] ∧ routineHart.hart.surr = some x) ∧ routineHart.hart.prefixFits .s false false = true ∧
    (2 ^ 32 ≤ ((with56 0x100000000 0).reg 5).toNat ∧ cfgBad 0xFFFFFFFF = true ∧ ((with56 4 0).reg 5).toNat % 8 ≠ 0) ∧
    ((with56 0x50000 0).hart.unsettled = false ∧ routineHart.hart.unsettled = false ∧
     unsettledHart.hart.unsettled = true ∧ unsettledHart.hart.vq = [] ∧ unsettledHart.hart.changes 1 < 4 ∧
     (let s := unsettledHart (fun h => { h with vq := List.replicate 4 (entry (.qrel 1)) }); s.hart.unsettled = true ∧ 4 ≤ s.hart.changes 1)) :=
  ⟨⟨_, rfl⟩, rfl, ⟨_, rfl⟩, by decide, by decide, by decide, by decide, by decide, by decide, by decide, ⟨_, rfl⟩, ⟨_, rfl⟩, rfl,
    ⟨by decide, _, rfl⟩, ⟨_, rfl, rfl⟩, by decide, by decide, by decide, by decide, by decide⟩

/-- R160: qrel drops the translations kept for the stream. -/
theorem test_qrel : nextIs (exec (.qrel 2) ((mk id).setCoreAt 0 { (mk id).core with tlb := [⟨0, 0x50000, 0, 0, 0, 2⟩] })) (fun t =>
    t.core.tlb.isEmpty) = true := by decide

/-- R148: qbase zeroes the cursor and loads the register; R153: a misaligned watch traps with 0x10. -/
theorem test_streams :
    nextIs (exec (.qbase 2 5) (mk (fun h => { h with regs := h.regs.set 5 0x50000, q := h.q.set 2 { cursor := 7 } })))
      (fun t => t.hart.q[2].base == 0x50000 && t.hart.q[2].cursor == 0 && t.hart.q[2].loaded) = true ∧
    nextIs (exec (.qcfg 2 5) (with56 0x100000000 0)) (fun t => t.hart.hdr.cause == 0x16) = true ∧
    nextIs (exec (.qwatch 5 6 2) (with56 4 0)) (fun t => t.hart.hdr.cause == 0x10) = true := by decide

/-- A hart with a watch on word 0x50010 on q5, whose s5 holds `n`, and which holds `w` in the word. -/
def watched (n w : Nat) : State :=
  let s := mk (fun h => { h.setReg 5 (BitVec.ofNat 64 n) with q := h.q.set 5 { armed := true, waddr := 0x50010 } })
  { s with mem := s.mem.write 0x50010 8 w }

theorem witness_StreamReads :
    (mk id).hart.vq = [] ∧
    (∃ t p x, (with56 0x50000 0).begun.scalarPlace 0 ((with56 0x50000 0).reg 5 + 32 * BitVec.ofInt 64 (1 : BitVec 6).toInt) 32 .read = .ok (t, p) ∧
      descOf (t.getAt p 32) = some x) ∧
    descOf (2 ^ 224) = none ∧ (mk id).hart.vecMemPending = false ∧ (mk id).hart.ss = [] ∧ publishing.hart.ss ≠ [] ∧
    (mk id).pubHeld 0 0x50008 = false ∧ (mk id).hart.surr = none ∧ (∃ y, routineHart.hart.surr = some y) ∧ routineHart.hart.vq = [] ∧ (user (fun h => { h with vq := [entry (.vld 1 2 0 0)] })).hart.vecMemPending = true ∧
    ((watched 3 3).begun.hart.latestWatch 5).armed = true ∧
    (∃ t w, (watched 3 3).begun.watchValue 0 ((watched 3 3).begun.hart.latestWatch 5) = .ok (t, w) ∧ (watched 3 3).reg 5 ≤ w) ∧
    (∃ t w, (watched 4 3).begun.watchValue 0 ((watched 4 3).begun.hart.latestWatch 5) = .ok (t, w) ∧ w < (watched 4 3).reg 5) ∧
    ((mk id).hart.latestWatch 5).armed = false ∧
    (∃ t p, (with56 0x50008 9).begun.scalarPlace 0 ((with56 0x50008 9).reg 5) 8 .rmw = .ok (t, p)) ∧ (mk id).hart.queuesBusy = false :=
  ⟨rfl, (ok_with (p := fun t p => (descOf (t.getAt p 32)).isSome) (by decide)).imp fun _ h => h.imp fun _ h =>
      (Option.isSome_iff_exists.mp h.2).imp fun _ e => ⟨h.1, e⟩,
    rfl, by decide, rfl, by decide, by decide, rfl, ⟨_, rfl⟩, rfl, by decide, by decide,
    (ok_with (p := fun _ w => decide ((watched 3 3).reg 5 ≤ w)) (by decide)).imp fun _ h => h.imp fun _ h => ⟨h.1, of_decide_eq_true h.2⟩,
    (ok_with (p := fun _ w => decide (w < (watched 4 3).reg 5)) (by decide)).imp fun _ h => h.imp fun _ h => ⟨h.1, of_decide_eq_true h.2⟩,
    by decide, some_pair (by decide), by decide⟩

/-- R155: a value below the word leaves it; R154: a reached target writes the word. -/
theorem test_watermark :
    nextIs (exec (.wmpub 6 5 2) ({ watched 2 3 with harts := (watched 2 3).harts.set 0 ((watched 2 3).hart.setReg 6 0x50010) }))
      (fun t => t.mem.read 0x50010 8 == 3) = true ∧
    nextIs (exec (.qwait 5 9 5) (watched 3 4)) (fun t => t.reg 9 == 4 && t.hart.pc == 0x10004) = true ∧
    nextIs (exec (.qwait 5 9 5) (watched 5 4)) (fun t => t.hart.wait.isSome && t.reg 9 == 0) = true := by decide

/-- R149: the probe of a mapped page, in a supervisor hart: its base, u, x, w, r and v; a page without an entry gives 0. -/
theorem test_probe :
    nextIs (exec (.qprobe 4 5) (with56 0x50123 0)) (fun t => t.reg 4 == 0x5001F) = true ∧
    nextIs (exec (.qprobe 4 5) (with56 0x90000 0)) (fun t => t.reg 4 == 0) = true := by decide

/-! ### Traps -/

/-- A hart that is being suspended, with a vadd that has not begun, a matrix row and a copy that have. -/
def suspending (sup : Bool) : State := mk (fun h => { h with
  run := .suspending, sup := sup, post := true, hdr := { cause := 0x10 },
  vq := [entry (.vadd ⟨1, 2, 3, 0, 0, 0, 2⟩)], mq := [{ entry (.mmr 2 2 5 1 0 0) with started := true }],
  cq := [{ entry (.cpGo ⟨0, 4, 5, 6, 1, 2, 0, 0, 0⟩) with deadline := 9, started := true }] })

/-- A hart that is being suspended while an mclr of row 0 has begun. -/
def clearing : Entry := { entry (.mclr 0 1 0 0) with started := true, prog := 1 }
def cleared : State := mk (fun h => { h with
  run := .suspending, sup := false, plan := { h.plan with halves := 1, rowBase := 0, rows := 64 }, mshape := { kcnt := 1 }, mq := [clearing] })
/-- A core whose trap ring of 64 records is at 0x50000, with its tail and its head. -/
def ringOf (tail head : Word) : State := (mk id).setCoreAt 0 { (mk id).core with tqbase := 0x50000, tqlen := 6, tqtail := tail, tqhead := head }

theorem witness_TrapsTaken :
    (prefixed.hartAt 0).surr = none ∧ (prefixed.hartAt 0).bay.isOpen = false ∧ (prefixed.hartAt 0).pfx.isSome = true ∧ ((mk id).hartAt 0).pfx = none ∧
    ((suspending true).hartAt 0).run = .suspending ∧ (∀ e, ((suspending true).hartAt 0).vq.head? = some e → e.done = false) ∧
    (∀ e, ((suspending true).hartAt 0).mq.head? = some e → e.done = false ∧ e.isMove = false ∧ (e.prog = 0 ∨ isMmq e.instr = true)) ∧
    (∀ x ∈ ((suspending true).hartAt 0).ss, (suspending true).sReady 0 x = false) ∧
    ((suspending true).hartAt 0).post = true ∧ ((suspending true).hartAt 0).sup = true ∧ ((suspending false).hartAt 0).sup = false ∧
    ((suspending false).coreAt 0).tqbase = 0 ∧ ((suspending false).hartAt 0).run = .suspending ∧
    (∃ l x r, ((goneS (.load 3 4) fives).hartAt 0).ss = l ++ x :: r ∧ (∀ y ∈ l, y.risky = false) ∧ x.back = some fives) ∧
    (cleared.hart.run = .suspending ∧ cleared.hart.ss = [] ∧ cleared.hart.vq = [] ∧ cleared.hart.mq = [clearing] ∧
     clearing.done = false ∧ clearing.prog ≠ 0 ∧ isMmq clearing.instr = false ∧
     (match matOpOf clearing.instr with | some op => isOk (op.run cleared 0 clearing) | none => false) = true) ∧
    (let c := (ringOf 3 3).coreAt 0; c.pend = [] ∧ c.tqbase ≠ 0 ∧ (c.tqtail - c.tqhead).toNat ≠ 2 ^ c.tqlen.toNat ∧
     isOk ((ringOf 3 3).dv (supWho 0) (c.tqbase.toNat + 64 * (c.tqtail.toNat % 2 ^ c.tqlen.toNat)) .write 2) = true) ∧
    (let c := (ringOf 67 3).coreAt 0; (c.tqtail - c.tqhead).toNat = 2 ^ c.tqlen.toNat) := by
  refine ⟨by decide, by decide, by decide, by decide, by decide, ?_, ?_, ?_, by decide, by decide, by decide, by decide, by decide,
    ⟨[], _, _, rfl, nofun, rfl⟩, by decide, by decide, by decide⟩
  · rintro e ⟨⟩; rfl
  · rintro e ⟨⟩; exact ⟨rfl, rfl, .inl rfl⟩
  · rintro e ⟨⟩

/-- R127, R137: the end of a suspension voids the started matrix work and the accepted copy, and keeps the rest. -/
theorem test_suspended : nextIs (exec (.suspensionComplete 0) (suspending false)) (fun t =>
    t.hart.run == .suspended && t.hart.vq.map (fun e => e.voided) == [false] && t.hart.mq.map (fun e => e.voided) == [true] &&
    t.hart.cq.map (fun e => e.voided) == [true] && (t.coreAt 0).pend.map (fun r => r.cause) == [0x10]) = true := by decide

/-- A supervisor in slot 0 and a hart of the given state in slot 1, which trtgt names. -/
def supAnd (kill : Bool) (x : Hart) : State :=
  let s := mk id
  (s.setHartAt 1 x).setCore { s.core with trSlot := 1, trKill := kill }

/-- A suspended user hart of gang 1, in slot 1, which waits for its start watermark as `w` says, with its prefix saved at
`pc` and a copy that the suspension voided. -/
def away (kill w : Bool) (pc : Word) : State :=
  (supAnd kill { run := .suspended, gang := 1, hdr := { rpc := 0x50000 }, pfxsave := ⟨true, false, 0x40600000⟩, pfxPc := pc,
                 cq := [{ entry (.cpGo ⟨0, 4, 5, 6, 1, 2, 0, 0, 0⟩) with shape := { count0 := 600 }, deadline := 9, left := 3, voided := true }] }).setGangAt 1
    { waiting := w, members := [{ core := 0 }], nkill := 2 }
/-- The same holding bay 5 of its cluster, negotiated. -/
def awayBay : State :=
  (away true false 0).setClusAt 0 { (away true false 0).clusAt 0 with bays := [(5, { st := .held, neg := true, units := 2, got := 2, gang := 1, holder := 1 })] }

theorem witness_TretResumes :
    (mk id).hart.sup = true ∧ (mk id).hart.pfx = none ∧ (supAnd false { run := .running, sup := true }).hart.sup = true ∧
    ((supAnd false { run := .running }).hartAt 1).run ≠ .suspended ∧ ((supAnd false { run := .running }).hartAt 1).run ≠ .loaded ∧
    ((supAnd false { run := .suspended, sup := true }).hartAt 1).sup = true ∧
    (supAnd false { run := .suspended, hdr := { rpc := 2 } }).core.trKill = false ∧
    ((supAnd false { run := .suspended, hdr := { rpc := 2 } }).hartAt 1).hdr.rpc.toNat % 4 ≠ 0 ∧
    (let s := away false false 0x50000
     let x := 8 * s.coreNo + s.core.trSlot.toNat
     let h := s.hartAt x
     h.sup = false ∧ h.run = .suspended ∧ s.core.trKill = false ∧ h.hdr.rpc.toNat % 4 = 0 ∧ h.pfxsave.pend = true ∧ h.hdr.rpc = h.pfxPc ∧
     (s.gangAt h.gang.toNat).map (fun g => g.waiting) = some false ∧ h.cq.map (fun e => (copyRunOf e.instr).isSome && e.voided) = [true]) ∧
    ((away false true 0).gangAt 1).map (fun g => g.waiting) = some true ∧ ((away false true 0).hartAt 1).hdr.rpc ≠ ((away false true 0).hartAt 1).pfxPc ∧
    ((supAnd false { run := .loaded }).hartAt 1).pfxsave.pend = false ∧ ((supAnd false { run := .loaded }).hartAt 1).run = .loaded ∧
    (away true false 0).core.trKill = true ∧ (∃ g, (away true false 0).gangAt ((away true false 0).hartAt 1).gang.toNat = some g ∧ 0 < g.members.length) ∧
    (let b := (awayBay.clusAt 0).bay 5; b.st = .held ∧ b.neg = true ∧ b.gang = (awayBay.hartAt 1).gang ∧ b.holder = 1) := by
  refine ⟨rfl, rfl, rfl, by decide, by decide, by decide, by decide, by decide, by decide, rfl, by decide, by decide, by decide, by decide, ⟨_, rfl, by decide⟩, by decide⟩

/-- R138, R137: tret resumes the hart at rpc with its saved prefix, its copy admitted again; with kill the hart ends and its
bay is free; a bad rpc is 0x04. -/
theorem test_tret :
    nextIs (exec .tret (away false false 0x50000)) (fun t =>
      (t.hartAt 1).run == .running && (t.hartAt 1).pc == 0x50000 && (t.hartAt 1).pfx == some (0x40600000, false) &&
      (t.hartAt 1).cq.map (fun e => e.voided) == [false] && t.hart.pc == 0x10004) = true ∧
    nextIs (exec .tret awayBay) (fun t => (t.hartAt 1).run == .ended && ((t.clusAt 0).bay 5).st == .free &&
      (t.gangAt 1).map (fun g => g.nkill) == some 3) = true ∧
    nextIs (exec .tret (supAnd false { run := .suspended, hdr := { rpc := 0x50002 } })) (fun t =>
      t.hart.hdr.cause == 0x04 && (t.hartAt 1).run == .suspended) = true := by decide

/-! ### Steps -/

/-- A machine that fetches a word. -/
def fetching (w : BitVec 32) : State := State.reset.withFetchWord 32 w.toNat

/-- One that has just dispatched a prefix, whose successor comes next. -/
def paired : State := (fetching 0x04853000).setHart { (fetching 0x04853000).hart with pfx := some (pfxWord 0 0 0 0 1, false) }

theorem chooses_first {s : State} (h : s.pairOpen = false ∧ s.due = none ∧ s.nextCore = some 0 ∧ (s.unready s.turn 0).pick 0 = some 0) :
    s.chooses (s.unready s.turn 0) 0 := .inr ⟨h.1, h.2.1, 0, h.2.2.1, rfl, h.2.2.2⟩

/-- One whose hart has a load in stream S that can still trap. -/
def behindLoad : State := (fetching 0x04853000).setHart { (fetching 0x04853000).hart with ss := [{ kind := .load 3 4, back := some fives }] }

/-- Two results of decoding are the same. -/
def sameRead : Except DecodeError Instr → Except DecodeError Instr → Bool
  | .ok i, .ok j => decide (i = j)
  | .error a, .error b => decide (a = b)
  | _, _ => false
theorem same_read {a b : Except DecodeError Instr} (h : sameRead a b = true) : a = b := by
  cases a <;> cases b <;> simp_all [sameRead]

/-- A word fetched that decodes as `d`, which nothing holds back. -/
noncomputable def fetchedAs (d : Except DecodeError Instr) (u : State) (pa : Nat) : Bool :=
  let w := BitVec.ofNat 32 (u.mem.read pa 4)
  let x : State := { u with ir := w }
  sameRead (decode w) d && !u.spoiled 3 0 pa 4 && decide (x.hart.blocked x.ir = []) && !x.hart.unsettled &&
    (match d with | .ok i => nextIs (exec i x) (fun _ => true) | .error _ => true)
theorem fetched_of {y : Except Stop (State × Nat)} {d : Except DecodeError Instr} (h : okWith y (fetchedAs d) = true) :
    ∃ u pa, y = .ok (u, pa) ∧ decode (BitVec.ofNat 32 (u.mem.read pa 4)) = d ∧
      (let x : State := { u with ir := BitVec.ofNat 32 (u.mem.read pa 4) }
       u.spoiled 3 0 pa 4 = false ∧ x.hart.blocked x.ir = [] ∧ x.hart.unsettled = false ∧ ∀ i, d = .ok i → ∃ t, exec i x = .next t) := by
  obtain ⟨u, pa, e, p⟩ := ok_with h
  simp only [fetchedAs, Bool.and_eq_true, decide_eq_true_eq, Bool.not_eq_true'] at p
  obtain ⟨⟨⟨⟨a, b⟩, c⟩, k⟩, g⟩ := p
  exact ⟨u, pa, e, same_read a, b, c, k, fun i hi => by subst hi; exact (next_of g).imp fun _ x => x.1⟩

theorem witness_StepRunsDecoded :
    (let s := fetching 0x04853000
     let r := s.unready s.turn 0
     let a : State := { r with cur := 0, turn := 0 }
     s.agenda = [] ∧ s.dev.stopped = false ∧ s.chooses r 0 ∧
     (∃ u pa, a.dv a.who a.hart.pc.toNat .exec 2 = .ok (u, pa) ∧ decode (BitVec.ofNat 32 (u.mem.read pa 4)) = .ok (.add 4 5 6) ∧
       (let x : State := { u with ir := BitVec.ofNat 32 (u.mem.read pa 4) }
        u.spoiled 3 0 pa 4 = false ∧ x.hart.blocked x.ir = [] ∧ x.hart.unsettled = false ∧
          ∀ i, (.ok (.add 4 5 6) : Except DecodeError Instr) = .ok i → ∃ t, exec i x = .next t))) ∧
    paired.chooses paired 0 ∧
    (∃ t, behindLoad.hart.unsettled = true ∧ runsAhead 0x04853000 = true ∧ exec (.add 4 5 6) behindLoad = .next t ∧ t.hart.run = .running) ∧
    runsAhead 0x98000120 = false :=
  ⟨⟨rfl, rfl, chooses_first (by decide +kernel), fetched_of (by decide +kernel)⟩, .inl ⟨by decide, rfl, rfl⟩,
    ⟨_, rfl, by decide, rfl, rfl⟩, by decide⟩

/-- A hart of a TDI that does not run, its pc at page 9, which is in the host's memory. -/
def shutFetch : State :=
  let s := mk (fun h => { h with pc := 0x90000 })
  { s with mem := pages.write 0x40048 8 (Config.hostWindow + 0x67B) }.setFnAt 0 { s.fnAt 0 with tdi := some .locked }

theorem witness_StepTraps :
    (let s := fetching 0
     let r := s.unready s.turn 0
     let a : State := { r with cur := 0, turn := 0 }
     s.chooses r 0 ∧
     (∃ u pa, a.dv a.who a.hart.pc.toNat .exec 2 = .ok (u, pa) ∧ decode (BitVec.ofNat 32 (u.mem.read pa 4)) = .error .illegalWord ∧
       (let x : State := { u with ir := BitVec.ofNat 32 (u.mem.read pa 4) }
        u.spoiled 3 0 pa 4 = false ∧ x.hart.blocked x.ir = [] ∧ x.hart.unsettled = false ∧
          ∀ i, (.error .illegalWord : Except DecodeError Instr) = .ok i → ∃ t, exec i x = .next t))) ∧
    (let s := fetching 0
     let t : State := { s with dev := { s.dev with latent := some ⟨3, 0, 0x50000⟩ } }
     let r := t.unready t.turn 0
     let a : State := { r with cur := 0, turn := 0 }
     t.chooses r 0 ∧ ∃ u pa, a.dv a.who a.hart.pc.toNat .exec 2 = .ok (u, pa) ∧ u.spoiled 3 0 pa 4 = true) ∧
    behindLoad.hart.unsettled = true ∧ State.reset.hart.unsettled = false ∧
    (let s := State.reset
     let r := s.unready s.turn 0
     let a : State := { r with cur := 0, turn := 0 }
     s.chooses r 0 ∧ a.dv a.who a.hart.pc.toNat .exec 2 = .error (.trap ⟨0x11, a.hart.pc⟩)) ∧
    (let r := shutFetch.unready shutFetch.turn 0
     let a : State := { r with cur := 0, turn := 0 }
     shutFetch.chooses r 0 ∧ ∃ w, a.dv a.who a.hart.pc.toNat .exec 2 = .error (.wait w)) ∧
    (State.reset.hart.surr = none ∧ State.reset.hart.bay.isOpen = false) :=
  ⟨⟨chooses_first (by decide +kernel), fetched_of (by decide +kernel)⟩, ⟨chooses_first (by decide +kernel), ok_with (p := fun (u : State) pa => u.spoiled 3 0 pa 4) (by decide)⟩, rfl, rfl,
    ⟨chooses_first (by decide +kernel), rfl⟩, ⟨chooses_first (by decide +kernel), wait_of (by decide)⟩, rfl, rfl⟩

/-- R122: a prefix and its successor go together, with no other hart between; the pair is one choice. -/
theorem test_pair : nextIs (step paired) (fun t => t.hart.pc == 0x10004 && t.hart.pfx == none && t.turn == 1) = true := by decide

/-- R59, R101: words 0 and 0x0400_0001 and a pc without a page trap with 0x01, 0x02 and 0x11. -/
theorem test_step_traps :
    nextIs (step (fetching 0)) (fun t => t.hart.hdr.cause == 0x01 && t.hart.hdr.ipc == 0x10000) = true ∧
    nextIs (step (fetching 0x04000001)) (fun t => t.hart.hdr.cause == 0x02 && t.hart.hdr.word == 0x04000001) = true ∧
    nextIs (step State.reset) (fun t => t.hart.hdr.cause == 0x11 && t.hart.hdr.addr == 0x10000) = true := by decide

/-! ### Words -/

theorem witness_RoundTrip :
    (Instr.pfx 7 9 12 12 5).wellFormed = true ∧ (∃ w, encode (.pfx 7 9 12 12 5) = some w) ∧
    (Instr.lconst 4 2 0xFFFF).wellFormed = true ∧ (∃ w, encodeLogit (.lconst 4 2 0xFFFF) = some w) := ⟨rfl, ⟨_, rfl⟩, rfl, ⟨_, rfl⟩⟩

theorem witness_DecodedIsWellFormed : decode 0x04853000 = .ok (.add 4 5 6) ∧ decodeLogit 0x40010000 = some (.lret 0 1) := ⟨rfl, rfl⟩

theorem witness_RegistersAndMemory :
    (31 : BitVec 5) ≠ 0 ∧ (30 : BitVec 5) ≠ 31 ∧ (9 < 10 ∨ 10 + 4 ≤ 9) ∧ (14 < 10 ∨ 10 + 4 ≤ 14) ∧ pages.wf = true := by decide

theorem witness_StepKeepsMemory : (mk id).memsWf ∧ ∃ t, step (fetching 0x04853000) = .next t :=
  ⟨⟨by decide, fun k => by
      by_cases h : 0 = k
      · subst h; decide
      · rw [show (mk id).coreAt k = Core.boot {} k from State.coreAt_setCoreAt_other _ _ (Ne.symm h)]; exact ⟨rfl, rfl, rfl, rfl, rfl⟩, fun _ => ⟨rfl, rfl⟩, fun h => by
      by_cases k : 0 = h
      · subst k; decide
      · rw [show (mk id).hartAt h = Hart.boot {} h from State.hartAt_setHartAt_other _ _ (Ne.symm k)]; unfold Hart.boot; split <;> exact ⟨rfl, rfl⟩⟩, (next_of (p := fun _ => true) (by decide)).imp fun _ h => h.1⟩

/-- R6: the low byte lies lowest; a zero byte is unlisted again, so equal memories are equal lists. -/
theorem test_memory :
    (Mem.write [] 10 4 0x01020304).byte 10 = 4 ∧ (Mem.write [] 10 4 0x01020304).read 11 2 = 0x0203 ∧
    (Mem.write (Mem.write [] 10 4 0x01020304) 10 4 0) = [] := by decide

/-! ### Well-formedness -/

/-- An ill-formed term for each check of R59 and the chapters' formats. -/
theorem test_ill_formed :
    [Instr.aupc 2 0, .fadd 1 2 3 2 0, .fadd 1 2 3 0 5, .fmin 1 2 3 2, .fcvtToI64 1 2 3 0, .ld 1 2 0 6 0 0, .st 1 2 0 1 0 0, .st 1 2 0 0 0 4,
     .aadd ⟨1, 2, 3, 0, 3, 0, 0⟩, .acas ⟨1, 2, 3, 0, 0, 5, 0⟩, .fenceAll 5, .tkpush 0, .tkpop 13, .gbar 3, .pfx 0 0 13 0 0, .pfx 0 0 0 15 0,
     .qget 1 2 7, .sbar 0 5 0, .wmpub 1 2 5, .vcvtFpToIeee ⟨1, 2, 0, 5, 0, 0, 1⟩, .vcvtFpToIeee ⟨1, 2, 0, 0, 0, 0, 0⟩,
     .vcvtFpToBf16 ⟨1, 2, 0, 0, 0, 0, 2⟩, .vcvtIToE4m3 ⟨1, 2, 0, 0, 0, 0, 1⟩, .vcvtFpToI ⟨1, 2, 0, 5, 0, 0, 1⟩, .vcvtIntToN ⟨1, 2, 0, 7, 0, 0, 1⟩,
     .mmr 1 2 0 0 0 0, .mms 1 2 0 0 0 0, .mmqSq 1 2 3 0 0 0 0, .mmqAb 1 2 3 0 0 0 0, .mmsp 1 2 3 0 0 0 0, .mldWb 1 0 0 0, .mldSq 1 0 0 0].all
      (fun i => !i.wellFormed) = true := by decide
theorem test_ill_formed_engines :
    (Instr.cpGo ⟨0, 1, 2, 3, 0, 0, 0, 0, 7⟩).wellFormed = false ∧ (Instr.cpXpd ⟨0, 1, 2, 3, 0, 0, 3, 0⟩).wellFormed = false ∧
    (Instr.smpReq 1 2 0 6).wellFormed = false ∧ (Instr.ladd 1 3 2 3).wellFormed = false ∧ (Instr.lret 3 1).wellFormed = false ∧
    (Instr.xinvContextCore 17).wellFormed = false ∧ (Instr.vectorStart 1280).wellFormed = false ∧ (Instr.bayGrant 20 1).wellFormed = false ∧
    (Instr.launch 17).wellFormed = false := by decide

/-! ### Vector instructions -/

/-- A user hart with eight lanes in force, class 1 elements of 32 bits, vl 4 and the given registers. -/
def vecHart (regs : Mem) (g : Hart → Hart := id) : State := user (fun h => g { h with
  plan := { on := true, groups := 1, lanes := 8 }, vec := { vgrant := 8, cls := 1, sew := 2, vl := 4, regs := regs } })
/-- Elements of v registers as bytes: register, index, value, at width 32. -/
def elems32 (l : List (Nat × Nat × Nat)) : Mem := Mem.ofFields (l.map (fun x => (12288 * x.1 + 4 * x.2.1, 4, x.2.2)))
/-- Element e of register r in the acting hart, at the current width. -/
def el (t : State) (r e : Nat) : Nat := t.hart.vec.opElem r t.hart.vec.n 0 e

theorem free_of {s : State} {i : Instr} {op : VecOp}
    (h : (s.hart.prefixFits .v op.maskable op.vecResult && s.hart.vq.isEmpty && s.hart.hasRoom .v && s.dev.latent.isNone && !s.vecScore s.cur op (s.vecEntry i) &&
      !(s.vecSent i op).vecHeld s.cur op && !(s.hart.vec.splits op false && s.hart.vec.strap) &&
      ((s.vecSent i op).hart.vec.startCheck op (s.hart.look (s.vecEntry i))).isNone) = true) : s.vecFree i op := by
  simp only [Bool.and_eq_true, List.isEmpty_iff, Option.isNone_iff_eq_none, Bool.not_eq_true', Bool.and_eq_false_imp] at h
  obtain ⟨⟨⟨⟨⟨⟨⟨h1, h2⟩, hr⟩, hl⟩, h3⟩, h4⟩, h5⟩, h6⟩ := h
  exact ⟨h1, h2, hr, h3, h4, fun hs => by simp [h5 hs.1] at hs, hl, h6⟩

def vaddI : Instr := .vadd ⟨4, 2, 3, 0, 0, 0, 2⟩
def v23 : State := vecHart (elems32 [(2, 0, 0xFFFFFFFF), (2, 3, 5), (3, 0, 2), (3, 3, 6)])

theorem witness_VectorElements : ∃ op r, vecOpOf vaddI = some op ∧ v23.vecFree vaddI op ∧
    vecElems (v23.vecSent vaddI op).hart.vec (v23.vecEntry vaddI) vaddI = some r :=
  ⟨_, _, rfl, free_of (by decide), rfl⟩

/-- R252: a sum wraps at 32 bits; an element at vl keeps its value. -/
theorem test_vadd : nextIs (exec vaddI (vecHart (elems32 [(2, 0, 0xFFFFFFFF), (2, 3, 5), (3, 0, 2), (3, 3, 6), (4, 4, 9), (2, 4, 1)])))
    (fun t => el t 4 0 == 1 && el t 4 3 == 11 && el t 4 4 == 9 && t.hart.pc == 0x10004 && t.hart.vq.isEmpty) = true := by decide

/-- R253 at 8 bits: -128 / -1, 7 / 0, -7 / 2 signed, and the unsigned row. -/
theorem test_vdiv :
    (let s := vecHart ((Mem.write [] 24576 3 0xF90780).write 36864 3 0x0200FF)
     let t := s.setHart { s.hart with vec := { s.hart.vec with sew := 0 } }
     nextIs (exec (.vdivI ⟨4, 2, 3, 0, 0, 0, 0⟩) t) (fun u => u.hart.vec.regs.read 49152 3 == 0xFDFF80) &&
     nextIs (exec (.vremN ⟨4, 2, 3, 0, 0, 0, 0⟩) t) (fun u => u.hart.vec.regs.read 49152 3 == 0x010780) &&
     nextIs (exec (.vdivN ⟨4, 2, 3, 0, 0, 0, 0⟩) t) (fun u => u.hart.vec.regs.read 49152 3 == 0x7CFF00)) = true := by decide

def eqI : Instr := .vmeq ⟨4, 2, 3, 0, 0, 0, 2⟩
def popI : Instr := .vpop 9 3 0 0
def scanI : Instr := .vscan ⟨4, 2, 0, 0, 2⟩
theorem witness_VectorResults :
    (∃ op r, vecOpOf eqI = some op ∧ v23.vecFree eqI op ∧ vecBits (v23.vecSent eqI op).hart.vec (v23.vecEntry eqI) eqI = some r) ∧
    (∃ op r, vecOpOf popI = some op ∧ v23.vecFree popI op ∧ vecScalars (v23.vecSent popI op).hart.vec (v23.vecEntry popI) popI = some r) ∧
    (∃ op r, vecOpOf scanI = some op ∧ v23.vecFree scanI op ∧ vecRows (v23.vecSent scanI op).hart.vec (v23.vecEntry scanI) scanI = some r) :=
  ⟨⟨_, _, rfl, free_of (by decide), rfl⟩, ⟨_, _, rfl, free_of (by decide), rfl⟩, ⟨_, _, rfl, free_of (by decide), rfl⟩⟩

/-- R273, R274: the dependences of 5, 2, 5, 7, 2, 9, 5, 1 and the run from element 2. -/
theorem test_conflicts :
    (let s := vecHart (elems32 [(2, 0, 5), (2, 1, 2), (2, 2, 5), (2, 3, 7), (2, 4, 2), (2, 5, 9), (2, 6, 5), (2, 7, 1)])
     let t := s.setHart { s.hart with vec := { s.hart.vec with vl := 8 } }
     nextIs (exec (.vconf ⟨4, 2, 0, 0, 2⟩) t) (fun y =>
       let u := thru y
       (List.range 8).map (el u 4) == [0xFFFFFFFF, 0xFFFFFFFF, 0, 0xFFFFFFFF, 1, 0xFFFFFFFF, 2, 0xFFFFFFFF] &&
       nextIs (exec (.vrun 9 4 0 0) (u.setHart { u.hart with vec := { u.hart.vec with estart := 2 } })) (fun w => w.reg 9 == 4))) = true := by
  decide

/-- R211, R267: with mask bits 0, 2, 3, 5 in v3, vcomp packs 0, 2, 3, 5 and leaves the rest. -/
theorem test_vcomp :
    (let s := vecHart (elems32 [(2, 1, 1), (2, 2, 2), (2, 3, 3), (2, 4, 4), (2, 5, 5), (4, 4, 77), (3, 0, 1), (3, 2, 3), (3, 4, 2)])
     nextIs (exec (.vcomp ⟨4, 2, 1, 0, 2⟩) (s.setHart { s.hart with
       vec := { s.hart.vec with vl := 6 }, pfx := some (pfxWord 3 0 0 0 0, false) })) (fun u =>
       (List.range 5).map (el u 4) == [0, 2, 3, 5, 77])) = true := by decide

/-- R241, R243, R245: 2^24 and three ones sum to 2^24 + 2 in the tree and to 2^24 in order, both inexact. -/
theorem test_vredsum :
    (let s := vecHart (elems32 [(2, 0, 0x4B800000), (2, 1, 0x3F800000), (2, 2, 0x3F800000), (2, 3, 0x3F800000)])
     let t := s.setHart { s.hart with vec := { s.hart.vec with cls := 2 } }
     nextIs (exec (.vredosum ⟨9, 2, 0, 0, 0, 2⟩) t) (fun u => u.reg 9 == 0x4B800000 && u.hart.fflags == 1) &&
     nextIs (exec (.vredsum ⟨9, 2, 0, 0, 0, 2⟩) t) (fun u => u.reg 9 == 0x4B800001 && u.hart.fflags == 1)) = true := by decide

theorem witness_VectorConfig : v23.vecFree (.vsetl 4 5 0) (opVsetl 4 5 0) ∧ v23.vecFree (.vsettype 4 2 2 3 0) (opVsettype 4 2 2 3 0) ∧
    v23.vecFree (.vsettype 4 6 1 0 0) (opVsettype 4 6 1 0 0) := ⟨free_of (by decide), free_of (by decide), free_of (by decide)⟩

/-- R214, R215: 5000 elements at f32 under 32 lanes give vl 1536; a grant of 8 lanes made at a frame boundary gives 384;
lq8 is illegal. -/
theorem test_vsetl :
    nextIs (exec (.vsetl 4 5 0) (vecHart [] (fun h => { h with regs := h.regs.set 5 5000 }))) (fun t => t.reg 4 == 384 && t.hart.vec.vl == 384) = true ∧
    (let s := vecHart [] (fun h => { h with regs := h.regs.set 5 5000, plan := { h.plan with groups := 0xF } })
     nextIs (exec (.vsetl 4 5 0) s) (fun t => t.reg 4 == 1536 && t.hart.vec.vgrant == 32)) = true ∧
    nextIs (exec (.vsettype 4 6 1 0 0) v23) (fun t => t.reg 4 == 0 && t.hart.vec.ill && t.hart.vec.vl == 0) = true := by decide

theorem witness_VectorFrame :
    (∃ op, vecOpOf vaddI = some op ∧ (∃ f, op.run = pureRun f) ∧ v23.vecFree vaddI op) ∧ ∃ t, exec vaddI v23 = .next t :=
  ⟨⟨_, rfl, ⟨_, by simp only [opVadd, vintOp, vbinOp]; rfl⟩, free_of (by decide)⟩, (next_of (p := fun _ => true) (by decide)).imp fun _ h => h.1⟩

theorem witness_ElementsMapped :
    let v : VecState := { v23.hart.vec with lmode := 1 }
    v.vl ≤ v.vlmax ∧ 0 < v.vgrant ∧ v.vgrant ≤ 64 ∧ 64 = codeBits (3 : BitVec 2).toNat ∧ v.misaligned 4 64 = false ∧
    v.misaligned 8 64 = false ∧ share (v.group 4 64) (v.group 8 64) = false ∧ (∀ row e : Nat, ((fun _ _ => (7, 0) : Nat → Nat → Nat × Flags) row e).1 < 2 ^ 64) ∧
    (1, 3) ∈ v.elems false ∧ v.active none 1 3 = true ∧ (1, 4) ∉ v.elems false ∧ 1 < v.rc ∧ 4 < v.vlmax :=
  ⟨by decide, by decide, by decide, by decide, by decide, by decide, by decide, fun _ _ => by simp, by decide, by decide, by decide, by decide, by decide⟩

/-! ### Vector memory -/

/-- The same hart with q1 a unit stream of 32-bit elements at `base` in space `sp`. -/
def streamHart (sp base : Nat) (regs : Mem := []) (g : Stream → Stream := id) : State := vecHart regs (fun h => { h with
  q := h.q.set 1 (g { base := BitVec.ofNat 64 base, cfg := BitVec.ofNat 32 (sp + 2 * 256), loaded := true }) })
def memI : Instr := .vld 4 1 0 0
def stI : Instr := .vst 2 1 0 0

theorem witness_VectorMemory :
    (let s := streamHart 0 0x50000
     let en := s.hart.look (s.vecEntry memI)
     ∃ op o m, vecOpOf memI = some op ∧ vecMem s.cur en memI = some o ∧ s.vecFree memI op ∧ streamOk en.str o.idx.isSome o.spaces = true ∧
      s.memElems memI op en o.m = [(0, 0), (0, 1), (0, 2), (0, 3)] ∧
      memGo (memElem s.cur en (maskOf o.m en) o.idx o.acc o.act) { s := s.memSent memI op } (s.memElems memI op en o.m) = (m, none)) ∧
    (let s := (streamHart 0 0x50000).setHart { (streamHart 0 0x50000).hart with vec := { (streamHart 0 0x50000).hart.vec with vl := 0 } }
     let en := s.hart.look (s.vecEntry memI)
     ∃ op o, vecOpOf memI = some op ∧ vecMem s.cur en memI = some o ∧ s.vecFree memI op ∧ s.memElems memI op en o.m = []) :=
  ⟨⟨_, _, _, rfl, rfl, free_of (by decide), by decide, by decide, rfl⟩, ⟨_, _, rfl, rfl, free_of (by decide), by decide⟩⟩

/-- R276, R278: a store and the load of the same elements, with the cursor past them. -/
theorem test_vector_memory :
    nextIs (exec stI (streamHart 0 0x50010 (elems32 [(2, 0, 7), (2, 3, 0x01020304)]))) (fun y =>
      let t := thru y
      t.mem.read 0x50010 4 == 7 && t.mem.read 0x5001C 4 == 0x01020304 && t.hart.q[1].cursor == 4 &&
      nextIs (exec memI (t.setHart { t.hart with q := t.hart.q.set 1 { t.hart.q[1] with cursor := 0 } })) (fun u =>
        el u 4 0 == 7 && el u 4 3 == 0x01020304)) = true := by decide

/-- A hart of a TDI that does not run, its stream at page 9, which is in the host's memory. -/
def shutHart : State :=
  let s := streamHart 0 0x90000
  { s with mem := pages.write 0x40048 8 (Config.hostWindow + 0x67B) }.setFnAt 0 { s.fnAt 0 with tdi := some .locked }

theorem witness_ElementAccess :
    (let s := streamHart 0 0x50000
     let en := s.hart.look (s.vecEntry memI)
     let m : MemRun := { s := s }
     en.str.armed = false ∧ copyOf en = none ∧ ∃ x, s.elemCheck 0 en.str ((s.hartAt 0).vec.position en.str 0 3).1 ((s.hartAt 0).vec.position en.str 0 3).2 0 .read
        (en.str.touchKind 0) = .ok x ∧ m.short ({ m with s := x.s }.note x.place en.str.sz) 0 = false ∧
        inHbm x.place.at_ = true) ∧
    inHbm Config.hostWindow = false ∧
    (let en := shutHart.hart.look (shutHart.vecEntry memI)
     ∃ w, shutHart.elemCheck 0 en.str ((shutHart.hartAt 0).vec.position en.str 0 3).1
       ((shutHart.hartAt 0).vec.position en.str 0 3).2 0 .read (en.str.touchKind 0) = .error (.wait w)) ∧
    (∃ t pa, shutHart.xlate shutHart.who 0x90000 .read 2 = .ok (t, pa) ∧ (inHost pa && shutHart.tdiShut shutHart.who.fn) = true) ∧
    (let s : State := { shutHart.setFnAt 0 { shutHart.fnAt 0 with tdi := none } with dev := { shutHart.dev with held := 0x10, fns := [] } }
     ∃ t pa, s.xlate s.who 0x90000 .read 2 = .ok (t, pa) ∧ (inHost pa && !s.dieRuns ioDie) = true) ∧
    (∃ t pa, (streamHart 0 0x50000).xlate (streamHart 0 0x50000).who 0x50000 .read 2 = .ok (t, pa) ∧ inHost pa = false) :=
  ⟨⟨by decide, by decide, _, rfl, by decide, by decide⟩, by decide, wait_of (by decide),
    ok_with (p := fun _ pa => inHost pa && shutHart.tdiShut shutHart.who.fn) (by decide),
    ok_with (p := fun _ pa => inHost pa && !State.dieRuns { shutHart.setFnAt 0 { shutHart.fnAt 0 with tdi := none } with
      dev := { shutHart.dev with held := 0x10, fns := [] } } ioDie) (by decide),
    (ok_with (p := fun _ pa => !inHost pa) (by decide)).imp fun _ h => h.imp fun _ h => ⟨h.1, by simpa using h.2⟩⟩

def ldffI : Instr := .vldff 4 1 0 0
/-- A run over elements that traps at one of them. -/
def trapsAt (r : MemRun × Option (Stop × (Nat × Nat) × List (Nat × Nat))) (re : Nat × Nat) : Bool :=
  match r.2 with | some (.trap x, y, _) => y == re && x.cause != 0x52 | _ => false
theorem traps_of {r : MemRun × Option (Stop × (Nat × Nat) × List (Nat × Nat))} {re : Nat × Nat} (h : trapsAt r re = true) :
    ∃ m x rest, r = (m, some (.trap x, re, rest)) ∧ x.cause ≠ 0x52 := by
  obtain ⟨m, _ | ⟨_ | _, y, l⟩⟩ := r
  · cases h
  · simp only [trapsAt, Bool.and_eq_true, beq_iff_eq, bne_iff_ne] at h
    exact ⟨m, _, l, by rw [h.1], h.2⟩
  · cases h

theorem witness_VectorFaults :
    (let s := streamHart 0 0x60000 (elems32 [(2, 0, 1)])
     let en := s.hart.look (s.vecEntry stI)
     ∃ op o, vecOpOf stI = some op ∧ vecMem s.cur en stI = some o ∧ (∀ v a q m c, stI ≠ .vstxu v a q m c) ∧ s.vecFree stI op ∧
      streamOk en.str o.idx.isSome o.spaces = true ∧ ∃ m x rest,
      memGo (memElem s.cur en (maskOf o.m en) o.idx o.acc o.act) { s := s.memSent stI op } (s.memElems stI op en o.m) =
        (m, some (.trap x, (0, 0), rest)) ∧ x.cause ≠ 0x52) ∧
    (let s := streamHart 0 0x50000 [] (fun q => { q with bound := 2 })
     let en := s.hart.look (s.vecEntry ldffI)
     ∃ op o, vecOpOf ldffI = some op ∧ vecMem s.cur en ldffI = some o ∧ s.vecFree ldffI op ∧ (s.memElems ldffI op en o.m).head? ≠ some (0, 2) ∧
      ∃ m x rest, memGo (memElem s.cur en (maskOf o.m en) o.idx o.acc o.act) { s := s.memSent ldffI op } (s.memElems ldffI op en o.m) =
        (m, some (.trap x, (0, 2), rest)) ∧ x.cause ≠ 0x52) :=
  ⟨⟨_, _, rfl, rfl, by simp [stI], free_of (by decide), by decide, traps_of (by decide)⟩,
    ⟨_, _, rfl, rfl, free_of (by decide), by decide, traps_of (by decide)⟩⟩

/-- R284, R285: a first-fault load past the bound sets vl to the element, and traps at its first. -/
theorem test_vldff :
    nextIs (exec ldffI (streamHart 0 0x50000 [] (fun q => { q with bound := 2 }))) (fun t =>
      t.hart.vec.vl == 2 && t.hart.vec.trim && t.hart.vec.trimCause == 0x13 && t.hart.run == .running) = true ∧
    nextIs (exec ldffI (streamHart 0 0x80000)) (fun t => t.hart.run == .suspending && t.hart.hdr.cause == 0x11 && t.hart.hdr.addr == 0x80000) = true ∧
    nextIs (exec stI (streamHart 0 0x60000 (elems32 [(2, 0, 1)]))) (fun t => t.hart.hdr.cause == 0x12 && t.mem == pages) = true := by decide

def waitI : Instr := .vwait 5 1 0
def cbI : Instr := .vcbld 1 0
theorem witness_FlagWaitAndCodebook :
    (let s := (streamHart 0 0x50000)
     let en := s.hart.look (s.vecEntry waitI)
     s.vecFree waitI (opVwait 5 1 0) ∧ streamOk en.str false (fun sp => sp == .dv || sp == .sq) = true ∧ 32 ≤ en.str.width ∧
     0 < (s.vecSent waitI (opVwait 5 1 0)).hart.vec.vwtmo.toNat ∧ s.hart.surr = none) ∧
    nextIs (exec waitI (streamHart 0 0x50000)) (fun t => t.hart.vq.isEmpty && t.reg 5 == 0) = true ∧
    nextIs (exec waitI ((streamHart 0 0x50000).setHart ((streamHart 0 0x50000).hart.setReg 5 1))) (fun t => t.hart.vq.length == 1) = true ∧
    (let s := (streamHart 0 0x50000).setHart { (streamHart 0 0x50000).hart.setReg 5 1 with vec := { (streamHart 0 0x50000).hart.vec with vwtmo := 0 } }
     s.vecFree waitI (opVwait 5 1 0) ∧ (s.vecSent waitI (opVwait 5 1 0)).hart.vec.vwtmo = 0 ∧
     nextIs (exec waitI s) (fun t => (t.hart.through .v).reg 5 == 4) = true) ∧
    (let s := streamHart 0 0x90000
     let t := { s with mem := pages.write 0x40048 8 (Config.hostWindow + 0x67B) }.setFnAt 0 { s.fnAt 0 with tdi := some .locked }
     let en := t.hart.look (t.vecEntry waitI)
     t.vecFree waitI (opVwait 5 1 0) ∧ (match (memGo (memElem t.cur en none none .read (fun m _ _ => .ok m)) { s := t.vecSent waitI (opVwait 5 1 0) }
       ((t.vecSent waitI (opVwait 5 1 0)).hart.vec.elems true)).2 with | some (.wait _, _, _) => true | _ => false) = true ∧
     nextIs (exec waitI t) (fun u => u.hart.vq.length == 1) = true) ∧
    (let s := streamHart 1 (Config.abBytes - 1024)
     s.vecFree cbI (opVcbld 1 0) ∧ s.hart.q[1].loaded = true ∧ s.hart.q[1].mode = 0 ∧ s.hart.q[1].space = .ab ∧ s.hart.q[1].bound = 0 ∧
     (Config.abBytes - 1024) % s.hart.q[1].sz = 0) :=
  ⟨⟨free_of (by decide), by decide, by decide, by decide, rfl⟩, by decide, by decide, ⟨free_of (by decide), by decide, by decide +kernel⟩,
    ⟨free_of (by decide), by decide +kernel, by decide +kernel⟩, free_of (by decide), by decide, by decide, by decide, by decide, by decide⟩

/-! ### The matrix engine -/

/-- A user hart with eight lanes, a half and 64 rows from row 8 in force, kcnt 1, the tiles of the half tagged INT8, and
tile 0 and the accumulator as given. -/
def matHart (regs tile acc : Mem) (tag : Tag) (g : Hart → Hart := id) : State :=
  let s := vecHart regs (fun h => g { h with plan := { h.plan with halves := 1, rowBase := 8, rows := 64 }, mshape := { kcnt := 1 } })
  let v := { s.hart.vec with vgrant := 8, cls := 1, sew := 2, vl := 4, regs := regs }
  let t := s.setHart { s.hart with plan := { s.hart.plan with halves := 1, rowBase := 8, rows := 64 }, mshape := { kcnt := 1 }, vec := v }
  t.setCoreAt 0 { t.coreAt 0 with tags := Vector.replicate 4 tag, tiles := tile, acc := acc }

theorem mat_free_of {s : State} {i : Instr} {op : MatOp}
    (h : (s.hart.prefixFits .m false op.vecResult && s.hart.mq.isEmpty && !s.shared s.cur && s.dev.latent.isNone && !(s.matSent i).matHeld s.cur op (s.matEntry i) &&
      ((s.matSent i).matCheck s.cur op (s.matEntry i)).isNone) = true) : s.matFree i op := by
  simp only [Bool.and_eq_true, List.isEmpty_iff, Option.isNone_iff_eq_none, Bool.not_eq_true'] at h
  exact ⟨h.1.1.1.1.1, h.1.1.1.1.2, h.1.1.1.2, h.1.1.2, h.1.2, h.2⟩

def int8 : State := matHart (Mem.ofFields [(24576, 1, 0xFE)]) (Mem.ofFields [(0, 1, 3), (255, 1, 0x80)]) [] ⟨5, false⟩
def mmrI : Instr := .mmr 2 2 5 1 0 0
def mmspI : Instr := .mmsp 2 2 4 5 1 0 0
def mmqI : Instr := .mmqAb 2 5 6 5 1 0 0
def oneRow : State := int8.setHart { int8.hart with regs := int8.hart.regs.set 6 (BitVec.ofNat 64 (2 ^ 48)) }

set_option maxRecDepth 20000 in
theorem witness_MatrixRows :
    (∃ op r, matOpOf mmrI = some op ∧ int8.matFree mmrI op ∧ matRowsOf (int8.matSent mmrI).hart (int8.matEntry mmrI) mmrI = some r) ∧
    (∃ op r, matOpOf mmspI = some op ∧ int8.matFree mmspI op ∧ matRowsOf (int8.matSent mmspI).hart (int8.matEntry mmspI) mmspI = some r) ∧
    oneRow.matFree mmqI (qOp false 2 5 1 0) ∧ qRows (oneRow.reg 6) = 1 ∧
    (∃ row, (oneRow.matSent mmqI).qRow 0 false (oneRow.reg 5).toNat 0 256 = .ok row) ∧
    isOk (qGo 5 0 2 false 0 (oneRow.matEntry mmqI) 513 0 (oneRow.matSent mmqI) 0) = true :=
  ⟨⟨_, _, rfl, mat_free_of (by decide), rfl⟩, ⟨_, _, rfl, mat_free_of (by decide), rfl⟩, mat_free_of (by decide), by decide, ⟨_, rfl⟩, by decide⟩

set_option maxRecDepth 20000 in
/-- R246, R299: an INT8 row -2 times columns 3 and -128, into row 2 of the hart's share, which begins at row 8. -/
theorem test_mmr : nextIs (exec mmrI int8) (fun t => (t.coreAt 0).acc.read 10240 4 == 0xFFFFFFFA && (t.coreAt 0).acc.read 11260 4 == 256 &&
    (t.coreAt 0).acc.read 11264 4 == 0 && t.hart.pc == 0x10004) = true := by decide

theorem witness_RowAdded : ((8 : Nat) < 10240 ∨ 10240 + 1024 ≤ 8) ∧ int8.hart.mshape.afmt = false ∧ (0 < 256) ∧ (255 < 256) := by decide

def mldI : Instr := .mldWb 5 1 0 1
def mldsI : Instr := .mldsWb 5 0 1
def wbHart (a : Nat) (tag : Tag) : State :=
  let s := matHart [] (Mem.ofFields [(65536, 1, 9), (131072, 1, 9)]) [] tag
  let t := s.setHart (s.hart.setReg 5 (BitVec.ofNat 64 a))
  t.setCoreAt 0 { t.coreAt 0 with wb := Mem.ofFields [(a + 1, 1, 7)] }
theorem witness_MatrixLoads :
    (let s := wbHart (Config.wbBytes - 65536) ⟨0, false⟩
     ∃ op r, matOpOf mldI = some op ∧ s.matFree mldI op ∧ matLoadOf (s.matSent mldI) (s.matEntry mldI).op1.toNat mldI = some r) ∧
    (let s := wbHart 256 ⟨7, false⟩
     ∃ op r, matOpOf mldsI = some op ∧ s.matFree mldsI op ∧ matLoadOf (s.matSent mldsI) (s.matEntry mldsI).op1.toNat mldsI = some r) :=
  ⟨⟨_, _, rfl, mat_free_of (by decide), rfl⟩, ⟨_, _, rfl, mat_free_of (by decide), rfl⟩⟩

/-- R304: a tile load replaces the tile and its tag; the next tile stays. -/
theorem test_mld : nextIs (exec mldI (wbHart 256 ⟨0, false⟩)) (fun t => (t.coreAt 0).tiles.byte 65536 == 0 && (t.coreAt 0).tiles.byte 65537 == 7 &&
    (t.coreAt 0).tiles.byte 131072 == 9 && (t.coreAt 0).tags[1] == ⟨1, false⟩) = true := by decide

def accHart (b : Nat) : State :=
  let s := matHart [] [] (Mem.ofFields [(8192, 4, 5), (9216, 4, 6), (10240, 4, 7)]) ⟨0, false⟩
  s.setHart ((s.hart.setReg 5 0).setReg 6 (BitVec.ofNat 64 b))
/-- Under a prefix that names the copy group v6. -/
def copying6 : State := (accHart 0).setHart { (accHart 0).hart with pfx := some (pfxWord 0 6 0 0 0, false) }

theorem witness_AccumulatorMoves :
    (accHart 64).matFree (.mclr 0 6 1 0) (opMclr 0 1) ∧ (accHart 0).matFree (.mclr 5 6 0 0) (opMclr 5 0) ∧
    (accHart 2).matFree (.mmov 1 5 6 1 0) (opMmov 1 1) ∧ (accHart 0).matFree (.mrd 2 4 1 0) (opMrd 2 4 1) ∧
    copying6.matFree (.mrd 2 4 1 0) (opMrd 2 4 1) ∧ copyOf (copying6.matEntry (.mrd 2 4 1 0)) = some 6 :=
  ⟨mat_free_of (by decide), mat_free_of (by decide), mat_free_of (by decide), mat_free_of (by decide), mat_free_of (by decide), rfl⟩

/-- R306: two rows moved onto their own second; a row read to v4; rows cleared. -/
theorem test_accumulator :
    nextIs (exec (.mmov 1 5 6 1 0) (accHart 2)) (fun t => (t.coreAt 0).acc == Mem.ofFields [(8192, 4, 5), (9216, 4, 5), (10240, 4, 6)]) = true ∧
    nextIs (exec (.mrd 2 4 1 0) (accHart 0)) (fun t => t.hart.vec.regs == Mem.ofFields [(49152, 4, 7)]) = true ∧
    nextIs (exec (.mrd 2 4 1 0) copying6) (fun t => t.hart.vec.regs == Mem.ofFields [(49152, 4, 7), (73728, 4, 7)]) = true ∧
    nextIs (exec (.mclr 1 6 1 0) (accHart 2)) (fun t => (t.coreAt 0).acc == Mem.ofFields [(8192, 4, 5)]) = true := by decide

/-- Two harts of a core that run. -/
def twoRun : State := int8.setHartAt 1 { run := .running, gang := 1 }

theorem witness_EngineTraps :
    (let s := v23.setHart { v23.hart with vec := { v23.hart.vec with convoy := 4, strap := true } }
     s.hart.vec.splits (opVadd ⟨4, 2, 3, 0, 0, 0, 2⟩) false = true ∧ s.hart.prefixFits .v true true = true ∧ s.hart.vq = [] ∧ s.hart.surr = none ∧
     s.hart.bay.isOpen = false ∧ s.vecScore 0 (opVadd ⟨4, 2, 3, 0, 0, 0, 2⟩) (s.vecEntry vaddI) = false ∧
     (s.vecSent vaddI (opVadd ⟨4, 2, 3, 0, 0, 0, 2⟩)).vecHeld 0 (opVadd ⟨4, 2, 3, 0, 0, 0, 2⟩) = false) ∧
    (v23.hart.vec.splits (opVadd ⟨4, 2, 3, 0, 0, 0, 2⟩) false = false ∧ (mk id).hart.vec.vgrant = 0 ∧ v23.hart.vec.vgrant ≠ 0 ∧
     (1 : BitVec 2) ≠ v23.hart.vec.sew) ∧
    (let s := v23.setHart { v23.hart with vec := { v23.hart.vec with lmode := 1 } }
     s.hart.vec.badGroups ((opVadd ⟨5, 2, 4, 0, 0, 0, 2⟩).ops s.hart.vec (s.vecEntry vaddI)) none = true) ∧
    (v23.hart.vec.badOverlap ((opVadd ⟨4, 2, 3, 0, 1, 0, 2⟩).ops v23.hart.vec (v23.vecEntry vaddI)) (some 4) none = true) ∧
    (int8.hart.mq = [] ∧ (int8.matSent mmrI).matHeld 0 (opMmr 2 2 5 1 0) (int8.matEntry mmrI) = false ∧ v23.hart.plan.tiles = 0 ∧
     bit int8.hart.plan.tiles 2 = false ∧ int8.hart.plan.rowsOn < 64 + 1 ∧ (mk id).hart.vec.vgrant = 0 ∧
     badTile 1 int8.hart (int8.matEntry mmrI) ⟨5, false⟩ = true) ∧
    ((opMms 2 3 5 1 0).badGroup { int8.hart.vec with lmode := 1 } (int8.matEntry mmrI) = true ∧
     (opMrd 2 4 1).badCopy int8.hart.vec { int8.matEntry mmrI with pfx := some (pfxWord 0 4 0 0 0) } = true) ∧
    int8.shared 0 = false ∧ (twoRun.hart.mq = [] ∧ twoRun.hart.prefixFits .m false false = true ∧ twoRun.hart.hasRoom .m = true ∧
     twoRun.shared 0 = true) := by decide

/-- R42: where two harts share the matrix unit, a row's work waits in the queue. -/
theorem test_shared : nextIs (exec mmrI twoRun) (fun t => t.hart.mq.length == 1 && t.hart.pc == 0x10004 && (t.coreAt 0).acc == []) = true := by decide

/-- R250, R307: a width that is not sew is 0x21, no lanes 0x22, a misaligned group 0x24; a tile outside the share is 0x30. -/
theorem test_engine_traps :
    nextIs (exec (.vadd ⟨4, 2, 3, 0, 0, 0, 1⟩) v23) (fun t => t.hart.hdr.cause == 0x21 && t.hart.hdr.engine == 2 && t.hart.hdr.flags == 1) = true ∧
    nextIs (exec vaddI (user id)) (fun t => t.hart.hdr.cause == 0x22) = true ∧
    nextIs (exec (.vadd ⟨5, 2, 4, 0, 0, 0, 2⟩) (v23.setHart { v23.hart with vec := { v23.hart.vec with lmode := 1 } })) (fun t => t.hart.hdr.cause == 0x24) = true ∧
    nextIs (exec (.mmr 2 2 5 1 0 2) int8) (fun t => t.hart.hdr.cause == 0x30 && t.hart.hdr.engine == 3) = true ∧
    nextIs (exec (.mmr 2 2 1 1 0 0) int8) (fun t => t.hart.hdr.cause == 0x31) = true := by decide

/-! ### Copies and other submissions -/

/-- A hart of core 0 with 600 bytes to copy in shape 0, and others of its shapes empty. -/
def cpHart (f : Hart → Hart := id) : State := mk (fun h => f ((({ h with c := h.c.set 0 { count0 := 600 } }).setReg 5 0x100).setReg 6 0x200))
/-- A copy from the activation buffer to the weight buffer by shape `ck`, S[4] its accept word, in its form `w`. -/
def cpI (w : BitVec 1) (ck dsp : BitVec 2) : Instr := .cpGo ⟨w, 4, 5, 6, 1, dsp, ck, 0, 0⟩
/-- The queue is full. -/
def fullQ (h : Hart) : Hart := { h with cq := List.replicate 64 (entry (cpI 0 0 2)) }
/-- A user hart of a reservation of class 1 with the copy budget `b` and energy. -/
def paced (b : BitVec 32) : State :=
  let s := cpHart (fun h => { h with sup := false, gang := 1, resv := 5 })
  s.setRsvAt 5 { on := true, cls := 1, bud := (Vector.replicate 8 0).set 5 b |>.set 7 1000 }

/-- A submission that may be dispatched. -/
def submits (s : State) (i : Instr) (p : Submission → Prop) : Prop := ∃ x, submissionOf i = some x ∧ s.hart.canSubmit x ∧ p x

theorem witness_Submissions :
    submits (cpHart) (cpI 0 0 2) (fun x => ∃ t w, x.ask cpHart = .ok (.accepted t w)) ∧
    (let s := cpHart fullQ; submits s (cpI 1 0 2) (fun x => x.ask s = .ok (.refused 0x20 true) ∧ x.w = true ∧ s.hart.wait = none)) ∧
    (let s : State := { cpHart (fun h => { fullQ h with wait := some { kind := .admission (.cp ⟨1, 4, 5, 6, 1, 2, 0, 0, 0⟩), since := 0 } }) with time := 4096 }
     submits s (cpI 1 0 2) (fun x => x.ask s = .ok (.refused 0x20 true) ∧ s.hart.wait.map (fun w => w.kind) = some (.admission x.x))) ∧
    (let s := cpHart fullQ; submits s (cpI 0 0 2) (fun x => x.ask s = .ok (.refused 0x20 true) ∧ x.w = false)) ∧
    (let s := paced 0; submits s (cpI 1 0 2) (fun x => x.ask s = .ok (.refused 1 false) ∧ x.w = true)) ∧
    submits cpHart (cpI 0 1 2) (fun x => x.ask cpHart = .error (.trap ⟨0x38, 0⟩)) ∧
    (mk id).hart.sup = true := by
  refine ⟨⟨_, rfl, ⟨by decide, by decide⟩, _, _, rfl⟩, ⟨_, rfl, ⟨by decide, by decide⟩, rfl, rfl, rfl⟩, ⟨_, rfl, ⟨by decide, by decide⟩, rfl, rfl⟩,
    ⟨_, rfl, ⟨by decide, by decide⟩, rfl, rfl⟩, ⟨_, rfl, ⟨by decide, by decide⟩, rfl, rfl⟩, ⟨_, rfl, ⟨by decide, by decide⟩, rfl⟩, rfl⟩

/-- The copy a state would submit, with the reason against it, its room, whether it is unpaced, and its deadline. -/
def copyFacts (s : State) (c : CopyCmd) : Nat × Bool × Bool × Nat :=
  let k := s.copyAsk s.cur c.ssp c.dsp c.a c.b c.xpd c.shape.total (c.shape.rows * c.shape.planes)
  let q := queuedCopy s.hart.cq
  (s.commonReason s.who.fn s.hart.workResv (5 :: (if k.wh = 0 then [] else [3])), s.hart.hasRoom .c,
    s.workCls s.hart == 0 || k.host, s.copyDeadline s.cur s.hart.workResv k q.1 q.2)

theorem witness_CopyAdmission :
    let ok (s : State) (j : Instr) (p : CopyCmd → Prop) : Prop :=
      submits s j (fun _ => ∃ c, copyCmd s j = some c ∧ p c)
    ok cpHart (cpI 0 1 2) (fun c => c.xpd = false ∧ c.shape.count0 = 0) ∧
    ok (mk (fun h => { h with c := h.c.set 0 { count0 := 0x40000001 } })) (cpI 0 0 2) (fun c => 2 ^ 30 < c.shape.total) ∧
    ok (cpHart (fun h => h.setReg 6 0x2000000000)) (cpI 0 0 3) (fun c => c.shape.count0 ≠ 0 ∧ c.shape.total ≤ 2 ^ 30 ∧ c.dsp = .sq ∧ 2 ^ 37 ≤ c.b.toNat) ∧
    ok (paced 0) (cpI 0 0 2) (fun c => c.dsp ≠ .sq ∧ (copyFacts (paced 0) c).1 = 1) ∧
    ok (cpHart fullQ) (cpI 0 0 2) (fun c => (copyFacts (cpHart fullQ) c) = (0, false, true, (copyFacts (cpHart fullQ) c).2.2.2)) ∧
    ok cpHart (cpI 0 0 2) (fun c => copyFacts cpHart c = (0, true, true, (copyFacts cpHart c).2.2.2)) ∧
    ok (paced 3) (cpI 0 0 2) (fun c => let x := copyFacts (paced 3) c; x.1 = 0 ∧ x.2.1 = true ∧ x.2.2.1 = false ∧ x.2.2.2 - (paced 3).now ≤ 256 * 4096) ∧
    (let s := let t := paced 1; t.setHart { t.hart with c := t.hart.c.set 0 { count0 := 0x40000000 } }
     ok s (cpI 0 0 2) (fun c => let x := copyFacts s c; x.1 = 0 ∧ x.2.1 = true ∧ x.2.2.1 = false ∧ 256 * 4096 < x.2.2.2 - s.now)) := by
  refine ⟨⟨_, rfl, ⟨by decide, by decide⟩, _, rfl, rfl, rfl⟩, ⟨_, rfl, ⟨by decide, by decide⟩, _, rfl, by decide⟩,
    ⟨_, rfl, ⟨by decide, by decide⟩, _, rfl, by decide, by decide, rfl, by decide⟩, ⟨_, rfl, ⟨by decide, by decide⟩, _, rfl, by decide, by decide⟩,
    ⟨_, rfl, ⟨by decide, by decide⟩, _, rfl, by decide⟩, ⟨_, rfl, ⟨by decide, by decide⟩, _, rfl, by decide⟩,
    ⟨_, rfl, ⟨by decide, by decide⟩, _, rfl, by decide, by decide, by decide, by decide⟩,
    ⟨_, rfl, ⟨by decide, by decide⟩, _, rfl, by decide, by decide, by decide, by decide⟩⟩

/-- R51, R196: a copy of reservation 0 has no deadline; one of 600 bytes (3 units) of a budget of 3 is due a frame from now
and 2048 cycles; one of an absent reservation is turned away with reason 4. -/
theorem test_copy_admission :
    nextIs (exec (cpI 0 0 2) cpHart) (fun t => t.reg 4 == BitVec.allOnes 64 && t.hart.cq.length == 1) = true ∧
    nextIs (exec (cpI 0 0 2) (paced 3)) (fun t => t.reg 4 == BitVec.ofNat 64 (2 ^ 63 + 4096 + 2048)) = true ∧
    nextIs (exec (cpI 0 0 2) (cpHart (fun h => { h with sup := false, gang := 1, resv := 6 }))) (fun t => t.reg 4 == 4 && t.hart.cq.length == 0) = true := by
  decide

/-- Copies at the head of the queue: 600 bytes from 0x100 of the activation buffer to 0x200 of the weight buffer, as
`prog` bytes are written. -/
def copying (i : Instr) (prog : Nat) (f : Hart → Hart := id) : State :=
  let s := cpHart (fun h => f { h with cq := [{ instr := i, op1 := 0x100, op2 := 0x200, shape := { count0 := 600 }, prog := prog, left := 3 }] })
  s.setCoreAt 0 { s.coreAt 0 with ab := Mem.ofFields [(0x100, 1, 7), (0x357, 1, 9), (0x358, 1, 5)], wb := Mem.ofFields [(0x1FF, 1, 3), (0x200, 1, 4), (0x458, 1, 6)] }
/-- A shape record at 0x50000: count1 2, s1 64, d1 128. -/
def shaped : State := { mk (fun h => (h.setReg 5 600).setReg 6 0x50000) with mem := pages.write 0x50004 2 2 |>.write 0x50008 8 64 |>.write 0x50018 8 128 }

theorem witness_CopyWork :
    (cpHart.hart.prefixFits .c false false = true ∧ cpHart.hart.hasRoom .c = true ∧ (cpHart.reg 5).toNat < 2 ^ 32 ∧
     2 ^ 32 ≤ ((with56 0x100000000 0).reg 5).toNat ∧ (with56 0x100000000 0).hart.hasRoom .c = true ∧
     (∃ t r, shaped.shapeRecord (shaped.reg 6) 4 = .ok (t, r)) ∧
     (let s := mk (fun h => { h with cq := [entry (.cpCnt 4)] }); (s.hartAt 0).cq = [entry (.cpCnt 4)] ∧ s.shapeHeld 0 = false ∧
       (mk (fun h => { h with run := .suspending, cq := [entry (.cpCnt 4)] })).shapeHeld 0 = true)) ∧
    (let s := copying (cpI 0 0 2) 0
     (s.hartAt 0).cq.map (fun e => e.instr) = [cpI 0 0 2] ∧ s.copyHeld 0 ⟨.ab, .wb, 0, 0⟩ = false ∧ s.dev.latent = none ∧ 0x100 + 600 ≤ Config.abBytes ∧
     0x200 + 600 ≤ Config.wbBytes) ∧
    (let s := copying (cpI 0 0 2) 4096
     (s.hartAt 0).run = .running ∧ (s.hartAt 0).cq.map (fun e => (e.instr, decide (e.shape.count0 ≠ 0 ∧ e.shape.total ≤ e.prog ∧ e.mcf = 0))) = [(cpI 0 0 2, true)]) := by
  refine ⟨⟨by decide, by decide, by decide, by decide, by decide, ⟨_, _, rfl⟩, by decide⟩, ⟨by decide, by decide, by decide, by decide⟩, by decide, by decide⟩

/-- R190, R198, R194, R195: a shape from its register and record; a copy's bytes; its completion counted; cp.cnt retires. -/
theorem test_copy :
    nextIs (exec (.cpShape 1 5 6) shaped) (fun t => t.hart.c[1] == { count0 := 600, count1 := 2, s1 := 64, d1 := 128 } && t.hart.pc == 0x10004) = true ∧
    nextIs (exec (.copyChunk 0) (copying (cpI 0 0 2) 0)) (fun t =>
      let w := (t.coreAt 0).wb
      w.byte 0x1FF == 3 && w.byte 0x200 == 7 && w.byte 0x201 == 0 && w.byte 0x457 == 9 && w.byte 0x458 == 6 &&
      nextIs (exec (.copyComplete 0) t) (fun u => u.hart.cpcnt == 1 && u.hart.cq.length == 0)) = true ∧
    nextIs (exec (.instructionRetire 0 3) (mk (fun h => { h with cpcnt := 12, cq := [entry (.cpCnt 4)] }))) (fun t => t.reg 4 == 12) = true := by
  decide

/-! ### Bays -/

/-- The acting hart's cluster changed. -/
def clusOf (s : State) (f : Clus → Clus) : State := s.setClusAt 0 (f (s.clusAt 0))
/-- A user hart of gang 1 that asks for `ask` with its routine at `ent`. -/
def taker (ask ent : Word) (f : Hart → Hart := id) : State := user (fun h => f ((h.setReg 5 ask).setReg 6 ent))
noncomputable def takeI : Instr := .bayTakeNeg 4 5 6 0
/-- The facts of a take: a routine, malformed, the common reason, whether free units and the recall queue suffice. -/
def takeFacts (s : State) : Bool × Bool × Nat × Bool × Bool :=
  (s.hart.surr.isSome, takeBad true (s.reg 5) (s.reg 6), s.commonReason s.who.fn s.hart.resv.toNat [],
    decide (takeUnits (s.reg 5) ≤ (s.clusAt s.clusNo).free), decide ((s.clusAt s.clusNo).recalls.length ≤ 16))
def routine : Surr := { pc := 0x20000, bank := Vector.ofFn (fun i => BitVec.ofNat 64 (70 + i.val)), pfx := {}, cls := 1, resv := 5 }

theorem witness_BayTakes :
    (let s := taker 0x440 0x30000 (fun h => { h with surr := some routine }); submits s takeI (fun _ => (takeFacts s).1 = true)) ∧
    (let s := taker 0x441 0x30002; submits s takeI (fun _ => (takeFacts s).2.1 = true)) ∧
    (let s := taker 0x340 0x30000; submits s takeI (fun _ => (takeFacts s).2.1 = true)) ∧
    (let s := taker 0x440 0x30000 (fun h => { h with resv := 9 }); submits s takeI (fun _ => takeFacts s = (false, false, 4, true, true))) ∧
    (let s := taker 0x3C40 0x30000; submits s takeI (fun _ => takeFacts s = (false, false, 0, true, true))) ∧
    (submits (taker 1 0) (.bayTakeFix 4 5 0) (fun _ => takeBad false ((taker 1 0).reg 5) 0 = false ∧ (taker 1 0).hart.surr = none)) := by
  refine ⟨⟨_, rfl, ⟨by decide, by decide⟩, by decide⟩, ⟨_, rfl, ⟨by decide, by decide⟩, by decide⟩, ⟨_, rfl, ⟨by decide, by decide⟩, by decide⟩,
    ⟨_, rfl, ⟨by decide, by decide⟩, by decide⟩, ⟨_, rfl, ⟨by decide, by decide⟩, by decide⟩, ⟨_, rfl, ⟨by decide, by decide⟩, by decide, by decide⟩⟩

/-- Bay 3 of the cluster, with two bytes of it and of its neighbours, and a recall of it. -/
def withBay (b : Bay) (s : State) : State := clusOf s (fun c => { c with
  bays := c.bays.set 3 b, square := Mem.ofFields [(0x2FFFFFF, 1, 1), (0x3000000, 1, 2), (0x3FFFFFF, 1, 3), (0x4000000, 1, 4)]
  recalls := [{ victim := 3, forBay := 5, holder := 0, rqrsv := 5, rqcls := 1, aleft := 1 }] })
def mine : Bay := { st := .held, neg := true, units := 4, got := 4, gang := 1, holder := 0, entry := 0x30000, lb := 4, allow := 1, lastGang := 1 }
def giver (b : Bay) (f : Hart → Hart := id) : State := withBay b (taker 0x3000010 0 f)
/-- A hart in its routine, the bay open. -/
def inRoutine (f : Hart → Hart := id) : State := giver mine (fun h => f { h with
  surr := some routine, bay := { h.bay with isOpen := true, handle := 3, counting := true, aleft := 1, ucnt := 9, lb := 4, rcend := 2304 } })

theorem witness_BayReleases :
    (giver mine).hart.prefixFits .s false false = true ∧ 2 ^ 32 ≤ ((taker 0x100000000 0).reg 5).toNat ∧
    ((giver mine).reg 5).toNat / 2 ^ 24 = 3 ∧ ((giver mine).clusAt (giver mine).clusNo).bay 3 = mine ∧
    (giver { mine with gang := 2 }).hart.gang = 1 ∧ (giver { mine with st := .free }).hart.gang ≠ 0 ∧
    ((giver { mine with st := .pending }).clusAt 0).bay 3 = { mine with st := .pending } ∧
    (giver mine (fun h => { h with cq := [entry (cpI 0 0 2)] })).begun.accessBusy 0 = true ∧ (giver mine).begun.accessBusy 0 = false ∧
    prefixed.hart.pfx.isSome = true ∧ (giver mine).hart.surr = none ∧
    (inRoutine.hart.pfx = none ∧ inRoutine.hart.surr = some routine ∧ inRoutine.accessBusy inRoutine.cur = false ∧ inRoutine.hart.ss.any (fun e => e.surr) = false ∧
     (inRoutine.hart.vq ++ inRoutine.hart.mq ++ inRoutine.hart.cq).any (fun e => e.surr) = false ∧ inRoutine.hart.bay.isOpen = true ∧
     inRoutine.hart.bay.aleft ≠ 0 ∧ inRoutine.hart.preempt = false) ∧
    (let s := giver { mine with st := .free, lastGang := 2 }; ((s.clusAt s.clusNo).bay 3).st = .free ∧ ((s.clusAt s.clusNo).bay 3).lastGang ≠ s.hart.gang) ∧
    ((giver { mine with st := .free }).clusAt 0).bay 3 = { mine with st := .free } ∧ mine.lastGang = (giver mine).hart.gang ∧
    ((taker 0x10 0).reg 5).toNat / 2 ^ 24 = 0 ∧ (((taker 0x10 0).clusAt 0).bay 0).st = .free ∧
    ((inRoutine (fun h => { h with cq := [{ entry (cpI 0 0 2) with surr := true }] })).hart.cq.any (fun e => e.surr) = true ∧
     (inRoutine (fun h => { h with ss := [{ kind := .store, surr := true }] })).hart.ss.any (fun e => e.surr) = true) ∧
    (let s := inRoutine (fun h => { h with cq := [entry (cpI 0 0 2)] })
     s.accessBusy s.cur = true ∧ s.hart.bay.isOpen = true ∧ (s.hart.vq ++ s.hart.mq ++ s.hart.cq).any (fun e => e.surr) = false) ∧
    ((inRoutine (fun h => { h with preempt := true })).hart.preempt = true ∧ inRoutine.hart.unsettled = false) ∧
    (inRoutine (fun h => { h with bay := { h.bay with aleft := 0 } })).hart.bay.aleft = 0 ∧
    (inRoutine (fun h => { h with bay := { h.bay with isOpen := false } })).hart.bay.isOpen = false ∧
    ((inRoutine.clusAt inRoutine.clusNo).bay inRoutine.hart.bay.handle.toNat).holder = inRoutine.cur := by decide

/-- R321, R324, R326 to R328: the grant, the delivery, and the overruns past a unit count of 16 and past rcend. -/
theorem witness_BayEvents :
    ((giver { mine with st := .pending }).clusAt (0 : BitVec 5).toNat).bay (3 : BitVec 8).toNat = { mine with st := .pending } ∧
    ((giver mine).clusAt 0).recalls.find? (fun x => x.victim == 3) = some { victim := 3, forBay := 5, rqrsv := 5, rqcls := 1, aleft := 1 } ∧
    ((giver mine).hartAt 0).surr = none ∧ ((giver mine).hartAt 0).bay.isOpen = false ∧ ((giver mine).hartAt 0).run = .running ∧
    ((giver mine).hartAt 0).unsettled = false ∧
    ((giver mine (fun h => { h with ss := [{ kind := .load 3 4, back := some fives }] })).hartAt 0).ss = [] ++ { kind := .load 3 4, back := some fives } :: [] ∧
    ((giver mine (fun h => { h with run := .suspended })).hartAt 0).run ≠ .running ∧
    ((inRoutine (fun h => { h with bay := { h.bay with ucnt := 17 } })).hartAt 0).bay.ucnt = 17 ∧ 2 ^ inRoutine.hart.bay.lb.toNat < 17 ∧
    (inRoutine.hartAt 0).bay.isOpen = true ∧ (inRoutine.hartAt 0).bay.counting = true ∧
    (inRoutine.hartAt 0).bay.rcend ≤ ({ inRoutine with time := 2304 } : State).time := by decide

/-- R315, R320, R321: the first handle is 1, its deadline 64 + 4 * 64 cycles away (class 0 has none); R323: a give frees the
bay and its bytes; R327: bay.ret returns to the banked pc and s24. -/
theorem test_bays :
    nextIs (exec takeI (taker 0x440 0x30000)) (fun t => t.hart.bay.bayh == 1 && t.reg 4 == BitVec.allOnes 64 && ((t.clusAt 0).bay 1).got == 64) = true ∧
    nextIs (exec (.bayGive 5) (giver mine)) (fun t => ((t.clusAt 0).bay 3).st == .free && (t.clusAt 0).square == Mem.ofFields [(0x2FFFFFF, 1, 1), (0x4000000, 1, 4)] &&
      (t.clusAt 0).recalls.isEmpty) = true ∧
    nextIs (exec .bayRetFin inRoutine) (fun t => t.hart.pc == 0x20000 && t.reg 24 == 70 && t.hart.bay.isOpen) = true ∧
    nextIs (exec .bayRetRef inRoutine) (fun t => !t.hart.bay.counting && t.hart.bay.aleft == 0) = true ∧
    nextIs (exec .bayRetSum inRoutine) (fun t => ((t.clusAt 0).bay 3).st == .free) = true := by decide

theorem test_bay_events :
    nextIs (exec (.bayGrant 0 3) (giver { mine with st := .pending })) (fun t => ((t.clusAt 0).bay 3).st == .held && (t.clusAt 0).square.byte 0x3000000 == 0) = true ∧
    nextIs (exec (.recallDelivery 0 3) (giver mine)) (fun t => t.hart.pc == 0x30000 && t.hart.bay.rcend == 2304 && t.hart.surr.isSome) = true ∧
    nextIs (exec (.surrenderTimeOverrun 0) { inRoutine with time := 2304 }) (fun t => t.hart.hdr.cause == 0x42) = true := by decide

/-! ### The sampler -/

/-- A cluster whose request has three lanes of token 0 to 2 with l0 to l2 as given, and slot 2 of the table store with a
count entry for token 1 (5 times), and bias entry 0, of token 2: attr 0x83 (program 3), bias 1.5. -/
def lanesOf (l : List (List Nat)) (c : Clus) : Clus := { c with
  lslot := 2
  lanes := Vector.ofFn (fun i : Fin 128 => if i.val < l.length then
    { l := Vector.ofFn (fun r : Fin 16 => BitVec.ofNat 32 ((l.getD i.val []).getD r.val 0)), tok := i.val, live := true, cf := i.val == 1 } else {})
  table := Mem.ofFields [(1024, 4, 0x05000001), (1408, 4, 0x83000002), (1412, 4, 0x3FC00000)] }
def lanes : State := clusOf (mk id) (lanesOf [[0x3F800000, 0x40000000], [0x40000000, 0xC0000000], [0x40400000, 0x7FC00000]])
def lane (t : State) (i r : Nat) : Nat := (((t.clusAt 0).lanes.toList.getD i {}).l.toList.getD r 0).toNat

theorem witness_LogitResults :
    (∃ p bad f, logitTable (.ladd 2 0 0 1) = some (p, bad, f)) ∧ (lanes.clusAt lanes.clusNo).lstat = 0 ∧
    (clusOf lanes (fun c => { c with lstat := 0x49 })).clusAt 0 = { lanes.clusAt 0 with lstat := 0x49 } ∧
    (∃ p bad f, logitTable (.lcnti 2 0 1) = some (p, bad, f) ∧
      ∃ j : Fin 128, (lanes.clusAt lanes.clusNo).lanes[j].live = true ∧ bad (lanes.clusAt lanes.clusNo).lanes[j] = true) :=
  ⟨⟨_, _, _, rfl⟩, rfl, rfl, ⟨_, _, _, rfl, 1, by decide +kernel, by decide +kernel⟩⟩

/-- R347: sums, predication by cf, the bias of a token, its count, a compare, a return, and a bad index. -/
theorem test_logit :
    nextIs (exec (.ladd 2 1 0 0) lanes) (fun t => lane t 0 2 == 0 && lane t 1 2 == 0x40800000) = true ∧
    nextIs (exec (.lbias 2 0 0) lanes) (fun t => lane t 0 2 == 0x3F800000 && lane t 2 2 == 0x40900000) = true ∧
    nextIs (exec (.lcnt 2 0) lanes) (fun t => lane t 0 2 == 0 && lane t 1 2 == 0x40A00000) = true ∧
    nextIs (exec (.lcmplt 0 0 1) lanes) (fun t => ((t.clusAt 0).lanes.toList.map (fun l => l.cf)).take 3 == [true, false, false]) = true ∧
    nextIs (exec (.lret 2 1) lanes) (fun t => ((t.clusAt 0).lanes.toList.map (fun l => (l.live, l.out))).take 2 == [(false, 0x40000000), (true, 0xFF800000)]) = true ∧
    nextIs (exec (.lcnti 2 0 1) lanes) (fun t => (t.clusAt 0).lstat == 0x49 && (t.clusAt 0).lanes == (lanes.clusAt 0).lanes) = true := by decide +kernel

/-- A request block at 0x50000: slot 2, three tokens, logits at 0x51000, c 1.0, maxcyc 64, the record at 0x52000. -/
def reqMem (maxcyc : Nat) : Mem := (pages.write 0x50000 4 0x00040002 |>.write 0x50004 4 3 |>.write 0x50008 8 0x51000 |>.write 0x50010 4 0x3F800000
  |>.write 0x50014 4 maxcyc |>.write 0x50020 8 6 |>.write 0x50030 8 0x52000)
def req (a b : Word) (maxcyc : Nat) (f : Hart → Hart := id) : State :=
  let s := { mk (fun h => f ((h.setReg 5 a).setReg 6 b)) with mem := reqMem maxcyc }
  s.setCoreAt 0 { s.coreAt 0 with smpCnt := 128 }
def fullWorks (s : State) : State := clusOf s (fun c => { c with works := List.replicate 16 { hid := 0 }, seq := 16 })

/-- A user hart of a reservation of class 1 whose sampler budget is `b`, and one that asks for 0x100000 cycles. -/
def smpPaced (b : BitVec 32) (maxcyc : Nat := 64) : State :=
  (req 0x50000 2 maxcyc (fun h => { h with sup := false, gang := 1, resv := 5 })).setRsvAt 5
    { on := true, cls := 1, bud := (Vector.replicate 8 0).set 6 b |>.set 7 1000 }
def smpFar (b : BitVec 32) : State := smpPaced b 0x100000
noncomputable def reqI : Instr := .smpReq 4 5 0 0
noncomputable def tldI : Instr := .smpTld 4 5 6 0
/-- A request submitted with its block readable, and what holds of the state after and of the block's bytes. -/
def admits (s : State) (p : State → Nat → Bool) : Prop :=
  submits s reqI (fun _ => (∃ ra rb, samplerOf reqI = some (0, ra, rb)) ∧ ∃ t raw, s.shapeRecord (s.reg 5) 8 = .ok (t, raw) ∧ p t raw = true)
theorem admits_of {s : State} {p : State → Nat → Bool} (h : s.hart.prefixFits .s false false = true)
    (k : (s.hart.reserveAll ((if pushOf s.hart.pfx = 0 then [] else [pushOf s.hart.pfx]) ++ [])).isSome = true)
    (o : okWith (s.shapeRecord (s.reg 5) 8) p = true) : admits s p := ⟨_, rfl, ⟨h, k⟩, ⟨_, _, rfl⟩, ok_with o⟩

theorem witness_SamplerAdmission :
    submits (req 0x50020 0 64) reqI (fun _ => (req 0x50020 0 64).reg 5 = 0x50020) ∧
    submits (req 0x50000 0 64 (fun h => { h with sup := false, resv := 9 })) tldI (fun _ => (req 0x50000 0 64 (fun h => { h with sup := false, resv := 9 })).commonReason 0 9 [6] = 4) ∧
    admits (req 0x50000 0 63) (fun _ raw => (blockOf raw).bad) ∧
    admits (req 0x50000 0 64) (fun t raw => !(blockOf raw).bad && (blockOf raw).slot == 2 && decide ((t.clusAt 0).works.length < 16)) ∧
    ((req 0x50000 0 64).core.smpBase = 0 ∧ (req 0x50000 0 64).core.smpCnt = 128 ∧
      (req 0x50000 0 64).commonReason (req 0x50000 0 64).who.fn (req 0x50000 0 64).hart.workResv [6] = 0) ∧
    submits (req 0x50000 128 64) tldI (fun _ => (req 0x50000 128 64).reg 6 = 128) ∧
    submits (req 0x50001 1 64) tldI (fun _ => ((req 0x50001 1 64).reg 5).toNat % 64 ≠ 0) ∧
    submits (fullWorks (req 0x50000 127 64)) tldI (fun x => 16 ≤ (((fullWorks (req 0x50000 127 64)).clusAt 0).works.filter (fun y => y.hid == 0)).length ∧ x.w = false) ∧
    submits (req 0x50000 127 64) (.smpTst 4 5 6 0) (fun _ => (req 0x50000 127 64).workCls (req 0x50000 127 64).hart = 0) ∧
    submits (smpPaced 1) tldI (fun x => (smpPaced 1).commonReason (smpPaced 1).who.fn (smpPaced 1).hart.workResv [6] = 0 ∧
      (smpPaced 1).workCls (smpPaced 1).hart = 1 ∧ (smpPaced 1).smpDeadline 32 - (smpPaced 1).now ≤ 256 * 4096 ∧ x.w = false) ∧
    submits (smpFar 1) reqI (fun x => (smpFar 1).commonReason (smpFar 1).who.fn (smpFar 1).hart.workResv [6] = 0 ∧
      (smpFar 1).workCls (smpFar 1).hart = 1 ∧ ¬ (smpFar 1).smpDeadline 0x100000 - (smpFar 1).now ≤ 256 * 4096 ∧ x.w = false) ∧
    (req 0x50000 0 64).hart.smpRaw = none ∧
    submits (req 0x90020 0 64 (fun h => { h with wait := some { kind := .admission (.smp 0 4 5 0 0), since := 0, raw := some 9 } })) reqI
      (fun _ => (req 0x90020 0 64 (fun h => { h with wait := some { kind := .admission (.smp 0 4 5 0 0), since := 0, raw := some 9 } })).hart.smpRaw = some 9) := by
  refine ⟨⟨_, rfl, ⟨by decide, by decide⟩, by decide⟩, ⟨_, rfl, ⟨by decide, by decide⟩, by decide⟩,
    admits_of (by decide) (by decide) (by decide +kernel), admits_of (by decide) (by decide) (by decide +kernel), by decide,
    ⟨_, rfl, ⟨by decide, by decide⟩, by decide⟩, ⟨_, rfl, ⟨by decide, by decide⟩, by decide⟩, ⟨_, rfl, ⟨by decide, by decide⟩, by decide, by decide⟩,
    ⟨_, rfl, ⟨by decide, by decide⟩, by decide⟩, ⟨_, rfl, ⟨by decide, by decide⟩, by decide, by decide, by decide, by decide⟩,
    ⟨_, rfl, ⟨by decide, by decide⟩, by decide, by decide, by decide, by decide⟩, by decide, ⟨_, rfl, ⟨by decide, by decide⟩, by decide⟩⟩

/-- R339, R340: a good request is accepted with its charge of maxcyc; a maxcyc of 63 is reason 0x40, a slot past the core's
window 0x42. -/
theorem test_sampler_admission :
    nextIs (exec reqI (req 0x50000 0 64)) (fun t => t.reg 4 == BitVec.allOnes 64 && (t.clusAt 0).works.map (fun w => (w.op, w.slot, w.w)) == [(0, 2, 64)]) = true ∧
    nextIs (exec reqI (req 0x50000 0 63)) (fun t => t.reg 4 == 0x40) = true ∧
    nextIs (exec tldI (req 0x50000 128 64)) (fun t => t.reg 4 == 0x42) = true ∧
    nextIs (exec reqI (smpFar 1)) (fun t => t.reg 4 == 2) = true ∧
    nextIs (exec (.smpTst 4 5 6 0) (req 0x50000 127 64)) (fun t => t.reg 4 == BitVec.allOnes 64 && (t.clusAt 0).works.map (fun w => (w.op, w.slot, w.w)) == [(2, 127, 32)]) = true := by
  decide +kernel

/-- A state with one piece of sampler work in its cluster, its bytes at 0x50000 as in `reqMem`, and slot 2 with entries. -/
def working (w : Work) (mem : Mem := reqMem 64) : State :=
  clusOf { req 0 0 64 with mem := mem } (fun c => { lanesOf [] c with works := [w], seq := 8 })
def wk (op : Nat) (a : Word) : Work := { seq := 7, hid := 0, op := op, slot := 2, addr := a, n := 2, user := false }
noncomputable def pldI : Instr := .smpPld 4 5 6 0
/-- A program of n words at 0x50000, to be placed at index i of a sampler whose programs hold `used` words. -/
def pld (n used : Nat) (i : Word) : State :=
  let s := clusOf (req 0x50000 i 64) (fun c => { c with progs := if used = 0 then [] else [(1, { words := List.replicate used 0 })] })
  { s with mem := pages.write 0x50000 4 n |>.write 0x50004 4 0x40000000 }

theorem witness_SamplerTables :
    (let ok (s : State) (p : State → Place → Bool) : Prop := submits s pldI (fun _ => s.workCls s.hart = 0 ∧ (s.reg 5).toNat % 64 = 0 ∧
        s.commonReason s.who.fn s.hart.workResv [6] = 0 ∧ ∃ t pl, s.scalarPlace 0 (s.reg 5) 4 .read = .ok (t, pl) ∧ p t pl = true)
     ok (pld 97 0 3) (fun t pl => t.getAt pl 4 == 97) ∧ ok (pld 128 0 3) (fun t pl => t.getAt pl 4 == 128) ∧ ok (pld 0 0 3) (fun t pl => t.getAt pl 4 == 0) ∧
     ok (pld 96 1953 63) (fun t pl => t.getAt pl 4 == 96 && (t.clusAt 0).poolUsed == 1953) ∧
     ok (pld 96 1952 63) (fun t pl => t.getAt pl 4 == 96 && (t.clusAt 0).poolUsed == 1952 && (pld 96 1952 63).workCls (pld 96 1952 63).hart == 0) ∧
     63 < ((pld 96 0 64).reg 6).toNat) ∧
    (let odd (s : State) : State := s.setHart (s.hart.setReg 5 0x50004)
     let s := odd (pld 96 0 3)
     submits s pldI (fun _ => (s.reg 5).toNat % 64 ≠ 0 ∧ s.commonReason s.who.fn s.hart.workResv [6] = 0 ∧ s.workCls s.hart = 0) ∧
     (let t := odd (smpPaced 1); submits t pldI (fun _ => (t.reg 5).toNat % 64 ≠ 0 ∧ t.commonReason t.who.fn t.hart.workResv [6] = 0 ∧
        t.workCls t.hart ≠ 0 ∧ t.smpDeadline 16 - t.now ≤ 256 * 4096)) ∧
     (let t := odd (smpPaced 0); submits t pldI (fun _ => (t.reg 5).toNat % 64 ≠ 0 ∧ t.commonReason t.who.fn t.hart.workResv [6] ≠ 0))) ∧
    (let s := working (wk 1 0x50000)
     (s.clusAt 0).work 7 = some (wk 1 0x50000) ∧ (s.clusAt 0).mayStart (wk 1 0x50000) = true ∧ s.workHeld 0 (wk 1 0x50000) = false ∧
     (∃ u img, (s.chargeCycles 0 (wk 1 0x50000) 32).readExtent (wk 1 0x50000) 0x50000 512 = .ok (u, img))) ∧
    (let s := working (wk 1 0x80000); ∃ a, (s.chargeCycles 0 (wk 1 0x80000) 32).readExtent (wk 1 0x80000) 0x80000 512 = .error a) ∧
    (let s := working (wk 2 0x50000); ∃ u l, (s.chargeCycles 0 (wk 2 0x50000) 32).dvSpans (wk 2 0x50000).who 0x50000 512 0 .write (wk 2 0x50000).touch 3 = .ok (u, l)) ∧
    (let s := working (wk 2 0x60000); ∃ x, (s.chargeCycles 0 (wk 2 0x60000) 32).dvSpans (wk 2 0x60000).who 0x60000 512 0 .write (wk 2 0x60000).touch 3 = .error (.trap x)) ∧
    (let s := working (wk 3 0x50000); ∃ u img, (s.chargeCycles 0 (wk 3 0x50000) 18).readExtent (wk 3 0x50000) 0x50004 8 = .ok (u, img)) ∧
    (let s := working (wk 3 0x80000); ∃ a, (s.chargeCycles 0 (wk 3 0x80000) 18).readExtent (wk 3 0x80000) 0x80004 8 = .error a) := by
  refine ⟨⟨⟨_, rfl, ⟨by decide, by decide⟩, by decide, by decide, by decide, ok_with (by decide +kernel)⟩,
    ⟨_, rfl, ⟨by decide, by decide⟩, by decide, by decide, by decide, ok_with (by decide +kernel)⟩,
    ⟨_, rfl, ⟨by decide, by decide⟩, by decide, by decide, by decide, ok_with (by decide +kernel)⟩,
    ⟨_, rfl, ⟨by decide, by decide⟩, by decide, by decide, by decide, ok_with (by decide +kernel)⟩,
    ⟨_, rfl, ⟨by decide, by decide⟩, by decide, by decide, by decide, ok_with (by decide +kernel)⟩, by decide⟩,
    ⟨⟨_, rfl, ⟨by decide, by decide⟩, by decide, by decide, by decide⟩, ⟨_, rfl, ⟨by decide, by decide⟩, by decide, by decide, by decide, by decide⟩,
      ⟨_, rfl, ⟨by decide, by decide⟩, by decide, by decide⟩⟩,
    ⟨by decide, by decide, by decide, some_pair (by decide +kernel)⟩, err_of (by decide +kernel),
    some_pair (by decide +kernel), trap_of (by decide +kernel), some_pair (by decide +kernel), err_of (by decide +kernel)⟩

/-- R341, R334: a table loaded, one stored, a program placed; a load that faults is told in smpst with 0x4B. -/
theorem test_tables :
    nextIs (exec (.tableLoadPerform 0 7) (working (wk 1 0x50000))) (fun t => (t.clusAt 0).table.read 1024 4 == 0x00040002 && (t.clusAt 0).table.read 1408 4 == 0 && t.hart.smp.cnt == 1) = true ∧
    nextIs (exec (.tableStorePerform 0 7) (working (wk 2 0x50000))) (fun t => t.mem.read 0x50000 4 == 0x05000001 && t.mem.read 0x50180 8 == 0x3FC0000083000002) = true ∧
    nextIs (exec (.programLoadPerform 0 7) (working (wk 3 0x50000))) (fun t => ((t.clusAt 0).progs.find 2).map (fun p => p.words) == some [3, 0x51000]) = true ∧
    nextIs (exec (.tableLoadPerform 0 7) (working (wk 1 0x80000))) (fun t => t.hart.smp.stOp == 1 && t.hart.smp.stCause == 0x4B && t.hart.smp.addr == 0x80000) = true := by
  decide +kernel

/-- A request of three logits 1, 2 and 3 at 0x51000, greedy, whose program returns l0. -/
def rq (f : Work → Work := id) : Work := f { seq := 7, hid := 0, slot := 2, user := false, started := true, words := [0x40000000]
                                             blk := { slot := 2, v := 3, logits := 0x51000, c := 0x3F800000, maxcyc := 64, step := 6, res := 0x52000 } }
def rqMem : Mem := pages.write 0x51000 8 0x400000003F800000 |>.write 0x51008 4 0x40400000
def rqIn (f : Work → Work := id) : State := clusOf (working (rq f) rqMem) (fun c => { c with progs := [(3, { words := [0x40000000] })] })
def held (s : State) : State := { s with dev := { s.dev with hold := true } }

/-- A request whose logits are in bay 3, and that bay pending. -/
def inPending : Work := rq (fun w => { w with gang := 1, blk := { w.blk with mode := 2, logits := 0x3000000 } })
def bayPending (s : State) : State := clusOf s (fun c => { c with bays := c.bays.set 3 { st := .pending, neg := true, units := 4, gang := 1 } })

/-- The same where page 9 is in the host's memory and the TDI of the function does not run. -/
def rqShut : State :=
  let s := rqIn
  { s with mem := s.mem.write 0x40048 8 (Config.hostWindow + 0x67B) }.setFnAt 0 { s.fnAt 0 with tdi := some .locked }

theorem witness_SamplerRequests :
    (let w := rq (fun w => { w with started := false, words := [] })
     let c := (rqIn (fun w => { w with started := false, words := [] })).clusAt 0
     c.work 7 = some w ∧ c.mayStart w = true ∧ (rqIn (fun w => { w with started := false, words := [] })).workHeld 0 w = false ∧
     (biasEntry (c.slot w.slot) 0).2.1 / 128 % 2 = 1 ∧ c.progs.find ((biasEntry (c.slot w.slot) 0).2.1 % 64) = some { words := [0x40000000] } ∧
     ((working w rqMem).clusAt 0).progs.find ((biasEntry (c.slot w.slot) 0).2.1 % 64) = none) ∧
    ((rq (fun w => { w with waited := 60 })).blk.maxcyc.toNat < (rq (fun w => { w with waited := 60 })).used 0) ∧
    ((rq).waitFrom = none ∧ (rq).strip < (rq).strips ∧ (held (rqIn)).workHeld 0 rq = true ∧ (rqIn).workHeld 0 rq = false ∧
     (rq).blk.maxcyc.toNat = 64 ∧ (rq).used 0 + (rq).stripCyc = 23 ∧ (rq (fun w => { w with waited := 42 })).used 0 + (rq).stripCyc = 65) ∧
    (∃ e, (rqIn).stripPass (rq (fun w => { w with blk := { w.blk with wm := 0x80000 } })) = .error (.trap e)) ∧
    (∃ e, rqShut.stripPass (rq (fun w => { w with blk := { w.blk with wm := 0x90000 } })) = .error (.wait e)) ∧
    (∃ u b, (rqIn).stripPass (rq (fun w => { w with blk := { w.blk with wm := 0x53000 } })) = .ok (u, b) ∧ (!b) = true) ∧
    ((rqIn).stripPass rq = .ok (rqIn, true) ∧ ∃ v xs, (rqIn).stripLogits rq = .ok (v, xs) ∧
      decide (xs = [0x3F800000, 0x40000000, 0x40400000]) = true) ∧
    (let w := rq (fun w => { w with waitFrom := some 0 }); w.waitFrom = some 0 ∧ (rqIn (fun w => { w with waitFrom := some 0 })).stripPass w = .ok (rqIn (fun w => { w with waitFrom := some 0 }), true)) ∧
    (let w := rq (fun w => { w with strip := 1, tok := some 2 })
     w.strips ≤ w.strip ∧ w.tok = some 2 ∧ w.blk.mode.toNat / 4 % 2 = 0 ∧ w.used 0 ≤ w.blk.maxcyc.toNat ∧
     ∃ u pa, (rqIn (fun w => { w with strip := 1, tok := some 2 })).dv w.who w.blk.res.toNat .write 2 = .ok (u, pa)) ∧
    (let w := rq (fun w => { w with blk := { w.blk with logits := 0x80000 } })
     (rqIn (fun _ => w)).stripPass w = .ok (rqIn (fun _ => w), true) ∧ ∃ e, (rqIn (fun _ => w)).stripLogits w = .error (.trap e)) ∧
    ((rqIn (fun _ => inPending)).stripPass inPending = .ok (rqIn (fun _ => inPending), true) ∧
     ∃ e, (bayPending (rqIn (fun _ => inPending))).stripLogits inPending = .error (.wait e)) := by
  refine ⟨⟨by decide, by decide, by decide, by decide +kernel, by decide +kernel, by decide +kernel⟩, by decide, by decide, trap_of (by decide), wait_of (by decide +kernel),
    ok_with (p := fun _ b => !b) (by decide +kernel), ⟨rfl, ok_with (by decide +kernel)⟩, ⟨rfl, rfl⟩, ⟨by decide, rfl, by decide, by decide, some_pair (by decide)⟩,
    ⟨rfl, trap_of (by decide +kernel)⟩, rfl, wait_of (by decide +kernel)⟩

/-- R349, R351, R352: the strip of three logits leaves m 3 and the candidate token 2, S the sum of 2^-2,
2^-1 and 1; the draw writes token 2 and the cycles used; a program that is not there ends the request with 0x4D. -/
theorem test_requests :
    nextIs (exec (.samplerStrip 0 7) (rqIn)) (fun t => match (t.clusAt 0).work 7 with
      | some w => w.m == 0x40400000 && w.tok == some 2 && w.strip == 1 && w.s == 0x3FE00000
      | none => false) = true ∧
    nextIs (exec (.samplerDraw 0 7) (rqIn (fun w => { w with strip := 1, tok := some 2, m := 0x40400000 }))) (fun t =>
      t.mem.read 0x52000 8 == 0x4040000000000002 && t.mem.read 0x52010 4 == 23 && t.mem.read 0x52018 8 == 6 && t.hart.smp.cnt == 1) = true ∧
    nextIs (exec (.samplerStart 0 7) (working (rq (fun w => { w with started := false })) rqMem)) (fun t =>
      t.mem.read 0x52000 4 == 0xFFFFFFFF && t.mem.read 0x5200C 4 == 0x4D && (t.clusAt 0).works.isEmpty) = true := by
  decide +kernel

/-! ### Gangs -/

/-- A launch block at 0x50000 for n harts of reservation r in a core, with `lanes` lanes each and a stack of 4096 bytes. -/
def blockMem (n lanes r entry : Nat) : Mem := pages.write 0x50000 8 entry |>.write 0x50008 8 77 |>.write 0x50010 8 (4096 + n * 2 ^ 32 + lanes * 2 ^ 48)
  |>.write 0x50018 8 (r * 2 ^ 16 + 2 * 2 ^ 24)
def launcher (n lanes r : Nat) (entry : Nat := 0x20000) (a : Word := 0x50000) (f : State → State := id) : State :=
  f { mk (fun h => h.setReg 5 a) with mem := blockMem n lanes r entry }
def launchI : Instr := .glaunch 4 5
/-- The launch may be dispatched and its block read; `p` holds of the state after and the block. -/
def launches (s : State) (p : State → Nat → Bool) : Prop :=
  submits s launchI (fun _ => s.hart.sup = true ∧ s.hart.run = .running ∧ s.hart.ss = [] ∧ s.hart.heldS = false ∧ (s.reg 5).toNat % 64 = 0 ∧
    ∃ t raw, s.blockRead s.who (s.reg 5).toNat s.hart.scalarTouch = .ok (t, raw) ∧ p t raw = true)
theorem launches_of {s : State} {p : State → Nat → Bool} (h : s.hart.prefixFits .s false false = true)
    (k : (s.hart.reserveAll ((if pushOf s.hart.pfx = 0 then [] else [pushOf s.hart.pfx]) ++ [])).isSome = true)
    (x : s.hart.sup = true ∧ s.hart.run = .running ∧ s.hart.ss = [] ∧ s.hart.heldS = false ∧ (s.reg 5).toNat % 64 = 0)
    (o : okWith (s.blockRead s.who (s.reg 5).toNat s.hart.scalarTouch) p = true) : launches s p :=
  ⟨_, rfl, ⟨h, k⟩, x.1, x.2.1, x.2.2.1, x.2.2.2.1, x.2.2.2.2, ok_with o⟩
/-- The reason against a block, whether it is malformed, the reason there is no placement, and the slots of one. -/
def launchFacts (s t : State) (raw : Nat) : Nat × Bool × Nat × List Nat :=
  let b := launchBlock raw
  (s.commonReason s.hart.lfunc.toNat b.resv [0], b.bad,
    match t.placement b with | .ok l => (0, l.map (fun y => y.1)) | .error r => (r, []))
def poor (s : State) : State := s.setRsvAt 5 { on := true, cls := 1 }
def eight (s : State) : State := { s with dev := { s.dev with gangs := (List.range 8).map (fun i => (i + 1, { src := 0 })) } }

/-- Function 0 in reset. -/
def closed0 : State := (launcher 2 8 0).setFnAt 0 { (launcher 2 8 0).fnAt 0 with inReset := true }

theorem witness_Launches :
    submits (launcher 1 8 0 0x20000 0x50020) launchI (fun _ => ((launcher 1 8 0 0x20000 0x50020).reg 5).toNat % 64 = 32) ∧
    launches (launcher 1 8 9) (fun t raw => (launchFacts (launcher 1 8 9) t raw).1 == 4) ∧
    launches (launcher 1 8 0 0x20002) (fun t raw => let x := launchFacts (launcher 1 8 0) t raw; x.1 == 0 && x.2.1) ∧
    launches (launcher 1 8 5 (f := poor)) (fun t raw => let x := launchFacts (launcher 1 8 5 (f := poor)) t raw; x.1 == 1 && !x.2.1) ∧
    launches (launcher 9 0 0) (fun t raw => let x := launchFacts (launcher 9 0 0) t raw; x.1 == 0 && !x.2.1 && x.2.2.1 == 0x51) ∧
    launches (launcher 1 8 0 (f := eight)) (fun t raw => let x := launchFacts (launcher 1 8 0 (f := eight)) t raw; x.1 == 0 && !x.2.1 && x.2.2 == (0, [1])) ∧
    8 ≤ (launcher 1 8 0 (f := eight)).launchesOf 0 ∧
    launches (launcher 2 8 0) (fun t raw => let x := launchFacts (launcher 2 8 0) t raw; x.1 == 0 && !x.2.1 && x.2.2 == (0, [1, 2])) ∧
    (launcher 2 8 0).launchesOf 0 < 8 ∧
    launches closed0 (fun _ _ => closed0.fnClosed 0) ∧ (launcher 2 8 0).fnClosed 0 = false := by
  refine ⟨⟨_, rfl, ⟨by decide, by decide⟩, by decide⟩, launches_of (by decide) (by decide) (by decide) (by decide +kernel),
    launches_of (by decide) (by decide) (by decide) (by decide +kernel), launches_of (by decide) (by decide) (by decide) (by decide +kernel),
    launches_of (by decide) (by decide) (by decide) (by decide +kernel), launches_of (by decide) (by decide) (by decide) (by decide +kernel), by decide,
    launches_of (by decide) (by decide) (by decide) (by decide +kernel), by decide,
    launches_of (by decide) (by decide) (by decide) (by decide +kernel), by decide⟩

/-- R114 to R118: two harts of a core, their slots reserved with their stacks, args and entry; the block says state 1, gang 1
and the accept word. -/
theorem test_glaunch : nextIs (exec launchI (launcher 2 8 0 (f := fun s => s.setCoreAt 0 { s.coreAt 0 with stkpool := 0x100000 }))) (fun t =>
    t.reg 4 == BitVec.allOnes 64 && t.mem.read 0x50040 8 == 0x100000001 && t.mem.read 0x50048 8 == 2 ^ 64 - 1 &&
    (t.hartAt 2).run == .reserved && (t.hartAt 2).pc == 0x20000 && (t.hartAt 2).reg 2 == 0x400000 && (t.hartAt 2).stklo == 0x3FF000 &&
    (t.hartAt 2).reg 3 == 77 && (t.hartAt 2).ghart == 1 && (t.hartAt 2).plan.groups == 2) = true := by decide +kernel

/-- A gang of two harts of core 0, hids 0 and 1. -/
def pair (f : Gang → Gang := id) (g : Hart → Hart := id) : State :=
  let s := user (fun h => g { h with ghart := 0 })
  let x : Gang := f { block := 0x50000, members := [{}, {}] }
  let t := s.setGangAt 1 x
  t.setHartAt 1 { run := .running, pc := 0x30000, gang := 1, ghart := 1, wait := some { kind := .gbar 0, since := 0 } }
def arrived : Member := { arrived := 1 }
theorem witness_GangLife :
    (pair.gangAt pair.hart.gang.toNat = some { block := 0x50000, members := [{}, {}] } ∧ pair.hart.sup = false ∧ pair.hart.surr = none ∧
     pair.hart.prefixFits .s false false = true ∧ pair.hart.ghart < 2 ∧ ({} : Member).arrived.toNat / 2 ^ (2 : BitVec 2).toNat % 2 = 0 ∧ pair.begun.engineBusy 0 = false) ∧
    ((mk id).hart.sup = true ∧ (mk id).hart.prefixFits .s false false = true) ∧
    ({ members := [arrived, arrived] : Gang }.groupFull 0 0 = true ∧ { members := [arrived, { ended := true }] : Gang }.groupFull 0 0 = true ∧
     ((pair (fun x => { x with members := [arrived, arrived] })).harts.find 1).isSome = true ∧ (pair.hartAt 1).wait = some { kind := .gbar 0, since := 0 } ∧
     arrived.inGroup 0 0 = true) ∧
    ((user id).hart.sup = false ∧ (user id).hart.surr = none ∧ (user id).hart.pfx = none ∧ (user id).hart.lostUpd = none) ∧
    (let s := pair id (fun h => { h with wait := some { kind := .hend, since := 0 } })
     s.hendReady (0 : BitVec 11).toNat = true ∧ (s.hartAt 0).lostUpd = none ∧ (s.gangAt (s.hartAt 0).gang.toNat).isSome = true ∧ (s.hartAt 0).ghart < 2) ∧
    (let s := pair (fun x => { x with members := [{ ended := true }, { ended := true }] })
     s.gangOver 1 { block := 0x50000, members := [{ ended := true }, { ended := true }] } = true ∧ (s.gangAt 1).isSome = true) ∧
    (let x : Gang := { waiting := true, wm := 0x53000, wmv := 0 }
     x.waiting = true ∧ isOk ((pair (fun _ => x)).startMark x) = true ∧ x.wmv ≤ 0) := by decide +kernel

/-- R123: the last to arrive completes the barrier, and both go on; R125, R118: an ended hart's slot and the block of a gang
that is over. -/
theorem test_gangs :
    nextIs (exec (.gbar 0) (pair (fun x => { x with members := [{}, arrived] }))) (fun t => t.hart.pc == 0x10000 &&
      nextIs (exec (.gbarDepart 1 0 0) t) (fun u => u.hart.pc == 0x10004 && u.hart.wait.isNone && (u.hartAt 1).pc == 0x30004)) = true ∧
    nextIs (exec (.hartEnd 0) (pair id (fun h => { h with wait := some { kind := .hend, since := 0 } }))) (fun t => (t.hartAt 0).run == .ended) = true ∧
    nextIs (exec (.gangComplete 1) (pair (fun x => { x with nend := 1, nkill := 1, members := [{ ended := true }, { ended := true }] }))) (fun t =>
      t.mem.read 0x50040 4 == 3 && t.mem.read 0x50060 8 == 0x100000001 && (t.gangAt 1).isNone) = true := by decide +kernel

/-- A supervisor in slot 0 with s5 1 and s6 the frame's address, and hart 1 of its core as given. -/
def frameOf (h : Hart) (a b : Word := 0x50000) : State := ((mk (fun k => (k.setReg 5 a).setReg 6 b)).setHartAt 1 h).setGangAt 1 { members := [{}] }
def outHart : Hart := { run := .suspended, pc := 0x30000, gang := 1, fflags := 5, regs := (Vector.replicate 32 0).set 9 99, vec := { vl := 3 }, hdr := { gang := 1, rpc := 0x30000 } }
def frameOne (a : Word := 1) (h : Hart := outHart) (b : Word := 0x50000) : State := frameOf h a b
/-- The state after a save of hart 1 to 0x50000. -/
noncomputable def saved : State := match exec (.hsave 6 5) (frameOne) with | .next t => t | _ => frameOne
/-- A frame at 0x50000 reads, has its size, loads into slot 1 and its deadlines are written. -/
def frameLoads (s : State) (version : Nat) : Bool :=
  match s.dvSpans s.who 0x50000 12288 0 .read 2 3 with
  | .error _ => false
  | .ok (t1, l0) =>
    let m0 := t1.gather l0
    let size := opqOff (m0.read 576 8) (bits (m0.read 896 8) 16 10) (popcount (m0.read 896 1) 8) + 16384
    m0.read 76 4 == size && m0.read 576 8 % 8 == 0 && decide (m0.read 576 8 ≤ 64) &&
    match t1.dvSpans t1.who 0x50000 size 0 .read 2 (size / 65536 + 2) with
    | .error _ => false
    | .ok (t2, l) => (t2.gather l).read 0 4 == version &&
      (version != 0x00090001 || match t2.loadFrame 1 (t2.gather l) with
        | .error _ => false
        | .ok (t3, cq) => isOk (t3.writeDeadlines 0x50000 cq))

/-- The first n bytes of the frame hold a soft error that stands at `pa`. -/
noncomputable def spoiledAt (pa n : Nat) : Bool :=
  let s : State := { saved with dev := { saved.dev with latent := some ⟨3, 0, pa⟩ } }
  match s.dvSpans s.who 0x50000 n 0 .read 2 (n / 65536 + 2) with | .ok (t, l) => (t.spoiledSpan l).isSome | .error _ => false

theorem witness_SaveAndLoad :
    frameOne.hart.sup = true ∧ frameOne.hart.pfx = none ∧ frameOne.hart.run = .running ∧
    ((frameOne 9).reg 5).toNat / 8 ≠ frameOne.coreNo ∧ ((frameOne 0).hartAt 0).sup = true ∧ (frameOne.hartAt 1).run = .suspended ∧
    (let h : Hart := { outHart with run := .watermark }; ((frameOne 1 h).hartAt 1).run = .watermark ∧ h.surr = none ∧ h.bay.isOpen = false ∧ frameOne.hart.wait = none) ∧
    ((frameOne 1 {}).hartAt 1).run = .free ∧ ((frameOne 1 outHart 0x50800).reg 6).toNat % 4096 ≠ 0 ∧
    isOk (frameOne.dvSpans frameOne.who 0x50000 (frameOne.frameImage 1).2 0 .write 2 ((frameOne.frameImage 1).2 / 65536 + 2)) = true ∧
    8 ≤ ((frameOne 8).reg 5).toNat ∧
    frameOne.frameSpoiled 1 = false ∧
    (let s := frameOne 1 { outHart with vec := { vl := 3, vgrant := 8 } }
     ({ s with dev := { s.dev with latent := some ⟨0, 0, vregSram 1 5⟩ } } : State).frameSpoiled 1 = true) := by decide +kernel

theorem witness_SaveAndLoad_frame : (saved.hartAt 1).run = .free ∧ frameLoads saved 0x00090001 = true ∧
    frameLoads { saved with mem := saved.mem.write 0x50000 4 0x00090002 } 0x00090002 = true ∧
    (spoiledAt 0x50000 12288 = true ∧ spoiledAt 0x53000 12288 = false ∧ spoiledAt 0x53000 13000 = true) := by decide +kernel

/-- R136, R137: a hart saved frees its slot and, loaded again, has its pc, registers, flags and vl. -/
theorem test_frames : nextIs (exec (.hload 6 5) saved) (fun t => let h := t.hartAt 1
    h.run == .loaded && h.pc == 0x30000 && h.reg 9 == 99 && h.fflags == 5 && h.vec.vl == 3 && h.gang == 1 && t.hart.pc == 0x10008 && (t.gangAt 1).isSome) = true := by decide +kernel
theorem test_hsusp : nextIs (exec (.hsusp 5) (frameOne 1 { outHart with run := .running })) (fun t =>
    (t.hartAt 1).run == .suspending && (t.hartAt 1).hdr.cause == 0x50 && t.hart.pc == 0x10000) = true := by decide

/-! ### Status registers and frames -/

def ringed (f : Core → Core := id) : State :=
  let s := mk id
  s.setCoreAt 0 (f { s.coreAt 0 with tqbase := 0x50000, tqtail := 16, tqhead := 0, pend := [{ cause := 0x10 }] })
def reserving (f : Hart → Hart) (x : Rsv) : State := (mk (fun h => f { h with rsvsel := 5 })).setRsvAt 5 x
def fitsB (s : State) (r : Nat) (y : Rsv) : Bool := (List.range 8).all (fun i => decide ((s.sums r y i).1 ≤ (s.limits i).1 ∧ (s.sums r y i).2 ≤ (s.limits i).2))

theorem witness_SupervisorWrites :
    (mk id).core.pend = [] ∧ (4 ≤ (12 : Nat) % 16 ∧ (12 : Nat) % 16 ≤ 12) ∧ ¬ (13 ≤ 12) ∧
    (ringed.core.pend = [{ cause := 0x10 }] ∧ ringed.core.tqbase ≠ 0 ∧ (ringed.core.tqtail - 1).toNat ≠ 2 ^ ringed.core.tqlen.toNat ∧
     okWith ((ringed.setCore { ringed.core with tqhead := 1 }).dv (supWho 0) (0x50000 + 64 * (16 % 16)) .write 2) (fun u pa =>
       okWith (u.dv (supWho 0) (0x50000 + 64 * 16) .write 2) (fun _ pb => decide (pa + 64 ≤ pb))) = true) ∧
    (let x : Rsv := { on := true, cls := 1 }
     let s := reserving id x
     s.hart.rsvsel.toNat = 5 ∧ s.rsvAt 5 = x ∧ fitsB s 5 { x with newCls := some 2 } = true ∧ (BitVec.ofNat 2 7 = (3 : BitVec 2)) ∧
     fitsB s 5 { x with newBud := x.newBud.setIfInBounds 7 (some 12000) } = true ∧ fitsB s 5 { x with newBud := x.newBud.setIfInBounds 7 (some 13073) } = false) ∧
    (let s := reserving id {}; (s.rsvAt 5).on = false ∧ (s.rsvAt 5).newCls = none ∧ (mk id).hart.rsvsel = 0) := by decide +kernel

/-- R49, R50: a class taken at the next frame boundary; a budget past the ceiling is refused; R128: the record and the tail. -/
theorem test_supervisor_writes :
    nextIs (exec (.rsvcfgWrite 2) (reserving id {})) (fun t => (t.rsvAt 5).newCls == some 2 && !(t.rsvAt 5).on && !(t.rsvAt 5).rej &&
      nextIs (exec .frameBoundary t) (fun u => (u.rsvAt 5).on && (u.rsvAt 5).cls == 2)) = true ∧
    nextIs (exec (.rsvbudWrite 7 13073) (reserving id { on := true, cls := 1 })) (fun t => (t.rsvAt 5).rej && (t.rsvAt 5).newBud == Vector.replicate 8 none) = true ∧
    nextIs (exec (.trapRingRegWrite 2 1) ringed) (fun t => t.core.pend.isEmpty && t.mem.read 0x50000 8 == 0x1000090001 && t.mem.read 0x50400 8 == 17) = true := by decide +kernel

theorem witness_FrameBoundary :
    (let s := reserving id { newCls := some 1 }; s.dev.rsv.find 5 = some { newCls := some 1 }) ∧
    (let s := frameOne 1 { run := .ended }; (s.hartAt 1).run = .ended) ∧
    (let s := (frameOne 1 { run := .reserved, gang := 1, plan := { rows := 64, rowBase := 8 } }).setGangAt 1 { wm := 0x53000 }
     (s.hartAt 1).run = .reserved ∧ s.gangAt (s.hartAt 1).gang.toNat = some { wm := 0x53000 } ∧ 1024 * 8 ≤ 8192 ∧ 8192 < 1024 * (8 + 64)) ∧
    (let s : State := { mk id with dev := { (mk id).dev with eceilReq := some 999 } }; s.dev.eceilReq = some 999 ∧ (999 < 1000 ∨ s.img.eceil < 999)) ∧
    (mk id).img.eceil < 13073 := by decide

/-- R370, R46, R117: a ceiling of 1000 µJ taken at the boundary; the frame's energy kept; the share's accumulators zero. -/
theorem test_frame_boundary :
    nextIs (exec .frameBoundary { mk id with dev := { (mk id).dev with eceilReq := some 1000, energy := 5000, hold := true } }) (fun t =>
      t.dev.eceil == 1000 && t.dev.energyLast == 5000 && t.dev.energy == 0 && !t.dev.hold) = true ∧
    (let s := (frameOne 1 { run := .reserved, gang := 1, plan := { rows := 64, rowBase := 8 } }).setGangAt 1 {}
     nextIs (exec .frameBoundary (s.setCoreAt 0 { s.coreAt 0 with acc := Mem.ofFields [(8191, 1, 1), (8192, 1, 2), (73727, 1, 3), (73728, 1, 4)] }))
       (fun t => (t.hartAt 1).run == .running && (t.coreAt 0).acc == Mem.ofFields [(8191, 1, 1), (73728, 1, 4)])) = true := by decide +kernel

def late (f : Hart → Hart) : State := { mk f with time := 4096 }
/-- A user hart of class G with HBM budget, whose load from 0x50000 waits at the head of stream S. -/
def covered : State := (user (fun h => { h with resv := 5, ss := [{ kind := .load 3 4, addr := 0x50000 }] })).setRsvAt 5
  { on := true, cls := 2, bud := Vector.replicate 8 1000 }
theorem witness_LateWork :
    (let e : Entry := { instr := cpI 0 0 2, deadline := 4096 }
     (late (fun h => { h with cq := [e] })).hart.cq = [] ++ e :: [] ∧ e.isLate 4096 = true ∧ ({ e with deadline := 4097 }).isLate 4096 = false) ∧
    (let b : Bay := { st := .pending, holder := 0, deadline := 4096, resv := 5 }
     ((clusOf (late id) (fun c => { c with bays := c.bays.set 3 b })).clusAt 0).bays.find? (fun kb => kb.2.isLate 4096) = some (3, b)) ∧
    (let w : Work := { deadline := 4096, resv := 5 }
     ((clusOf (late id) (fun c => { c with works := [w] })).clusAt 0).works.find? (fun w => w.isLate 4096) = some w) ∧
    (let x : Gang := { deadline := 4096, resv := 5 }
     ((late id).setGangAt 1 x).dev.gangs.find? (fun p => p.2.core == 0 && p.2.isLate 4096) = some (1, x)) ∧
    covered.memCovered 0 = some 5 ∧ (late id).memCovered 0 = none := by decide

/-- R56: late copy work is marked, its reservation broken, and a notice pending. -/
theorem test_late : nextIs (exec (.deadlineReached 0 0) (late (fun h => { h with sup := false, resv := 5, gang := 1, cq := [{ instr := cpI 0 0 2, deadline := 4096 }] })))
    (fun t => (t.rsvAt 5).brk && t.hart.cq.map (fun e => e.late) == [true] && (t.coreAt 0).pend.map (fun r => (r.cause, r.gang, r.time)) == [(0x51, 1, 4096)]) = true := by decide

/-! ### Waits and engines -/

def waits (k : Wait) (time : Word) (f : Hart → Hart := id) : State := { mk (fun h => f { h with wait := some { kind := k, since := 0 } }) with time := time }
/-- A copy that waits for its admission; with its queue full; of a reservation without the budget for it. -/
def admits8 : State := waits (.admission (.cp ⟨1, 4, 5, 6, 1, 2, 0, 0, 0⟩)) 4096 (fun h => { h with c := h.c.set 0 { count0 := 600 } })
def crammed : State := admits8.setHart (fullQ admits8.hart)
def starved : State := (admits8.setHart { admits8.hart with sup := false, gang := 1, resv := 5 }).setRsvAt 5 { on := true, cls := 1 }

/-- What the request block at s5 holds, and the answer of an admission. -/
def readRaw (s : State) : Nat := match s.shapeRecord (s.reg 5) 8 with | .ok (_, x) => x | .error _ => 0
def refusedWith (a : Except Stop Adm) (r : Nat) (w : Bool) : Bool := match a with | .ok (.refused x y) => x == r && y == w | _ => false

theorem witness_WaitsEnd :
    (let s := waits (.pop 4) 4096; (s.hartAt 0).run = .running ∧ (s.hartAt 0).wait = some { kind := .pop 4, since := 0 } ∧ (s.hartAt 0).tokens 4 = 0 ∧
      (s.hartAt 0).reserved 4 = 0 ∧ 4096 ≤ (s.time - 0).toNat ∧ (s.hartAt 0).surr = none ∧ (s.hartAt 0).bay.isOpen = false) ∧
    (let s := waits (.push 2) 4096 (fun h => { h with tok := h.tok.set 2 8 }); (s.hartAt 0).wait = some { kind := .push 2, since := 0 } ∧ 8 ≤ (s.hartAt 0).tokens 2) ∧
    (let s := waits (.pops 4 3) 4096 (fun h => { h with tok := h.tok.set 4 2 })
     (s.hartAt 0).tokens 4 + (s.hartAt 0).reserved 4 < 3 ∧ (s.hartAt 0).unsettled = false) ∧
    (let s := waits (.pushes 2 3) 4096 (fun h => { h with tok := h.tok.set 2 6 }); 8 < (s.hartAt 0).tokens 2 + 3) ∧
    (let s := (fetching (pfxWord 0 0 0 0 1)).setHart { (fetching 0).hart with wait := some { kind := .pop 4, since := 0 } }
     (s.peekWord 0).toNat / 2 ^ 26 = 0x10 ∧ s.hart.pfx = none) ∧
    (∃ z, submissionOf (cpI 1 0 2) = some z ∧ z.w = true ∧ (admits8.hartAt 0).wait = some { kind := .admission z.x, since := 0 } ∧ 4096 ≤ (admits8.time - 0).toNat) ∧
    (∃ z, submissionOf (cpI 1 0 2) = some z ∧ (let y : State := { admits8 with cur := 0, ir := admits8.peekWord 0 }
      y.hart.canSubmit z ∧ ∃ t w, z.ask y = .ok (.accepted t w))) ∧
    (∃ z, submissionOf (cpI 1 0 2) = some z ∧ (let y : State := { crammed with cur := 0, ir := crammed.peekWord 0 }
      y.hart.canSubmit z ∧ z.ask y = .ok (.refused 0x20 true) ∧ 4096 ≤ (crammed.time - 0).toNat ∧
      z.ask { y with time := 9 } = .ok (.refused 0x20 true) ∧ ¬ 4096 ≤ ((9 : Word) - 0).toNat)) ∧
    (∃ z, submissionOf (cpI 1 0 2) = some z ∧ (let y : State := { starved with cur := 0, ir := starved.peekWord 0 }
      y.hart.canSubmit z ∧ z.ask y = .ok (.refused 1 false))) ∧
    (∃ z, submissionOf (.smpReq 4 5 1 0) = some z ∧ z.w = true ∧
      (let s := (fullWorks (req 0x90000 0 64)).setHart { (req 0x90000 0 64).hart with wait := some { kind := .admission z.x, since := 0, raw := some (readRaw (req 0x50000 0 64)) } }
       let y : State := { s with cur := 0, ir := s.peekWord 0 }
       (s.hartAt 0).run = .running ∧ y.hart.smpRaw.isSome = true ∧ y.hart.canSubmit z ∧ refusedWith (z.ask y) 0x41 true = true)) ∧
    (let s := waits (.wtime 4096 4) 4096; (s.hartAt 0).wait = some { kind := .wtime 4096 4, since := 0 } ∧ (4096 : Word) ≤ s.time) ∧
    (let s := waits (.qwait 1 0 4) 0 (fun h => { h with q := h.q.set 1 { armed := true, waddr := 0x50000 } })
     ∃ u v, s.watchValue 0 ((s.hartAt 0).latestWatch 1) = .ok (u, v) ∧ decide ((0 : Word) ≤ v) = true) := by
  refine ⟨by decide, by decide, by decide, by decide, ⟨by decide, rfl⟩, ⟨_, rfl, by decide, rfl, by decide⟩, ⟨_, rfl, ⟨by decide, by decide⟩, _, _, rfl⟩,
    ⟨_, rfl, ⟨by decide, by decide⟩, rfl, by decide, rfl, by decide⟩, ⟨_, rfl, ⟨by decide, by decide⟩, rfl⟩,
    ⟨_, rfl, rfl, by decide, by decide, ⟨by decide, by decide⟩, by decide +kernel⟩, by decide, ok_with (p := fun _ v => decide ((0 : Word) ≤ v)) (by decide)⟩

/-- R37, R52, R111: a token wait of 4096 cycles traps; an admission wait then ends with reason 8; wtime gives time. -/
theorem test_waits :
    nextIs (exec (.tokenDeadlock 0) (waits (.pop 4) 4096)) (fun t => t.hart.hdr.cause == 0x0E) = true ∧
    nextIs (exec (.tokenDeadlock 0) (waits (.pop 4) 4095)) (fun t => t.hart.hdr.cause == 0) = true ∧
    nextIs (exec (.waitedAdmission 0) admits8) (fun t => t.reg 4 == BitVec.allOnes 64 && t.hart.cq.length == 1 && t.hart.pc == 0x10004) = true ∧
    nextIs (exec (.waitedAdmission 0) crammed) (fun t => t.reg 4 == 8 && t.hart.cq.length == 64 && t.hart.wait.isNone) = true ∧
    nextIs (exec (.admissionWaitTimeout 0) admits8) (fun t => t.reg 4 == 8 && t.hart.pc == 0x10004) = true ∧
    nextIs (exec (.wtimeWake 0) (waits (.wtime 4096 4) 4097)) (fun t => t.reg 4 == 4097 && t.hart.wait.isNone) = true := by decide

/-- `v23` with vadd in its queue and not at the sequencer. -/
def vqHart (e : Entry) : State := v23.setHart { v23.hart with vq := [e] }
/-- A vadd.vv at the head, and a matrix row. -/
def addE : Entry := { instr := vaddI }
/-- A vwait that has found its flag short and waits at the head. -/
noncomputable def stalled : State :=
  match exec waitI ((streamHart 0 0x50000).setHart ((streamHart 0 0x50000).hart.setReg 5 1)) with | .next t => t | _ => mk id
/-- It is at the head, has begun, and passes its checks; tried again it waits on, or is done as `done` says. -/
def stallFacts (s : State) (done : Bool) : Bool :=
  match s.hart.vq with
  | [en] => match vecOpOf en.instr with
    | some op => decide (en.instr = waitI) && s.vecReady 0 && en.started && en.tried != 0 && (s.hart.vec.startCheck op (s.hart.look en)).isNone &&
      match op.run (s.setHartAt 0 s.hart) 0 (s.hart.look en) with
      | .ok d => done && decide ((d.s.hartAt 0).vq.length = 1)
      | .error r => !done && decide ((r.s.hartAt 0).vq.length = 1) && (match r.stop with | .wait _ => true | .trap _ => false)
    | none => false
  | _ => false
theorem witness_EnginesWork_stalled : stallFacts stalled false = true ∧
    stallFacts { stalled with mem := (List.range 4).foldl (fun m i => m.write (0x50000 + 4 * i) 4 1) stalled.mem } true = true ∧
    ({ stalled with time := stalled.time + 0x100000000 } : State).vwaitOver 0 = true := by decide +kernel
def mqHart : State := int8.setHart { int8.hart with mq := [{ int8.matEntry mmrI with seq := 0 }] }

theorem witness_EnginesWork :
    ((vqHart addE).hart.vq = addE :: [] ∧ (vqHart addE).vecReady 0 = true ∧ (vecOpOf vaddI).isSome = true ∧ (vecElems v23.hart.vec addE vaddI).isSome = true ∧
     v23.hart.vec.splits (opVadd ⟨4, 2, 3, 0, 0, 0, 2⟩) false = false ∧ (v23.hart.vec.startCheck (opVadd ⟨4, 2, 3, 0, 0, 0, 2⟩) addE).isNone = true ∧
     (vqHart addE).shared 0 = false ∧ addE.acc = none ∧ (vqHart addE).dev.latent = none) ∧
    mqHart.matCheck 0 (opMmr 2 2 5 1 0) (int8.matEntry mmrI) = none ∧
    (let e : Entry := { entry (.mldSq 5 1 0 0) with op1 := 0x3000000 }
     let s := bayPending (int8.setHart { int8.hart with gang := 1, mq := [e] })
     s.hart.mq = [e] ∧ s.matReady 0 = true ∧ (match matOpOf e.instr with
       | some op => (s.matCheck 0 op e).isNone && (match op.run s 0 e with
         | .error r => (match r.stop with | .wait _ => (r.s.hartAt 0).mq.length == 1 | .trap _ => false)
         | .ok _ => false)
       | none => false) = true) ∧
    (let e : Entry := entry (.mmr 2 2 5 1 0 2)
     let s := int8.setHart { int8.hart with mq := [e] }
     s.matReady 0 = true ∧ (match matOpOf e.instr with | some op => s.matCheck 0 op e == some 0x30 | none => false) = true) ∧
    (mqHart.hart.mq.map (fun e => e.instr) = [mmrI] ∧ mqHart.matReady 0 = true) ∧
    (({ addE with done := true }).isMove = false ∧ (vqHart { addE with done := true }).hart.vq = { addE with done := true } :: []) ∧
    (let p : SAcc := { kind := .publish, addr := 0x50000, val := 9 }
     (publishing.hartAt 0).ss = p :: [] ∧ publishing.sReady 0 p = true ∧ (publishing.hartAt 0).run = .running ∧ isOk (publishing.scalarLook 0 p.touch 0 p.addr 8 .rmw) = true) ∧
    ((mk id).now < ({ addE with done := true, tried := 9 }).tried ∧ ({ addE with done := true }).tried ≤ (mk id).now) ∧
    (mk id).appliable = none ∧
    (let u : Update := ⟨0, 1, 0x50000, 0x50000, false, 4, 3⟩
     let v : Update := ⟨0, 1, 0x51000, 0x51000, false, 4, 3⟩
     let s : State := { mk id with dev := { (mk id).dev with updates := [u, v], held := 1#32 <<< baseDie (stackOf 0x50000) } }
     s.dieRuns (baseDie (stackOf u.pa)) = false ∧ s.dieRuns (baseDie (stackOf v.pa)) = true ∧ s.appliable = some v ∧
     nextIs (exec .updateApply s) (fun t => t.mem.read 0x51000 4 == 3 && t.dev.updates == [u]) = true) ∧
    (let u : Update := ⟨0, 1, 0x50000, 0x50000, false, 4, 3⟩; ({ mk id with dev := { (mk id).dev with updates := [u] } } : State).appliable = some u ∧
     ({ mk id with dev := { (mk id).dev with updates := [u], latent := some ⟨3, 0, 0x50002⟩ } } : State).spoiled 3 0 u.pa u.size = true ∧
     (mk id).spoiled 3 0 u.pa u.size = false) := by decide

/-- A vadd in the queue, and a matrix row in its: R35, R71, R262. -/
theorem test_engines :
    nextIs (exec (.vectorStart 0) (vqHart addE)) (fun t => t.hart.vq.map (fun e => e.done) == [true] && el t 4 0 == 1 && el t 4 3 == 11 &&
      nextIs (exec (.instructionRetire 0 1) t) (fun u => u.hart.vq.isEmpty)) = true ∧
    nextIs (exec (.instructionRetire 0 0) publishing) (fun t => t.mem.read 0x50000 8 == 9 && t.hart.ss.isEmpty) = true ∧
    nextIs (exec (.lookaheadTranslate 0 1) (streamHart 0 0x50000)) (fun t => t.core.tlb.map (fun e => (e.ctx, e.page, e.at_)) == [(0, 0x50000, 0x40028)]) = true ∧
    nextIs (exec .updateApply { mk id with dev := { (mk id).dev with updates := [⟨0, 1, 0x50000, 0x50000, false, 4, 2 ^ 32 - 1⟩] }, mem := pages.write 0x50000 4 3 }) (fun t =>
      t.mem.read 0x50000 8 == 2 && t.dev.updates.isEmpty) = true := by decide +kernel

/-! ### The host -/

/-- The bases of mailbox ring of function 0 at 0x50000, sixteen records, with one record at hand of code `c` and operands. -/
def commands (c a b d e : Nat) (f : Fn → Fn := id) : State :=
  let s : State := { mk id with mem := pages.write 0x50000 1 c |>.write 0x50008 8 a |>.write 0x50010 8 b |>.write 0x50018 8 d |>.write 0x50020 8 e }
  s.setFnAt 0 (f { s.fnAt 0 with ready := true, cqbase := 0x50000, cqlen := 4, cqtail := 1 })
def commandIs (s : State) (c : Nat) (a : Nat) : Prop :=
  ∃ u pa, (s.nextCommand 0 = some a ∧ s.dv (hostWho 0) a .rmw 2 = .ok (u, pa)) ∧ (!u.spoiled 3 0 pa 64 && u.mem.read pa 1 == c) = true
theorem command_of {s : State} {c a : Nat} (h : s.nextCommand 0 = some a)
    (k : okWith (s.dv (hostWho 0) a .rmw 2) (fun u pa => !u.spoiled 3 0 pa 64 && u.mem.read pa 1 == c) = true) : commandIs s c a :=
  (ok_with k).imp fun _ x => x.imp fun _ y => ⟨⟨h, y.1⟩, y.2⟩

/-- A soft error stands at an address of HBM. -/
def tainted (s : State) (pa : Nat) : State := { s with dev := { s.dev with latent := some ⟨3, 0, pa⟩ } }

theorem witness_HostAccesses :
    ((mk id).port 0 = none ∧ (0 < min 8 8 ∧ 0x5FFF8 % 65536 + 8 ≤ 65536 ∧ 0x5FFF8 + 8 ≤ 2 ^ 57) ∧ 0x5FFF8 < 2 ^ 40) ∧
    (∃ u pa, (mk id).dv (hostWho 0) 0x5FFF8 .write 2 = .ok (u, pa)) ∧ (∃ e, (mk id).dv (hostWho 0) 0x60000 .write 2 = .error e) ∧
    (∃ u pa, (mk id).dv (hostWho 0) 0x5FFF8 .read 2 = .ok (u, pa)) ∧ (∃ e, (mk id).dv (hostWho 0) 0x80000 .read 2 = .error e) ∧
    (mk id).port 17 = some .unsupportedRequest ∧ (0x50004 % 4 = 0 ∧ 0x50004 % 8 ≠ 0) ∧
    (∃ u pa, (mk id).dv (hostWho 0) 0x50004 .rmw 2 = .ok (u, pa)) ∧ (∃ e, (mk id).dv (hostWho 0) 0x60000 .rmw 2 = .error e) ∧
    0xBFFFFFFFF8 + 8 ≤ 0xC000000000 ∧ 0xC000000000 < 0xBFFFFFFFF9 + 8 ∧ (mk id).dev.latent = none ∧
    (∃ u pa, (tainted (mk id) 0x5FFFA).dv (hostWho 0) 0x5FFF8 .read 2 = .ok (u, pa) ∧ u.spoiled 3 0 pa 8 = true) ∧
    (tainted (mk id) 0x5FFFA).spoiled 3 0 0x5FFF8 4 = true ∧ (mk id).spoiled 3 0 0x5FFF8 4 = false := by
  refine ⟨by decide, some_pair (by decide), err_of (by decide), some_pair (by decide), err_of (by decide), by decide, by decide,
    some_pair (by decide), err_of (by decide), by decide, by decide, rfl, ok_with (p := fun (u : State) pa => u.spoiled 3 0 pa 8) (by decide), by decide, by decide⟩

/-- R358, R359: a posted write and a read, an atomic's old value and sum, one that faults. -/
theorem test_host :
    nextIs (exec (.hostWrite 0 0x5FFF8 8 0x1122334455667788) (mk id)) (fun t => t.mem.byte 0x5FFF8 == 0x88 && t.dev.done.isEmpty &&
      nextIs (exec (.hostRead 0 0x5FFFA ⟨2, 0⟩) t) (fun u => u.dev.done == [⟨0, .success, 0x5566⟩])) = true ∧
    nextIs (exec (.hostAtomicop 0 0 0 0x50004 3 0) (mk id)) (fun t => t.mem.read 0x50004 4 == 3 && t.dev.done == [⟨0, .success, 0⟩]) = true ∧
    nextIs (exec (.hostRead 0 0x80000 ⟨8, 0⟩) (mk id)) (fun t => t.dev.done.map (fun d => d.status) == [.completerAbort]) = true ∧
    nextIs (exec (.hostWrite 0 0x60000 8 1) (mk id)) (fun t => t.dev.done.map (fun d => d.status) == [.completerAbort]) = true ∧
    nextIs (exec (.hostRead 0 0 ⟨8, 1⟩) (mk id)) (fun t => t.dev.done == [⟨0, .success, 0x00090768⟩]) = true ∧
    nextIs (exec (.hostRead 0 0x40028 ⟨2, 2⟩) (mk id)) (fun t => t.dev.done == [⟨0, .success, 0x067B⟩]) = true := by decide

def conn : Conn := ⟨1, 2, 0x50000, 0x50040⟩
/-- Rings of 4096 bytes: tx at 0x51000 with head 4095 and tail 4097 and rx at 0x52000 as full as given, of connection 0. -/
def rings (full : Nat) : State :=
  let s : State := { mk id with mem := (pages.write 0x50000 8 0x51000 |>.write 0x50008 4 12 |>.write 0x50010 8 4095 |>.write 0x50018 8 4097
    |>.write 0x51FFF 1 5 |>.write 0x51000 1 6 |>.write 0x50040 8 0x52000 |>.write 0x50048 4 12 |>.write 0x50058 8 full) }
  s.setFnAt 0 { s.fnAt 0 with conns := [(0, conn)] }
/-- The header of a ring reads, with its base, the logarithm of its size, and the bytes in use. -/
def ringIs (s : State) (a lg used : Nat) : Prop :=
  okWith (s.dv (hostWho 0) a .rmw 2) (fun u pa => u.mem.read pa 8 % 4096 == 0 && u.mem.read (pa + 8) 4 == lg &&
    (u.mem.read (pa + 24) 8 + 2 ^ 64 - u.mem.read (pa + 16) 8) % 2 ^ 64 == used) = true

set_option maxRecDepth 20000 in
theorem witness_HostService :
    (mk id).hasFn 0 = true ∧ (mk id).tdiShut 0 = false ∧ (4 ≤ 0x1C % 16 ∧ 0x1C % 16 ≤ 12) ∧
    commandIs (commands 1 0x51000 0 0 0) 1 0x50000 ∧ commandIs (commands 2 1 2 0x51000 0x51040) 2 0x50000 ∧
    commandIs (commands 2 1 2 0x51000 0x51040 (fun x => { x with closed := true })) 2 0x50000 ∧
    commandIs (commands 3 0 0 0 0 (fun x => { x with conns := [(0, conn)] })) 3 0x50000 ∧
    commandIs (commands 4 256 0 0 0 (fun x => { x with errs := [(0, #v[1, 2, 3, 4])] })) 4 0x50000 ∧ commandIs (commands 0 0 0 0 0) 0 0x50000 ∧
    commandIs (commands 5 0 0 0 0) 5 0x50000 ∧ ((commands 4 256 0 0 0 (fun x => { x with errs := [(0, #v[1, 2, 3, 4])] })).fnAt 0).errs.find (256 % 256) = some #v[1, 2, 3, 4] ∧
    ((commands 2 1 2 0x51000 0x51040).fnAt 0).conns.find 0 = none ∧
    ((rings 0).fnAt 0).conns.find 0 = some conn ∧ ringIs (rings 0) 0x50000 12 2 ∧ ringIs (rings 4088) 0x50040 12 4088 ∧ ringIs (rings 4089) 0x50040 12 4089 ∧
    ringIs (rings 4097) 0x50040 12 4097 ∧
    okWith ((tainted (commands 5 0 0 0 0) 0x50030).dv (hostWho 0) 0x50000 .rmw 2) (fun u pa => u.spoiled 3 0 pa 64) = true ∧
    (tainted (commands 5 0 0 0 0) 0x50030).nextCommand 0 = some 0x50000 ∧
    okWith ((tainted (rings 0) 0x50018).dv (hostWho 0) 0x50000 .rmw 2) (fun u pa => u.spoiled 3 0 pa 32) = true ∧
    okWith ((rings 0).dv (hostWho 0) 0x50000 .rmw 2) (fun u pa => !u.spoiled 3 0 pa 32) = true ∧ (rings 0).dieRuns ioDie = true ∧
    ({ rings 0 with dev := { (rings 0).dev with held := 0x10 } } : State).dieRuns ioDie = false := by
  refine ⟨by decide, by decide, by decide, command_of (by decide) (by decide), command_of (by decide) (by decide), command_of (by decide) (by decide),
    command_of (by decide) (by decide), command_of (by decide) (by decide), command_of (by decide) (by decide), command_of (by decide) (by decide),
    rfl, rfl, rfl, ?_, ?_, ?_, ?_, by decide, by decide, by decide, by decide, by decide, by decide⟩ <;> (unfold ringIs; decide)

/-- R361 to R363: a connection opened, an unknown code, an error record read; two bytes taken across a ring's end, eight put,
and a ring whose tail is too far closed. -/
theorem test_service :
    nextIs (exec (.openConnection 0) (commands 2 1 2 0x51000 0x51040)) (fun t => (t.fnAt 0).conns.find 0 == some ⟨1, 2, 0x51000, 0x51040⟩ && (t.fnAt 0).cqhead == 1) = true ∧
    nextIs (exec (.unknownCommand 0) (commands 5 0 0 0 0)) (fun t => t.mem.byte 0x50001 == 1) = true ∧
    nextIs (exec (.readErrorRecord 0) (commands 4 256 0 0 0 (fun x => { x with errs := [(0, #v[1, 2, 3, 4])] }))) (fun t => t.mem.read 0x50038 8 == 4) = true ∧
    nextIs (exec (.ringTransfer 0 0 0 2 0) (rings 0)) (fun t => t.mem.read 0x50010 8 == 4097) = true ∧
    nextIs (exec (.ringTransfer 0 0 1 8 0x0807060504030201) (rings 4088)) (fun t => t.mem.read 0x50058 8 == 4096 && t.mem.read 0x52FF8 8 == 0x0807060504030201) = true ∧
    nextIs (exec (.ringTransfer 0 0 1 8 0) (rings 4097)) (fun t => ((t.fnAt 0).conns.find 0).isNone && (t.fnAt 0).closed) = true := by decide +kernel

/-- A hart of function 3 that holds bay 3, of its function, with two bytes of it, and a request of its in the sampler. -/
def ofFn3 (t : Option Tdi := none) (reset : Bool := false) : State :=
  let s := clusOf (withBay { mine with fn := 3 } (user (fun h => { h with fn := 3 }))) (fun c => { c with works := [{ fn := 3, op := 1 }] })
  (s.setFnAt 3 { s.fnAt 3 with tdi := t, inReset := reset, cqtail := 9 }).setGangAt 1 { fn := 3, members := [{}] }
/-- A copy from the host's memory under way. -/
def onPort : Entry := { instr := cpI 0 0 2, started := true, host := true }
/-- A supervisor hart, changed, with that copy, every stream keyed. -/
def portCopy (f : Hart → Hart) : State :=
  let s := cpHart (fun h => f { h with cq := [onPort] }); { s with dev := { s.dev with ide := Vector.replicate 8 true } }
/-- A load of a table from the host's memory under way, at page 9. -/
def portWork : Work := { op := 1, addr := 0x90000, started := true }
def overHost : State :=
  clusOf { mk id with mem := pages.write 0x40048 8 (Config.hostWindow + 0x67B) } (fun c => { c with works := [portWork] })

theorem witness_FunctionsReset :
    ((ofFn3).hasFn 3 = true ∧ ((ofFn3).fnAt 3).inReset = false ∧ ((ofFn3).clusAt 0).bay 3 = { mine with fn := 3 } ∧ (ofFn3).hart.sup = false ∧
     (ofFn3).hart.fn = 3 ∧ ((mk id).fnAt 0).inReset = false ∧ (mk id).hart.sup = true) ∧
    ((ofFn3 none true).fnAt 3).inReset = true ∧ ((ofFn3 (some .running)).fnAt 3).tdi = some .running ∧
    (3 : BitVec 5) ≠ 0 ∧ (mk id).hasFn 16 = true ∧ (mk id).hasFn 17 = false ∧ ((ofFn3 (some .locked)).fnAt 3).tdi = some .locked ∧
    ((portCopy id).fnAt 0).inReset = false ∧ ((portCopy id).hartAt 0).sup = true ∧ ((portCopy id).hartAt 0).surr = none ∧
    ((portCopy id).hartAt 0).bay.isOpen = false ∧ ((portCopy id).hartAt 0).run = .running ∧
    (∃ e ∈ ((portCopy id).hartAt 0).cq, (copyRunOf e.instr).isSome = true ∧ e.started = true ∧ e.host = true) ∧
    ((portCopy (fun h => { h with run := .suspended })).hartAt 0).run ≠ .running ∧ ((portCopy (fun h => { h with run := .suspended })).hartAt 0).cq = [onPort] ∧
    ((portCopy (fun h => { h with sup := false })).hartAt 0).sup = false ∧ ((portCopy (fun h => { h with sup := false })).coreAt 0).tqbase = 0 ∧
    (∀ p ∈ (portCopy id).harts, ((portCopy id).hartAt p.1).sup = true) ∧
    ((portCopy id).hartAt 0).cq.filter (fun e => (copyRunOf e.instr).isSome && (e.started && e.host)) = onPort :: [] ∧
    (∃ st : BitVec 3, (portCopy id).dev.ide[st.toNat] = true ∧ onStream 0 st.toNat = true ∧ (mk id).dev.ide[st.toNat] = false ∧
      (∀ p ∈ (mk id).clus, ∀ w ∈ p.2.works, w.started = false) ∧
      portWork.started = true ∧ onStream portWork.fn.toNat st.toNat = true) ∧
    (∃ p ∈ overHost.clus, portWork ∈ p.2.works) ∧ overHost.overPort portWork = true ∧
    (∃ st : BitVec 3, ∀ p ∈ (portCopy id).harts, p.1 = 0 → onStream 0 st.toNat = false) := by
  refine ⟨by decide, by decide, by decide, by decide, by decide, by decide, by decide, by decide, by decide, by decide, by decide, by decide, by decide, by decide,
    by decide, by decide, by decide, by decide +kernel, by decide, ?_, by decide, by decide, ?_⟩
  · have h : (BitVec.ofNat 3 (Config.ideOf 0 % 8)).toNat = Config.ideOf 0 % 8 := by simp
    refine ⟨BitVec.ofNat 3 (Config.ideOf 0 % 8), ?_, by simp [onStream], ?_, by decide, rfl, by simp [onStream, portWork]⟩
    · have := (by decide : ∀ st : BitVec 3, (portCopy id).dev.ide[st.toNat] = true); exact this _
    · have := (by decide : ∀ st : BitVec 3, (mk id).dev.ide[st.toNat] = false); exact this _
  · refine ⟨BitVec.ofNat 3 (Config.ideOf 0 % 8 + 1), fun _ _ _ => ?_⟩
    simp only [onStream, BitVec.toNat_ofNat, beq_eq_false_iff_ne, ne_eq]; omega

/-- R364, R365: a function in reset has no hart, no bay, no work; made again, its mailbox takes its reset values; a TDI that
leaves RUN is in ERROR, its error set; locked, then run. -/
theorem test_function_reset :
    nextIs (exec (.functionLevelReset 3) (ofFn3)) (fun t => (t.hart.run == .ended || t.hart.run == .free) && ((t.clusAt 0).bay 3).st == .free &&
      (t.clusAt 0).square.byte 0x3000000 == 0 && (t.clusAt 0).works.isEmpty && (t.fnAt 3).inReset) = true ∧
    nextIs (exec (.functionLevelReset 3) (ofFn3 none true)) (fun t => (t.fnAt 3).cqtail == 0 && !(t.fnAt 3).inReset && !(t.fnAt 3).ready) = true ∧
    nextIs (exec (.tdiLeaveRun ⟨3, 0⟩) (ofFn3 (some .running))) (fun t => (t.fnAt 3).tdi == some .error && (t.fnAt 3).tdiErr && ((t.clusAt 0).bay 3).st == .free) = true ∧
    nextIs (exec (.tdiLeaveRun ⟨3, 1⟩) (ofFn3 (some .running))) (fun t => (t.fnAt 3).tdi == some .unlocked) = true ∧
    nextIs (exec (.tdiRun 3) (ofFn3 (some .locked))) (fun t => (t.fnAt 3).tdi == some .running) = true ∧
    nextIs (exec (.functionLevelReset 0) (cpHart (fun h => { h with cq := [onPort] }))) (fun t => t.hart.cq.isEmpty && t.hart.cpcnt == 1 && t.hart.hdr.cause == 0x53) = true ∧
    nextIs (exec (.functionLevelReset 0) (cpHart (fun h => { h with cq := [onPort, onPort] })))
      (fun t => t.hart.run == .suspending && t.hart.cpcnt == 2 && t.dev.svc.map (fun r => r.cause) == [0x53]) = true ∧
    nextIs (exec (.functionLevelReset 0) (cpHart (fun h => { h with run := .suspended, cq := [onPort, onPort] })))
      (fun t => t.hart.run == .suspended && t.hart.cq.isEmpty && t.dev.svc.map (fun r => r.cause) == [0x53, 0x53]) = true := by decide

/-- An error stands in the 64-byte block at 0x50040 of HBM. -/
def spoilt (f : Hart → Hart := id) : State :=
  let s := mk (fun h => f (h.setReg 5 0x50040)); { s with dev := { s.dev with latent := some ⟨3, 0, 0x50044⟩ } }

theorem witness_ErrorsAndEvents :
    (standsInData 1 0xFFFF = true ∧ standsInData 1 0 = false ∧ standsInData 4 0xFFFF = false) ∧
    ((1 : BitVec 3) ≠ 2 ∧ (1 : BitVec 3) ≠ 4 ∧ (1 : BitVec 3) ≠ 5 ∧ (0 : BitVec 16).toNat < 1280 ∧ ((mk id).hartAt 0).run = .running ∧
     ((mk id).hartAt 0).surr = none ∧ ((mk id).hartAt 0).bay.isOpen = false) ∧
    ([⟨0, 1, 0x50000, 0x50000, false, 4, 3⟩] : List Update).find? (fun y => y.pa == 0x50000) = some ⟨0, 1, 0x50000, 0x50000, false, 4, 3⟩ ∧
    (spoilt.hart.prefixFits .s false false = true ∧ spoilt.scalarGate 0 .read = none ∧ addr5 spoilt 3 % tySize 3 = 0 ∧
     (∃ u a, spoilt.begun.dv spoilt.begun.who (addr5 spoilt 3) .read spoilt.begun.hart.scalarTouch = .ok (u, a) ∧ decide (a ≤ 0x50044 ∧ 0x50044 < a + tySize 3) = true)) ∧
    (let p := (mk id).mem.read 0x40028 8
     pteBase p = 5 * 65536 ∧ 9 * 65536 % 2 ^ pteShift p = 0 ∧ p % 2 = 1 ∧ leafCopies 0x40028 p = [0x40028]) ∧
    (let p := (pages.write 0x40028 8 0x5067A).read 0x40028 8
     pteBase p = 5 * 65536 ∧ 9 * 65536 % 2 ^ pteShift p = 0 ∧ p % 2 = 0 ∧ (mk id).spoiled 3 0 0x50000 (2 ^ pteShift p) = false ∧
     spoilt.spoiled 3 0 0x50000 (2 ^ pteShift p) = true ∧ ∀ c ∈ leafCopies 0x40028 p, c + 8 ≤ 9 * 65536 ∨ 9 * 65536 + 2 ^ pteShift p ≤ c) ∧
    (mk id).agenda = [] ∧ ({ mk id with dev := { (mk id).dev with stopped := true } } : State).dev.stopped = true := by
  refine ⟨by decide, by decide, by decide, ⟨by decide, by decide, by decide, ok_with (by decide)⟩, by decide, by decide, by decide, by decide⟩

/-- R366: a hart that meets an uncorrectable error traps imprecisely with its address; R97: a load of bytes that hold one
traps with 0x52; R165: a page moved in two events; R370. -/
theorem test_errors :
    nextIs (exec (.uncorrectableError 1 2 0 0 0x1234 0x5678) (mk id)) (fun t => t.hart.hdr.cause == 0x52 && t.hart.hdr.addr == 0x5678 && bit t.hart.hdr.flags.toNat 0 &&
      (t.fnAt 0).errs.find 0 == some #v[0x20152, 0x1234, 0, 0x5678] && (t.fnAt 0).ertail == 1) = true ∧
    nextIs (exec (.ld 4 5 0 0 0 3) spoilt) (fun t => t.hart.hdr.cause == 0x52 && t.hart.hdr.addr == 0x50040 && t.hart.pc == 0x10000 && (t.fnAt 0).ertail == 1) = true ∧
    nextIs (exec (.pageMigrate 5 9 0x40028) { mk id with mem := pages.write 0x50003 1 7 }) (fun t => t.mem.read 0x40028 8 == 0x5067A &&
      nextIs (exec (.pageMigrate 5 9 0x40028) t) (fun u => u.mem.byte 0x90003 == 7 && u.mem.read 0x40028 8 == 0x9067B)) = true ∧
    nextIs (exec .pldmMonitorRead { mk id with dev := { (mk id).dev with energyLast := 2048 } }) (fun t => t.dev.pldm.map (fun x => x.energy) == some 2) = true ∧
    nextIs (exec (.thermalHold 2) (mk id)) (fun t => !t.dieRuns 2 && t.dieRuns 1 && t.dieRuns ioDie) = true := by decide +kernel

end Sys2Proof.Tests
end

section
namespace Sys2Proof.Machine

/-! ### A refused submission keeps what it has read (O38) -/

/-- The machine of reset where core 0 keeps a translation of the page at 0x50000, whose bytes are all zero, and S[5] of hart 0
points there: a request block that is malformed. -/
def emptyBlock : State :=
  (State.reset.setCoreAt 0 { State.reset.coreAt 0 with
    tlb := [{ ctx := 0, page := 0x50000, at_ := 0, pte := 0x5067B, hid := 0, q := 0 }] }).setReg 5 0x50000

/-- Whether an admission is refused with reason `r` and may not wait. -/
def refusedNow (a : Except Stop Adm) (r : Nat) : Bool :=
  match a with
  | .ok (.refused k false) => k == r
  | _ => false
theorem refusedNow_iff (a : Except Stop Adm) (r : Nat) : refusedNow a r = true ↔ a = .ok (.refused r false) := by
  constructor
  · unfold refusedNow
    intro h
    split at h
    · rw [eq_of_beq h]
    · cases h
  · rintro rfl; exact beq_self_eq_true r

theorem emptyBlock_refused : emptyBlock.smpAdmit 0 false (emptyBlock.reg 5) 0 = .ok (.refused 0x40 false) :=
  (refusedNow_iff _ _).mp (by decide)

/-- The refused request keeps the energy that reading its block cost (log 64). -/
theorem emptyBlock_charged : (emptyBlock.smpSubmit 0 4 5 0 false 0).dev ≠ emptyBlock.dev := by decide

/-- Refutes O38: a refused smp.req keeps what reading its block has charged (log 64), and the statement says that nothing of
the device differs. The block at 0x50000 is all zero, so it is malformed, which is reason 0x40. -/
theorem not_submissions : ¬ Obligations.Submissions := by
  intro h
  obtain ⟨-, refused, -⟩ := h (.smpReq 4 5 0 0) emptyBlock _ rfl ⟨rfl, rfl⟩ (fun _ _ e => nomatch e)
  obtain ⟨u, hu, -, -, dev, -⟩ := (refused 0x40 false emptyBlock_refused).2.2 (.inl rfl)
  have e : emptyBlock.smpSubmit 0 4 5 0 false 0 = u := by injection hu
  exact emptyBlock_charged (e ▸ dev)

end Sys2Proof.Machine
end

section
namespace Sys2Proof.Machine

/-! ### What an access may change -/

/-- What an access that is let through may change of a machine: memory, what the device counts, and what its cores keep and
are busy with. -/
def State.reaches (s t : State) : Prop := t = { s with mem := t.mem, dev := t.dev, cores := t.cores }

theorem State.reaches_refl (s : State) : s.reaches s := rfl
theorem State.reaches_trans {s t u : State} (a : s.reaches t) (b : t.reaches u) : s.reaches u := by
  unfold State.reaches at *
  rw [b, a]
theorem State.reaches_cur {s t : State} (a : s.reaches t) : t.cur = s.cur := by rw [a]
theorem State.reaches_hartAt {s t : State} (a : s.reaches t) (j : Nat) : t.hartAt j = s.hartAt j := by
  rw [a]; rfl
theorem State.reaches_hart {s t : State} (a : s.reaches t) : t.hart = s.hart := by
  rw [a]; rfl

theorem State.reaches_touch (s : State) (pa kind : Nat) : s.reaches (s.touch pa kind) := by
  unfold State.touch
  split <;> rfl

theorem State.reaches_xlate {s t : State} {who : Who} {a kind pa : Nat} {acc : Acc}
    (h : s.xlate who a acc kind = .ok (t, pa)) : s.reaches t := by
  unfold State.xlate at h
  split at h
  · cases h
  · split at h
    · cases h
    · obtain ⟨rfl, -⟩ := Prod.mk.inj (Except.ok.inj h)
      refine State.reaches_trans ?_ (State.reaches_touch _ _ _)
      exact iteInduction (motive := s.reaches) (fun _ => s.reaches_refl) (fun _ => rfl)

theorem State.reaches_dv {s t : State} {who : Who} {a kind pa : Nat} {acc : Acc}
    (h : s.dv who a acc kind = .ok (t, pa)) : s.reaches t := by
  unfold State.dv at h
  split at h
  · cases h
  · split at h
    · cases h
    · next r e =>
      split at h
      · cases h
      · cases h; exact State.reaches_xlate e

theorem State.reaches_charge (s : State) (r n : Nat) : s.reaches (s.chargeEnergy r n) := by
  unfold State.reaches; rw [State.chargeEnergy_eq]
theorem State.reaches_usePort (s : State) (core : Nat) (sp : Space) (wr : Bool) (n : Nat) :
    s.reaches (s.usePort core sp wr n) := by
  unfold State.reaches; rw [State.usePort_eq]
theorem State.reaches_scalarEnergy (s : State) (r : Nat) (p : Place) : s.reaches (s.scalarEnergy r p) := by
  unfold State.scalarEnergy
  split
  · split
    · exact s.reaches_charge r 2
    · exact s.reaches_refl
  · exact s.reaches_charge r 1
  · exact s.reaches_refl
theorem State.reaches_scalarCost (s : State) (r : Nat) (p : Place) (n : Nat) (wr : Bool) :
    s.reaches (s.scalarCost r p n wr) :=
  State.reaches_trans (s.reaches_scalarEnergy r p) (State.reaches_usePort _ _ _ _ _)

theorem State.reaches_scalarLook {s t : State} {hid touch size : Nat} {sp : BitVec 1} {addr : Word} {acc : Acc} {p : Place}
    (h : s.scalarLook hid touch sp addr size acc = .ok (t, p)) : s.reaches t := by
  unfold State.scalarLook at h
  simp only [trapAt] at h
  split at h
  · cases h
  · split at h
    · split at h
      · cases h
      · next e =>
        split at h
        · cases h
        · cases h; exact State.reaches_dv e
    · split at h
      · cases h
      · split at h
        · cases h
        · cases h; exact s.reaches_refl

theorem State.reaches_scalarPlace {s t : State} {size : Nat} {sp : BitVec 1} {addr : Word} {acc : Acc} {p : Place}
    (h : s.scalarPlace sp addr size acc = .ok (t, p)) : s.reaches t := by
  unfold State.scalarPlace State.scalarCheck at h
  split at h
  · cases h
  · split at h
    · cases h
    · next e =>
      cases h
      exact State.reaches_trans (State.reaches_scalarLook e) (State.reaches_scalarCost _ _ _ _ _)

theorem State.reaches_wordsAt {n : Nat} : ∀ {s t : State} {a : Word} {first : Bool} {x : Nat},
    s.wordsAt a first n = .ok (t, x) → s.reaches t := by
  induction n with
  | zero => intro s t a first x h; cases h; exact s.reaches_refl
  | succ n ih =>
    intro s t a first x h
    unfold State.wordsAt at h
    split at h
    · cases h
    · next t1 p e =>
      simp only [] at h
      split at h
      · cases h
      · next e2 =>
        cases h
        refine State.reaches_trans (State.reaches_scalarLook e) (State.reaches_trans ?_ (ih e2))
        refine State.reaches_trans ?_ (State.reaches_usePort _ _ _ _ _)
        split
        · exact State.reaches_scalarEnergy _ _ _
        · exact State.reaches_refl _

theorem State.reaches_shapeRecord {s t : State} {a : Word} {n x : Nat} (h : s.shapeRecord a n = .ok (t, x)) : s.reaches t := by
  unfold State.shapeRecord at h
  split at h
  · cases h
  · exact State.reaches_wordsAt h

theorem State.reaches_smpRead {s t : State} {op x : Nat} {a : Word} (h : s.smpRead op a = .ok (t, x)) : s.reaches t := by
  unfold State.smpRead trapAt at h
  split at h
  · split at h
    · cases h
    · exact State.reaches_shapeRecord h
  · split at h
    · split at h
      · cases h
      · next e => cases h; exact State.reaches_scalarPlace e
    · cases h; exact s.reaches_refl

theorem State.reaches_watchValue {s t : State} {hid : Nat} {x : Stream} {v : Word} (h : s.watchValue hid x = .ok (t, v)) :
    s.reaches t := by
  unfold State.watchValue at h
  simp only [trapAt] at h
  split at h
  · cases h
  · next s1 pa e =>
    have r : s1.reaches (if inHbm pa = true then s1.chargeEnergy (s.hartAt hid).workResv 2 else s1) :=
      iteInduction (motive := s1.reaches) (fun _ => State.reaches_charge _ _ _) (fun _ => s1.reaches_refl)
    generalize (if inHbm pa = true then s1.chargeEnergy (s.hartAt hid).workResv 2 else s1) = s2 at h r
    split at h
    · cases h
    · cases h; exact State.reaches_trans (State.reaches_dv e) r

end Sys2Proof.Machine
end

section
namespace Sys2Proof.Machine

/-! ### Reads do not depend on the scalar registers -/

/-- The state of a result replaced. -/
def onState {ε α : Type} (f : State → State) (x : Except ε (State × α)) : Except ε (State × α) :=
  x.map (Prod.map f id)

@[simp] theorem onState_error {ε α : Type} (f : State → State) (e : ε) : onState f (.error e : Except ε (State × α)) = .error e := rfl
@[simp] theorem onState_ok {ε α : Type} (f : State → State) (t : State) (x : α) :
    onState f (.ok (t, x) : Except ε (State × α)) = .ok (f t, x) := rfl

theorem onState_congr {ε α : Type} {f g : State → State} {x : Except ε (State × α)}
    (h : ∀ t y, x = .ok (t, y) → f t = g t) : onState f x = onState g x := by
  cases x with
  | error e => rfl
  | ok p => exact congrArg (fun t => Except.ok (t, p.2)) (h p.1 p.2 rfl)

theorem State.touch_setHartAt (s : State) (i : Nat) (h : Hart) (pa kind : Nat) :
    (s.setHartAt i h).touch pa kind = (s.touch pa kind).setHartAt i h := by
  unfold State.touch; split <;> rfl

theorem State.xlate_setHartAt (s : State) (i : Nat) (h : Hart) (who : Who) (a : Nat) (acc : Acc) (kind : Nat) :
    (s.setHartAt i h).xlate who a acc kind = onState (fun t => t.setHartAt i h) (s.xlate who a acc kind) := by
  have e : (s.setHartAt i h).leafOf who a = s.leafOf who a := rfl
  unfold State.xlate
  rw [e]
  cases s.leafOf who a with
  | error c => rfl
  | ok leaf =>
    obtain ⟨at_, p⟩ := leaf
    simp only []
    split
    · rfl
    · rw [onState_ok, ← State.touch_setHartAt]
      refine congrArg (fun t : State => Except.ok (t.touch (leafPa p a) kind, leafPa p a)) ?_
      rw [apply_ite (fun t : State => t.setHartAt i h)]
      rfl

theorem State.dv_setHartAt (s : State) (i : Nat) (h : Hart) (who : Who) (a : Nat) (acc : Acc) (kind : Nat) :
    (s.setHartAt i h).dv who a acc kind = onState (fun t => t.setHartAt i h) (s.dv who a acc kind) := by
  have e : (s.setHartAt i h).hostShut who.fn = s.hostShut who.fn := rfl
  unfold State.dv
  rw [State.xlate_setHartAt, e]
  split
  · rfl
  · cases s.xlate who a acc kind with
    | error c => rfl
    | ok r =>
      obtain ⟨t, pa⟩ := r
      simp only [onState_ok]
      split <;> rfl

theorem State.reaches_setReg {s t : State} (r : s.reaches t) (d : BitVec 5) (v : Word) :
    t.setReg d v = t.setHartAt s.cur (s.hart.setReg d v) := by
  rw [State.setReg_def, State.setHart_def, State.reaches_hart r, State.reaches_cur r]

theorem State.dv_setReg (s : State) (d : BitVec 5) (v : Word) (who : Who) (a : Nat) (acc : Acc) (kind : Nat) :
    (s.setReg d v).dv who a acc kind = onState (fun t => t.setReg d v) (s.dv who a acc kind) :=
  (s.dv_setHartAt _ _ who a acc kind).trans
    (onState_congr fun _ _ e => (State.reaches_setReg (State.reaches_dv e) d v).symm)

theorem State.hartAt_setReg (s : State) (d : BitVec 5) (v : Word) (x : Nat) :
    (s.setReg d v).hartAt x = if x = s.cur then s.hart.setReg d v else s.hartAt x := by
  split
  · next e => subst e; exact s.hart_setReg d v
  · next n => exact s.hartAt_setHartAt_other _ n
@[simp] theorem State.whoOf_setReg (s : State) (d : BitVec 5) (v : Word) (x : Nat) : (s.setReg d v).whoOf x = s.whoOf x := by
  unfold State.whoOf
  rw [State.hartAt_setReg]
  split
  · next e => subst e; simp only [Hart.setReg_sup, Hart.setReg_fn, Hart.setReg_gang]; rfl
  · rfl

theorem State.scalarLook_setReg (s : State) (d : BitVec 5) (v : Word) (x touch size : Nat) (sp : BitVec 1) (addr : Word) (acc : Acc) :
    (s.setReg d v).scalarLook x touch sp addr size acc = onState (fun t => t.setReg d v) (s.scalarLook x touch sp addr size acc) := by
  have spoilt (t : State) (p : Place) (n : Nat) : (t.setReg d v).spoiledAt p n = t.spoiledAt p n := rfl
  have sq (who : Who) : (s.setReg d v).sq who addr.toNat size = s.sq who addr.toNat size := rfl
  unfold State.scalarLook
  simp only [State.whoOf_setReg, State.dv_setReg, sq]
  split
  · rfl
  · split
    · cases s.dv (s.whoOf x) addr.toNat acc touch with
      | error e => rfl
      | ok r =>
        obtain ⟨t, pa⟩ := r
        simp only [onState_ok, spoilt]
        split <;> rfl
    · cases s.sq (s.whoOf x) addr.toNat size with
      | error e => rfl
      | ok at_ =>
        simp only [spoilt]
        split <;> rfl

theorem State.chargeEnergy_setReg (s : State) (d : BitVec 5) (v : Word) (r n : Nat) :
    (s.setReg d v).chargeEnergy r n = (s.chargeEnergy r n).setReg d v := by
  unfold State.chargeEnergy State.charge
  by_cases z : n = 0
  · subst z; rfl
  · simp only [if_neg z]; rfl
theorem State.scalarEnergy_setReg (s : State) (d : BitVec 5) (v : Word) (r : Nat) (p : Place) :
    (s.setReg d v).scalarEnergy r p = (s.scalarEnergy r p).setReg d v := by
  unfold State.scalarEnergy
  split
  · split
    · exact s.chargeEnergy_setReg d v r 2
    · rfl
  · exact s.chargeEnergy_setReg d v r 1
  · rfl
theorem State.usePort_setReg (s : State) (d : BitVec 5) (v : Word) (core : Nat) (sp : Space) (wr : Bool) (n : Nat) :
    (s.setReg d v).usePort core sp wr n = (s.usePort core sp wr n).setReg d v := by
  unfold State.usePort
  split
  · rfl
  · split <;> rfl
theorem State.scalarCost_setReg (s : State) (d : BitVec 5) (v : Word) (r : Nat) (p : Place) (n : Nat) (wr : Bool) :
    (s.setReg d v).scalarCost r p n wr = (s.scalarCost r p n wr).setReg d v := by
  unfold State.scalarCost
  rw [State.scalarEnergy_setReg, State.usePort_setReg]

@[simp] theorem Hart.setReg_scalarTouch (h : Hart) (d : BitVec 5) (v : Word) : (h.setReg d v).scalarTouch = h.scalarTouch := by
  simp [Hart.scalarTouch]
@[simp] theorem Hart.setReg_workResv (h : Hart) (d : BitVec 5) (v : Word) : (h.setReg d v).workResv = h.workResv := by
  simp [Hart.workResv, Hart.ownResv]
@[simp] theorem Hart.setReg_heldS (h : Hart) (d : BitVec 5) (v : Word) : (h.setReg d v).heldS = h.heldS := by
  simp [Hart.heldS, Hart.vecBefore, Hart.banked]

theorem State.scalarGate_setReg (s : State) (d : BitVec 5) (v : Word) (sp : BitVec 1) (acc : Acc) :
    (s.setReg d v).scalarGate sp acc = s.scalarGate sp acc := by
  have b : (s.setReg d v).scalarBusy s.cur sp acc = s.scalarBusy s.cur sp acc := rfl
  simp only [State.scalarGate, State.hart_setReg, Hart.setReg_ss, Hart.setReg_heldS, State.setReg_cur, b]

theorem State.scalarPlace_setReg (s : State) (d : BitVec 5) (v : Word) (sp : BitVec 1) (addr : Word) (size : Nat) (acc : Acc) :
    (s.setReg d v).scalarPlace sp addr size acc = onState (fun t => t.setReg d v) (s.scalarPlace sp addr size acc) := by
  unfold State.scalarPlace State.scalarCheck
  rw [State.scalarGate_setReg, State.setReg_cur, State.hart_setReg, Hart.setReg_scalarTouch, Hart.setReg_workResv,
    State.scalarLook_setReg]
  cases s.scalarGate sp acc with
  | some w => rfl
  | none =>
    cases s.scalarLook s.cur s.hart.scalarTouch sp addr size acc with
    | error e => rfl
    | ok r => obtain ⟨t, p⟩ := r; simp only [onState_ok, State.scalarCost_setReg]

theorem State.getAt_setReg_dv (s : State) (d : BitVec 5) (v : Word) {p : Place} (n : Nat) (e : p.sp = .dv) :
    (s.setReg d v).getAt p n = s.getAt p n := by
  unfold State.getAt; rw [e]; rfl
/-- A scalar access to device-virtual memory gives a place there. -/
theorem State.scalarLook_dv {s t : State} {x touch size : Nat} {addr : Word} {acc : Acc} {p : Place}
    (h : s.scalarLook x touch 0 addr size acc = .ok (t, p)) : p.sp = .dv := by
  unfold State.scalarLook at h
  simp only [trapAt, if_true] at h
  split at h
  · cases h
  · split at h
    · cases h
    · split at h <;> cases h
      rfl

theorem State.wordsAt_setReg (d : BitVec 5) (v : Word) {n : Nat} : ∀ (s : State) (a : Word) (first : Bool),
    (s.setReg d v).wordsAt a first n = onState (fun t => t.setReg d v) (s.wordsAt a first n) := by
  induction n with
  | zero => intro s a first; rfl
  | succ n ih =>
    intro s a first
    unfold State.wordsAt
    rw [State.setReg_cur, State.hart_setReg, Hart.setReg_scalarTouch, Hart.setReg_workResv, State.scalarLook_setReg]
    cases e : s.scalarLook s.cur s.hart.scalarTouch 0 a 8 .read with
    | error e => rfl
    | ok r =>
      obtain ⟨t, p⟩ := r
      have g (u : State) : (u.setReg d v).getAt p 8 = u.getAt p 8 := u.getAt_setReg_dv d v 8 (State.scalarLook_dv e)
      have k (b : Bool) : (if b then (t.setReg d v).scalarEnergy s.hart.workResv p else t.setReg d v) =
          (if b then t.scalarEnergy s.hart.workResv p else t).setReg d v := by
        cases b
        · rfl
        · exact t.scalarEnergy_setReg d v _ p
      simp only [onState_ok, k, State.usePort_setReg, ih, g]
      generalize State.usePort _ p.core p.sp false 8 = u
      cases u.wordsAt (a + 8) false n with
      | error e => rfl
      | ok r => rfl

/-- What a submission to the sampler reads does not depend on the scalar registers. -/
theorem State.smpRead_setReg (s : State) (d : BitVec 5) (v : Word) (op : Nat) (a : Word) :
    (s.setReg d v).smpRead op a = onState (fun t => t.setReg d v) (s.smpRead op a) := by
  unfold State.smpRead State.shapeRecord
  rw [State.scalarGate_setReg, State.wordsAt_setReg, State.scalarPlace_setReg]
  split
  · split
    · rfl
    · cases s.scalarGate 0 .read <;> rfl
  · split
    · cases e : s.scalarPlace 0 a 4 .read with
      | error e => rfl
      | ok r =>
        obtain ⟨t, p⟩ := r
        have q : p.sp = .dv := by
          unfold State.scalarPlace State.scalarCheck at e
          split at e
          · cases e
          · split at e
            · cases e
            · next l => cases e; exact State.scalarLook_dv l
        simp only [onState_ok, t.getAt_setReg_dv d v 4 q]
    · rfl

theorem State.smpSeen_setReg (s : State) (d : BitVec 5) (v : Word) (op : Nat) (a : Word) :
    (s.setReg d v).smpSeen op a = (s.smpSeen op a).setReg d v := by
  unfold State.smpSeen
  rw [State.smpRead_setReg]
  cases s.smpRead op a <;> rfl

end Sys2Proof.Machine
end

section
namespace Sys2Proof.Machine

/-! ### Tokens and the retirement of a submission -/

theorem Hart.past_eq (h : Hart) (e : Eng) :
    h.past e = { h with
      pc := (h.pc + 4) &&& pcMask, pfx := none, wait := none, bay := { h.bay with ucnt := (h.past e).bay.ucnt } } := by
  unfold Hart.past
  split
  · unfold Hart.advance Hart.retireTo Hart.count
    split <;> rfl
  · rfl
theorem Hart.reg_past (h : Hart) (e : Eng) (r : BitVec 5) : (h.past e).reg r = h.reg r :=
  Hart.reg_of_regs (by rw [Hart.past_eq]) r
theorem Hart.reg_setReg_self (h : Hart) (d : BitVec 5) (v : Word) : (h.setReg d v).reg d = if d = 0 then 0 else v := by
  split
  · next e => rw [e, Hart.reg_s0]
  · next n => exact h.reg_setReg_same v n
/-- Of a hart nothing differs but its tokens: those deposited, reserved and taken. -/
def Hart.tokensMove (h k : Hart) : Prop := k = { h with tok := k.tok, tokres := k.tokres, pops := k.pops }

theorem Hart.tokensMove_trans {h k l : Hart} (a : h.tokensMove k) (b : k.tokensMove l) : h.tokensMove l := by
  unfold Hart.tokensMove at *
  rw [b, a]
theorem Hart.tokensMove_reserveAll {l : List Nat} : ∀ {h k : Hart}, h.reserveAll l = some k → h.tokensMove k := by
  induction l with
  | nil => intro h k e; cases e; rfl
  | cons id t ih =>
    intro h k e
    unfold Hart.reserveAll at e
    split at e
    · cases e
    · exact Hart.tokensMove_trans (k := h.reserveTok id) rfl (ih e)
theorem Hart.tokensMove_reserve (h : Hart) (l : List Nat) : h.tokensMove ((h.reserveAll l).getD h) := by
  cases e : h.reserveAll l with
  | none => rfl
  | some k => exact Hart.tokensMove_reserveAll e
theorem Hart.tokensMove_deposit (h : Hart) (p : Nat) : h.tokensMove (h.deposit p) := by
  unfold Hart.deposit; split <;> rfl

/-- What dispatch does to the tokens of a hart whose submission is accepted: the pop of its `pfx` is taken, the pushes `l` reserved,
and the push of its `pfx`, of the sequencer, deposited (R35). -/
def Hart.submitToks (h : Hart) (e : Eng) (pop push : Nat) (l : List Nat) : Hart :=
  let k0 := if pop = 0 then h else h.takeTok pop
  let k1 := (k0.reserveAll l).getD k0
  if e = .s then k1.deposit push else k1

theorem Hart.tokensMove_submitToks (h : Hart) (e : Eng) (pop push : Nat) (l : List Nat) :
    h.tokensMove (h.submitToks e pop push l) := by
  unfold Hart.submitToks
  have a : h.tokensMove (if pop = 0 then h else h.takeTok pop) := by split <;> rfl
  have b := Hart.tokensMove_trans a (Hart.tokensMove_reserve _ l)
  simp only []
  split
  · exact Hart.tokensMove_trans b (Hart.tokensMove_deposit _ push)
  · exact b

/-- Slots are counted without a look at the scalar registers. -/
theorem Hart.setReg_fullTok (h : Hart) (d : BitVec 5) (v : Word) (id : Nat) : (h.setReg d v).fullTok id = h.fullTok id := by
  simp [Hart.fullTok, Hart.slotsTaken, Hart.tokens, Hart.reserved, Hart.heldToks]

/-- The registers of a hart replaced, as `setReg` does. -/
theorem Hart.setReg_withRegs (h : Hart) (d : BitVec 5) (v : Word) :
    h.setReg d v = { h with regs := if d = 0 then h.regs else h.regs.set d.toNat v } := by
  unfold Hart.setReg; split <;> rfl

theorem Hart.setReg_takeTok (h : Hart) (d : BitVec 5) (v : Word) (n : Nat) : (h.setReg d v).takeTok n = (h.takeTok n).setReg d v := by
  rw [Hart.setReg_withRegs, Hart.setReg_withRegs]; rfl
theorem Hart.setReg_reserveTok (h : Hart) (d : BitVec 5) (v : Word) (n : Nat) :
    (h.setReg d v).reserveTok n = (h.reserveTok n).setReg d v := by
  rw [Hart.setReg_withRegs, Hart.setReg_withRegs]; rfl
theorem Hart.setReg_deposit (h : Hart) (d : BitVec 5) (v : Word) (n : Nat) : (h.setReg d v).deposit n = (h.deposit n).setReg d v := by
  unfold Hart.deposit
  split
  · rfl
  · rw [Hart.setReg_withRegs, Hart.setReg_withRegs]; rfl
theorem Hart.setReg_reserveAll (d : BitVec 5) (v : Word) {l : List Nat} : ∀ h : Hart,
    (h.setReg d v).reserveAll l = (h.reserveAll l).map (fun k => k.setReg d v) := by
  induction l with
  | nil => intro h; rfl
  | cons id t ih =>
    intro h
    unfold Hart.reserveAll
    rw [Hart.setReg_fullTok, Hart.setReg_reserveTok, ih]
    split <;> rfl
theorem Hart.setReg_submitToks (h : Hart) (d : BitVec 5) (v : Word) (e : Eng) (pop push : Nat) (l : List Nat) :
    (h.setReg d v).submitToks e pop push l = (h.submitToks e pop push l).setReg d v := by
  unfold Hart.submitToks
  have a : (if pop = 0 then h.setReg d v else (h.setReg d v).takeTok pop) = (if pop = 0 then h else h.takeTok pop).setReg d v := by
    split
    · rfl
    · exact h.setReg_takeTok d v pop
  simp only [a, Hart.setReg_reserveAll, Option.getD_map]
  split
  · exact Hart.setReg_deposit _ d v push
  · rfl

/-! ### Submissions (R35, R51, R52) -/

/-- When the acting hart began to wait for the admission of `x`: now, unless it waits for that already. -/
def State.askedSince (s : State) (x : Submit) : Word :=
  match s.hart.wait with | some y => if y.kind = .admission x then y.since else s.time | none => s.time

section
variable {s : State} {e : Eng} {x : Submit} {w : Bool} {d : BitVec 5} {own : List Nat} {ask : State → Except Stop Adm}
  {refused : State → State}

/-- The pushes that a submission reserves (R35). -/
def pushesOf (push : Nat) (own : List Nat) : List Nat := (if push = 0 then [] else [push]) ++ own

/-- The frame of a submission whose `pfx` fits, with a token to pop and slots for its pushes: the admission decides. -/
theorem State.submission_fits (f : s.hart.prefixFits e false false = true)
    (k : (s.hart.reserveAll (pushesOf (pushOf s.hart.pfx) own)).isSome = true) :
    s.submission e x w d own ask refused =
      match ask s with
      | .error (.trap t) => s.trapSeq t
      | .error (.wait w) => s.waitFor w
      | .ok (.refused r waits) =>
        let long := decide (4096 ≤ (s.time - s.askedSince x).toNat)
        if w && waits && !long then s.waitFor (.admission x)
        else
          let s1 := refused (s.setReg d (refuse (if w && waits then 8 else r)))
          s1.setHart (s1.hart.past e)
      | .ok (.accepted t word) =>
        let u := t.setReg d word
        u.setHart ((u.hart.submitToks e (popOf s.hart.pfx) (pushOf s.hart.pfx) (pushesOf (pushOf s.hart.pfx) own)).past e) := by
  have no {b : Bool} (h : b = false) : ¬b = true := by simp [h]
  unfold State.submission
  refine (if_neg (no (Hart.fits_misuse f))).trans ?_
  refine (if_neg (no (Hart.fits_pop f))).trans ?_
  obtain ⟨h', e'⟩ := Option.isSome_iff_exists.mp k
  have e' : s.hart.reserveAll ((if pushOf s.hart.pfx = 0 then [] else [pushOf s.hart.pfx]) ++ own) = some h' := e'
  simp only [e']
  rfl

end
end Sys2Proof.Machine
end

section
namespace Sys2Proof.Machine

/-! ### How a submission is answered (R51, R52) -/

/-- What a submission that is refused does beside writing the reason: a bay.take clears bayh, and what was read stays read. -/
def Submission.refusal (z : Submission) (s : State) : State → State :=
  match z.x with
  | .take .. => fun t => t.setHart { t.hart with bay := { t.hart.bay with bayh := 0 } }
  | .smp op _ a _ _ => fun u => if s.hart.smpRaw.isSome then u else u.smpSeen op (s.reg a)
  | .launch _ a => fun u => u.blockSeen (s.reg a)
  | _ => id

/-- The frame of a submission's instruction. -/
def Submission.framed (z : Submission) (s : State) : State :=
  s.submission z.e z.x z.w z.d (if z.tok = 0 then [] else [z.tok]) z.ask (z.refusal s)

/-- What a sampler submission that comes to wait keeps of what it has read (R339, R341). -/
def Submission.keeps (z : Submission) (s t : State) : State :=
  match z.x with
  | .smp op _ a _ _ =>
    match t.hart.wait, t.hart.smpRaw, s.smpRead op (s.reg a) with
    | some y, none, .ok (s1, r) => if y.kind = .admission z.x then s1.setHart { t.hart with wait := some { y with raw := some r } } else t
    | _, _, _ => t
  | _ => t

/-- A submission made again is its instruction's frame (R52). -/
theorem Submission.submit_eq {i : Instr} {z : Submission} (h : submissionOf i = some z) (w : z.w = true) (s : State) :
    s.submit z.x = z.keeps s (z.framed s) := by
  have one {b : BitVec 1} (k : decide (b = 1) = true) : b = 1 := of_decide_eq_true k
  unfold submissionOf at h
  split at h
  case h_10 => cases h
  case h_9 => cases h; cases w
  case h_1 | h_2 => cases h; rfl
  all_goals
    cases h
    cases one w
    rfl

theorem Submission.keeps_done (z : Submission) (s : State) {t : State} (n : t.hart.wait = none) : z.keeps s t = t := by
  unfold Submission.keeps
  split
  · rw [n]
  · rfl

section
variable {i : Instr} {z : Submission} {s : State}

theorem Submission.framed_fits (c : s.hart.canSubmit z) :
    z.framed s =
      match z.ask s with
      | .error (.trap t) => s.trapSeq t
      | .error (.wait w) => s.waitFor w
      | .ok (.refused r waits) =>
        let long := decide (4096 ≤ (s.time - s.askedSince z.x).toNat)
        if z.w && waits && !long then s.waitFor (.admission z.x)
        else
          let s1 := z.refusal s (s.setReg z.d (refuse (if z.w && waits then 8 else r)))
          s1.setHart (s1.hart.past z.e)
      | .ok (.accepted t word) =>
        let u := t.setReg z.d word
        u.setHart ((u.hart.submitToks z.e (popOf s.hart.pfx) (pushOf s.hart.pfx) (z.pushes (pushOf s.hart.pfx))).past z.e) :=
  State.submission_fits c.1 c.2

/-- A hart past its instruction, with a register written and tokens moved. -/
theorem Hart.past_tokensMove {h k : Hart} (m : h.tokensMove k) (d : BitVec 5) (v : Word) (e : Eng) :
    (k.setReg d v).past e = { h with
      regs := ((k.setReg d v).past e).regs, pc := (h.pc + 4) &&& pcMask, pfx := none, wait := none
      tok := k.tok, tokres := k.tokres, pops := k.pops
      bay := { h.bay with ucnt := ((k.setReg d v).past e).bay.ucnt } } := by
  rw [Hart.past_eq, Hart.setReg_withRegs, m]

/-- An accepted submission writes its accept word and moves its tokens (R35, R51). -/
theorem Submission.framed_accepted {t : State} {word : Word} (c : s.hart.canSubmit z)
    (a : z.ask s = .ok (.accepted t word)) (cur : t.cur = s.cur) :
    s.taken t (z.framed s) z word ∧ (z.framed s).hart.wait = none := by
  obtain ⟨k, hk⟩ :
      ∃ k, k = t.hart.submitToks z.e (popOf s.hart.pfx) (pushOf s.hart.pfx) (z.pushes (pushOf s.hart.pfx)) := ⟨_, rfl⟩
  have e : z.framed s = t.setHart ((k.setReg z.d word).past z.e) := by
    rw [Submission.framed_fits c, a]
    simp only [State.setReg_def, State.setHart_setHart, State.hart_setHart, Hart.setReg_submitToks, hk]
  have m : t.hart.tokensMove k := hk ▸ Hart.tokensMove_submitToks _ _ _ _ _
  have kr (r : BitVec 5) : k.reg r = t.hart.reg r := Hart.reg_of_regs (by rw [m]) r
  have hu : (z.framed s).hart = (k.setReg z.d word).past z.e := by rw [e, State.hart_setHart]
  refine ⟨⟨by rw [e]; rfl, by rw [e]; rfl, by rw [e]; rfl, by rw [e]; rfl, fun j n => ?_, ?_, fun q n => ?_, ?_⟩, ?_⟩
  · rw [e]; exact State.hartAt_setHart_other t _ (cur ▸ n)
  · rw [hu, Hart.reg_past, Hart.reg_setReg_self]
  · rw [hu, Hart.reg_past, Hart.reg_setReg_other _ _ n, kr]
  · rw [hu]
    subst hk
    exact Hart.past_tokensMove m z.d word z.e
  · rw [hu, Hart.past_eq]

/-- A submission that may wait and has not waited 4096 cycles waits (R52). -/
theorem Submission.framed_waits {r : Nat} (c : s.hart.canSubmit z) (w : z.w = true) (a : z.ask s = .ok (.refused r true))
    (l : ¬ 4096 ≤ (s.time - s.askedSince z.x).toNat) : z.framed s = s.waitFor (.admission z.x) := by
  rw [Submission.framed_fits c, a, w]
  simp only [decide_eq_false l, Bool.and_self, Bool.not_false, if_true]

/-- The hart that a refusal leaves before it is past its instruction: the reason is written, and a bay.take clears bayh. -/
def Submission.toldNo (z : Submission) (h : Hart) (v : Word) : Hart :=
  { h.setReg z.d v with bay := { h.bay with bayh := if z.take then 0 else h.bay.bayh } }

theorem Submission.toldNo_plain {z : Submission} (k : z.take = false) (h : Hart) (v : Word) : z.toldNo h v = h.setReg z.d v := by
  unfold Submission.toldNo
  rw [k, if_neg Bool.false_ne_true, ← Hart.setReg_bay h z.d v]

/-- A refusal that does not wait is told in the state after what was read. -/
theorem Submission.refusal_told (h : submissionOf i = some z) (w : z.w = true) (v : Word) :
    z.refusal s (s.setReg z.d v) = (z.seen s).setHart (z.toldNo (z.seen s).hart v) := by
  unfold submissionOf at h
  split at h
  case h_10 => cases h
  case h_9 => cases h; cases w
  case h_1 | h_2 => cases h; exact congrArg s.setHart (Submission.toldNo_plain rfl _ v).symm
  case h_3 | h_4 =>
    cases h
    exact (s.setHart_setHart _ _).trans (congrArg s.setHart (by rw [State.hart_setReg, Hart.setReg_bay]; rfl))
  all_goals
    cases h
    rw [Submission.toldNo_plain rfl]
    unfold Submission.refusal Submission.seen
    simp only [State.smpSeen_setReg]
    split <;> rfl

/-- A submission that is told no leaves the reason and nothing else beside what it has read (R52). -/
theorem Submission.told_turnedAway (u : State) (r : Nat) :
    u.turnedAway (u.setHart ((z.toldNo u.hart (refuse r)).past z.e)) z r := by
  have hu : (u.setHart ((z.toldNo u.hart (refuse r)).past z.e)).hart = (z.toldNo u.hart (refuse r)).past z.e := u.hart_setHart _
  have rg (q : BitVec 5) : ((z.toldNo u.hart (refuse r)).past z.e).reg q = (u.hart.setReg z.d (refuse r)).reg q :=
    (Hart.reg_past _ _ q).trans (Hart.reg_of_regs rfl q)
  refine ⟨⟨rfl, rfl, rfl, rfl, rfl, rfl, rfl, rfl, fun j n => u.hartAt_setHart_other _ n⟩, rfl, rfl, ?_, fun q n => ?_, ?_⟩
  · rw [hu, rg, Hart.reg_setReg_self]; rfl
  · rw [hu, rg, Hart.reg_setReg_other _ _ n]
  · rw [hu, Hart.past_eq]
    unfold Submission.toldNo
    rw [Hart.setReg_withRegs]

/-- A refusal that does not wait, or has waited 4096 cycles (R52). -/
theorem Submission.framed_refused {r : Nat} {waits : Bool} (h : submissionOf i = some z) (w : z.w = true) (c : s.hart.canSubmit z)
    (a : z.ask s = .ok (.refused r waits)) (l : waits = true → 4096 ≤ (s.time - s.askedSince z.x).toNat) :
    (z.seen s).turnedAway (z.framed s) z (if waits then 8 else r) ∧ (z.framed s).hart.wait = none := by
  have e : z.framed s = (z.seen s).setHart ((z.toldNo (z.seen s).hart (refuse (if waits then 8 else r))).past z.e) := by
    have k : (waits && !decide (4096 ≤ (s.time - s.askedSince z.x).toNat)) = false := by
      cases waits
      · rfl
      · simp only [decide_eq_true (l rfl), Bool.not_true, Bool.and_false]
    rw [Submission.framed_fits c, a]
    simp only [k, Bool.false_eq_true, if_false, Submission.refusal_told h w, w, Bool.true_and, State.hart_setHart, State.setHart_setHart]
  rw [e]
  refine ⟨Submission.told_turnedAway _ _, ?_⟩
  rw [State.hart_setHart, Hart.past_eq]
end
end Sys2Proof.Machine
end

section
namespace Sys2Proof.Machine

/-! ### Ends of waits for admission (R52) -/

/-- Where the first answer is not the one given, the second is. -/
theorem of_ite_ne {α : Type} {c : Prop} [Decidable c] {x y r : α} (h : (if c then x else y) = r) (n : x ≠ r) : y = r :=
  (ite_eq_iff.mp h).elim (fun k => absurd k.2 n) (fun k => k.2)

/-- The admission of a copy is the acting hart's. -/
theorem State.copyAdmit_cur {s t : State} {i : Instr} {w xpd : Bool} {ssp dsp : Space} {a b word : Word} {shape : Shape}
    (h : s.copyAdmit i w xpd ssp dsp a b shape = .ok (.accepted t word)) : t.cur = s.cur := by
  unfold State.copyAdmit trapAt at h
  have shapeOk := of_ite_ne h nofun
  have squareOk := of_ite_ne shapeOk nofun
  have common := of_ite_ne squareOk nofun
  have room := of_ite_ne common nofun
  cases of_ite_ne room nofun
  rfl

theorem State.takeAdmit_cur {s t : State} {neg w : Bool} {x ent word : Word}
    (h : s.takeAdmit neg w x ent = .ok (.accepted t word)) : t.cur = s.cur := by
  unfold State.takeAdmit trapAt at h
  have outside := of_ite_ne h nofun
  have wellFormed := of_ite_ne outside nofun
  have common := of_ite_ne wellFormed nofun
  simp only [] at common
  split at common
  · cases common
  · have posts := of_ite_ne common nofun
    cases of_ite_ne posts nofun
    rfl

/-- What the admission of sampler work is answered with comes after what it reads, or has read already (R339, R341). -/
theorem State.smpAdmit_read {s : State} {op : Nat} {w : Bool} {a b : Word} {x : Adm} (h : s.smpAdmit op w a b = .ok x) :
    s.hart.smpRaw.isSome = true ∨ ∃ t r, s.smpRead op a = .ok (t, r) := by
  unfold State.smpAdmit at h
  simp only [] at h
  split at h
  · cases h
  next t r e =>
  split at e
  next y k => exact .inl (by rw [k]; rfl)
  · exact .inr ⟨t, r, e⟩

theorem State.smpAdmit_cur {s t : State} {op : Nat} {w : Bool} {a b word : Word}
    (h : s.smpAdmit op w a b = .ok (.accepted t word)) : t.cur = s.cur := by
  unfold State.smpAdmit at h
  simp only [] at h
  split at h
  · cases h
  next s1 x e =>
  have r : s1.cur = s.cur := by
    split at e
    · cases e; rfl
    · exact State.reaches_cur (State.reaches_smpRead e)
  have common := of_ite_ne h nofun
  have near := of_ite_ne common nofun
  have wellFormed := of_ite_ne near nofun
  have inWindow := of_ite_ne wellFormed nofun
  have queueRoom := of_ite_ne inWindow nofun
  cases of_ite_ne queueRoom nofun
  rw [← r]
  split <;> rfl

section
variable {i : Instr} {z : Submission} {s : State}

/-- The state of an accepted submission that may wait has the same hart acting. -/
theorem Submission.accepted_cur {t : State} {word : Word} (h : submissionOf i = some z) (w : z.w = true)
    (a : z.ask s = .ok (.accepted t word)) : t.cur = s.cur := by
  unfold submissionOf at h
  split at h
  case h_10 => cases h
  case h_9 => cases h; cases w
  case h_1 => cases h; exact State.copyAdmit_cur a
  case h_2 => cases h; dsimp only at a; exact State.copyAdmit_cur a
  case h_3 | h_4 => cases h; exact State.takeAdmit_cur a
  all_goals
    cases h
    exact State.smpAdmit_cur a

/-- A hart that waits for an admission, tried again, waits on. -/
theorem State.waitFor_again {y : Waiting} {x : Submit} (e : s.hart.wait = some y) (k : y.kind = .admission x) :
    s.waitFor (.admission x) = s.setHart { s.hart with tested := s.time, wait := some y } := by
  unfold State.waitFor Wait.holds
  simp only [Bool.false_eq_true, if_false, e, k, if_true]

/-- Sampler work that waits for its admission again keeps the wait it is in, with what it has read (R339, R341). -/
theorem Submission.smp_keeps_waiting {y : Waiting} {op : Nat} {d a b : BitVec 5} {fl : BitVec 3} (x : z.x = .smp op d a b fl)
    (e : s.hart.wait = some y) (k : y.kind = .admission z.x)
    (read : s.hart.smpRaw.isSome = true ∨ ∃ t r, s.smpRead op (s.reg a) = .ok (t, r)) :
    ∃ raw, z.keeps s (s.setHart { s.hart with tested := s.time, wait := some y }) =
        (z.seen s).setHart { s.hart with tested := s.time, wait := some { y with raw := raw } } ∧
      (y.raw.isSome = true → raw = y.raw) := by
  have raw : s.hart.smpRaw = y.raw := by unfold Hart.smpRaw; rw [e]
  have rawNow : { s.hart with tested := s.time, wait := some y }.smpRaw = y.raw := rfl
  unfold Submission.keeps Submission.seen State.smpSeen
  simp only [x, State.hart_setHart, raw, rawNow]
  obtain ⟨kind, since, _ | r⟩ := y
  case some => exact ⟨some r, rfl, fun _ => rfl⟩
  case none =>
    obtain ⟨t, r, e2⟩ := read.resolve_left (by rw [raw]; exact Bool.false_ne_true)
    refine ⟨some r, ?_, fun n => absurd n Bool.false_ne_true⟩
    have k : kind = .admission (.smp op d a b fl) := k.trans (congrArg _ x)
    simp only [e2, k, if_true, Option.isSome_none, Bool.false_eq_true, if_false]

/-- A submission that waits for its admission again keeps the wait it is in (R52). -/
theorem Submission.keeps_waiting {y : Waiting} {r : Adm} (h : submissionOf i = some z) (w : z.w = true) (e : s.hart.wait = some y)
    (k : y.kind = .admission z.x) (a : z.ask s = .ok r) :
    ∃ raw, z.keeps s (s.waitFor (.admission z.x)) =
        (z.seen s).setHart { s.hart with tested := s.time, wait := some { y with raw := raw } } ∧
      (y.raw.isSome = true → raw = y.raw) := by
  rw [State.waitFor_again e k]
  unfold submissionOf at h
  split at h
  case h_10 => cases h
  case h_9 => cases h; cases w
  case h_1 | h_2 | h_3 | h_4 => cases h; exact ⟨y.raw, rfl, fun _ => rfl⟩
  all_goals
    cases h
    exact Submission.smp_keeps_waiting rfl e k (State.smpAdmit_read a)
end
end Sys2Proof.Machine
end

section
namespace Sys2Proof.Machine

/-! ### A trap outside a surrender routine (R127 to R129) -/

theorem Hart.with_wait {h : Hart} {w : Option Waiting} (e : h.wait = w) : { h with wait := w } = h := by subst e; rfl
theorem Hart.with_pfx {h : Hart} {p : Option (BitVec 32 × Bool)} (e : h.pfx = p) : { h with pfx := p } = h := by subst e; rfl

/-- Off its wait, a hart's reserved pushes are all that differs. -/
theorem Hart.unpark_eq (h : Hart) : h.unpark = { h with wait := none, tokres := h.unpark.tokres } := by
  unfold Hart.unpark Hart.unreserve Hart.unreserveTok
  split
  next e => exact (Hart.with_wait e).symm
  next w e =>
    simp only []
    split
    · split <;> rfl
    · rfl
/-- What a trap or a pre-emption finds of a `pfx` pair is in the registers that keep it alone. -/
theorem Hart.savePfx_eq (h : Hart) : h.savePfx = { h with
    pfx := none, pfxOld := h.savePfx.pfxOld, pfxPc := h.pc, pfxsave := h.savePfx.pfxsave } := by
  unfold Hart.savePfx
  split
  · rfl
  next e =>
    exact congrArg (fun k : Hart => { k with pfxPc := h.pc, pfxsave := { h.pfxsave with pend := false, popd := false } })
      (Hart.with_pfx e).symm

section
variable {s : State} {x : Nat} {t : Trap} {site : TrapSite} {post : Bool}

/-- A hart with no surrender routine and no open bay is suspended, and nothing else differs (R127, R129). -/
theorem State.beginSuspend_plain (surr : (s.hartAt x).surr = none) (bay : (s.hartAt x).bay.isOpen = false) :
    ∃ k : Hart, s.beginSuspend x t site post = s.setHartAt x k ∧
      k = { (s.hartAt x).unpark.savePfx with run := .suspending, wait := none, post := post, preempt := false, hdr := k.hdr } ∧
      k.hdr.cause = t.cause ∧ k.hdr.engine = site.engine ∧ k.hdr.ipc = site.ipc ∧ k.hdr.word = site.word ∧
      k.hdr.rpc = (s.hartAt x).pc := by
  have u := (s.hartAt x).unpark_eq
  have surr' : (s.hartAt x).unpark.surr = none := by rw [u, surr]
  have bay' : (s.hartAt x).unpark.bay.isOpen = false := by rw [u, bay]
  have pc : (s.hartAt x).unpark.savePfx.pc = (s.hartAt x).pc := by rw [Hart.savePfx_eq, u]
  unfold State.beginSuspend
  simp only [State.hartAt_setHartAt, surr', bay', Option.isSome_none, Bool.false_eq_true, if_false, State.setHartAt_setHartAt]
  exact ⟨_, rfl, rfl, rfl, rfl, rfl, rfl, pc⟩

/-- A trap other than of a soft error is such a suspension, with a record. -/
theorem State.takeTrap_plain (c : t.cause ≠ 0x52) : s.takeTrap x t site = s.beginSuspend x t site true :=
  congrArg (fun u : State => u.beginSuspend x t site true) (if_neg c)
end
end Sys2Proof.Machine
end

section
namespace Sys2Proof.Machine

/-! ### Dispatch waits end (O54) -/

theorem Hart.count_eq (h : Hart) (n : Nat) : h.count n = { h with bay := { h.bay with ucnt := (h.count n).bay.ucnt } } := by
  unfold Hart.count; split <;> rfl

/-- The major opcode of a word. -/
theorem bits_opcode (w : BitVec 32) : bits w.toNat 26 6 = w.toNat / 2 ^ 26 := by
  have := w.isLt
  unfold bits
  omega

section
variable {s : State} {x : Nat} {w : Waiting} {hid : BitVec 11}

/-- A hart that stands at no `pfx` word is where its instruction is. -/
theorem State.pastPfx_here (n : ¬ ((s.peekWord x).toNat / 2 ^ 26 = 0x10 ∧ (s.hartAt x).pfx = none)) : s.pastPfx x = s := by
  unfold State.pastPfx
  refine if_neg fun c => n ?_
  rw [Bool.and_eq_true, decide_eq_true_eq, bits_opcode, Option.isNone_iff_eq_none] at c
  exact c
/-- A hart that stands at a `pfx` word is moved past it, and has its `pfx` live. -/
theorem State.pastPfx_moves (a : (s.peekWord x).toNat / 2 ^ 26 = 0x10 ∧ (s.hartAt x).pfx = none) :
    s.pastPfx x = s.setHartAt x { (s.hartAt x).count 1 with
      pc := ((s.hartAt x).pc + 4) &&& pcMask, pfx := some (s.peekWord x, false), pfxOld := false } := by
  unfold State.pastPfx
  refine if_pos ?_
  rw [Bool.and_eq_true, decide_eq_true_eq, bits_opcode, Option.isNone_iff_eq_none]
  exact a
/-- What the move past a `pfx` word changes of the hart. -/
theorem State.pastPfx_hart : (s.pastPfx x).hartAt x = { s.hartAt x with
    pc := ((s.pastPfx x).hartAt x).pc, pfx := ((s.pastPfx x).hartAt x).pfx, pfxOld := ((s.pastPfx x).hartAt x).pfxOld
    bay := { (s.hartAt x).bay with ucnt := ((s.pastPfx x).hartAt x).bay.ucnt } } := by
  by_cases a : (s.peekWord x).toNat / 2 ^ 26 = 0x10 ∧ (s.hartAt x).pfx = none
  · rw [State.pastPfx_moves a, State.hartAt_setHartAt, Hart.count_eq]
  · rw [State.pastPfx_here a]
@[simp] theorem State.pastPfx_mem : (s.pastPfx x).mem = s.mem := by
  by_cases a : (s.peekWord x).toNat / 2 ^ 26 = 0x10 ∧ (s.hartAt x).pfx = none
  · rw [State.pastPfx_moves a]; rfl
  · rw [State.pastPfx_here a]

theorem State.waitOf_running (run : (s.hartAt x).run = .running) : s.waitOf x = (s.hartAt x).wait :=
  if_pos (by rw [run]; rfl)

/-- A token wait that nothing can end (R37). -/
theorem Hart.hopeless_of {h : Hart} {k : Wait} {id : Nat}
    (c : (k = .pop id ∧ h.tokens id = 0 ∧ h.reserved id = 0) ∨ (k = .push id ∧ 8 ≤ h.tokens id) ∨
      (∃ n, k = .pops id n ∧ h.tokens id + h.reserved id < n) ∨ (∃ n, k = .pushes id n ∧ 8 < h.tokens id + n)) :
    h.hopeless k = true := by
  obtain ⟨rfl, a, b⟩ | ⟨rfl, a⟩ | ⟨n, rfl, a⟩ | ⟨n, rfl, a⟩ := c
  · show (h.tokens id == 0 && h.reserved id == 0) = true
    rw [a, b]; rfl
  · exact decide_eq_true a
  · exact decide_eq_true a
  · exact decide_eq_true a

/-- A hopeless wait of 4096 cycles suspends the hart at the instruction it waits in, behind its `pfx` word (R37). -/
theorem State.tokenDeadlock_suspends (run : (s.hartAt hid.toNat).run = .running) (wait : (s.hartAt hid.toNat).wait = some w)
    (hope : (s.hartAt hid.toNat).hopeless w.kind = true) (long : 4096 ≤ (s.time - w.since).toNat)
    (surr : (s.hartAt hid.toNat).surr = none) (bay : (s.hartAt hid.toNat).bay.isOpen = false) :
    let t := s.pastPfx hid.toNat
    let h := t.hartAt hid.toNat
    ∃ k : Hart, exec (.tokenDeadlock hid) s = .next (t.setHartAt hid.toNat k) ∧
      k = { h.unpark.savePfx with run := .suspending, wait := none, post := true, preempt := false, hdr := k.hdr } ∧
      k.hdr.cause = 0x0E ∧ k.hdr.ipc = h.pc ∧ k.hdr.word = t.peekWord hid.toNat ∧ k.hdr.rpc = h.pc := by
  intro t h
  have surr' : h.surr = none := (congrArg Hart.surr State.pastPfx_hart).trans surr
  have bay' : h.bay.isOpen = false := (congrArg (fun k => k.bay.isOpen) State.pastPfx_hart).trans bay
  obtain ⟨k, e, hk, cause, -, ipc, word, rpc⟩ := State.beginSuspend_plain (t := ⟨0x0E, 0⟩) (post := true)
    (site := { engine := unitOf (t.peekWord hid.toNat), ipc := h.pc, word := t.peekWord hid.toNat }) surr' bay'
  refine ⟨k, ?_, hk, cause, ipc, word, rpc⟩
  show execTokenDeadlock hid s = _
  unfold execTokenDeadlock
  rw [State.waitOf_running run, wait]
  simp only [hope, decide_eq_true long, Bool.and_self, if_true]
  rw [State.takeTrap_plain (by decide)]
  exact congrArg _ e

/-- The acting hart's machine while a waiting submission is tried again (R52). -/
def State.actingAs (s : State) (x : Nat) : State := { s with cur := x, ir := s.peekWord x }

theorem exec_waitedAdmission {a : Submit} (run : (s.hartAt hid.toNat).run = .running) (wait : (s.hartAt hid.toNat).wait = some w)
    (k : w.kind = .admission a) :
    exec (.waitedAdmission hid) s = .next { (s.actingAs hid.toNat).submit a with cur := s.cur, ir := s.ir } := by
  show execWaitedAdmission hid s = _
  unfold execWaitedAdmission
  rw [State.waitOf_running run, wait]
  simp only [k]
  rfl

/-- Where a submission's accept word goes. -/
theorem Submission.dest_eq {i : Instr} {z : Submission} (h : submissionOf i = some z) : z.x.dest = (z.d, z.e, z.take) := by
  unfold submissionOf at h
  split at h
  case h_10 => cases h
  all_goals
    cases h
    rfl

/-- A hart past its instruction with a register written goes on (R35). -/
theorem State.wakes_past {u : State} {k : Hart} (d : BitVec 5) (v : Word) (e : Eng) (r : s.reaches u)
    (run : k.run = .running) (pc : k.pc = (s.hartAt x).pc) (regs : k.regs = (s.hartAt x).regs) :
    s.wakes (u.setHartAt x ((k.setReg d v).past e)) x d v := by
  have pc' : (k.setReg d v).pc = (s.hartAt x).pc := by rw [Hart.setReg_withRegs]; exact pc
  have run' : (k.setReg d v).run = .running := by rw [Hart.setReg_withRegs]; exact run
  unfold State.wakes
  simp only [State.hartAt_setHartAt, Hart.reg_past, Hart.reg_setReg_self]
  refine ⟨by rw [Hart.past_eq], by rw [Hart.past_eq], by rw [Hart.past_eq, pc'], trivial, fun q n => ?_, by rw [Hart.past_eq, run'],
    fun j n => ?_⟩
  · rw [Hart.reg_setReg_other _ _ n]; exact Hart.reg_of_regs regs q
  · rw [State.hartAt_setHartAt_other _ _ n, State.reaches_hartAt r]

/-- A wait for admission of 4096 cycles refuses with reason 0x08 (R52). -/
theorem admissionWaitTimeout_refuses {i : Instr} {z : Submission} (h : submissionOf i = some z)
    (run : (s.hartAt hid.toNat).run = .running) (wait : (s.hartAt hid.toNat).wait = some w)
    (k : w.kind = .admission z.x) (long : 4096 ≤ (s.time - w.since).toNat) :
    exec (.admissionWaitTimeout hid) s = .next (s.setHartAt hid.toNat ((z.toldNo (s.hartAt hid.toNat) (refuse 8)).past z.e)) := by
  show execAdmissionWaitTimeout hid s = _
  unfold execAdmissionWaitTimeout
  simp only [State.waitOf_running run, wait, k, Submission.dest_eq h, if_pos long]
  unfold Submission.toldNo
  rw [Hart.setReg_bay]
  cases z.take
  · exact congrArg (fun y : Hart => Host.Outcome.next (s.setHartAt hid.toNat (y.past z.e)))
      (by rw [Hart.setReg_withRegs]; rfl)
  · rfl

/-- A wtime goes on once its time has come (R111). -/
theorem wtimeWake_wakes {tg : Word} {d : BitVec 5} (run : (s.hartAt hid.toNat).run = .running)
    (wait : (s.hartAt hid.toNat).wait = some w) (k : w.kind = .wtime tg d) (due : tg ≤ s.time) :
    exec (.wtimeWake hid) s = .next (s.setHartAt hid.toNat
      ((((s.hartAt hid.toNat).deposit (pushOf (s.hartAt hid.toNat).pfx)).setReg d s.time).past .s)) := by
  show execWtimeWake hid s = _
  unfold execWtimeWake
  simp only [State.waitOf_running run, wait, k, ← Hart.setReg_deposit, if_pos due]
  rfl

/-- A qwait goes on once its watch word has come to its target (R154). -/
theorem qwaitWake_wakes {q : BitVec 4} {tg v : Word} {d : BitVec 5} {u : State} (run : (s.hartAt hid.toNat).run = .running)
    (wait : (s.hartAt hid.toNat).wait = some w) (k : w.kind = .qwait q tg d)
    (read : s.watchValue hid.toNat ((s.hartAt hid.toNat).latestWatch q) = .ok (u, v)) (met : tg ≤ v) :
    exec (.qwaitWake hid) s = .next (u.setHartAt hid.toNat
      ((((s.hartAt hid.toNat).deposit (pushOf (s.hartAt hid.toNat).pfx)).setReg d v).past .s)) := by
  show execQwaitWake hid s = _
  unfold execQwaitWake
  simp only [State.waitOf_running run, wait, k, ← Hart.setReg_deposit, read, if_pos met,
    State.reaches_hartAt (State.reaches_watchValue read)]
  rfl

/-- A deposit moves tokens alone. -/
theorem State.wakes_deposit {u : State} (d : BitVec 5) (v : Word) (p : Nat) (r : s.reaches u) (run : (s.hartAt x).run = .running) :
    s.wakes (u.setHartAt x ((((s.hartAt x).deposit p).setReg d v).past .s)) x d v := by
  have m := (s.hartAt x).tokensMove_deposit p
  exact State.wakes_past d v .s r (by rw [m, run]) (by rw [m]) (by rw [m])

/-- A submission told no goes on with the reason. -/
theorem State.wakes_toldNo (z : Submission) (v : Word) (run : (s.hartAt x).run = .running) :
    s.wakes (s.setHartAt x ((z.toldNo (s.hartAt x) v).past z.e)) x z.d v := by
  have e : z.toldNo (s.hartAt x) v =
      { s.hartAt x with bay := { (s.hartAt x).bay with bayh := if z.take then 0 else (s.hartAt x).bay.bayh } }.setReg z.d v := by
    unfold Submission.toldNo
    rw [Hart.setReg_withRegs, Hart.setReg_withRegs]
  rw [e]
  exact State.wakes_past z.d v z.e s.reaches_refl run rfl rfl

end
end Sys2Proof.Machine
end

section
namespace Sys2Proof.Machine

section
variable {s : State} {x : Nat} {w : Waiting} {hid : BitVec 11} {i : Instr} {z : Submission}

/-- Of a hart tried again, the wait began when it says. -/
theorem State.askedSince_acting {a : Submit} (wait : (s.hartAt x).wait = some w) (k : w.kind = .admission a) :
    (s.actingAs x).askedSince a = w.since := by
  unfold State.askedSince
  have e : (s.actingAs x).hart.wait = some w := wait
  rw [e]
  exact if_pos k

section
variable (h : submissionOf i = some z) (wz : z.w = true) (c : (s.actingAs x).hart.canSubmit z)
include h wz c

theorem Submission.again_accepted {t : State} {word : Word} (a : z.ask (s.actingAs x) = .ok (.accepted t word)) :
    (s.actingAs x).taken t ((s.actingAs x).submit z.x) z word := by
  obtain ⟨taken, done⟩ := Submission.framed_accepted c a (Submission.accepted_cur h wz a)
  rw [Submission.submit_eq h wz, Submission.keeps_done z _ done]
  exact taken

theorem Submission.again_refused {r : Nat} {waits : Bool} (wait : (s.hartAt x).wait = some w) (k : w.kind = .admission z.x)
    (a : z.ask (s.actingAs x) = .ok (.refused r waits)) (l : waits = true → 4096 ≤ (s.time - w.since).toNat) :
    (z.seen (s.actingAs x)).turnedAway ((s.actingAs x).submit z.x) z (if waits then 8 else r) := by
  obtain ⟨told, done⟩ := Submission.framed_refused h wz c a (by rw [State.askedSince_acting wait k]; exact l)
  rw [Submission.submit_eq h wz, Submission.keeps_done z _ done]
  exact told

theorem Submission.again_waits {r : Nat} (wait : (s.hartAt x).wait = some w) (k : w.kind = .admission z.x)
    (a : z.ask (s.actingAs x) = .ok (.refused r true)) (l : ¬ 4096 ≤ (s.time - w.since).toNat) :
    let u := (s.actingAs x).submit z.x
    let v := z.seen (s.actingAs x)
    u.hart = { s.hartAt x with tested := s.time, wait := some { w with raw := u.hart.smpRaw } } ∧
      (w.raw.isSome = true → u.hart.smpRaw = w.raw) ∧ v.sameBut u ∧ u.mem = v.mem ∧ u.dev = v.dev := by
  intro u v
  have stays := Submission.framed_waits c wz a (by rw [State.askedSince_acting wait k]; exact l)
  obtain ⟨raw, e, kept⟩ := Submission.keeps_waiting h wz (s := s.actingAs x) wait k a
  have e : u = v.setHart { s.hartAt x with tested := s.time, wait := some { w with raw := raw } } :=
    (Submission.submit_eq h wz _).trans ((congrArg _ stays).trans e)
  have hu : u.hart = { s.hartAt x with tested := s.time, wait := some { w with raw := raw } } := by rw [e, State.hart_setHart]
  have hraw : u.hart.smpRaw = raw := by rw [hu]; rfl
  refine ⟨by rw [hraw, hu], fun n => hraw.trans (kept n), ?_, by rw [e]; rfl, by rw [e]; rfl⟩
  rw [e]
  exact ⟨rfl, rfl, rfl, rfl, rfl, rfl, rfl, rfl, fun j n => v.hartAt_setHart_other _ n⟩

end

/-- A live `pfx` is saved (R61). -/
theorem Hart.savePfx_live {h : Hart} {p : BitVec 32} {popd : Bool} (e : h.pfx = some (p, popd)) :
    h.savePfx.pfxsave = { pend := true, popd := popd, word := p } := by
  unfold Hart.savePfx; rw [e]

/-- What the trap of a token wait that nothing can end leaves (R37). -/
theorem State.tokenDeadlock_record (run : (s.hartAt hid.toNat).run = .running) (wait : (s.hartAt hid.toNat).wait = some w)
    (hope : (s.hartAt hid.toNat).hopeless w.kind = true) (long : 4096 ≤ (s.time - w.since).toNat)
    (surr : (s.hartAt hid.toNat).surr = none) (bay : (s.hartAt hid.toNat).bay.isOpen = false) :
    let x := hid.toNat
    let h := s.hartAt x
    let word := s.peekWord x
    let atPfx := word.toNat / 2 ^ 26 = 0x10 ∧ h.pfx = none
    ∃ t, exec (.tokenDeadlock hid) s = .next t ∧ t.mem = s.mem ∧ let k := t.hartAt x
      k.run = .suspending ∧ k.hdr.cause = 0x0E ∧ k.post = true ∧
      (¬ atPfx → k.hdr.ipc = h.pc ∧ k.hdr.word = word) ∧
      (atPfx → k.hdr.ipc = (h.pc + 4) &&& pcMask ∧ k.hdr.word = (s.pastPfx x).peekWord x) ∧
      k.regs = h.regs ∧ k.hdr.rpc = k.hdr.ipc ∧ k.vq = h.vq ∧ k.mq = h.mq ∧ k.cq = h.cq ∧ k.ss = h.ss ∧
      (atPfx → k.pfxsave = { pend := true, popd := false, word := word }) := by
  intro x h word atPfx
  obtain ⟨k, e, hk, cause, ipc, kword, rpc⟩ := State.tokenDeadlock_suspends run wait hope long surr bay
  have moved := s.pastPfx_hart (x := x)
  have kept : k = { h with
      run := .suspending, pc := k.pc, tokres := k.tokres, pfxsave := k.pfxsave, pfx := k.pfx, pfxOld := k.pfxOld, pfxPc := k.pfxPc
      wait := k.wait, bay := k.bay, hdr := k.hdr, post := true, preempt := k.preempt } := by
    rw [hk, Hart.savePfx_eq, Hart.unpark_eq, moved]
  have saved : k.pfxsave = ((s.pastPfx x).hartAt x).unpark.savePfx.pfxsave := by rw [hk]
  refine ⟨_, e, State.pastPfx_mem, ?_⟩
  rw [State.hartAt_setHartAt]
  refine ⟨congrArg Hart.run kept, cause, congrArg Hart.post kept, fun n => ?_, fun a => ?_, by rw [kept], rpc.trans ipc.symm,
    by rw [kept], by rw [kept], by rw [kept], by rw [kept], fun a => ?_⟩
  · rw [State.pastPfx_here n] at ipc kword
    exact ⟨ipc, kword⟩
  · refine ⟨ipc.trans ?_, kword⟩
    rw [State.pastPfx_moves a, State.hartAt_setHartAt]
  · rw [saved]
    refine Hart.savePfx_live ?_
    rw [Hart.unpark_eq, State.pastPfx_moves a, State.hartAt_setHartAt]

end
/-- Settles O54, wait by wait: a token wait by the suspension it ends in, a submission tried again by the frame of its
instruction, and the rest by the register they write. -/
theorem waitsEnd : Obligations.WaitsEnd := by
  intro s hid w x h long run wait
  refine ⟨fun id c l surr bay => State.tokenDeadlock_record run wait (Hart.hopeless_of c) l surr bay,
    ?_, fun i z hz k l => ?_, fun tg d k due => ?_, fun q tg d u v k read met => ?_⟩
  · intro i z hz wz k y ends c
    have again (f : State → Prop) (p : f ((s.actingAs x).submit z.x)) : ends f := ⟨_, exec_waitedAdmission run wait k, p⟩
    refine ⟨fun t word a => again _ (Submission.again_accepted hz wz c a), fun r a => again _ ?_, fun r a l => again _ ?_,
      fun r a l => again _ (Submission.again_waits hz wz c wait k a l)⟩
    · exact Submission.again_refused hz wz c wait k a (fun n => nomatch n)
    · exact Submission.again_refused hz wz c wait k a (fun _ => l)
  · refine ⟨_, admissionWaitTimeout_refuses hz run wait k l, State.wakes_toldNo z (refuse 8) run, ?_, rfl, fun take => ?_⟩
    · rw [State.hartAt_setHartAt, Hart.past_eq]; unfold Submission.toldNo; rw [Hart.setReg_withRegs]
    · rw [State.hartAt_setHartAt, Hart.past_eq]; exact if_pos take
  · exact ⟨_, wtimeWake_wakes run wait k due, State.wakes_deposit d s.time _ s.reaches_refl run, rfl⟩
  · exact ⟨_, qwaitWake_wakes run wait k read met, State.wakes_deposit d v _ (State.reaches_watchValue read) run, rfl⟩

end Sys2Proof.Machine
end

section
namespace Sys2Proof.Machine

/-! ### The head of a queue (O55) -/

section
variable {s : State} {x : Nat} {en : Entry} {rest : List Entry} {hid : BitVec 11}

@[simp] theorem Hart.queue_v (h : Hart) : h.queue .v = h.vq := rfl
@[simp] theorem Hart.queue_m (h : Hart) : h.queue .m = h.mq := rfl
theorem Hart.setHead_v {h : Hart} (q : h.vq = en :: rest) (e : Entry) : h.setHead .v e = { h with vq := e :: rest } := by
  unfold Hart.setHead
  rw [Hart.queue_v, q]
  rfl
theorem Hart.setHead_m {h : Hart} (q : h.mq = en :: rest) (e : Entry) : h.setHead .m e = { h with mq := e :: rest } := by
  unfold Hart.setHead
  rw [Hart.queue_m, q]
  rfl

/-! #### Matrix instructions (R307) -/

theorem exec_matrixStart {op : MatOp} (q : (s.hartAt hid.toNat).mq = en :: rest) (ready : s.matReady hid.toNat = true)
    (o : matOpOf en.instr = some op) : exec (.matrixStart hid) s = .next (s.matRun hid.toNat op) := by
  show Host.Outcome.next (if s.matReady hid.toNat then s.matHead hid.toNat else s) = _
  rw [if_pos ready]
  unfold State.matHead
  rw [q]
  simp only [o]

/-- A matrix instruction that passes its checks and does its last row is done. -/
theorem State.matRun_ok {op : MatOp} {u : State} {fl : Flags} (q : (s.hartAt x).mq = en :: rest) (c : s.matCheck x op en = none)
    (r : op.run s x en = .ok (u, fl)) : s.matRun x op = u.matDone x op en fl := by
  unfold State.matRun
  rw [q]
  simp only [c, r]

/-- One that stops to wait keeps the rows and flags it has. -/
theorem State.matRun_wait {op : MatOp} {r : MStop} {w : Wait} (q : (s.hartAt x).mq = en :: rest) (c : s.matCheck x op en = none)
    (e : op.run s x en = .error r) (k : r.stop = .wait w) : s.matRun x op = r.s.setHartAt x ((r.s.hartAt x).setHead .m
      { en with started := true, prog := r.row, fl := en.fl ||| r.fl, tried := s.now + 1 }) := by
  unfold State.matRun
  rw [q]
  simp only [c, e, k]

/-- One that fails a check traps. -/
theorem State.matRun_stopped {op : MatOp} {c : BitVec 8} (q : (s.hartAt x).mq = en :: rest) (k : s.matCheck x op en = some c) :
    s.matRun x op = s.engineTrap x .m ⟨c, 0⟩ 0 0 := by
  unfold State.matRun
  rw [q]
  simp only [k]

/-- The checks at a matrix instruction's start never find a soft error (R307). -/
theorem State.matCheck_cause {op : MatOp} {c : BitVec 8} (k : s.matCheck x op en = some c) : c ≠ 0x52 := by
  rintro rfl
  unfold State.matCheck at k
  have inside := of_ite_ne k (by decide)
  have lanes := of_ite_ne inside (by decide)
  have good := of_ite_ne lanes (by decide)
  have groups := of_ite_ne good (by decide)
  cases of_ite_ne groups (by decide)

/-- An imprecise trap of a matrix instruction, outside a surrender routine (R127, R130). -/
theorem State.engineTrap_m {c : BitVec 8} (q : (s.hartAt x).mq = en :: rest) (k : c ≠ 0x52) (surr : (s.hartAt x).surr = none)
    (bay : (s.hartAt x).bay.isOpen = false) :
    ∃ k : Hart, s.engineTrap x .m ⟨c, 0⟩ 0 0 = s.setHartAt x k ∧ k.run = .suspending ∧ k.hdr.cause = c ∧ k.hdr.engine = 3 ∧
      k.hdr.ipc = en.pc ∧ k.hdr.word = en.word := by
  unfold State.engineTrap
  simp only [Hart.queue_m, q, Hart.setHead_m q, reduceCtorEq, if_false]
  rw [State.takeTrap_plain k]
  obtain ⟨k, e, hk, cause, engine, ipc, word, -⟩ := State.beginSuspend_plain
    (s := s.setHartAt x { s.hartAt x with mq := { en with started := true } :: rest }) (x := x) (t := ⟨c, 0⟩) (post := true)
    (site := { engine := 3, ipc := en.pc, word := en.word, estart := BitVec.ofNat 32 0, rowstart := BitVec.ofNat 32 0, imprecise := true })
    (by rw [State.hartAt_setHartAt]; exact surr) (by rw [State.hartAt_setHartAt]; exact bay)
  rw [State.setHartAt_setHartAt] at e
  exact ⟨k, e, by rw [hk], cause, engine, ipc, word⟩

/-- What has done its last row stands done at the head, with its flags. -/
theorem State.matDone_mq {op : MatOp} {fl : Flags} {e0 : Entry} (q : (s.hartAt x).mq = e0 :: rest) :
    ∃ e1, ((s.matDone x op en fl).hartAt x).mq = e1 :: rest ∧ e1.done = true ∧ e1.fl = en.fl ||| fl := by
  unfold State.matDone
  rw [State.hartAt_setHartAt, Hart.setHead_m q]
  exact ⟨_, rfl, rfl, rfl⟩

theorem matrixStart_done {op : MatOp} {u : State} {fl : Flags} (q : (s.hartAt hid.toNat).mq = en :: rest)
    (ready : s.matReady hid.toNat = true) (o : matOpOf en.instr = some op) (c : s.matCheck hid.toNat op en = none)
    (r : op.run s hid.toNat en = .ok (u, fl)) (uq : (u.hartAt hid.toNat).mq = (s.hartAt hid.toNat).mq) :
    ∃ t e1, exec (.matrixStart hid) s = .next t ∧ (t.hartAt hid.toNat).mq = e1 :: rest ∧ e1.done = true ∧ e1.fl = en.fl ||| fl ∧
      t.mem = u.mem ∧ t.coreAt (hid.toNat / 8) = u.coreAt (hid.toNat / 8) := by
  obtain ⟨e1, e, done, flags⟩ := State.matDone_mq (op := op) (en := en) (fl := fl) (uq.trans q)
  refine ⟨u.matDone hid.toNat op en fl, e1, ?_, e, done, flags, rfl, rfl⟩
  rw [exec_matrixStart q ready o, State.matRun_ok q c r]

theorem matrixStart_waits {op : MatOp} {r : MStop} {w : Wait} (q : (s.hartAt hid.toNat).mq = en :: rest)
    (ready : s.matReady hid.toNat = true) (o : matOpOf en.instr = some op) (c : s.matCheck hid.toNat op en = none)
    (e : op.run s hid.toNat en = .error r) (k : r.stop = .wait w) (uq : (r.s.hartAt hid.toNat).mq = (s.hartAt hid.toNat).mq) :
    ∃ t e1, exec (.matrixStart hid) s = .next t ∧ (t.hartAt hid.toNat).mq = e1 :: rest ∧ e1.started = true ∧ e1.done = en.done ∧
      e1.prog = r.row ∧ e1.fl = en.fl ||| r.fl ∧ t.mem = r.s.mem ∧ t.coreAt (hid.toNat / 8) = r.s.coreAt (hid.toNat / 8) := by
  refine ⟨_, { en with started := true, prog := r.row, fl := en.fl ||| r.fl, tried := s.now + 1 },
    (exec_matrixStart q ready o).trans (congrArg _ (State.matRun_wait q c e k)), ?_, rfl, rfl, rfl, rfl, rfl, rfl⟩
  rw [State.hartAt_setHartAt, Hart.setHead_m (uq.trans q)]

theorem matrixStart_traps {op : MatOp} {c : BitVec 8} (q : (s.hartAt hid.toNat).mq = en :: rest)
    (ready : s.matReady hid.toNat = true) (o : matOpOf en.instr = some op) (k : s.matCheck hid.toNat op en = some c)
    (surr : (s.hartAt hid.toNat).surr = none) (bay : (s.hartAt hid.toNat).bay.isOpen = false) :
    ∃ t, exec (.matrixStart hid) s = .next t ∧ t.mem = s.mem ∧ t.coreAt (hid.toNat / 8) = s.coreAt (hid.toNat / 8) ∧
      let k := t.hartAt hid.toNat
      k.run = .suspending ∧ k.hdr.cause = c ∧ k.hdr.engine = 3 ∧ k.hdr.ipc = en.pc ∧ k.hdr.word = en.word := by
  obtain ⟨g, e, run, cause, engine, ipc, word⟩ := State.engineTrap_m q (State.matCheck_cause k) surr bay
  refine ⟨s.setHartAt hid.toNat g, ?_, rfl, rfl, ?_⟩
  · rw [exec_matrixStart q ready o, State.matRun_stopped q k, e]
  · rw [State.hartAt_setHartAt]
    exact ⟨run, cause, engine, ipc, word⟩

end
end Sys2Proof.Machine
end

section
namespace Sys2Proof.Machine

/-! #### Retirement (R35, R43, R71) -/

/-- The scalar result that an entry that retires writes. -/
def Hart.takeResult (h : Hart) (en : Entry) : Hart :=
  match en.res with | some (r, v) => h.setLate en.surr r v | none => h
/-- The cursor it writes. -/
def Hart.takeCursor (h : Hart) (en : Entry) : Hart :=
  match en.newCur with | some (q, v) => h.setCursor en q v | none => h
/-- The push it deposits. -/
def Hart.takePush (h : Hart) (en : Entry) : Hart :=
  match en.pfx with | some w => if pfxPush w = 0 then h else h.depositTok (pfxPush w) | none => h
/-- What a retirement clears of the vector state (R212). -/
def Hart.clearStart (h : Hart) (b : Bool) : Hart :=
  if b then { h with vec := { h.vec with estart := 0, rowstart := 0 } } else h

/-- Of a hart only what an entry that retires may change beside its registers differs. -/
def Hart.lateMove (h k : Hart) : Prop :=
  k = { h with ss := k.ss, surr := k.surr, q := k.q, tok := k.tok, tokres := k.tokres }

theorem Hart.lateMove_keeps {h k : Hart} (m : h.lateMove k) :
    k.fflags = h.fflags ∧ k.regs = h.regs ∧ k.vec = h.vec ∧ k.vq = h.vq ∧ k.mq = h.mq := by
  unfold Hart.lateMove at m
  refine ⟨?_, ?_, ?_, ?_, ?_⟩ <;> rw [m]
theorem Hart.clearStart_keeps (h : Hart) (b : Bool) : (h.clearStart b).fflags = h.fflags ∧ (h.clearStart b).regs = h.regs ∧
    (h.clearStart b).vq = h.vq ∧ (h.clearStart b).mq = h.mq := by
  cases b <;> exact ⟨rfl, rfl, rfl, rfl⟩

theorem Hart.takeResult_keeps (h : Hart) (en : Entry) : (h.takeResult en).fflags = h.fflags ∧ (h.takeResult en).vec = h.vec ∧
    (h.takeResult en).vq = h.vq ∧ (h.takeResult en).mq = h.mq := by
  unfold Hart.takeResult Hart.setLate
  split
  · rw [Hart.setReg_withRegs]
    exact ⟨rfl, rfl, rfl, rfl⟩
  · exact ⟨rfl, rfl, rfl, rfl⟩
theorem Hart.takeCursor_moves (h : Hart) (en : Entry) : h.lateMove (h.takeCursor en) := by
  unfold Hart.takeCursor; split <;> rfl
theorem Hart.takePush_moves (h : Hart) (en : Entry) : h.lateMove (h.takePush en) := by
  unfold Hart.takePush
  split
  · split <;> rfl
  · rfl
theorem Hart.takeResult_reg {h : Hart} {en : Entry} {d : BitVec 5} {v : Word} (e : en.res = some (d, v)) (n : d ≠ 0) :
    (h.takeResult en).reg d = v := by
  unfold Hart.takeResult Hart.setLate
  rw [e]
  exact (Hart.reg_of_regs rfl d).trans (h.reg_setReg_same v n)
theorem Hart.takeResult_none {h : Hart} {en : Entry} (e : en.res = none) : h.takeResult en = h := by
  unfold Hart.takeResult; rw [e]

section
variable {s : State} {x : Nat} {en : Entry} {rest : List Entry} {hid : BitVec 11}

/-- What the retirement of a queue's head does, step by step. -/
theorem Hart.retireHead_steps {h : Hart} {e : Eng} (q : h.queue e = en :: rest) : h.retireHead e =
    (((((h.setQueue e rest).orFlags en.fl).takeResult en).takeCursor en).clearStart (decide (e = .v) && !en.isMove)).takePush en := by
  unfold Hart.retireHead
  rw [q]
  rfl

/-- What it leaves of the flags, the registers, the vector state and the queues. -/
theorem Hart.retireHead_leaves {h : Hart} {e : Eng} (q : h.queue e = en :: rest) :
    let k := h.retireHead e
    let r := ((h.setQueue e rest).orFlags en.fl).takeResult en
    k.fflags = h.fflags ||| en.fl ∧ k.regs = r.regs ∧ k.vec = (r.clearStart (decide (e = .v) && !en.isMove)).vec ∧
      k.vq = (h.setQueue e rest).vq ∧ k.mq = (h.setQueue e rest).mq := by
  intro k r
  obtain ⟨rF, -, rVq, rMq⟩ := ((h.setQueue e rest).orFlags en.fl).takeResult_keeps en
  have cur := r.takeCursor_moves en
  have clear : (r.takeCursor en).vec = r.vec → ((r.takeCursor en).clearStart (decide (e = .v) && !en.isMove)).vec =
      (r.clearStart (decide (e = .v) && !en.isMove)).vec := by
    intro n
    unfold Hart.clearStart
    split
    · exact congrArg (fun v : VecState => { v with estart := 0, rowstart := 0 }) n
    · exact n
  obtain ⟨curF, curR, curV, curVq, curMq⟩ := Hart.lateMove_keeps cur
  obtain ⟨clF, clR, clVq, clMq⟩ := (r.takeCursor en).clearStart_keeps (decide (e = .v) && !en.isMove)
  have push := ((r.takeCursor en).clearStart (decide (e = .v) && !en.isMove)).takePush_moves en
  rw [← Hart.retireHead_steps q] at push
  obtain ⟨pF, pR, pV, pVq, pMq⟩ := Hart.lateMove_keeps push
  have f : (h.setQueue e rest).fflags = h.fflags := by cases e <;> rfl
  have rF : r.fflags = h.fflags ||| en.fl := rF.trans (congrArg (· ||| en.fl) f)
  exact ⟨(pF.trans (clF.trans curF)).trans rF, pR.trans (clR.trans curR), pV.trans (clear curV), (pVq.trans (clVq.trans curVq)).trans rVq,
    (pMq.trans (clMq.trans curMq)).trans rMq⟩

/-- No move stands at the head: none is taken behind what has retired. -/
theorem State.drainMoves_none {e : Eng} (q : (s.hartAt x).queue e = rest) (n : ∀ k ∈ rest, k.isMove = false) (m : Nat) :
    s.drainMoves x e m = s := by
  cases m with
  | zero => rfl
  | succ m =>
    unfold State.drainMoves
    rw [q]
    cases rest with
    | nil => rfl
    | cons k l => exact if_neg (by rw [n k List.mem_cons_self]; exact Bool.false_ne_true)

theorem Entry.over_iff (en : Entry) (now : Nat) : en.over now = true ↔ en.done = true ∧ en.tried ≤ now := by
  unfold Entry.over
  rw [Bool.and_eq_true, decide_eq_true_eq]

theorem State.vecRetire_cons (q : (s.hartAt x).vq = en :: rest) :
    s.vecRetire x = if en.over s.now then s.setHartAt x ((s.hartAt x).retireHead .v) else s := by
  unfold State.vecRetire
  simp only [q]
theorem State.matRetire_cons (q : (s.hartAt x).mq = en :: rest) :
    s.matRetire x = if en.over s.now then s.setHartAt x ((s.hartAt x).retireHead .m) else s := by
  unfold State.matRetire
  simp only [q]

/-- What is done but not through stays (R43). -/
theorem instructionRetire_early (m : en.isMove = false) (early : s.now < en.tried) :
    ((s.hartAt hid.toNat).vq = en :: rest → exec (.instructionRetire hid 1) s = .next s) ∧
    ((s.hartAt hid.toNat).mq = en :: rest → exec (.instructionRetire hid 2) s = .next s) := by
  have o : ¬ en.over s.now = true := fun k => Nat.not_le.mpr early ((en.over_iff _).mp k).2
  have stays (e : Eng) (q : (s.hartAt hid.toNat).queue e = en :: rest) : s.drainMoves hid.toNat e 8 = s := by
    unfold State.drainMoves
    rw [q]
    exact if_neg (by rw [m]; exact Bool.false_ne_true)
  refine ⟨fun q => ?_, fun q => ?_⟩
  · show Host.Outcome.next ((s.vecRetire hid.toNat).drainMoves hid.toNat .v 8) = _
    rw [State.vecRetire_cons q, if_neg o, stays .v q]
  · show Host.Outcome.next ((s.matRetire hid.toNat).drainMoves hid.toNat .m 8) = _
    rw [State.matRetire_cons q, if_neg o, stays .m q]

/-- A vector instruction that is through retires (R35, R71). -/
theorem instructionRetire_vec (q : (s.hartAt hid.toNat).vq = en :: rest) (o : en.over s.now = true) (m : en.isMove = false)
    (n : ∀ e ∈ rest, e.isMove = false) :
    ∃ t, exec (.instructionRetire hid 1) s = .next t ∧ (t.hartAt hid.toNat).vq = rest ∧ t.mem = s.mem ∧
      (t.hartAt hid.toNat).fflags = (s.hartAt hid.toNat).fflags ||| en.fl ∧ (t.hartAt hid.toNat).vec.estart = 0 ∧
      (t.hartAt hid.toNat).vec.rowstart = 0 ∧ (∀ d v, en.res = some (d, v) → d ≠ 0 → (t.hartAt hid.toNat).reg d = v) ∧
      (en.res = none → (t.hartAt hid.toNat).regs = (s.hartAt hid.toNat).regs) := by
  obtain ⟨flags, regs, vec, vq, -⟩ := Hart.retireHead_leaves (e := .v) q
  have vec : ((s.hartAt hid.toNat).retireHead .v).vec = { (((s.hartAt hid.toNat).setQueue .v rest).orFlags en.fl |>.takeResult en).vec with
      estart := 0, rowstart := 0 } := by rw [vec, m]; rfl
  have e : exec (.instructionRetire hid 1) s = .next (s.setHartAt hid.toNat ((s.hartAt hid.toNat).retireHead .v)) := by
    show Host.Outcome.next ((s.vecRetire hid.toNat).drainMoves hid.toNat .v 8) = _
    rw [State.vecRetire_cons q, if_pos o, State.drainMoves_none (by rw [State.hartAt_setHartAt]; exact vq) n]
  refine ⟨_, e, ?_⟩
  rw [State.hartAt_setHartAt]
  refine ⟨vq, rfl, flags, by rw [vec], by rw [vec], fun d v k nz => ?_, fun k => ?_⟩
  · exact (Hart.reg_of_regs regs d).trans (Hart.takeResult_reg k nz)
  · rw [regs, Hart.takeResult_none k]; rfl

/-- A matrix instruction that is through retires (R35, R71). -/
theorem instructionRetire_mat (q : (s.hartAt hid.toNat).mq = en :: rest) (o : en.over s.now = true)
    (n : ∀ e ∈ rest, e.isMove = false) :
    ∃ t, exec (.instructionRetire hid 2) s = .next t ∧ (t.hartAt hid.toNat).mq = rest ∧ t.mem = s.mem ∧
      (t.hartAt hid.toNat).fflags = (s.hartAt hid.toNat).fflags ||| en.fl := by
  obtain ⟨flags, -, -, -, mq⟩ := Hart.retireHead_leaves (e := .m) q
  have e : exec (.instructionRetire hid 2) s = .next (s.setHartAt hid.toNat ((s.hartAt hid.toNat).retireHead .m)) := by
    show Host.Outcome.next ((s.matRetire hid.toNat).drainMoves hid.toNat .m 8) = _
    rw [State.matRetire_cons q, if_pos o, State.drainMoves_none (by rw [State.hartAt_setHartAt]; exact mq) n]
  refine ⟨_, e, ?_⟩
  rw [State.hartAt_setHartAt]
  exact ⟨mq, rfl, flags⟩

end
end Sys2Proof.Machine
end

section
namespace Sys2Proof.Machine

/-! #### Vector instructions (R216 to R218, R250) -/

section
variable {s : State} {x : Nat} {en : Entry} {rest : List Entry} {hid : BitVec 11} {op : VecOp}

theorem Hart.look_started (h : Hart) (en : Entry) : (h.look en).started = en.started := by
  unfold Hart.look; split <;> rfl
theorem Hart.look_tried (h : Hart) (en : Entry) : (h.look en).tried = en.tried := by
  unfold Hart.look; split <;> rfl

/-- Where the engine does not turn to another hart and no soft error stands, a run ends where its sweep does. -/
theorem State.vecPause_alone (v : VecState) (b : Bool) (l : s.dev.latent = none) (sh : s.shared x = false) :
    s.vecPause x op v en b = none := by
  have e : s.vecError x = none := by unfold State.vecError; rw [l]
  unfold State.vecPause
  rw [e, sh]
  cases b <;> rfl

/-- The vector state in which the head of a queue runs: its convoy split where hardware splits it (R218). -/
def VecState.begun (v : VecState) (op : VecOp) (en : Entry) : VecState :=
  { (if !en.started && v.splits op (en.tried != 0) then v.cut else v) with ends := none }

/-- The head of a hart's vector queue runs from where it stands, to the end of its sweep (R216, R250). -/
theorem State.vecHead_runs (q : (s.hartAt x).vq = en :: rest) (o : vecOpOf en.instr = some op) (l : s.dev.latent = none)
    (sh : s.shared x = false) (ac : en.acc = none)
    (strap : ((!en.started && (s.hartAt x).vec.splits op (en.tried != 0)) && (s.hartAt x).vec.strap) = false)
    (c : ((s.hartAt x).vec.begun op en).startCheck op ((s.hartAt x).look en) = none) :
    s.vecHead x = State.vecAfter s.now x op ((s.hartAt x).look en) ((s.hartAt x).vec.begun op en) none
      (op.run (s.setHartAt x { s.hartAt x with vec := (s.hartAt x).vec.begun op en }) x ((s.hartAt x).look en)) := by
  have ac' : ((s.hartAt x).look en).acc = none := (Hart.look_acc _ _).trans ac
  have enter : (s.hartAt x).vec.enter op ((s.hartAt x).look en) (!en.started && (s.hartAt x).vec.splits op (en.tried != 0)) =
      (s.hartAt x).vec.begun op en := VecState.enter_fresh _ op _ ac'
  have ends : ((s.hartAt x).vec.begun op en).endAt none = (s.hartAt x).vec.begun op en := VecState.endAt_none rfl
  have head : s.vecHead x = s.vecRun x op true := by
    unfold State.vecHead
    rw [q]
    simp only [o]
  rw [head]
  unfold State.vecRun
  simp only [q, Entry.seeded_fresh op _ ac', Hart.look_started, Hart.look_tried, strap, Bool.false_eq_true, if_false, enter, c,
    State.vecPause_alone _ true l sh, ends]

/-- The element groups charged, the hart's queues, registers and vector state are as they were. -/
theorem State.chargeGroups_keeps (s : State) (x g : Nat) : (s.chargeGroups x g).mem = s.mem ∧
    ((s.chargeGroups x g).hartAt x).vq = (s.hartAt x).vq ∧ ((s.chargeGroups x g).hartAt x).vec = (s.hartAt x).vec ∧
    ((s.chargeGroups x g).hartAt x).regs = (s.hartAt x).regs := by
  obtain ⟨mem, -, -, -, -, -, -, -, -, -, -, -, u, hart⟩ := s.worked_groups x g
  rw [hart]
  exact ⟨mem, rfl, rfl, rfl⟩

/-- A run that is done stands so at the head of its queue, and its convoy goes on (R43, R217). -/
theorem State.vecDone_head {e0 : Entry} (q : (s.hartAt x).vq = e0 :: rest) : ∃ e1, ((s.vecDone x op en).hartAt x).vq = e1 :: rest ∧
    e1.done = true ∧ e1.fl = en.fl ∧ e1.res = en.res ∧ (s.vecDone x op en).mem = s.mem ∧
    ((s.vecDone x op en).hartAt x).vec = { (s.hartAt x).vec.chain op with ends := none } ∧
    ((s.vecDone x op en).hartAt x).regs = (s.hartAt x).regs := by
  unfold State.vecDone
  simp only [State.hartAt_setHartAt]
  rw [Hart.setHead_v (en := e0) (rest := rest)]
  · exact ⟨_, rfl, rfl, rfl, rfl, rfl, rfl, rfl⟩
  · exact q

/-- What a run that comes to the end of its sweep leaves (R209, R250). -/
theorem State.vecAfter_done {now : Nat} {v : VecState} {d : VDone} {e : Entry} (q : (d.s.hartAt x).vq = e :: rest) (ac : en.acc = none) :
    let t := State.vecAfter now x op en v none (.ok d)
    ∃ e1, (t.hartAt x).vq = e1 :: rest ∧ e1.done = true ∧ e1.fl = en.fl ||| d.fl ∧ e1.res = d.res ∧ t.mem = d.s.mem ∧
      (t.hartAt x).vec = { (d.s.hartAt x).vec.chain op with ends := none } ∧ (t.hartAt x).regs = (d.s.hartAt x).regs := by
  intro t
  obtain ⟨u, ⟨mem, vq, vec, regs⟩, done⟩ : ∃ u : State, (u.mem = d.s.mem ∧ (u.hartAt x).vq = (d.s.hartAt x).vq ∧
      (u.hartAt x).vec = (d.s.hartAt x).vec ∧ (u.hartAt x).regs = (d.s.hartAt x).regs) ∧
      t = u.vecDone x op { en with fl := en.fl ||| d.fl, res := d.res, newCur := d.newCur } := by
    unfold t State.vecAfter
    simp only [ac, Option.filter_none]
    split
    · exact ⟨_, d.s.chargeGroups_keeps x _, rfl⟩
    · exact ⟨d.s, ⟨rfl, rfl, rfl, rfl⟩, rfl⟩
  obtain ⟨e1, a, b, c, f, g, i, j⟩ := State.vecDone_head (op := op)
    (en := { en with fl := en.fl ||| d.fl, res := d.res, newCur := d.newCur }) (vq.trans q)
  rw [done]
  exact ⟨e1, a, b, c, f, g.trans mem, by rw [i, vec], j.trans regs⟩

/-- What a run that stops to wait leaves (R153, R288). -/
theorem State.vecAfter_waits {now : Nat} {v : VecState} {r : VStop} {w : Wait} {e : Entry} (k : r.stop = .wait w)
    (q : (r.s.hartAt x).vq = e :: rest) :
    let t := State.vecAfter now x op en v none (.error r)
    ∃ e1, (t.hartAt x).vq = e1 :: rest ∧ e1.done = e.done ∧ e1.tried = now + 1 ∧
      (t.hartAt x).vec.estart = BitVec.ofNat 32 r.el ∧ t.mem = r.s.mem := by
  intro t
  simp only [t, State.vecAfter, k]
  generalize (if op.grouped = true then _ else _ : Nat) = n
  obtain ⟨mem, vq, -, -⟩ := r.s.chargeGroups_keeps x n
  have vq := vq.trans q
  rw [State.hartAt_setHartAt, Hart.setHead_v (en := e) (rest := rest)]
  · rw [vq]
    exact ⟨_, rfl, rfl, rfl, rfl, mem⟩
  · exact vq

/-- The head of a hart's vector queue that has waited is tried again where it may run (R153, R288). -/
theorem exec_tries {i : Instr} (q : (s.hartAt hid.toNat).vq = en :: rest) (ready : s.vecReady hid.toNat = true)
    (st : en.started = true) (tr : en.tried ≠ 0)
    (k : i = Instr.watchReread hid ∨ ((∃ d q c, en.instr = .vwait d q c) ∧
      (i = .vwaitReread hid ∨ (i = .vwaitTimeout hid ∧ s.vwaitOver hid.toNat = true)))) :
    exec i s = .next (s.vecHead hid.toNat) := by
  have go : s.vecGo hid.toNat = s.vecHead hid.toNat := if_pos ready
  have stalled : (s.hartAt hid.toNat).vecStalled = true := by
    unfold Hart.vecStalled
    rw [q]
    simp only [st, Bool.true_and, bne_iff_ne]
    exact tr
  rw [← go]
  obtain rfl | ⟨⟨d, r, c, e⟩, k⟩ := k
  · exact congrArg _ (if_pos stalled)
  · have waits : (s.hartAt hid.toNat).vwaits = true := by
      unfold Hart.vwaits
      rw [q]
      simp only [e]
    obtain rfl | ⟨rfl, late⟩ := k
    · exact congrArg _ (if_pos (by rw [waits, stalled]; rfl))
    · exact congrArg _ (if_pos (by rw [waits, late]; rfl))

end
end Sys2Proof.Machine
end

section
namespace Sys2Proof.Machine

/-! #### Updates, lookaheads and publications (R155, R160, R183 to R186) -/

theorem Mem.read_write (m : Mem) (a n v : Nat) : (m.write a n v).read a n = v % 256 ^ n := by
  induction n generalizing m a v with
  | zero => rw [Nat.pow_zero, Nat.mod_one]; rfl
  | succ n ih =>
    rw [Mem.write, Mem.read, ih, Mem.byte_write_other _ _ _ _ _ (by omega), Mem.byte_set, if_pos rfl, pow_succ', Nat.mod_mul,
      BitVec.toNat_ofNat]

section
variable {s : State} {x : Nat} {hid : BitVec 11}

theorem updateApply_none (a : s.appliable = none) : exec .updateApply s = .next s := by
  show execUpdateApply s = _
  unfold execUpdateApply
  rw [a]

/-- The update applied next is the first whose applier's die runs (R184, R370). -/
theorem State.appliable_first {l1 l2 : List Update} {u : Update} (e : s.dev.updates = l1 ++ u :: l2)
    (before : ∀ y ∈ l1, s.dieRuns (baseDie (stackOf y.pa)) = false) (runs : s.dieRuns (baseDie (stackOf u.pa)) = true) :
    s.appliable = some u := by
  have none1 : l1.find? (fun u => s.dieRuns (baseDie u.applier)) = none :=
    List.find?_eq_none.mpr fun y m k => Bool.false_ne_true ((before y m).symm.trans k)
  unfold State.appliable
  rw [e, List.find?_append, none1, Option.none_or]
  exact List.find?_cons_of_pos runs

/-- No update to the address stands before the one applied next: its applier would be the same. -/
theorem State.appliable_at {u : Update} (a : s.appliable = some u) : s.dev.updates.find? (fun y => y.pa == u.pa) = some u := by
  obtain ⟨runs, l1, l2, e, before⟩ := List.find?_eq_some_iff_append.mp a
  refine List.find?_eq_some_iff_append.mpr ⟨beq_self_eq_true _, l1, l2, e, fun y m => ?_⟩
  have other : y.pa ≠ u.pa := by
    intro same
    have stopped := before y m
    unfold Update.applier at stopped runs
    rw [same, runs] at stopped
    exact Bool.false_ne_true stopped
  simpa using other

theorem updateApply_applies {u : Update} (a : s.appliable = some u) (sound : s.spoiled 3 0 u.pa u.size = false) :
    exec .updateApply s = .next { s with
      mem := s.mem.write u.pa u.size (u.value (s.mem.read u.pa u.size))
      dev := { s.dev with updates := s.dev.updates.erase u } } := by
  show execUpdateApply s = _
  unfold execUpdateApply
  rw [a]
  simp only [sound, Bool.false_eq_true, if_false]

/-- An uncorrectable error met leaves memory and the updates as they were, and is over (R366). -/
theorem State.errorMet_keeps (f i : Nat) (dva : Word) : (s.errorMet f i dva).mem = s.mem ∧
    (s.errorMet f i dva).dev.updates = s.dev.updates ∧ (s.errorMet f i dva).dev.latent = none := by
  unfold State.errorMet
  split
  next l => exact ⟨rfl, rfl, l⟩
  next l => exact ⟨rfl, rfl, rfl⟩

/-- A lost update is gone, and a hart of the device is told of it (R186). -/
theorem State.loseUpdate_found {u : Update} (f : s.dev.updates.find? (fun y => y.pa == u.pa) = some u) :
    (s.loseUpdate u.pa).dev.updates = s.dev.updates.erase u ∧ (s.loseUpdate u.pa).mem = s.mem ∧
      (s.loseUpdate u.pa).dev.latent = s.dev.latent ∧ (u.hid < 4096 → ((s.loseUpdate u.pa).hartAt u.hid).lostUpd = some u.dva) := by
  unfold State.loseUpdate
  simp only [f]
  by_cases away : 4096 ≤ u.hid
  · rw [if_pos away]
    unfold State.setMember
    split <;> exact ⟨rfl, rfl, rfl, fun n => absurd n (Nat.not_lt.mpr away)⟩
  · rw [if_neg away]
    refine ⟨rfl, rfl, rfl, fun _ => ?_⟩
    rw [State.hartAt_setHartAt]

theorem updateApply_loses {u : Update} (a : s.appliable = some u) (bad : s.spoiled 3 0 u.pa u.size = true) :
    ∃ t, exec .updateApply s = .next t ∧ t.dev.updates = s.dev.updates.erase u ∧ t.mem = s.mem ∧ t.dev.latent = none ∧
      (u.hid < 4096 → (t.hartAt u.hid).lostUpd = some u.dva) := by
  obtain ⟨mem, updates, latent⟩ :=
    s.errorMet_keeps (s.updateFn u) (if u.hid < 1280 then u.hid else 0xFFFF) u.dva
  obtain ⟨gone, mem', latent', told⟩ := State.loseUpdate_found
    (s := s.errorMet (s.updateFn u) (if u.hid < 1280 then u.hid else 0xFFFF) u.dva) (u := u) (by rw [updates]; exact State.appliable_at a)
  refine ⟨_, ?_, gone.trans (congrArg (·.erase u) updates), mem'.trans mem, latent'.trans latent, told⟩
  show execUpdateApply s = _
  unfold execUpdateApply
  rw [a]
  simp only [bad, if_true]

/-- A translation that a lookahead finds is one that a walk gives (R160). -/
theorem State.lookUp_walked {q : BitVec 4} {a : Nat} {e : Tlb} (f : s.lookUp x q a = some e) :
    e.ctx = (s.whoOf x).fn ∧ e.hid = x ∧ e.q = q ∧
      ∃ a, e.page ≤ a ∧ a < e.page + 2 ^ pteShift e.pte ∧ s.walkOf (s.whoOf x) a = .ok (e.at_, e.pte) := by
  unfold State.lookUp at f
  simp only [] at f
  split at f
  · cases f
  split at f
  next at_ p w =>
    cases f
    have := Nat.mod_lt a (Nat.two_pow_pos (pteShift p))
    have := Nat.mod_le a (2 ^ pteShift p)
    refine ⟨rfl, rfl, rfl, a, Nat.sub_le _ _, ?_, w⟩
    show a < a - a % 2 ^ pteShift p + 2 ^ pteShift p
    omega
  · cases f

/-- A lookahead changes what its core keeps of translations, and nothing else (R160). -/
theorem lookaheadTranslate_keeps (q : BitVec 4) :
    ∃ t, exec (.lookaheadTranslate hid q) s = .next t ∧ t = { s with cores := t.cores } ∧
      ∀ k, t.coreAt k = { s.coreAt k with tlb := (t.coreAt k).tlb } ∧ (k ≠ hid.toNat / 8 → t.coreAt k = s.coreAt k) ∧
        ((s.coreAt k).tlb.length ≤ 2048 → (t.coreAt k).tlb.length ≤ 2048) ∧
        ∀ e, e ∈ (t.coreAt k).tlb → e ∈ (s.coreAt k).tlb ∨ (e.ctx = (s.whoOf hid.toNat).fn ∧ e.hid = hid.toNat ∧ e.q = q ∧
          ∃ a, e.page ≤ a ∧ a < e.page + 2 ^ pteShift e.pte ∧ s.walkOf (s.whoOf hid.toNat) a = .ok (e.at_, e.pte)) := by
  by_cases c : (!(((s.hartAt hid.toNat).q[q.toNat]).loaded && ((s.hartAt hid.toNat).q[q.toNat]).space = .dv &&
      decide (((s.hartAt hid.toNat).q[q.toNat]).mode ≤ 1))) = true
  · exact ⟨s, if_pos c, rfl, fun k => ⟨rfl, fun _ => rfl, id, fun e m => .inl m⟩⟩
  · refine ⟨_, if_neg c, rfl, fun k => ?_⟩
    by_cases n : k = hid.toNat / 8
    · subst n
      rw [State.coreAt_setCoreAt]
      refine ⟨rfl, fun n => absurd rfl n, fun _ => List.length_take_le _ _, fun e m => ?_⟩
      obtain found | kept := List.mem_append.mp (List.mem_of_mem_take m)
      · obtain ⟨a, -, f⟩ := List.mem_filterMap.mp found
        exact .inr (State.lookUp_walked f)
      · exact .inl (List.mem_of_mem_filter kept)
    · rw [State.coreAt_setCoreAt_other _ _ n]
      exact ⟨rfl, fun _ => rfl, id, fun e m => .inl m⟩

theorem State.getAt_dv (s : State) {p : Place} (n : Nat) (e : p.sp = .dv) : s.getAt p n = s.mem.read p.at_ n := by
  unfold State.getAt; rw [e]
theorem State.putAt_dv (s : State) {p : Place} (n y : Nat) (e : p.sp = .dv) :
    s.putAt p n y = { s with mem := s.mem.write p.at_ n y } := by
  unfold State.putAt; rw [e]
theorem State.scalarCost_mem (s : State) (r : Nat) (p : Place) (n : Nat) (wr : Bool) : (s.scalarCost r p n wr).mem = s.mem := by
  unfold State.scalarCost State.scalarEnergy
  rw [State.usePort_eq]
  split
  · split
    · rw [State.chargeEnergy_eq]
    · rfl
  · rw [State.chargeEnergy_eq]
  · rfl

/-- A publication at the head of stream S that is let through makes its word the greater of the two (R155). -/
theorem instructionRetire_publish {p : SAcc} {l : List SAcc} {u : State} {at_ : Place} (q : (s.hartAt hid.toNat).ss = p :: l)
    (k : p.kind = .publish) (sq : p.sq = false) (size : p.size = 8) (ready : s.sReady hid.toNat p = true)
    (run : (s.hartAt hid.toNat).run = .running) (look : s.scalarLook hid.toNat p.touch 0 p.addr 8 .rmw = .ok (u, at_)) :
    ∃ t, exec (.instructionRetire hid 0) s = .next t ∧ (t.hartAt hid.toNat).ss = l ∧
      t.mem = u.mem.write at_.at_ 8 (max (u.mem.read at_.at_ 8) p.val.toNat) := by
  have head : s.sHead hid.toNat = some p := by
    unfold State.sHead
    rw [q]
    exact List.find?_cons_of_pos (by rw [ready]; rfl)
  have place := State.scalarLook_dv look
  have hart := State.reaches_hartAt (State.reaches_scalarLook look) hid.toNat
  obtain ⟨v, hv⟩ :
      ∃ v, v = u.scalarCost (if p.surr then (s.hartAt hid.toNat).workResv else (s.hartAt hid.toNat).ownResv) at_ 8 true :=
    ⟨_, rfl⟩
  have vr : u.reaches v := hv ▸ State.reaches_scalarCost _ _ _ _ _
  have vhart : v.hartAt hid.toNat = s.hartAt hid.toNat := (State.reaches_hartAt vr _).trans hart
  have mine : (s.hartAt hid.toNat).ss.erase p = l := by rw [q, List.erase_cons_head]
  obtain ⟨w, hw⟩ : ∃ w, w = v.setHartAt hid.toNat { s.hartAt hid.toNat with ss := l } := ⟨_, rfl⟩
  have e : s.sPerform hid.toNat = ((w.putAt at_ 8 (max (w.getAt at_ 8) p.val.toNat)).setHartAt hid.toNat
      (((w.putAt at_ 8 (max (w.getAt at_ 8) p.val.toNat)).hartAt hid.toNat).deposit p.push)) := by
    unfold State.sPerform
    simp only [head, ready, run, k, sq, size, SKind.acc, SAcc.writes, look, Bool.not_true, Bool.false_eq_true, if_false,
      bne_self_eq_false, Bool.false_and, Bool.or_self, Bool.and_false, State.sAct]
    have took : { v.hartAt hid.toNat with ss := (v.hartAt hid.toNat).ss.erase p } = { s.hartAt hid.toNat with ss := l } := by
      rw [vhart, mine]
    rw [hw, ← took, hv]
    rfl
  have wmem : w.mem = u.mem := by rw [hw, State.setHartAt_mem, hv, State.scalarCost_mem]
  have old : w.getAt at_ 8 = u.mem.read at_.at_ 8 := by
    rw [State.getAt_dv _ _ place, wmem]
  refine ⟨s.sPerform hid.toNat, rfl, ?_, ?_⟩
  · have m := ((w.putAt at_ 8 (max (w.getAt at_ 8) p.val.toNat)).hartAt hid.toNat).tokensMove_deposit p.push
    rw [e, State.hartAt_setHartAt, m, State.putAt_dv _ _ _ place, hw]
    exact congrArg Hart.ss (State.hartAt_setHartAt _ _ _)
  · rw [e, State.setHartAt_mem, State.putAt_dv _ _ _ place, old, ← wmem]

end
end Sys2Proof.Machine
end

section
namespace Sys2Proof.Machine

/-! #### The element-wise vector instructions (R250 to R262) -/

/-- A vector operation does nothing but give each active element its value, in the destination and the copy group. -/
def VecOp.maps (op : VecOp) (v : VecState) (en : Entry) (m : BitVec 1) (d : BitVec 5) (w : Nat) (f : Nat → Nat → Nat × Flags) : Prop :=
  ∀ (s : State) (x : Nat), (s.hartAt x).vec = v →
    op.run s x en = .ok {
      s := s.setHartAt x { s.hartAt x with vec := (v.mapElems (maskOf m en) d.toNat w (copyOf en) f).1 }
      fl := (v.mapElems (maskOf m en) d.toNat w (copyOf en) f).2 }

section
variable {op : VecOp} {i : Instr} {v : VecState} {en : Entry}

theorem VecOp.maps_congr {op' : VecOp} {m : BitVec 1} {d : BitVec 5} {w : Nat} {f : Nat → Nat → Nat × Flags}
    (h : op'.maps v en m d w f) (r : op.run = op'.run) : op.maps v en m d w f := fun s x e => (by rw [r]; exact h s x e)

theorem vbinOp_maps (o : VBin) (cls : ClsNeed) (f : VecState → Entry → Nat → Nat → Nat → Nat × Flags) :
    (vbinOp o cls f).maps v en o.m o.d v.n (fun row e =>
      f v en (v.opElem o.a.toNat v.n row e) (if o.k = 1 then en.op1.toNat % 2 ^ v.n else v.opElem o.b.toNat v.n row e)
        (v.opElem o.d.toNat v.n row e)) := by
  rintro s x rfl
  rfl
theorem vunOp_maps (o : VUn) (cls : ClsNeed) (src : Bool) (f : VecState → Entry → Nat → Nat → Nat × Flags) :
    (vunOp o cls src f).maps v en o.m o.d v.n (fun row e => f v en (if src then v.opElem o.a.toNat v.n row e else 0) e) := by
  rintro s x rfl
  rfl
theorem vcvtOp_maps (o : VCvt) (cls : ClsNeed) (f : VecState → Entry → Nat → Nat → Nat → Nat × Flags) :
    (vcvtOp o cls f).maps v en o.m o.d (codeBits o.x.toNat) (fun row e => f v en (v.opElem o.a.toNat v.n row e) row e) := by
  rintro s x rfl
  rfl
theorem vdot4Op_maps (d a b : BitVec 5) (m c : BitVec 1) (sg : Bool) :
    (vdot4Op d a b m c sg).maps v en m d v.n (fun row e =>
      let byte (x j : Nat) : Int := let y := bits x (8 * j) 8; if sg then signed 8 y else (y : Int)
      let x := v.opElem a.toNat v.n row e
      let y := v.opElem b.toNat v.n row e
      (wrap 32 ((v.opElem d.toNat v.n row e : Int) + byte x 0 * byte y 0 + byte x 1 * byte y 1
        + byte x 2 * byte y 2 + byte x 3 * byte y 3), 0)) := by
  rintro s x rfl
  rfl

/-- The integer cells are those of the table (R252, R253). -/
theorem vecIntTable_run {o : VBin} {f : Nat → Nat → Nat → Nat → Int} (h : vecIntTable i = some (o, f)) (e : vecOpOf i = some op) :
    op.run = (vintOp o f).run := by
  have same {F G : Nat → Nat → Nat → Nat → Int} (k : F = G) (o : VBin) : (vintOp o F).run = (vintOp o G).run :=
    congrArg (fun g => (vintOp o g).run) k
  have floor (x : Int) (k : Nat) : x.fdiv (2 ^ k) = x / 2 ^ k := Int.fdiv_eq_ediv_of_nonneg x (by positivity)
  unfold vecIntTable at h
  split at h
  case h_25 => cases h
  -- products, quotients and shifts of naturals are those of integers
  case h_3 | h_5 | h_17 | h_18 | h_24 =>
    cases h; cases e
    dsimp only [opVmul, opVmulhN, opVsll, opVsrl, opVmacc, shCount]
    exact same (by funext n a b d; push_cast; rfl) _
  -- and a quotient by a power of two is rounded down
  case h_4 | h_19 =>
    cases h; cases e
    dsimp only [opVmulhI, opVsra, shCount]
    exact same (by funext n a b d; exact floor _ _) _
  all_goals
    cases h
    cases e
    rfl

/-- The floating-point cells are those of the table (R256, R257). -/
theorem vecFpTable_run {o : VBin} {f : Fmt → Rnd → Nat → Nat → Nat → Nat × Flags} (h : vecFpTable i = some (o, f))
    (e : vecOpOf i = some op) : op.run = (vfpOp o f).run := by
  unfold vecFpTable at h
  split at h
  case h_10 => cases h
  all_goals
    cases h
    cases e
    rfl

theorem cvtFpFp_maps (o : VCvt) (k : Fmt) : (cvtFpFp o k).maps v en o.m o.d (codeBits o.x.toNat) (fun row e =>
    if o.rnd = 5 then v.fmt.toFmtSr k (srDraw en.rkey en.rstrm en.op1 row e) (v.opElem o.a.toNat v.n row e)
    else v.fmt.toFmt k (cvtMode o en) (v.opElem o.a.toNat v.n row e)) := by
  unfold cvtFpFp
  exact vcvtOp_maps _ _ _
theorem cvtFpInt_maps (o : VCvt) (sg : Bool) : (cvtFpInt o sg).maps v en o.m o.d (codeBits o.x.toNat) (fun row e =>
    v.fmt.toInt (cvtMode o en) sg (codeBits o.x.toNat) (v.opElem o.a.toNat v.n row e)) := by
  unfold cvtFpInt
  exact vcvtOp_maps _ _ _
theorem cvtIntFp_maps (o : VCvt) (sg : Bool) (k : Fmt) : (cvtIntFp o sg k).maps v en o.m o.d (codeBits o.x.toNat) (fun row e =>
    let x := intNum (if sg then signed v.n (v.opElem o.a.toNat v.n row e) else (v.opElem o.a.toNat v.n row e : Int))
    if o.rnd = 5 then k.roundSr (srDraw en.rkey en.rstrm en.op1 row e) x else k.round (cvtMode o en) x) := by
  unfold cvtIntFp
  exact vcvtOp_maps _ _ _
theorem cvtIntInt_maps (o : VCvt) (sg : Bool) : (cvtIntInt o sg).maps v en o.m o.d (codeBits o.x.toNat) (fun row e =>
    let w := codeBits o.x.toNat
    let x : Int := if v.cls = 1 then signed v.n (v.opElem o.a.toNat v.n row e) else (v.opElem o.a.toNat v.n row e : Int)
    (wrap w (if o.rnd = 6 then (if sg then satI w x else satN w x) else x), 0)) := by
  unfold cvtIntInt
  exact vcvtOp_maps _ _ _

/-- The conversions are those of the table (R235 to R238, R258). -/
theorem vecCvtTable_maps {o : VCvt} {f : Nat → Nat → Nat → Nat × Flags} (h : vecCvtTable v en i = some (o, f))
    (e : vecOpOf i = some op) :
    op.maps v en o.m o.d (codeBits o.x.toNat) (fun row e => f (v.opElem o.a.toNat v.n row e) row e) := by
  unfold vecCvtTable at h
  simp only [] at h
  split at h
  case h_17 => cases h
  case h_1 | h_2 | h_3 | h_4 =>
    cases h; cases e
    dsimp only [opVcvtFpToIeee, opVcvtFpToBf16, opVcvtFpToE4m3, opVcvtFpToE5m2]
    exact cvtFpFp_maps _ _
  case h_5 | h_6 =>
    cases h; cases e
    dsimp only [opVcvtFpToI, opVcvtFpToN]
    exact cvtFpInt_maps _ _
  case h_7 | h_8 | h_9 | h_10 =>
    cases h; cases e
    dsimp only [opVcvtIToIeee, opVcvtIToBf16, opVcvtIToE4m3, opVcvtIToE5m2]
    exact cvtIntFp_maps _ true _
  case h_11 | h_12 | h_13 | h_14 =>
    cases h; cases e
    dsimp only [opVcvtNToIeee, opVcvtNToBf16, opVcvtNToE4m3, opVcvtNToE5m2]
    exact cvtIntFp_maps _ false _
  case h_15 | h_16 =>
    cases h; cases e
    dsimp only [opVcvtIntToI, opVcvtIntToN]
    exact cvtIntInt_maps _ _

/-- The widening multiplies are those of the table (R259). -/
theorem vwInt_maps (o : VTri) (sg acc : Bool) : (vwInt o sg acc).maps v en o.m o.d (wideOf v.n (codeBits o.x.toNat)) (fun row e =>
    let w := codeBits o.x.toNat
    let a := v.opElem o.a.toNat v.n row e
    let b := v.opElem o.b.toNat w row e
    let d := v.opElem o.d.toNat (wideOf v.n w) row e
    let x : Int := if sg then signed v.n a * signed w b else (a : Int) * b
    (wrap (wideOf v.n w) (if acc then (d : Int) + x else x), 0)) := by
  have k (x d : Int) : (if acc then d else 0) + x = if acc then d + x else x := by
    cases acc
    · exact Int.zero_add x
    · rfl
  simp only [← k]
  rintro s x rfl
  rfl
theorem vwFp_maps (o : VTri) (acc : Bool) : (vwFp o acc).maps v en o.m o.d (wideOf v.n (codeBits o.x.toNat)) (fun row e =>
    let w := codeBits o.x.toNat
    let k := wideFmt (wideOf v.n w)
    let x := v.fmt.num (v.opElem o.a.toNat v.n row e)
    let y := (secondFmt v.cls.toNat w).num (v.opElem o.b.toNat w row e)
    if acc then k.fmaV en.mode x y (k.num (v.opElem o.d.toNat (wideOf v.n w) row e)) else k.mulV en.mode x y) := by
  rintro s x rfl
  rfl
theorem vsOp_maps (o : VTri) (acc : Bool) : (vsOp o acc).maps v en o.m o.d v.n (fun row e =>
    let k := v.fmt
    let a := v.opElem o.a.toNat v.n row e
    let b := (secondFmt v.cls.toNat (codeBits o.x.toNat)).num (v.opElem o.b.toNat (codeBits o.x.toNat) row e)
    let y := scaleNum b (v.scaleByte row e)
    let r := if acc then k.fmaV en.mode (k.num a) y (k.num (v.opElem o.d.toNat v.n row e)) else k.mulV en.mode (k.num a) y
    (r.1, r.2 ||| nvIf b.snan)) := by
  rintro s x rfl
  rfl

/-- The mixed-width cells are those of the table (R259, R260, R262). -/
theorem vecMixTable_maps {o : VTri} {wd : Nat → Nat → Nat} {f : Nat → Nat → Nat → Nat → Nat → Nat × Flags}
    (h : vecMixTable v en i = some (o, wd, f)) (e : vecOpOf i = some op) :
    op.maps v en o.m o.d (wd v.n (codeBits o.x.toNat)) (fun row e =>
      f (codeBits o.x.toNat) (v.opElem o.a.toNat v.n row e) (v.opElem o.b.toNat (codeBits o.x.toNat) row e)
        (v.opElem o.d.toNat (wd v.n (codeBits o.x.toNat)) row e) (v.elem 1 8 (row * (v.vlmax / 32) + e / 32))) := by
  unfold vecMixTable at h
  simp only [] at h
  split at h
  case h_9 => cases h
  case h_1 | h_2 | h_3 | h_4 =>
    cases h; cases e
    dsimp only [opVwmulI, opVwmulN, opVwmaccI, opVwmaccN]
    exact vwInt_maps _ _ _
  case h_5 | h_6 =>
    cases h; cases e
    dsimp only [opVwmulFp, opVwmaccFp]
    exact vwFp_maps _ _
  case h_7 | h_8 =>
    cases h; cases e
    dsimp only [opVsmul, opVsmacc]
    exact vsOp_maps _ _

/-- An element-wise instruction does what the tables say, and nothing else (R250 to R262). -/
theorem vecElems_maps {m : BitVec 1} {d : BitVec 5} {w : Nat} {f : Nat → Nat → Nat × Flags}
    (h : vecElems v en i = some (m, d, w, f)) (e : vecOpOf i = some op) : op.maps v en m d w f := by
  unfold vecElems at h
  simp only [] at h
  split at h
  next o f t => cases h; exact VecOp.maps_congr (vbinOp_maps o .int _) (vecIntTable_run t e)
  next o f t _ => cases h; exact VecOp.maps_congr (vbinOp_maps o .fp _) (vecFpTable_run t e)
  next o f t _ _ => cases h; exact vecCvtTable_maps t e
  next o wd f t _ _ _ => cases h; exact vecMixTable_maps t e
  next =>
    split at h
    case h_9 => cases h
    case h_1 | h_2 | h_3 | h_4 | h_5 | h_6 =>
      cases h; cases e
      dsimp only [opVmov, opVbcast, opVid, opVsqrt, opVabs, opVneg]
      exact vunOp_maps _ _ _ _
    case h_7 | h_8 =>
      cases h; cases e
      dsimp only [opVdot4I8, opVdot4N8]
      exact vdot4Op_maps _ _ _ _ _ _
end
end Sys2Proof.Machine
end

section
namespace Sys2Proof.Machine

section
variable {s : State} {en : Entry} {rest : List Entry} {hid : BitVec 11} {op : VecOp}

/-- An element-wise instruction names no stream. -/
theorem vecElems_streamless {v : VecState} {i : Instr} {y : BitVec 1 × BitVec 5 × Nat × (Nat → Nat → Nat × Flags)}
    (h : vecElems v en i = some y) : streamOf i = none := by
  cases e : streamOf i with
  | none => rfl
  | some q =>
    have n : vecElems v en i = none := by
      unfold streamOf at e
      split at e
      case h_10 => cases e
      all_goals rfl
    rw [n] at h
    cases h

/-- An element-wise instruction at the head of its queue that may run stands done, with its results and flags (R250 to R262). -/
theorem vectorStart_elems {v : VecState} {m : BitVec 1} {d : BitVec 5} {w : Nat} {f : Nat → Nat → Nat × Flags}
    (q : (s.hartAt hid.toNat).vq = en :: rest) (ready : s.vecReady hid.toNat = true) (l : s.dev.latent = none)
    (sh : s.shared hid.toNat = false) (ac : en.acc = none) (o : vecOpOf en.instr = some op) (st : en.started = false)
    (tr : en.tried = 0) (strap : (s.hartAt hid.toNat).vec.splits op false = true → (s.hartAt hid.toNat).vec.strap = false)
    (b : (s.hartAt hid.toNat).vec.begun op en = v) (c : v.startCheck op en = none)
    (k : vecElems v en en.instr = some (m, d, w, f)) :
    let r := v.mapElems (maskOf m en) d.toNat w (copyOf en) f
    ∃ t e1, exec (.vectorStart hid) s = .next t ∧ (t.hartAt hid.toNat).vq = e1 :: rest ∧ e1.done = true ∧ e1.fl = en.fl ||| r.2 ∧
      (t.hartAt hid.toNat).vec = { r.1.chain op with ends := none } ∧ (t.hartAt hid.toNat).regs = (s.hartAt hid.toNat).regs ∧
      t.mem = s.mem := by
  intro r
  have look : (s.hartAt hid.toNat).look en = en := by
    unfold Hart.look
    rw [vecElems_streamless k]
  have strap' : ((!en.started && (s.hartAt hid.toNat).vec.splits op (en.tried != 0)) && (s.hartAt hid.toNat).vec.strap) = false := by
    rw [st, tr]
    show ((s.hartAt hid.toNat).vec.splits op false && (s.hartAt hid.toNat).vec.strap) = false
    cases e : (s.hartAt hid.toNat).vec.splits op false with
    | false => rfl
    | true => exact strap e
  have run := vecElems_maps k o (s.setHartAt hid.toNat { s.hartAt hid.toNat with vec := v })
    hid.toNat (by rw [State.hartAt_setHartAt])
  have head := State.vecHead_runs q o l sh ac strap' (by rw [look, b]; exact c)
  rw [look, b, run, State.setHartAt_setHartAt, State.hartAt_setHartAt] at head
  obtain ⟨e1, vq, done, fl, -, mem, vec, regs⟩ := State.vecAfter_done (op := op) (en := en) (now := s.now)
    (v := v) (d := {
      s := s.setHartAt hid.toNat { s.hartAt hid.toNat with vec := r.1 }, fl := r.2 }) (x := hid.toNat) (e := en) (rest := rest)
    (by rw [State.hartAt_setHartAt]; exact q) ac
  rw [State.hartAt_setHartAt] at vec regs
  refine ⟨_, e1, ?_, vq, done, fl, vec, regs, mem⟩
  exact congrArg Host.Outcome.next ((if_pos ready).trans head)

/-- An instruction that has waited at the head of its queue, tried again: it is done, or waits on (R153, R288). -/
theorem vector_retried {i : Instr} (q : (s.hartAt hid.toNat).vq = en :: rest) (ready : s.vecReady hid.toNat = true)
    (l : s.dev.latent = none) (sh : s.shared hid.toNat = false) (ac : en.acc = none) (o : vecOpOf en.instr = some op)
    (st : en.started = true) (tr : en.tried ≠ 0) (ends : (s.hartAt hid.toNat).vec.ends = none)
    (c : (s.hartAt hid.toNat).vec.startCheck op ((s.hartAt hid.toNat).look en) = none)
    (k : i = Instr.watchReread hid ∨ ((∃ d q c, en.instr = .vwait d q c) ∧
      (i = .vwaitReread hid ∨ (i = .vwaitTimeout hid ∧ s.vwaitOver hid.toNat = true)))) :
    exec i s = .next (State.vecAfter s.now hid.toNat op ((s.hartAt hid.toNat).look en) (s.hartAt hid.toNat).vec none
      (op.run (s.setHartAt hid.toNat (s.hartAt hid.toNat)) hid.toNat ((s.hartAt hid.toNat).look en))) := by
  have begun : (s.hartAt hid.toNat).vec.begun op en = (s.hartAt hid.toNat).vec := by
    unfold VecState.begun
    rw [st]
    exact VecState.endAt_none ends
  have head := State.vecHead_runs q o l sh ac (by rw [st]; rfl) (by rw [begun]; exact c)
  rw [begun] at head
  rw [exec_tries q ready st tr k, head]

end

/-- Settles O55, engine by engine: the head of a queue run, tried again or retired, a wmpub performed, a lookahead, an update. -/
theorem enginesWork : Obligations.EnginesWork := by
  intro s hid en rest x h
  refine ⟨fun q ready l sh ac => ⟨?_, ?_⟩, fun op u fl q ready o c r uq => matrixStart_done q ready o c r uq,
    fun op r w q ready o c e k uq => matrixStart_waits q ready o c e k uq,
    fun op c q ready o k surr bay => matrixStart_traps q ready o k surr bay,
    fun _ m early => instructionRetire_early m early,
    fun done due m n => ?_, fun p l u at_ q k sq size ready run look => ?_, fun q => lookaheadTranslate_keeps q,
    updateApply_none, fun l1 u l2 e before runs => State.appliable_first e before runs,
    fun u a bad => updateApply_loses a bad, fun u a sound => ⟨_, updateApply_applies a sound, rfl, rfl, rfl⟩⟩
  · intro op m d w f o st tr split v strap c k r
    have begun : h.vec.begun op en = v := by
      unfold VecState.begun
      rw [st, tr]
      rfl
    exact vectorStart_elems q ready l sh ac o st tr strap begun c k
  · intro op i o st tr ends c k
    have again := vector_retried q ready l sh ac o st tr ends c k
    refine ⟨fun d e r vq => ?_, fun r w e stop wait vq => ?_⟩
    · obtain ⟨e1, q1, done, -, res, mem, -, -⟩ := State.vecAfter_done (op := op) (now := s.now) (v := h.vec) vq
        ((Hart.look_acc _ _).trans ac)
      exact ⟨_, e1, again.trans (by rw [r]), q1, done, res, mem⟩
    · obtain ⟨e1, q1, done, tried, el, mem⟩ := State.vecAfter_waits (op := op) (en := h.look en) (now := s.now) (v := h.vec) wait vq
      exact ⟨_, e1, again.trans (by rw [stop]), q1, done, tried, el, mem⟩
  · have through : en.over s.now = true := (en.over_iff _).mpr ⟨done, due⟩
    exact ⟨fun q => instructionRetire_vec q through m n, fun q => instructionRetire_mat q through n⟩
  · obtain ⟨t, e, left, mem⟩ := instructionRetire_publish q k sq size ready run look
    refine ⟨t, e, left, ?_, fun y out => by rw [mem, Mem.byte_write_other _ _ _ _ _ out]⟩
    rw [mem, Mem.read_write]
    exact Nat.mod_eq_of_lt (max_lt (Mem.read_lt _ _ 8) p.val.isLt)

end Sys2Proof.Machine
end

section
namespace Sys2Proof.Machine

/-! ### Reading the fields of a word (R58) -/

/-- A number with a field added at bit p, as `asm` adds one. -/
def addField (n v p : Nat) : Nat := n + v * 2 ^ p
/-- The number that `asm` makes a word of. -/
def addFields (n : Nat) (l : List (Nat × Nat)) : Nat := l.foldl (fun n f => addField n f.1 f.2) n

-- Not by `rfl`: the kernel would compare the two sides by unfolding a sum that begins with a large literal.
@[simp] theorem addFields_nil (n : Nat) : addFields n [] = n := by rw [addFields, List.foldl_nil]
@[simp] theorem addFields_cons (n v p : Nat) (l : List (Nat × Nat)) : addFields n ((v, p) :: l) = addFields (addField n v p) l := by
  rw [addFields, List.foldl_cons, addFields]

section
variable {n lo len p w : Nat}

/-- A field above the bits read leaves them alone. -/
@[simp] theorem bits_addField_above (h : lo + len ≤ p) (v : Nat) : bits (addField n v p) lo len = bits n lo len := by
  obtain ⟨k, rfl⟩ := Nat.exists_eq_add_of_le h
  unfold addField bits
  rw [show v * 2 ^ (lo + len + k) = 2 ^ lo * (2 ^ len * (v * 2 ^ k)) by ring, Nat.add_mul_div_left _ _ (by positivity),
    Nat.add_mul_mod_self_left]

/-- A field put where the bits were clear is read back, with what stands above it. -/
theorem bits_addField_low (v : BitVec w) (c : bits n p w = 0) (h : w ≤ len) :
    bits (addField n v.toNat p) p len = bits n p len + v.toNat := by
  obtain ⟨k, rfl⟩ := Nat.exists_eq_add_of_le h
  obtain ⟨m, e⟩ := Nat.dvd_of_mod_eq_zero c
  unfold addField bits
  rw [Nat.add_mul_div_right _ _ (by positivity), e, pow_add, Nat.mul_mod_mul_left, Nat.mod_mul, Nat.mul_add_mod,
    Nat.mul_add_div (by positivity), Nat.mod_eq_of_lt v.isLt, Nat.div_eq_of_lt v.isLt, add_zero, add_comm]
@[simp] theorem bits_addField_at (v : BitVec w) (c : bits n p w = 0) : bits (addField n v.toNat p) p w = v.toNat := by
  rw [bits_addField_low v c le_rfl, c, zero_add]

/-- A field below the bits read, put where the bits were clear, leaves them alone. -/
@[simp] theorem bits_addField_below (v : BitVec w) (c : bits n p w = 0) (h : p + w ≤ lo) :
    bits (addField n v.toNat p) lo len = bits n lo len := by
  obtain ⟨k, rfl⟩ := Nat.exists_eq_add_of_le h
  obtain ⟨m, e⟩ := Nat.dvd_of_mod_eq_zero c
  have whole : (n + v.toNat * 2 ^ p) / 2 ^ (p + w) = n / 2 ^ (p + w) := by
    rw [pow_add, ← Nat.div_div_eq_div_mul, ← Nat.div_div_eq_div_mul, Nat.add_mul_div_right _ _ (by positivity), e,
      Nat.mul_add_div (by positivity), Nat.div_eq_of_lt v.isLt, add_zero, Nat.mul_div_cancel_left _ (by positivity)]
  unfold addField bits
  rw [pow_add _ (p + w), ← Nat.div_div_eq_div_mul, whole, Nat.div_div_eq_div_mul]

/-- Bits of the fixed part of a word, a literal. -/
theorem bits_ofNat (m : Nat) : bits (no_index (OfNat.ofNat m)) lo len = m / 2 ^ lo % 2 ^ len := by
  rw [bits]; rfl

@[simp] theorem code_asm (fixed : Nat) (l : List (Nat × Nat)) (h : lo + len ≤ 32) :
    code (asm fixed l) lo len = bits (addFields fixed l) lo len := by
  obtain ⟨k, e⟩ := Nat.exists_eq_add_of_le h
  show (BitVec.ofNat 32 (addFields fixed l)).toNat / 2 ^ lo % 2 ^ len = _
  rw [BitVec.toNat_ofNat, e, add_assoc, pow_add, Nat.mod_mul_right_div_self, pow_add, Nat.mod_mul_right_mod, bits]
theorem fld_eq (x : BitVec 32) : fld x lo len = BitVec.ofNat len (code x lo len) := by
  refine BitVec.eq_of_toNat_eq ?_
  simp [fld, code]

end

end Sys2Proof.Machine
end

section
namespace Sys2Proof.Machine

/-! ### A word as its fixed part and its fields (R58) -/

/-- A field of a word: its value and the place of its lowest bit. -/
structure Field where
  len : Nat
  val : BitVec len
  lo : Nat

/-- A field as `asm` takes it. -/
def Field.pair (f : Field) : Nat × Nat := (f.val.toNat, f.lo)
/-- The bits a field takes, whatever its value: how many, and from which on. -/
def Field.shape (f : Field) : Nat × Nat := (f.len, f.lo)

/-- A field of a shape has no bit among len bits from lo. -/
def offShape (lo len : Nat) (f : Nat × Nat) : Bool := Nat.ble (f.2 + f.1) lo || Nat.ble (lo + len) f.2
/-- A word has room for fields of these shapes: its fixed part is clear there, and each is beside the others. -/
def fitShapes (fixed : Nat) : List (Nat × Nat) → Bool
  | [] => true
  | f :: fs => Nat.beq (bits fixed f.2 f.1) 0 && Nat.ble (f.2 + f.1) 32 && fs.all (fun g => offShape g.2 g.1 f) && fitShapes fixed fs

/-- The field whose shape is len bits from lo, of fields with their shapes. -/
def pickField (lo len : Nat) : List (Nat × Nat) → List Field → Option Field
  | s :: shapes, f :: fs => bif Nat.beq s.2 lo && Nat.beq s.1 len then some f else pickField lo len shapes fs
  | _, _ => none
/-- What is read of a word of a fixed part and fields: a field, or the fixed part where no field is. The shapes stand
beside the fields so that where to read is found without the fields' values. -/
def readCode (fixed : Nat) (shapes : List (Nat × Nat)) (fs : List Field) (lo len : Nat) : Nat :=
  match pickField lo len shapes fs with
  | some f => f.val.toNat
  | none => bif shapes.all (offShape lo len) && Nat.ble (lo + len) 32 then bits fixed lo len
    else code (asm fixed (fs.map Field.pair)) lo len
/-- The same as a field. -/
def readFld (fixed : Nat) (shapes : List (Nat × Nat)) (fs : List Field) (lo len : Nat) : BitVec len :=
  match pickField lo len shapes fs with
  | some f => f.val.setWidth len
  | none => fld (asm fixed (fs.map Field.pair)) lo len

/-- The pairs that an encoder gives `asm` are those of fields. -/
inductive FieldsOf : List (Nat × Nat) → List Field → List (Nat × Nat) → Prop
  | nil : FieldsOf [] [] []
  | cons {l shapes : List (Nat × Nat)} {fs : List Field} {w p : Nat} {v : BitVec w} (rest : FieldsOf l fs shapes) :
    FieldsOf ((v.toNat, p) :: l) (⟨w, v, p⟩ :: fs) ((w, p) :: shapes)

section
variable {fixed lo len : Nat} {f : Field} {fs : List Field} {l shapes : List (Nat × Nat)}

theorem FieldsOf.eq_map (h : FieldsOf l fs shapes) : l = fs.map Field.pair ∧ shapes = fs.map Field.shape := by
  induction h with
  | nil => exact ⟨rfl, rfl⟩
  | cons _ ih => rw [ih.1, ih.2]; exact ⟨rfl, rfl⟩

theorem offShape_iff : offShape lo len f.shape = true ↔ f.lo + f.len ≤ lo ∨ lo + len ≤ f.lo := by
  rw [offShape, Bool.or_eq_true, Nat.ble_eq, Nat.ble_eq, Field.shape]
theorem fitShapes_cons : fitShapes fixed ((f :: fs).map Field.shape) = true ↔ bits fixed f.lo f.len = 0 ∧ f.lo + f.len ≤ 32 ∧
    (∀ g ∈ fs, offShape g.lo g.len f.shape = true) ∧ fitShapes fixed (fs.map Field.shape) = true := by
  rw [List.map_cons, fitShapes, Bool.and_eq_true, Bool.and_eq_true, Bool.and_eq_true, Nat.beq_eq, Nat.ble_eq, List.all_eq_true,
    List.forall_mem_map, and_assoc, and_assoc]
  rfl

/-- A field added is not read where it is not. -/
theorem bits_add_off (clear : bits fixed f.lo f.len = 0) (o : offShape lo len f.shape = true) :
    bits (addField fixed f.val.toNat f.lo) lo len = bits fixed lo len := by
  obtain below | above := offShape_iff.mp o
  · exact bits_addField_below f.val clear below
  · exact bits_addField_above above _
theorem fitShapes_add (clear : bits fixed f.lo f.len = 0) (apart : ∀ g ∈ fs, offShape g.lo g.len f.shape = true)
    (h : fitShapes fixed (fs.map Field.shape) = true) :
    fitShapes (addField fixed f.val.toNat f.lo) (fs.map Field.shape) = true := by
  induction fs with
  | nil => rfl
  | cons g gs ih =>
    obtain ⟨c, low, o, rest⟩ := fitShapes_cons.mp h
    obtain ⟨og, os⟩ := List.forall_mem_cons.mp apart
    exact fitShapes_cons.mpr ⟨(bits_add_off clear og).trans c, low, o, ih os rest⟩

/-- Bits where no field is are those of the fixed part. -/
theorem bits_off (h : fitShapes fixed (fs.map Field.shape) = true) (o : ∀ f ∈ fs, offShape lo len f.shape = true) :
    bits (addFields fixed (fs.map Field.pair)) lo len = bits fixed lo len := by
  induction fs generalizing fixed with
  | nil => rw [List.map_nil, addFields_nil]
  | cons f fs ih =>
    obtain ⟨clear, -, apart, rest⟩ := fitShapes_cons.mp h
    obtain ⟨of, os⟩ := List.forall_mem_cons.mp o
    rw [List.map_cons, Field.pair, addFields_cons, ih (fitShapes_add clear apart rest) os]
    exact bits_add_off clear of

/-- The bits of a field are its value. -/
theorem bits_at (h : fitShapes fixed (fs.map Field.shape) = true) (m : f ∈ fs) :
    bits (addFields fixed (fs.map Field.pair)) f.lo f.len = f.val.toNat ∧ f.lo + f.len ≤ 32 := by
  induction fs generalizing fixed with
  | nil => cases m
  | cons g gs ih =>
    obtain ⟨clear, low, apart, rest⟩ := fitShapes_cons.mp h
    have fit := fitShapes_add clear apart rest
    rw [List.map_cons, Field.pair, addFields_cons]
    obtain rfl | m := List.mem_cons.mp m
    · refine ⟨?_, low⟩
      rw [bits_off fit, bits_addField_at _ clear]
      exact fun g m => offShape_iff.mpr (offShape_iff.mp (apart g m)).symm
    · exact ih fit m

theorem pickField_some (found : pickField lo len (fs.map Field.shape) fs = some f) : f ∈ fs ∧ f.lo = lo ∧ f.len = len := by
  induction fs with
  | nil => cases found
  | cons g gs ih =>
    rw [List.map_cons, pickField] at found
    cases hit : Nat.beq g.shape.2 lo && Nat.beq g.shape.1 len
    case true =>
      obtain ⟨at_, long⟩ := Bool.and_eq_true_iff.mp hit
      rw [hit] at found
      cases found
      exact ⟨List.mem_cons_self, Nat.eq_of_beq_eq_true at_, Nat.eq_of_beq_eq_true long⟩
    case false =>
      rw [hit] at found
      obtain ⟨m, eq⟩ := ih found
      exact ⟨List.mem_cons_of_mem _ m, eq⟩

/-- A field that is found is read. -/
theorem code_of_pickField (h : fitShapes fixed (fs.map Field.shape) = true)
    (found : pickField lo len (fs.map Field.shape) fs = some f) :
    f.len = len ∧ code (asm fixed (fs.map Field.pair)) lo len = f.val.toNat := by
  obtain ⟨m, rfl, rfl⟩ := pickField_some found
  obtain ⟨value, low⟩ := bits_at h m
  exact ⟨rfl, (code_asm _ _ low).trans value⟩

theorem code_eq_readCode (h : FieldsOf l fs shapes) (fit : fitShapes fixed shapes = true) :
    code (asm fixed l) = readCode fixed shapes fs := by
  obtain ⟨rfl, rfl⟩ := h.eq_map
  funext lo len
  unfold readCode
  split
  next f found => exact (code_of_pickField fit found).2
  next =>
    cases o : (fs.map Field.shape).all (offShape lo len) && Nat.ble (lo + len) 32
    case true =>
      obtain ⟨o, low⟩ := Bool.and_eq_true_iff.mp o
      rw [code_asm _ _ (Nat.le_of_ble_eq_true low), bits_off fit (List.forall_mem_map.mp (List.all_eq_true.mp o))]
      rfl
    case false => rfl

theorem fld_eq_readFld (h : FieldsOf l fs shapes) (fit : fitShapes fixed shapes = true) :
    fld (asm fixed l) = readFld fixed shapes fs := by
  obtain ⟨rfl, rfl⟩ := h.eq_map
  funext lo len
  unfold readFld
  split
  next f found =>
    obtain ⟨rfl, value⟩ := code_of_pickField fit found
    rw [fld_eq, value, BitVec.ofNat_toNat]
  next => rfl

end
end Sys2Proof.Machine
end

section
namespace Sys2Proof.Machine

/-! ### Decoding what the encoder wrote (O18) -/

section
variable {fixed : Nat} {fs : List Field} {l shapes : List (Nat × Nat)} {i : Instr} {w : BitVec 32}

/-- The decoder's answer by what it reads of the word. -/
noncomputable def decodeBy (C : Nat → Nat → Nat) (F : (lo len : Nat) → BitVec len) :
    { r : Except DecodeError Instr // ∀ w, code w = C → fld w = F → decode w = r } := by
  refine ⟨?r, fun w hc hf => ?_⟩
  rotate_left
  unfold decode decodeLow decodeMajor01 decodeMajor02 decodeMajor03 decodeMajor04 decodeMajor05 decodeMajor06
    decodeMajor07 decodeMajor08 decodeMajor09 decodeMajor0A decodeMajor0B decodeMajor10 decodeMajor11 decodeMajor12
    decodeMajor14 decodeMajor15 decodeMajor16 decodeMajor17 decodeMajor18 decodeMajor19 decodeMajor1A decodeMajor1B
    decodeMajor20 decodeMajor21 decodeMajor22 decodeCopy decodeMajor26 decodeMajor27 fld2
  rw [hc, hf]

theorem accept_eq_ok {f : Bool} (a : f = true) (b : i.wellFormed = true) : accept f i = .ok i := by
  rw [accept, a, b]; rfl

/-- A word whose reads lead the decoder to accept an instruction that is well-formed. The last three hypotheses are
computed, for any values of the fields. -/
theorem decode_eq_ok {f : Bool} (ok : i.wellFormed = true) (h : FieldsOf l fs shapes) (fit : fitShapes fixed shapes = true)
    (e : (decodeBy (readCode fixed shapes fs) (readFld fixed shapes fs)).1 = accept f i) (fits : f = true) :
    decode (asm fixed l) = .ok i := by
  rw [(decodeBy _ _).2 _ (code_eq_readCode h fit) (fld_eq_readFld h fit), e]
  exact accept_eq_ok fits ok


/-- The two parts of an 11-bit immediate (R79), each a field of its own. -/
theorem imm11_high (x : BitVec 11) : x.toNat / 2 ^ 6 = (x.extractLsb' 6 5).toNat := by
  have := x.isLt
  simp only [BitVec.extractLsb'_toNat, Nat.shiftRight_eq_div_pow]
  omega
theorem imm11_low (x : BitVec 11) : x.toNat % 2 ^ 6 = (x.setWidth 6).toNat := (BitVec.toNat_setWidth 6 x).symm
theorem imm11_join (x : BitVec 11) :
    BitVec.ofNat (5 + 6) ((x.extractLsb' 6 5).toNat * 2 ^ 6 + (x.setWidth 6).toNat) = x := by
  rw [← imm11_high, ← imm11_low, Nat.div_add_mod']
  exact BitVec.ofNat_toNat 11 x

/-- An instruction with such an immediate, if it is decoded from the two parts. -/
theorem decode_imm11 (I : BitVec 5 → BitVec 5 → BitVec 11 → Instr) {d a : BitVec 5}
    (e : ∀ (x : BitVec 5) (y : BitVec 6), decode (asm fixed [(d.toNat, 21), (a.toNat, 16), (x.toNat, 11), (y.toNat, 0)]) =
      .ok (I d a (BitVec.ofNat (5 + 6) (x.toNat * 2 ^ 6 + y.toNat)))) (imm : BitVec 11) :
    decode (asm fixed [(d.toNat, 21), (a.toNat, 16), (imm.toNat / 2 ^ 6, 11), (imm.toNat % 2 ^ 6, 0)]) = .ok (I d a imm) := by
  rw [imm11_high, imm11_low, e, imm11_join]

theorem decode_copy (major : code w 26 6 = 36 ∨ code w 26 6 = 37) : decode w = decodeCopy w := by
  obtain m | m := major <;> simp only [decode, decodeLow, m]

/-- The bit `w` of a copy's word is the low bit of its major (R187). -/
theorem decode_asm_copy {fixed : Nat} (c : BitVec 1) {l : List (Nat × Nat)} (major : bits fixed 26 6 = 36)
    (below : code (asm fixed ((c.toNat, 26) :: l)) 26 6 = bits (addField fixed c.toNat 26) 26 6) :
    decode (asm fixed ((c.toNat, 26) :: l)) = decodeCopy (asm fixed ((c.toNat, 26) :: l)) := by
  have clear : bits fixed 26 1 = 0 := by unfold bits at *; omega
  refine decode_copy ?_
  rw [below, bits_addField_low c clear (by decide), major]
  have := c.isLt
  omega

theorem decode_encodeScalar (ok : i.wellFormed = true) (h : encodeScalar i = some w) : decode w = .ok i := by
  cases i
  all_goals cases h
  case andi => exact decode_imm11 .andi (fun _ _ => decode_eq_ok rfl (by repeat constructor) rfl rfl rfl) _
  case ori => exact decode_imm11 .ori (fun _ _ => decode_eq_ok rfl (by repeat constructor) rfl rfl rfl) _
  case xori => exact decode_imm11 .xori (fun _ _ => decode_eq_ok rfl (by repeat constructor) rfl rfl rfl) _
  case slti => exact decode_imm11 .slti (fun _ _ => decode_eq_ok rfl (by repeat constructor) rfl rfl rfl) _
  case sltiu => exact decode_imm11 .sltiu (fun _ _ => decode_eq_ok rfl (by repeat constructor) rfl rfl rfl) _
  case aupc d imm =>
    -- `sel` of major 0x08 is d, which is no jump's from 3 on (R81)
    have other : 3 ≤ d.toNat := of_decide_eq_true ok
    simp only [decode, decodeLow, decodeMajor08, fld_eq, code_asm, addFields_cons, addFields_nil, bits_addField_at,
      bits_addField_below, bits_addField_above, bits_ofNat, BitVec.ofNat_toNat, BitVec.setWidth_eq, Nat.reducePow, Nat.reduceDiv,
      Nat.reduceMod, Nat.reduceAdd, Nat.reduceLeDiff]
    split
    case h_4 => exact accept_eq_ok rfl ok
    all_goals omega
  all_goals exact decode_eq_ok ok (by repeat constructor) rfl rfl rfl

theorem decode_encodeStream (ok : i.wellFormed = true) (h : encodeStream i = some w) : decode w = .ok i := by
  cases i
  all_goals cases h
  all_goals exact decode_eq_ok ok (by repeat constructor) rfl rfl rfl

theorem decode_encodeVector (ok : i.wellFormed = true) (h : encodeVector i = some w) : decode w = .ok i := by
  cases i
  all_goals cases h
  all_goals exact decode_eq_ok ok (by repeat constructor) rfl rfl rfl

theorem decode_encodeEngine (ok : i.wellFormed = true) (h : encodeEngine i = some w) : decode w = .ok i := by
  cases i
  all_goals cases h
  case cpGo.refl o =>
    have fl : o.fl.toNat ≠ 7 := of_decide_eq_true ok
    rw [decode_asm_copy o.w (by decide)]
    all_goals simp only [decodeCopy, fld_eq, code_asm, addFields_cons, addFields_nil, bits_addField_at, bits_addField_below,
      bits_addField_above, bits_ofNat, BitVec.ofNat_toNat, BitVec.setWidth_eq, Nat.reducePow, Nat.reduceDiv, Nat.reduceMod,
      Nat.reduceAdd, Nat.reduceLeDiff, if_neg fl]
    exact accept_eq_ok rfl ok
  case cpXpd.refl o =>
    have ty : o.ty.toNat ≠ 3 := of_decide_eq_true ok
    rw [decode_asm_copy o.w (by decide)]
    all_goals simp only [decodeCopy, fld_eq, code_asm, addFields_cons, addFields_nil, bits_addField_at, bits_addField_below,
      bits_addField_above, bits_ofNat, BitVec.ofNat_toNat, BitVec.setWidth_eq, Nat.reducePow, Nat.reduceDiv, Nat.reduceMod,
      Nat.reduceAdd, Nat.reduceLeDiff, ↓reduceIte, if_neg ty]
    exact accept_eq_ok rfl ok
  case cpShape | cpCnt =>
    simp only [decode, decodeLow, decodeCopy, fld_eq, code_asm, addFields_cons, addFields_nil, bits_addField_at, bits_addField_below,
      bits_addField_above, bits_ofNat, BitVec.ofNat_toNat, BitVec.setWidth_eq, Nat.reducePow, Nat.reduceDiv, Nat.reduceMod,
      Nat.reduceAdd, Nat.reduceMul, Nat.reduceLeDiff, ↓reduceIte, and_self, decide_true]
    exact accept_eq_ok rfl ok
  all_goals exact decode_eq_ok ok (by repeat constructor) rfl rfl rfl

theorem decode_encode (ok : i.wellFormed = true) (h : encode i = some w) : decode w = .ok i := by
  unfold encode at h
  split at h
  case h_1 e => exact decode_encodeScalar ok (e.trans h)
  case h_2 e _ => exact decode_encodeStream ok (e.trans h)
  case h_3 e _ _ => exact decode_encodeVector ok (e.trans h)
  case h_4 => exact decode_encodeEngine ok h

theorem decodeLogit_encodeLogit (ok : i.wellFormed = true) (h : encodeLogit i = some w) : decodeLogit w = some i := by
  cases i
  all_goals cases h
  all_goals
    have pred := of_decide_eq_true ok
    simp only [decodeLogit, decodeLogitWith, LogitCases.instrs, keep, fld_eq, code_asm, addFields_cons, addFields_nil, bits_addField_at,
      bits_addField_below, bits_addField_above, bits_ofNat, BitVec.ofNat_toNat, BitVec.setWidth_eq, Nat.reducePow,
      Nat.reduceDiv, Nat.reduceMod, Nat.reduceAdd, Nat.reduceLeDiff, ↓reduceIte, and_self, decide_true]
    exact if_neg (by omega)

end

/-- Settles O18, encoder by encoder: reading back a field that `asm` has placed gives the field, and reading a fixed part its code. -/
theorem roundTrip : Obligations.RoundTrip := ⟨fun _ _ => decode_encode, fun _ _ => decodeLogit_encodeLogit⟩

end Sys2Proof.Machine
end

section
namespace Sys2Proof.Machine

/-! ### What the decoder accepts (O17, O19) -/

/-- Settles O17: the kernel decodes the words as written. -/
theorem decodeExamples : Obligations.DecodeExamples :=
  ⟨rfl, rfl, rfl, rfl, rfl, rfl, rfl, rfl, rfl, rfl, rfl, rfl, rfl⟩

/-- A decoder's answer, if it is an instruction, is a well-formed one. -/
def WellDecoded (r : Except DecodeError Instr) : Prop := ∀ i, r = .ok i → i.wellFormed = true

@[simp] theorem wellDecoded_error (e : DecodeError) : WellDecoded (.error e) := by rintro _ ⟨⟩
@[simp] theorem wellDecoded_accept (fits : Bool) (i : Instr) : WellDecoded (accept fits i) := by
  intro j h
  unfold accept at h
  split at h
  case isTrue c =>
    cases h
    exact (Bool.and_eq_true_iff.mp c).2
  case isFalse => cases h

theorem wellDecoded_decode (w : BitVec 32) : WellDecoded (decode w) := by
  unfold decode decodeLow
  repeat' split
  all_goals simp only [wellDecoded_error, decodeMajor01, decodeMajor02, decodeMajor03, decodeMajor04, decodeMajor05, decodeMajor06,
    decodeMajor07, decodeMajor08, decodeMajor09, decodeMajor0A, decodeMajor0B, decodeMajor10, decodeMajor11, decodeMajor12,
    decodeMajor14, decodeMajor15, decodeMajor16, decodeMajor17, decodeMajor18, decodeMajor19, decodeMajor1A, decodeMajor1B,
    decodeMajor20, decodeMajor21, decodeMajor22, decodeCopy, decodeMajor26, decodeMajor27]
  all_goals repeat' split
  all_goals simp only [wellDecoded_error, wellDecoded_accept]

theorem keep_eq_some {α : Type} {fits : Bool} {x y : α} (h : keep fits x = some y) : y = x := by
  unfold keep at h
  split at h <;> cases h
  rfl

/-- Predicate 3 is reserved (R348), and no other field of a logit instruction is. -/
theorem wellFormed_of_decodeLogit {w : BitVec 32} {i : Instr} (h : decodeLogit w = some i) : i.wellFormed = true := by
  unfold decodeLogit decodeLogitWith at h
  split at h
  case isTrue => cases h
  case isFalse reserved =>
    have admitted : (fld w 20 2).toNat ≤ 2 := by
      have : code w 20 2 < 4 := Nat.mod_lt _ (by decide)
      rw [fld, BitVec.toNat_ofNat]
      unfold code at *
      omega
    split at h
    case h_20 => cases h
    all_goals
      cases keep_eq_some h
      exact decide_eq_true admitted

/-- Settles O19, branch by branch of the decoder: each ends in an error or in `accept`, and `accept` tests the instruction. -/
theorem decodedIsWellFormed : Obligations.DecodedIsWellFormed :=
  ⟨wellDecoded_decode, fun _ _ => wellFormed_of_decodeLogit⟩

end Sys2Proof.Machine
end

section
namespace Sys2Proof.Machine

/-! ### What a trap of the acting hart leaves (R127 to R129) -/

section
variable {s : State} {x : Nat} {t : Trap} {site : TrapSite} {post : Bool}

@[simp] theorem State.cur_setMember (s : State) (g i : Nat) (f : Member → Member) : (s.setMember g i f).cur = s.cur := by
  unfold State.setMember
  split <;> rfl
@[simp] theorem State.cur_releaseBay (s : State) (cl b : Nat) : (s.releaseBay cl b).cur = s.cur := by
  simp only [State.releaseBay, apply_ite State.cur, State.setHartAt_cur, State.setClusAt_cur, ite_self]
@[simp] theorem State.cur_forceRelease (s : State) (cl b : Nat) : (s.forceRelease cl b).cur = s.cur := by
  simp only [State.forceRelease, apply_ite State.cur, State.cur_setMember, State.setHartAt_cur, State.cur_releaseBay, ite_self]
@[simp] theorem State.cur_endRoutine (s : State) (x : Nat) : (s.endRoutine x).cur = s.cur := by
  simp only [State.endRoutine]
  split
  next => rfl
  next => simp only [apply_ite State.cur, State.cur_forceRelease, State.setHartAt_cur, ite_self]
@[simp] theorem State.cur_beginSuspend : (s.beginSuspend x t site post).cur = s.cur := by
  simp only [State.beginSuspend, apply_ite State.cur, State.setHartAt_cur, State.cur_endRoutine, State.cur_forceRelease, ite_self]

/-- A suspension's record holds the trap's address, in a surrender routine too. -/
theorem State.beginSuspend_marks : ((s.beginSuspend x t site post).hartAt x).run = .suspending ∧
    ((s.beginSuspend x t site post).hartAt x).hdr.addr = t.addr := by
  unfold State.beginSuspend
  rw [State.hartAt_setHartAt]
  exact ⟨rfl, rfl⟩

/-- A soft error that is met changes the records of functions alone (R366). -/
theorem State.errorMet_only (s : State) (f hid : Nat) (dva : Word) :
    ∃ d, s.errorMet f hid dva = { s with dev := d } := by
  unfold State.errorMet
  split
  · exact ⟨s.dev, rfl⟩
  · exact ⟨_, rfl⟩

/-- A trap is a suspension with a record, of a state that differs in what the device keeps of a soft error at most. -/
theorem State.takeTrap_eq (s : State) (x : Nat) (t : Trap) (site : TrapSite) :
    ∃ d, s.takeTrap x t site = { s with dev := d }.beginSuspend x t site true := by
  unfold State.takeTrap
  split
  · obtain ⟨d, e⟩ := s.errorMet_only (s.whoOf x).fn x t.addr
    exact ⟨d, by rw [e]⟩
  · exact ⟨s.dev, rfl⟩

theorem State.trapSeq_run (s : State) (t : Trap) : (s.trapSeq t).hart.run = .suspending := by
  obtain ⟨d, e⟩ := s.takeTrap_eq s.cur t { engine := unitOf s.ir, ipc := s.hart.pc, word := s.ir }
  rw [State.trapSeq, e, State.hart, State.cur_beginSuspend]
  exact State.beginSuspend_marks.1

/-- What a precise trap of the acting hart leaves, outside a surrender routine. -/
theorem State.trapSeq_plain (surr : s.hart.surr = none) (bay : s.hart.bay.isOpen = false) (t : Trap) :
    let u := s.trapSeq t
    u.hart.run = .suspending ∧ u.hart.hdr.cause = t.cause ∧ u.hart.hdr.word = s.ir ∧ u.hart.hdr.addr = t.addr ∧
      u.hart.hdr.ipc = s.hart.pc ∧ u.hart.hdr.rpc = s.hart.pc ∧ u.hart.regs = s.hart.regs ∧ u.mem = s.mem ∧
      ∀ j, j ≠ s.cur → u.hartAt j = s.hartAt j := by
  intro u
  obtain ⟨d, e⟩ := s.takeTrap_eq s.cur t { engine := unitOf s.ir, ipc := s.hart.pc, word := s.ir }
  have eu : u = _ := e
  obtain ⟨k, set, hk, cause, -, ipc, word, rpc⟩ := State.beginSuspend_plain (s := { s with dev := d }) (x := s.cur)
    (t := t) (site := { engine := unitOf s.ir, ipc := s.hart.pc, word := s.ir }) (post := true) surr bay
  have here : u.hart = k := by
    rw [eu, State.hart, State.cur_beginSuspend, set]
    exact State.hartAt_setHartAt _ _ _
  have addr : u.hart.hdr.addr = t.addr := by
    rw [eu, State.hart, State.cur_beginSuspend]
    exact State.beginSuspend_marks.2
  have regs : k.regs = s.hart.regs := by
    rw [hk, Hart.savePfx_eq, Hart.unpark_eq]
    rfl
  refine ⟨s.trapSeq_run t, here ▸ cause, here ▸ word, addr, here ▸ ipc, here ▸ rpc, here ▸ regs, ?_, fun j n => ?_⟩
  · rw [eu, set]; rfl
  · rw [eu, set]; exact State.hartAt_setHartAt_other _ _ n

end

/-! ### A step that dispatches (O15, O16) -/

section
variable {s r : State} {hid : Nat}

/-- With no outside event ahead, a step tries the next word of the hart whose turn it is (R33, R120, R122). -/
theorem step_eq_dispatch (agenda : s.agenda = []) (stopped : s.dev.stopped = false) (c : s.chooses r hid) :
    step s = r.dispatch hid := by
  have go : step s = s.go := by simp only [step, agenda, stopped, Bool.false_eq_true, if_false]
  rw [go, State.go]
  obtain ⟨pair, rfl, rfl⟩ | ⟨pair, due, k, core, rfl, pick⟩ := c
  · rw [if_pos pair]
  · simp only [pair, due, core, pick, Bool.false_eq_true, if_false]

theorem step_of_attempt {t : State} (agenda : s.agenda = []) (stopped : s.dev.stopped = false) (c : s.chooses r hid)
    (a : r.attempt hid = .next t) : step s = .next (r.issued t hid r.goes) := by
  rw [step_eq_dispatch agenda stopped c, State.dispatch, a]

end

section
variable {a u : State} {pa : Nat}

/-! What a fetch finds (R57, R101, R366). -/

theorem State.fetch_instr {i : Instr} (d : a.dv a.who a.hart.pc.toNat .exec 2 = .ok (u, pa)) (ok : u.spoiled 3 0 pa 4 = false)
    (e : decode (BitVec.ofNat 32 (u.mem.read pa 4)) = .ok i) :
    a.fetch = ({ u with ir := BitVec.ofNat 32 (u.mem.read pa 4) }, i) := by
  simp only [State.fetch, d, ok, e, Bool.false_eq_true, if_false]
theorem State.fetch_noInstr {e : DecodeError} (d : a.dv a.who a.hart.pc.toNat .exec 2 = .ok (u, pa))
    (ok : u.spoiled 3 0 pa 4 = false) (no : decode (BitVec.ofNat 32 (u.mem.read pa 4)) = .error e) :
    a.fetch = ({ u with ir := BitVec.ofNat 32 (u.mem.read pa 4) }, .wordNotAnInstruction (BitVec.ofNat 32 (u.mem.read pa 4))) := by
  simp only [State.fetch, d, ok, no, Bool.false_eq_true, if_false]
theorem State.fetch_spoiled (d : a.dv a.who a.hart.pc.toNat .exec 2 = .ok (u, pa)) (bad : u.spoiled 3 0 pa 4 = true) :
    a.fetch = ({ a with ir := 0 }, .fetchFault 0x52) := by
  simp only [State.fetch, d, bad, if_true]
theorem State.fetch_fault {t : Trap} (d : a.dv a.who a.hart.pc.toNat .exec 2 = .error (.trap t)) :
    a.fetch = ({ a with ir := 0 }, .fetchFault t.cause) := by
  simp only [State.fetch, d]
theorem State.fetchWait_ok (d : a.dv a.who a.hart.pc.toNat .exec 2 = .ok (u, pa)) : a.fetchWait = none := by
  simp only [State.fetchWait, d]
theorem State.fetchWait_fault {t : Trap} (d : a.dv a.who a.hart.pc.toNat .exec 2 = .error (.trap t)) : a.fetchWait = none := by
  simp only [State.fetchWait, d]
theorem State.fetchWait_wait {w : Wait} (d : a.dv a.who a.hart.pc.toNat .exec 2 = .error (.wait w)) : a.fetchWait = some w := by
  simp only [State.fetchWait, d]

end

/-- The instruction fetched in x, which leads to t, is executed: no access in stream S can still trap, or it may run ahead of one
and goes on (R99). -/
def State.goesOn (x t : State) : Prop := x.hart.unsettled = false ∨ (runsAhead x.ir = true ∧ t.hart.run = .running)

section
variable {r x t : State} {hid : Nat} {i : Instr}

/-- A word that is fetched and needs no register still to be written is executed, or waits behind an access that can still trap. -/
theorem State.attempt_of_fetch (wait : { r with cur := hid, turn := hid / 8 : State }.fetchWait = none)
    (fetch : { r with cur := hid, turn := hid / 8 : State }.fetch = (x, i)) (free : x.hart.blocked x.ir = [])
    (e : exec i x = .next t) :
    (x.goesOn t → r.attempt hid = .next t) ∧ (¬ x.goesOn t → r.attempt hid = .next (x.waitFor .settled)) := by
  have tried : r.attempt hid = if x.hart.unsettled then x.execBehind i else .next t := by
    simp only [State.attempt, wait, fetch, free, e, List.isEmpty_nil, Bool.not_true, Bool.false_eq_true, if_false]
  rw [tried, State.execBehind, e]
  unfold State.goesOn
  cases hu : x.hart.unsettled
  case false => simp
  case true =>
    cases ha : runsAhead x.ir
    case false => simp
    case true => by_cases run : t.hart.run = .running <;> simp [run]

theorem State.attempt_wait {w : Wait} (wait : { r with cur := hid, turn := hid / 8 : State }.fetchWait = some w) :
    r.attempt hid = .next ({ r with cur := hid, turn := hid / 8 : State }.waitFor w) := by
  simp only [State.attempt, wait]

end

/-- Settles O15: a dispatch fetches, decodes and executes. -/
theorem stepRunsDecoded : Obligations.StepRunsDecoded := by
  intro s r u hid pa i agenda stopped c a d dec x clean free t e goesOn
  obtain ⟨on, behind⟩ := State.attempt_of_fetch (State.fetchWait_ok d) (State.fetch_instr d clean dec) free e
  exact ⟨fun g => step_of_attempt agenda stopped c (on g), fun g => step_of_attempt agenda stopped c (behind g)⟩

/-! ### Words that are no instruction, and fetch faults (O16) -/

theorem exec_wordNotAnInstruction (w : BitVec 32) (s : State) : exec (.wordNotAnInstruction w) s =
    .next ({ s with ir := w }.trapSeq ⟨if code w 26 6 = 0 ∨ code w 26 6 = 63 then 0x01 else 0x02, 0⟩) := rfl
theorem exec_fetchFault (c : BitVec 8) (s : State) :
    exec (.fetchFault c) s = .next ({ s with ir := 0 }.trapSeq ⟨c, s.hart.pc⟩) := rfl

/-- A fetch fault's word, 0, needs no register. -/
theorem Hart.blocked_zero (h : Hart) : h.blocked 0 = [] := by
  have none_used : seqUses 0 ++ engUses 0 = [] := by decide
  rw [Hart.blocked, none_used, List.filter_nil]

/-- An event of the fetch that traps waits behind an access that can still trap, as it ends the hart's run. -/
theorem step_of_fetch_trap {s r x : State} {hid : Nat} {i : Instr} {t : Trap} (agenda : s.agenda = [])
    (stopped : s.dev.stopped = false) (c : s.chooses r hid)
    (wait : { r with cur := hid, turn := hid / 8 : State }.fetchWait = none)
    (fetch : { r with cur := hid, turn := hid / 8 : State }.fetch = (x, i)) (free : x.hart.blocked x.ir = [])
    (e : exec i x = .next (x.trapSeq t)) :
    (x.hart.unsettled = false → step s = .next (r.issued (x.trapSeq t) hid r.goes)) ∧
    (x.hart.unsettled = true → step s = .next (r.issued (x.waitFor .settled) hid r.goes)) := by
  obtain ⟨on, behind⟩ := State.attempt_of_fetch wait fetch free e
  refine ⟨fun u => step_of_attempt agenda stopped c (on (.inl u)), fun u => step_of_attempt agenda stopped c (behind ?_)⟩
  rintro (settled | ⟨-, run⟩)
  · rw [u] at settled; cases settled
  · rw [State.trapSeq_run] at run; cases run

/-- Settles O16: a fetch that fails leads to the row of the table that stands for it, and the row is a precise trap. -/
theorem stepTraps : Obligations.StepTraps := by
  refine ⟨fun s r hid agenda stopped c => ⟨?_, ?_, ?_, ?_⟩, fun s w c surr bay => ⟨?_, ?_⟩⟩
  · intro u pa e d no clean w x free
    exact step_of_fetch_trap agenda stopped c (State.fetchWait_ok d) (State.fetch_noInstr d clean no) free
      (exec_wordNotAnInstruction w x)
  · intro u pa d bad
    exact step_of_fetch_trap agenda stopped c (State.fetchWait_ok d) (State.fetch_spoiled d bad) (Hart.blocked_zero _)
      (exec_fetchFault _ _)
  · intro k d
    exact step_of_fetch_trap agenda stopped c (State.fetchWait_fault d) (State.fetch_fault d) (Hart.blocked_zero _)
      (exec_fetchFault _ _)
  · intro k d
    exact step_of_attempt agenda stopped c (State.attempt_wait (State.fetchWait_wait d))
  · exact ⟨_, exec_wordNotAnInstruction w s, State.trapSeq_plain (s := { s with ir := w }) surr bay _⟩
  · exact ⟨_, exec_fetchFault c s, State.trapSeq_plain (s := { s with ir := 0 }) surr bay _⟩

end Sys2Proof.Machine
end

section
namespace Sys2Proof.Machine

/-! ### Prefixes (O8) -/

section
variable (m c : BitVec 5) (pop push hint : BitVec 4)

/-- The word of `pfx` is one of five fields (R60). -/
theorem pfxWord_eq_asm : pfxWord m c pop push hint =
    asm 0x40000000 [(m.toNat, 21), (c.toNat, 16), (pop.toNat, 12), (push.toNat, 8), (hint.toNat, 0)] := by
  rw [pfxWord, asm]
  simp only [List.foldl_cons, List.foldl_nil, pow_zero, mul_one]

/-- Reading a `pfx` word back gives its fields. -/
theorem pfxWord_fields : pfxMask (pfxWord m c pop push hint) = m.toNat ∧ pfxCopy (pfxWord m c pop push hint) = c.toNat ∧
    pfxPop (pfxWord m c pop push hint) = pop.toNat ∧ pfxPush (pfxWord m c pop push hint) = push.toNat ∧
    pfxHint (pfxWord m c pop push hint) = hint.toNat := by
  have reads := code_eq_readCode (fixed := 0x40000000) (l := [(m.toNat, 21), (c.toNat, 16), (pop.toNat, 12), (push.toNat, 8),
    (hint.toNat, 0)]) (.cons (.cons (.cons (.cons (.cons .nil))))) rfl
  rw [← pfxWord_eq_asm] at reads
  have field (lo len : Nat) := congrFun (congrFun reads lo) len
  exact ⟨field 21 5, field 16 5, field 12 4, field 8 4, field 0 4⟩

/-- A `pfx` word behind no other waits for the next word (R60). -/
theorem exec_pfx {s : State} (none_yet : s.hart.pfx = none) : exec (.pfx m c pop push hint) s =
    .next (s.setHart { s.hart.count 1 with
    pc := (s.hart.pc + 4) &&& pcMask, wait := none, soon := hint.getLsbD 2, pfxOld := false
    pfx := some (pfxWord m c pop push hint, false) }) :=
  congrArg Host.Outcome.next (State.bare_ok none_yet rfl)

end

section
variable {s : State} {w : BitVec 32} {took : Bool} {body : State → Except Stop (State × After)}

theorem pfxMisuse_s : pfxMisuse w .s false false = false ↔ pfxMask w = 0 ∧ pfxCopy w = 0 ∧
    (pfxPop w = 0 ∨ tokConsumer (pfxPop w) = .s) ∧ (pfxPush w = 0 ∨ tokProducer (pfxPush w) = .s) := by
  simp only [pfxMisuse, Bool.or_eq_false_iff, Bool.and_eq_false_iff, Bool.not_false, Bool.true_eq_false, or_false,
    bne_eq_false_iff_eq, and_assoc]

/-- A `pfx` word that does not fit the sequencer traps (R62). -/
theorem State.frame_misused (p : s.hart.pfx = some (w, took)) (bad : pfxMisuse w .s false false = true) :
    s.frame none none body = s.trapSeq ⟨0x03, 0⟩ := by
  simp only [State.frame, p, bad, if_true]

/-- A pop that finds no token waits (R35). -/
theorem State.frame_pop (p : s.hart.pfx = some (w, false)) (ok : pfxMisuse w .s false false = false) (asks : pfxPop w ≠ 0)
    (empty : s.hart.tokens (pfxPop w) = 0) : s.frame none none body = s.waitFor (.pop (pfxPop w)) := by
  have stuck : (pfxPop w != 0 && s.hart.tokens (pfxPop w) == 0) = true := by simp [asks, empty]
  simp only [State.frame, p, ok, popOf, stuck, Bool.false_eq_true, if_false, if_true]

/-- A push that finds no slot waits, once no pop does (R35). -/
theorem State.frame_push (p : s.hart.pfx = some (w, took)) (ok : pfxMisuse w .s false false = false)
    (popped : took = true ∨ pfxPop w = 0 ∨ s.hart.tokens (pfxPop w) ≠ 0) (asks : pfxPush w ≠ 0)
    (full : s.hart.fullTok (pfxPush w) = true) : s.frame none none body = s.waitFor (.push (pfxPush w)) := by
  have pops : (popOf (some (w, took)) != 0 && s.hart.tokens (popOf (some (w, took))) == 0) = false := by
    cases took
    case true => rfl
    case false => simpa [popOf, or_iff_not_imp_left] using popped
  have stuck : (pfxPush w != 0 && s.hart.fullTok (pfxPush w)) = true := by simp [asks, full]
  simp only [State.frame, p, ok, pops, pushOf, stuck, Bool.false_eq_true, if_false, if_true]

/-- Eight slots taken fill a FIFO, whatever it keeps for tokens that may come back (R35). -/
theorem Hart.fullTok_of_le {h : Hart} {id : Nat} (le : 8 ≤ h.tokens id + h.reserved id) : h.fullTok id = true := by
  refine decide_eq_true (le.trans ?_)
  unfold Hart.slotsTaken
  omega

end

/-- Integer and floating-point instructions compute alone: no cause of their own comes before that of their `pfx` word. -/
theorem exec_simple {i : Instr} {s : State} (h : (∃ r, intResult s i = some r) ∨ (∃ r, fpResult s i = some r)) :
    ∃ g, exec i s = .next (s.simple g) := by
  obtain ⟨r, h⟩ | ⟨r, h⟩ := h
  all_goals
    cases i
    all_goals cases h
    all_goals exact ⟨_, rfl⟩

/-- Settles O8: `pfx` is an instruction that takes no other before it, and the frame of the instructions that take one looks at
it first. -/
theorem prefixes : Obligations.Prefixes := by
  refine ⟨fun m c pop push hint s => ⟨fun none_yet => ?_, fun prefixed => ?_⟩, fun i s w took h p => ?_⟩
  · obtain ⟨mask, copy, pop', push', hint'⟩ := pfxWord_fields m c pop push hint
    refine ⟨_, exec_pfx m c pop push hint none_yet, ?_⟩
    rw [State.hart_setHart]
    refine ⟨rfl, rfl, ?_, ?_, ?_, mask, copy, pop', push', hint',
      ⟨rfl, rfl, rfl, rfl, rfl, rfl, rfl, rfl, fun j n => State.hartAt_setHartAt_other s _ n⟩, rfl, rfl⟩
    all_goals rw [Hart.count_eq]
  · exact congrArg Host.Outcome.next (State.bare_prefixed prefixed)
  · obtain ⟨g, e⟩ := exec_simple h
    rw [e, State.simple, State.sequencer]
    refine ⟨fun bad => ?_, fun ok untaken asks empty => ?_, fun ok popped asks full => ?_⟩
    · rw [State.frame_misused p (Bool.of_not_eq_false (mt pfxMisuse_s.mp bad))]
    · subst untaken
      rw [State.frame_pop p (pfxMisuse_s.mpr ok) asks empty]
    · rw [State.frame_push p (pfxMisuse_s.mpr ok) popped asks (Hart.fullTok_of_le full)]

end Sys2Proof.Machine
end

section
namespace Sys2Proof.Machine

/-! ### A gang that starts at the frame boundary (O52) -/

/-- The machine of reset where core 0 keeps a translation of the page at 0x50000 in HBM, and gang 1, whose launch block lies
there, starts at the next frame boundary. -/
def startingGang : State :=
  (State.reset.setCoreAt 0 { State.reset.coreAt 0 with
    tlb := [{ ctx := 0, page := 0x50000, at_ := 0, pte := 0x5067B, hid := 0, q := 0 }] }).setGangAt 1 { block := 0x50000 }

/-- The energy that an outcome leaves charged. -/
def energyAfter (o : Host.Outcome State Fault Refusal) : Nat :=
  match o with
  | .next t => t.dev.energy
  | _ => 0

/-- Writing the state of the gang into its block is charged in the new frame (R44, R47, R118). -/
theorem startingGang_charged : energyAfter (execFrameBoundary startingGang) = 2 := by decide

/-- Refutes O52: the statement says that no energy is charged and no use counted right after a frame boundary, but a gang that
starts there has its state written into its launch block, a block of HBM, at its reservation's cost. -/
theorem not_frameBoundary : ¬ Obligations.FrameBoundary := by
  intro h
  obtain ⟨t, boundary, -, none_charged, -⟩ := h startingGang
  have charged : energyAfter (.next t) = 2 := boundary ▸ startingGang_charged
  exact absurd (none_charged ▸ charged : 0 = 2) (by decide)

end Sys2Proof.Machine
end

section
namespace Sys2Proof.Machine

/-! ### Posting a record (R128) -/

/-- What posting a record may change of a machine: memory, what the device counts and keeps of soft errors, and the cores' trap rings;
no reservation and no gang. -/
def State.posts (s t : State) : Prop := s.reaches t ∧ t.dev.rsv = s.dev.rsv ∧ t.dev.gangs = s.dev.gangs

section
variable {s t u : State}

theorem State.posts_refl (s : State) : s.posts s := ⟨s.reaches_refl, rfl, rfl⟩
theorem State.posts_trans (a : s.posts t) (b : t.posts u) : s.posts u := by
  obtain ⟨ra, rsva, ga⟩ := a
  obtain ⟨rb, rsvb, gb⟩ := b
  exact ⟨State.reaches_trans ra rb, rsvb.trans rsva, gb.trans ga⟩

theorem State.posts_touch (s : State) (pa kind : Nat) : s.posts (s.touch pa kind) := by
  unfold State.touch
  split <;> exact ⟨rfl, rfl, rfl⟩
theorem State.posts_xlate {who : Who} {a kind pa : Nat} {acc : Acc} (h : s.xlate who a acc kind = .ok (t, pa)) : s.posts t := by
  unfold State.xlate at h
  split at h
  · cases h
  · split at h
    · cases h
    · obtain ⟨rfl, -⟩ := Prod.mk.inj (Except.ok.inj h)
      refine State.posts_trans ?_ (State.posts_touch _ _ _)
      exact iteInduction (motive := s.posts) (fun _ => s.posts_refl) (fun _ => ⟨rfl, rfl, rfl⟩)
theorem State.posts_dv {who : Who} {a kind pa : Nat} {acc : Acc} (h : s.dv who a acc kind = .ok (t, pa)) : s.posts t := by
  unfold State.dv at h
  split at h
  · cases h
  · split at h
    · cases h
    next e =>
      split at h
      · cases h
      · cases h
        exact State.posts_xlate e
theorem State.posts_errorMet (s : State) (f hid : Nat) (dva : Word) : s.posts (s.errorMet f hid dva) := by
  unfold State.errorMet
  split <;> exact ⟨rfl, rfl, rfl⟩

/-- A store of the ring that fails meets a soft error, or changes nothing. -/
theorem State.posts_failed {e : Stop} (h : (match (motive := Stop → Option State) e with
    | .trap x => if x.cause = 0x52 then some (s.errorMet 0 0xFFFF x.addr) else none
    | .wait _ => none) = some t) : s.posts t := by
  split at h
  · split at h
    · cases h
      exact s.posts_errorMet _ _ _
    · cases h
  · cases h
theorem State.posts_ringOne {k : Nat} (h : s.ringOne k = some t) : s.posts t := by
  simp only [State.ringOne] at h
  split at h
  · cases h
  · split at h
    · cases h
    · split at h
      · exact State.posts_failed h
      next d1 =>
        split at h
        · exact State.posts_failed h
        next d2 =>
          cases h
          exact State.posts_trans (State.posts_dv d1) (State.posts_trans (State.posts_dv d2) ⟨rfl, rfl, rfl⟩)
theorem State.posts_ringAll (s : State) (k n : Nat) : s.posts (s.ringAll k n) := by
  induction n generalizing s with
  | zero => exact s.posts_refl
  | succ n ih =>
    unfold State.ringAll
    split
    next e => exact State.posts_trans (State.posts_ringOne e) (ih _)
    next => exact s.posts_refl
theorem State.posts_postRecord (s : State) (k : Nat) (r : Record) : s.posts (s.postRecord k r) := by
  have put : s.posts (s.setCoreAt k { s.coreAt k with pend := (s.coreAt k).pend ++ [r] }) := ⟨rfl, rfl, rfl⟩
  unfold State.postRecord
  simp only []
  split
  · exact State.posts_trans put (State.posts_ringAll _ _ _)
  · exact put

/-- A core with no trap ring keeps its records (R128). -/
theorem State.ringAll_noRing {k : Nat} (off : (s.coreAt k).tqbase = 0) (n : Nat) : s.ringAll k n = s := by
  have stuck : s.ringOne k = none := by
    unfold State.ringOne
    simp only [off, decide_true, Bool.true_or, if_true]
    split <;> rfl
  cases n with
  | zero => rfl
  | succ n => rw [State.ringAll, stuck]
theorem State.postRecord_noRing {k : Nat} (off : (s.coreAt k).tqbase = 0) (r : Record) :
    ((s.postRecord k r).coreAt k).pend = (s.coreAt k).pend ++ [r] := by
  have off' : ((s.setCoreAt k { s.coreAt k with pend := (s.coreAt k).pend ++ [r] }).coreAt k).tqbase = 0 := by
    rw [State.coreAt_setCoreAt, off]
  simp only [State.postRecord, State.ringRetry, State.ringAll_noRing off', ite_self, State.coreAt_setCoreAt]

end

/-! ### Late work (O53) -/

section
variable {s u : State} {core hid resv : Nat} {gang : BitVec 16} {rpc : Word}

/-- The record of a notice of late work (R56). -/
def lateRecord (hid : Nat) (gang : BitVec 16) (rpc time : Word) : Record :=
  { cause := 0x51, engine := 7, flags := 8, gang := gang, rpc := rpc, time := time,
    hid := BitVec.ofNat 16 (if 4096 ≤ hid then 0xFFFF else hid) }

/-- A notice breaks a reservation other than 0, and posts its record. -/
theorem State.lateNotice_eq (u : State) (core hid resv : Nat) (gang : BitVec 16) (rpc : Word) :
    ∃ v : State, v = (if resv = 0 then u else u.setRsvAt resv { u.rsvAt resv with brk := true }) ∧
      u.lateNotice core hid resv gang rpc = v.postRecord core (lateRecord hid gang rpc u.time) := ⟨_, rfl, rfl⟩

theorem State.lateNotice_keeps (u : State) (core hid resv : Nat) (gang : BitVec 16) (rpc : Word) :
    u.reaches (u.lateNotice core hid resv gang rpc) ∧ (u.lateNotice core hid resv gang rpc).dev.gangs = u.dev.gangs := by
  obtain ⟨v, hv, e⟩ := u.lateNotice_eq core hid resv gang rpc
  have broken : u.reaches v ∧ v.dev.gangs = u.dev.gangs := by
    rw [hv]
    split <;> exact ⟨rfl, rfl⟩
  obtain ⟨r, -, g⟩ := v.posts_postRecord core (lateRecord hid gang rpc u.time)
  rw [e]
  exact ⟨State.reaches_trans broken.1 r, g.trans broken.2⟩

@[simp] theorem State.harts_lateNotice : (u.lateNotice core hid resv gang rpc).harts = u.harts := by
  rw [(u.lateNotice_keeps core hid resv gang rpc).1]
@[simp] theorem State.hartAt_lateNotice (i : Nat) : (u.lateNotice core hid resv gang rpc).hartAt i = u.hartAt i :=
  State.reaches_hartAt (u.lateNotice_keeps core hid resv gang rpc).1 i
@[simp] theorem State.clusAt_lateNotice (i : Nat) : (u.lateNotice core hid resv gang rpc).clusAt i = u.clusAt i := by
  rw [(u.lateNotice_keeps core hid resv gang rpc).1]
  rfl
@[simp] theorem State.gangAt_lateNotice (g : Nat) : (u.lateNotice core hid resv gang rpc).gangAt g = u.gangAt g :=
  congrArg (fun m : TMap Gang => m.find g) (u.lateNotice_keeps core hid resv gang rpc).2

/-- The notice of work that is marked in a machine is one of the machine before. -/
theorem State.notices_lateNotice (mem : u.mem = s.mem) (cores : u.cores = s.cores) (img : u.img = s.img) (time : u.time = s.time)
    (latent : u.dev.latent = s.dev.latent) : s.notices (u.lateNotice core hid resv gang rpc) core hid resv gang rpc := by
  obtain ⟨v, hv, e⟩ := u.lateNotice_eq core hid resv gang rpc
  obtain ⟨-, rsv, -⟩ := v.posts_postRecord core (lateRecord hid gang rpc s.time)
  have same : v.mem = s.mem ∧ v.cores = s.cores ∧ v.img = s.img ∧ v.dev.latent = s.dev.latent := by
    rw [hv]
    split <;> exact ⟨mem, cores, img, latent⟩
  obtain ⟨vmem, vcores, vimg, vlatent⟩ := same
  have core_eq : v.coreAt core = s.coreAt core := by rw [State.coreAt, State.coreAt, vcores, vimg]
  rw [time] at e
  rw [e]
  refine ⟨fun other => ?_, fun off => ?_, v, vmem, vcores, vlatent, rfl, rfl⟩
  · rw [State.rsvAt, rsv, ← State.rsvAt, hv, if_neg other, State.rsvAt_setRsvAt]
  · rw [State.postRecord_noRing (core_eq ▸ off), core_eq]
    rfl

end

section
variable {now : Nat} {e : Entry}

/-- The copies of a queue gone through in order: once one has been found late and marked, the rest stay as they are. -/
def markLate (now : Nat) (a : List Entry × Bool) (e : Entry) : List Entry × Bool :=
  if !a.2 && e.isLate now then (a.1 ++ [{ e with late := true }], true) else (a.1 ++ [e], a.2)

theorem markLate_done (l a : List Entry) : l.foldl (markLate now) (a, true) = (a ++ l, true) := by
  induction l generalizing a with
  | nil => rw [List.foldl_nil, List.append_nil]
  | cons x l ih => rw [List.foldl_cons, markLate, Bool.not_true, Bool.false_and, if_neg Bool.false_ne_true, ih, List.append_assoc,
      List.singleton_append]
theorem markLate_onTime (l a : List Entry) (on_time : ∀ x ∈ l, x.isLate now = false) :
    l.foldl (markLate now) (a, false) = (a ++ l, false) := by
  induction l generalizing a with
  | nil => rw [List.foldl_nil, List.append_nil]
  | cons x l ih =>
    obtain ⟨hx, hl⟩ := List.forall_mem_cons.mp on_time
    rw [List.foldl_cons, markLate, hx, Bool.and_false, if_neg Bool.false_ne_true, ih _ hl, List.append_assoc, List.singleton_append]
/-- The first copy that is late is marked. -/
theorem markLate_first (l1 l2 : List Entry) (before : ∀ x ∈ l1, x.isLate now = false) (late : e.isLate now = true) :
    ((l1 ++ e :: l2).foldl (markLate now) ([], false)).1 = l1 ++ { e with late := true } :: l2 := by
  rw [List.foldl_append, markLate_onTime l1 [] before, List.foldl_cons, markLate, late, Bool.not_false, Bool.true_and, if_pos rfl,
    markLate_done, List.nil_append, List.append_assoc, List.singleton_append]
theorem find?_isLate (l1 l2 : List Entry) (before : ∀ x ∈ l1, x.isLate now = false) (late : e.isLate now = true) :
    (l1 ++ e :: l2).find? (fun x => x.isLate now) = some e := by
  rw [List.find?_append, List.find?_eq_none.mpr (fun x m => by rw [before x m]; exact Bool.false_ne_true), Option.none_or,
    List.find?_cons_of_pos (p := fun x : Entry => x.isLate now) late]

end

section
variable {s : State} {n : BitVec 11}

theorem deadlineReached_copy {l1 l2 : List Entry} {e : Entry} (cq : (s.hartAt n.toNat).cq = l1 ++ e :: l2)
    (before : ∀ x ∈ l1, x.isLate s.now = false) (late : e.isLate s.now = true) :
    let k := n.toNat
    let h := s.hartAt k
    exec (.deadlineReached n 0) s = .next ((s.setHartAt k { h with cq := l1 ++ { e with late := true } :: l2 }).lateNotice
      (k / 8) k (h.entryResv e) h.gang h.pc) := by
  intro k h
  have found : h.cq.find? (fun x => x.isLate s.now) = some e := by rw [cq]; exact find?_isLate l1 l2 before late
  have any : h.cq.any (fun x => x.isLate s.now) = true := List.any_eq_true.mpr ⟨e, by rw [cq]; simp, late⟩
  have mark : (h.cq.foldl (markLate s.now) ([], false)).1 = l1 ++ { e with late := true } :: l2 := by
    rw [cq]; exact markLate_first l1 l2 before late
  show execDeadlineReached n 0 s = _
  refine (if_pos any).trans ?_
  rw [← mark, found]
  rfl

theorem State.noticeCore_hart {hid : Nat} (g : BitVec 16) (hart : hid < 4096) : s.noticeCore hid g = hid / 8 :=
  if_neg (Nat.not_le.mpr hart)
theorem State.pcOf_hart {hid : Nat} (hart : hid < 4096) : s.pcOf hid = (s.hartAt hid).pc := if_neg (Nat.not_le.mpr hart)

theorem deadlineReached_bay {i : Nat} {b : Bay}
    (found : (s.clusAt n.toNat).bays.find? (fun kb => kb.2.isLate s.now) = some (i, b)) (hart : b.holder < 4096) :
    let k := n.toNat
    exec (.deadlineReached n 1) s = .next ((s.setClusAt k ((s.clusAt k).setBay i { b with late := true })).lateNotice
      (b.holder / 8) b.holder b.resv.toNat b.gang (s.hartAt b.holder).pc) := by
  show execDeadlineReached n 1 s = _
  simp only [execDeadlineReached, BitVec.reduceToNat, found, State.noticeCore_hart b.gang hart, State.pcOf_hart hart]
theorem deadlineReached_work {w : Work} (found : (s.clusAt n.toNat).works.find? (fun w => w.isLate s.now) = some w)
    (hart : w.hid < 4096) :
    let k := n.toNat
    exec (.deadlineReached n 2) s = .next ((s.setClusAt k ((s.clusAt k).setWork { w with late := true })).lateNotice
      (w.hid / 8) w.hid w.resv.toNat w.gang (s.hartAt w.hid).pc) := by
  show execDeadlineReached n 2 s = _
  simp only [execDeadlineReached, BitVec.reduceToNat, found, State.noticeCore_hart w.gang hart, State.pcOf_hart hart]
theorem deadlineReached_launch {g : Nat} {x : Gang}
    (found : s.dev.gangs.find? (fun p => p.2.core == n.toNat && p.2.isLate s.now) = some (g, x)) (hart : x.src < 4096) :
    exec (.deadlineReached n 3) s = .next ((s.setGangAt g { x with late := true }).lateNotice
      n.toNat x.src x.resv.toNat (BitVec.ofNat 16 g) (s.hartAt x.src).pc) := by
  show execDeadlineReached n 3 s = _
  simp only [execDeadlineReached, BitVec.reduceToNat, found, State.pcOf_hart hart]
theorem exec_memLatencyMiss : exec (.memLatencyMiss n) s = execMemLatencyMiss n s := rfl

end

/-- Settles O53: what is late is marked, and the rest of the event is the notice. -/
theorem lateWork : Obligations.LateWork := by
  intro s n k h
  refine ⟨fun l1 e l2 cq before late => ?_, fun i b found holder => ?_, fun w found holder => ?_, fun g x found src => ?_,
    fun r covered => ?_, fun free => ?_⟩
  · refine ⟨_, deadlineReached_copy cq before late, ?_, State.notices_lateNotice rfl rfl rfl rfl rfl⟩
    rw [State.hartAt_lateNotice, State.hartAt_setHartAt]
  · refine ⟨_, deadlineReached_bay found holder, ?_, State.notices_lateNotice rfl rfl rfl rfl rfl⟩
    rw [State.clusAt_lateNotice, State.clusAt_setClusAt]
    simp only [Clus.bay, Clus.setBay, TMap.find_set_same, Option.getD_some]
  · refine ⟨_, deadlineReached_work found holder, ?_, State.notices_lateNotice rfl rfl rfl rfl rfl⟩
    rw [State.clusAt_lateNotice, State.clusAt_setClusAt]
    exact ⟨_, List.mem_map.mpr ⟨w, List.mem_of_find?_eq_some found, if_pos (beq_self_eq_true _)⟩, rfl⟩
  · refine ⟨_, deadlineReached_launch found src, ?_, State.notices_lateNotice rfl rfl rfl rfl rfl⟩
    rw [State.gangAt_lateNotice, State.gangAt_setGangAt]
  · refine ⟨s.lateNotice (k / 8) k r h.gang h.pc, ?_, State.notices_lateNotice rfl rfl rfl rfl rfl, State.harts_lateNotice⟩
    rw [exec_memLatencyMiss, execMemLatencyMiss, covered]
  · rw [exec_memLatencyMiss, execMemLatencyMiss, free]

end Sys2Proof.Machine
end

section
namespace Sys2Proof.Machine

/-! ### Registers and memory (O21) -/

/-- Settles O21: the laws of a register file, and those of byte memory. -/
theorem registersAndMemory : Obligations.RegistersAndMemory :=
  ⟨⟨Hart.reg_s0, Hart.setReg_s0, fun h _ v n => h.reg_setReg_same v n, fun h _ _ v n => h.reg_setReg_other v n⟩,
    fun m a n v => ⟨m.read_write a n v, m.byte_write_other a n v, m.wf_write a n v⟩⟩

end Sys2Proof.Machine
end

section
namespace Sys2Proof.Machine

/-! ### Status registers read back (O10) -/

section
variable {s : State} {hid n : Nat} {v u : Word} {x : Hart}

/-- A status register that is part `f` of a hart reads as that part of the hart that its write leaves. -/
theorem State.readStatus_writeStatus (f : Hart → Word) (writes : s.writeStatus hid n v = s.setHartAt hid x)
    (reads : ∀ t : State, t.readStatus hid n = f (t.hartAt hid)) (value : f x = u) :
    (s.writeStatus hid n v).readStatus hid n = u := by
  rw [writes, reads, State.hartAt_setHartAt, value]

/-- A field of the low bits of a word, read back. -/
theorem ofNat_low_bits {w : Nat} (fits : w ≤ 64) (v : Word) :
    BitVec.ofNat 64 (BitVec.ofNat w v.toNat).toNat = v &&& BitVec.ofNat 64 (2 ^ w - 1) := by
  have small : 2 ^ w ≤ 2 ^ 64 := Nat.pow_le_pow_right (by decide) fits
  have pos : 0 < 2 ^ w := Nat.two_pow_pos w
  refine BitVec.eq_of_toNat_eq ?_
  rw [BitVec.toNat_and, BitVec.toNat_ofNat, BitVec.toNat_ofNat, BitVec.toNat_ofNat, Nat.mod_eq_of_lt (a := 2 ^ w - 1) (by omega),
    Nat.and_two_pow_sub_one_eq_mod, Nat.mod_eq_of_lt ((Nat.mod_lt _ pos).trans_le small)]

/-- One bit of a word is the remainder by 2. -/
theorem b2n_bit (x i : Nat) : b2n (bit x i) = x / 2 ^ i % 2 := by
  unfold b2n bit
  have two := Nat.mod_lt (x / 2 ^ i) (y := 2) (by decide)
  split <;> simp_all

theorem ofNat_bit_zero (v : Word) : BitVec.ofNat 64 (b2n (bit v.toNat 0)) = v &&& 1 := by
  rw [b2n_bit, pow_zero, Nat.div_one]
  exact (congrArg (BitVec.ofNat 64) (BitVec.toNat_ofNat v.toNat 1)).symm.trans (ofNat_low_bits (w := 1) (by decide) v)

/-- mshape holds bits 16:7 (kcnt), 6 (asc) and 0 (afmt) of a word, and no other (R293). -/
theorem and_mshape_mask (x : Nat) : x &&& 0x1FFC1 = x / 2 ^ 7 % 2 ^ 10 * 2 ^ 7 + x / 2 ^ 6 % 2 * 2 ^ 6 + x % 2 := by
  have high : (x &&& 0x1FFC1) / 2 ^ 6 = x / 2 ^ 6 % 2 ^ 11 := by
    rw [Nat.and_div_two_pow]
    exact Nat.and_two_pow_sub_one_eq_mod (x / 2 ^ 6) 11
  have low : (x &&& 0x1FFC1) % 2 ^ 6 = x % 2 ^ 6 % 2 ^ 1 := by
    rw [Nat.and_mod_two_pow]
    exact Nat.and_two_pow_sub_one_eq_mod (x % 2 ^ 6) 1
  omega

theorem mshape_word (v : Word) :
    BitVec.ofNat 64 (MShape.word { kcnt := BitVec.ofNat 10 (v.toNat / 2 ^ 7), asc := bit v.toNat 6, afmt := bit v.toNat 0 }) =
      v &&& 0x1FFC1 := by
  refine BitVec.eq_of_toNat_eq ?_
  have mask : (0x1FFC1 : Word).toNat = 0x1FFC1 := rfl
  rw [BitVec.toNat_and, mask, and_mshape_mask]
  simp only [MShape.word, b2n_bit, BitVec.toNat_ofNat]
  omega

end

/-- Settles O10, register by register: the write replaces a field of the hart, the read gives that field, and a field of fewer
than 64 bits keeps the bits it has. -/
theorem statusReadBack : Obligations.StatusReadBack := by
  intro s v
  refine ⟨?frm, ?rkey, ?rstrm, ?rctr, ?estart, ?rowstart, ?vstrap, ?vwtmo, ?mshape, ?cpcnt, ?smpcnt⟩
  case frm =>
    exact State.readStatus_writeStatus (fun h => BitVec.ofNat 64 h.frm.toNat) rfl (fun _ => rfl)
      (ofNat_low_bits (by decide) v)
  case rkey => exact State.readStatus_writeStatus Hart.rkey rfl (fun _ => rfl) rfl
  case rstrm => exact State.readStatus_writeStatus Hart.rstrm rfl (fun _ => rfl) rfl
  case rctr => exact State.readStatus_writeStatus Hart.rctr rfl (fun _ => rfl) rfl
  case estart =>
    exact State.readStatus_writeStatus (fun h => BitVec.ofNat 64 h.vec.estart.toNat) rfl (fun _ => rfl)
      (ofNat_low_bits (by decide) v)
  case rowstart =>
    exact State.readStatus_writeStatus (fun h => BitVec.ofNat 64 h.vec.rowstart.toNat) rfl (fun _ => rfl)
      (ofNat_low_bits (by decide) v)
  case vstrap =>
    exact State.readStatus_writeStatus (fun h => BitVec.ofNat 64 (b2n h.vec.strap)) rfl (fun _ => rfl) (ofNat_bit_zero v)
  case vwtmo =>
    exact State.readStatus_writeStatus (fun h => BitVec.ofNat 64 h.vec.vwtmo.toNat) rfl (fun _ => rfl)
      (ofNat_low_bits (by decide) v)
  case mshape => exact State.readStatus_writeStatus (fun h => BitVec.ofNat 64 h.mshape.word) rfl (fun _ => rfl) (mshape_word v)
  case cpcnt => exact State.readStatus_writeStatus Hart.cpcnt rfl (fun _ => rfl) rfl
  case smpcnt => exact State.readStatus_writeStatus (fun h => h.smp.cnt) rfl (fun _ => rfl) rfl

end Sys2Proof.Machine
end

section
namespace Sys2Proof.Machine

/-! ### Status moves (O9) -/

/-! #### What a move looks at, once its `pfx` has been taken up -/

@[simp] theorem State.begun_queue (s : State) (e : Eng) : s.begun.hart.queue e = s.hart.queue e := by
  cases e
  case v => exact s.begun_vq
  case m => exact s.begun_mq
  case c => exact s.begun_cq
  case s => rfl
@[simp] theorem State.begun_allQueue (s : State) (e : Eng) : s.begun.hart.allQueue e = s.hart.allQueue e := by
  simp only [Hart.allQueue, Hart.banked, State.begun_surr, State.begun_queue]
@[simp] theorem State.begun_flagsBusy (s : State) : s.begun.hart.flagsBusy = s.hart.flagsBusy := by
  simp only [Hart.flagsBusy, State.begun_allQueue, State.begun_mq]
@[simp] theorem State.begun_unsettled (s : State) : s.begun.hart.unsettled = s.hart.unsettled :=
  congrArg (fun l : List SAcc => l.any SAcc.risky) s.begun_ss
@[simp] theorem State.begun_xinvBusy (s : State) (core : Nat) (v : Word) : s.begun.xinvBusy core v = s.xinvBusy core v := by
  simp only [State.xinvBusy, State.gangAt, State.begun_dev]
@[simp] theorem State.begun_coreNo (s : State) : s.begun.coreNo = s.coreNo := congrArg (· / 8) s.begun_cur

/-! #### The causes of R70 -/

section
variable {n : Nat} {sup : Bool}

theorem statusEarly_unlisted (unlisted : statusAccess n = none) : statusEarly sup n = some 0x02 := by
  rw [statusEarly, unlisted]
theorem statusEarly_user (su : statusAccess n = some .suRo ∨ statusAccess n = some .suRw) : statusEarly false n = some 0x05 := by
  rw [statusEarly]
  obtain su | su := su <;> rw [su] <;> rfl
theorem statusEarly_readOnly (ro : statusAccess n = some .ro ∨ (statusAccess n = some .suRo ∧ sup = true)) :
    statusEarly sup n = none := by
  rw [statusEarly]
  obtain ro | ⟨su, rfl⟩ := ro
  · rw [ro]
  · rw [su]; rfl
theorem statusLate_readOnly (ro : statusAccess n = some .ro ∨ statusAccess n = some .suRo) : statusLate n = some 0x06 := by
  rw [statusLate]
  obtain ro | ro := ro <;> rw [ro]

/-- No table gives a user hart a register from 0x700 to 0x7FF. -/
theorem statusAccess_supervisorRange (listed : statusAccess n ≠ none) (lo : 0x700 ≤ n) (hi : n ≤ 0x7FF) :
    statusAccess n = some .suRo ∨ statusAccess n = some .suRw := by
  have outside : ∀ k ∈ roStatus ++ rwStatus, ¬(0x700 ≤ k ∧ k ≤ 0x7FF) := by decide
  have notRo : ¬roStatus.contains n = true := fun m =>
    outside n (List.mem_append_left _ (List.contains_iff_mem.mp m)) ⟨lo, hi⟩
  have notRw : ¬rwStatus.contains n = true := fun m =>
    outside n (List.mem_append_right _ (List.contains_iff_mem.mp m)) ⟨lo, hi⟩
  unfold statusAccess at listed ⊢
  rw [if_neg notRo, if_neg notRw] at listed ⊢
  by_cases suRo : suRoStatus.contains n = true
  · exact .inl (if_pos suRo)
  · rw [if_neg suRo] at listed ⊢
    by_cases suRw : suRwStatus.contains n = true
    · exact .inr (if_pos suRw)
    · exact absurd (if_neg suRw) listed

end

section
variable {s : State} {d a r : BitVec 5} {n : BitVec 12} {c : BitVec 8}

/-- A cause that is looked for after the `pfx` word has been found to fit (R88). -/
theorem State.frame_late {body : State → Except Stop (State × After)}
    (ok : ∀ w took, s.hart.pfx = some (w, took) → pfxMisuse w .s false false = false) :
    s.frame none (some c) body = s.trapSeq ⟨c, 0⟩ := by
  unfold State.frame
  refine if_neg ?_
  cases p : s.hart.pfx with
  | none => exact Bool.false_ne_true
  | some q => exact Bool.eq_false_iff.mp (ok q.1 q.2 p)

/-- A cause that the number of a status register gives is raised by both moves, before the `pfx` word is looked at. -/
theorem exec_moves_early (early : statusEarly s.hart.sup n.toNat = some c) :
    exec (.mfs r n) s = .next (s.trapSeq ⟨c, 0⟩) ∧ exec (.mts r n) s = .next (s.trapSeq ⟨c, 0⟩) := by
  show execMfs r n s = _ ∧ execMts r n s = _
  rw [execMfs, execMts, early]
  exact ⟨rfl, rfl⟩

theorem exec_mts_late (early : statusEarly s.hart.sup n.toNat = none) (late : statusLate n.toNat = some c)
    (ok : ∀ w took, s.hart.pfx = some (w, took) → pfxMisuse w .s false false = false) :
    exec (.mts r n) s = .next (s.trapSeq ⟨c, 0⟩) := by
  show execMts r n s = _
  rw [execMts, early, late, State.frame_late ok]

/-- An instruction of the supervisor that takes no `pfx` (R69). -/
theorem State.superBare_user {body : State → Except Stop State} (user : s.hart.sup = false) :
    s.superBare body = s.trapSeq ⟨0x05, 0⟩ := by
  rw [State.superBare, user]
  rfl

/-- The supervisor's instructions are looked at first for the hart they run on (R69, R88). -/
theorem exec_supervisor_user {i : Instr} (su : (∃ d a, i = .glaunch d a) ∨ (∃ a, i = .hsusp a) ∨ (∃ b a, i = .hsave b a) ∨
    (∃ b a, i = .hload b a) ∨ i = .tret) (user : s.hart.sup = false) : exec i s = .next (s.trapSeq ⟨0x05, 0⟩) := by
  obtain ⟨d, a, rfl⟩ | ⟨a, rfl⟩ | ⟨b, a, rfl⟩ | ⟨b, a, rfl⟩ | rfl := su
  case inl =>
    show execGlaunch d a s = _
    rw [execGlaunch, State.glaunch, user]
    rfl
  all_goals exact congrArg Host.Outcome.next (State.superBare_user user)

/-! #### Where a move takes effect (R110, R99) -/

/-- A move of an engine's order that nothing stands ahead of, and that a hart can go back over or need not, is made at once. -/
theorem moveBody_now {e : Eng} {t : State} {en : Entry} (empty : t.hart.queue e = [])
    (free : e = .s ∨ en.onlyReads = true ∨ t.hart.unsettled = false) :
    moveBody e t en = .ok (moveAct false en t.cur t, .retire) := by
  refine if_pos ?_
  rw [empty]
  obtain rfl | reads | settled := free
  · rfl
  · rw [reads]; simp
  · rw [settled]; simp

/-- Behind an access that can still trap, a move that a hart could not go back over takes its place in the queue. -/
theorem moveBody_queued {e : Eng} {t : State} {en : Entry} (empty : t.hart.queue e = []) (engine : e ≠ .s)
    (writes : en.onlyReads = false) (unsettled : t.hart.unsettled = true) (room : t.hart.moveWait e en.instr = none) :
    moveBody e t en = .ok (t.setHart { t.hart.setQueue e [en] with seq := t.hart.seq + 1 }, .queue) := by
  have waits : ¬((t.hart.queue e).isEmpty && (e == .s || en.onlyReads || !t.hart.unsettled)) = true := by
    simp [engine, writes, unsettled]
  refine (if_neg waits).trans ?_
  simp only [room, empty, List.nil_append]

/-- The queue of an engine holds what it has been given, once the instruction is over, and the rest of the hart that a program
sees is as it was. -/
theorem Hart.advance_setQueue {e : Eng} (engine : e ≠ .s) (h : Hart) (l : List Entry) (m : Nat) :
    let k := Hart.advance { h.setQueue e l with seq := m }
    k.queue e = l ∧ k.regs = h.regs ∧ k.pc = (h.pc + 4) &&& pcMask := by
  cases e
  case s => exact absurd rfl engine
  all_goals simp only [Hart.setQueue, Hart.queue, Hart.advance_vq, Hart.advance_mq, Hart.advance_cq, Hart.advance_regs,
    Hart.advance_pc, and_self]

/-- A move that is not of fflags, or finds no instruction it waits for, does not wait (R71). -/
theorem State.begun_flagsPass (flags : n = 0x010 → s.hart.flagsBusy = false) :
    ¬(decide (n = 0x010) && s.begun.hart.flagsBusy) = true := by
  rw [State.begun_flagsBusy]
  exact Bool.eq_false_iff.mp (Bool.and_eq_false_imp.mpr fun e => flags (of_decide_eq_true e))
/-- A move that is not to xinv, or finds every request performed, does not wait (R159). -/
theorem State.begun_xinvPass (xinv : n = 0x722 → s.xinvBusy s.coreNo (s.reg a) = false) :
    ¬(decide (n = 0x722) && s.begun.xinvBusy s.begun.coreNo (s.begun.reg a)) = true := by
  rw [State.begun_xinvBusy, State.begun_coreNo, State.begun_reg]
  exact Bool.eq_false_iff.mp (Bool.and_eq_false_imp.mpr fun e => xinv (of_decide_eq_true e))

/-- Where the checks of R70 find nothing and no wait of fflags is due, mfs is the move it makes. -/
theorem exec_mfs_body (early : statusEarly s.hart.sup n.toNat = none) (flags : n = 0x010 → s.hart.flagsBusy = false) :
    ∃ body, exec (.mfs d n) s = .next (s.frame none none body) ∧
      body s.begun = moveBody (statusEng n.toNat) s.begun (s.begun.mkEntry (.mfs d n) 0 0) :=
  ⟨_, congrArg (fun c => Host.Outcome.next (s.frame c none _)) early, if_neg (State.begun_flagsPass flags)⟩

/-- The same for mts, where no wait of xinv is due either. -/
theorem exec_mts_body (early : statusEarly s.hart.sup n.toNat = none) (late : statusLate n.toNat = none)
    (flags : n = 0x010 → s.hart.flagsBusy = false) (xinv : n = 0x722 → s.xinvBusy s.coreNo (s.reg a) = false) :
    ∃ body, exec (.mts a n) s = .next (s.frame none none body) ∧
      body s.begun = moveBody (statusEng n.toNat) s.begun (s.begun.mkEntry (.mts a n) (s.reg a) 0) := by
  refine ⟨_, congrArg₂ (fun c l => Host.Outcome.next (s.frame c l _)) early late,
    (if_neg (State.begun_flagsPass flags)).trans ((if_neg (State.begun_xinvPass xinv)).trans ?_)⟩
  rw [State.begun_reg]

section
variable (f : s.hart.prefixFits .s false false = true) (early : statusEarly s.hart.sup n.toNat = none)
  (flags : n = 0x010 → s.hart.flagsBusy = false) (empty : s.hart.queue (statusEng n.toNat) = [])
include f early flags empty

theorem exec_mfs_now : exec (.mfs d n) s = .next
      ((s.begun.setHartAt s.cur (s.begun.hart.setReg d (s.begun.readStatus s.cur n.toNat))).retired (pushOf s.hart.pfx)) := by
  obtain ⟨body, e, b⟩ := exec_mfs_body (d := d) early flags
  rw [moveBody_now ((s.begun_queue _).trans empty) (.inr (.inl rfl))] at b
  rw [e, State.frame_retire f b, ← State.begun_cur s]
  rfl

variable (late : statusLate n.toNat = none) (xinv : n = 0x722 → s.xinvBusy s.coreNo (s.reg a) = false)
include late xinv

theorem exec_mts_now (free : statusEng n.toNat = .s ∨ s.hart.unsettled = false) :
    exec (.mts a n) s = .next ((s.begun.writeStatus s.cur n.toNat (s.reg a)).retired (pushOf s.hart.pfx)) := by
  obtain ⟨body, e, b⟩ := exec_mts_body early late flags xinv
  rw [moveBody_now ((s.begun_queue _).trans empty) (free.imp_right fun settled => .inr (s.begun_unsettled.trans settled))] at b
  rw [e, State.frame_retire f b, ← State.begun_cur s]
  rfl

/-- A write of an engine's order behind an access that can still trap stands in the engine's queue (R99; log 26). -/
theorem exec_mts_queued (engine : statusEng n.toNat ≠ .s) (unsettled : s.hart.unsettled = true)
    (room : s.hart.moveWait (statusEng n.toNat) (.mts a n) = none) :
    let en := s.begun.mkEntry (.mts a n) (s.reg a) 0
    let k := s.begun.hart
    exec (.mts a n) s = .next (s.begun.setHart
      (Hart.advance { k.setQueue (statusEng n.toNat) [en] with seq := k.seq + 1 })) := by
  have room' : s.begun.hart.moveWait (statusEng n.toNat) (.mts a n) = none := by
    simp only [Hart.moveWait, changeOf, State.begun_queue] at room ⊢
    exact room
  obtain ⟨body, e, b⟩ := exec_mts_body early late flags xinv
  rw [moveBody_queued ((s.begun_queue _).trans empty) engine rfl (s.begun_unsettled.trans unsettled) room'] at b
  simp only [e, State.frame_fits body f, b, State.hart_setHart, State.setHart_setHart]

end
end

/-- Settles O9: a move that passes the checks of R70 is made at once or stands in its engine's queue; the checks end in their
causes, and the supervisor's instructions in theirs. -/
theorem statusMoves : Obligations.StatusMoves := by
  refine ⟨fun d n s f early flags empty => exec_mfs_now f early flags empty,
    fun a n s f early late flags xinv empty => ⟨exec_mts_now f early flags empty late xinv, fun engine unsettled room => ?queued⟩,
    fun r n s => ⟨fun unlisted => exec_moves_early (statusEarly_unlisted unlisted), fun su user => ?user,
      fun ro ok => ?readOnly⟩,
    fun i s su user => exec_supervisor_user su user⟩
  case queued =>
    let en := s.begun.mkEntry (.mts a n) (s.reg a) 0
    obtain ⟨queue, regs, pc⟩ := Hart.advance_setQueue engine s.begun.hart [en] (s.begun.hart.seq + 1)
    refine ⟨_, en, exec_mts_queued f early flags empty late xinv engine unsettled room, ?_, rfl, rfl, ?_, ?_, ?_⟩
    · rw [State.hart_setHart, queue]
    · rw [State.hart_setHart, regs, State.begun_regs]
    · rw [State.setHart_mem, State.begun_mem]
    · rw [State.hart_setHart, pc, State.begun_pc]
  case user =>
    have listed : statusAccess n.toNat = some .suRo ∨ statusAccess n.toNat = some .suRw := by
      obtain suRo | suRw | ⟨listed, lo, hi⟩ := su
      · exact .inl suRo
      · exact .inr suRw
      · exact statusAccess_supervisorRange listed lo hi
    exact exec_moves_early (user ▸ statusEarly_user listed)
  case readOnly => exact exec_mts_late (statusEarly_readOnly ro) (statusLate_readOnly (ro.imp_right And.left)) ok

end Sys2Proof.Machine
end
